-- ==== Sys2Proof/Word.lean ====
section
/-! DEFINITION. The word types of the link: bytes and the three kinds of set it carries as bits (R179). -/

namespace Sys2Proof

/-- One byte on the serial link (R166). -/
abbrev Byte := BitVec 8

/-- One of the 32 rows. The spec numbers rows 1 to 32; row n is the index n − 1, which is also its bit in a
set of rows (R179). -/
abbrev RowId := Fin 32

/-- A set of rows: row n is a member when bit n − 1 is 1 (R179). -/
abbrev RowSet := BitVec 32

/-- A set of the 16 sub-squares of a cell: (i, j) is a member when bit 4 × j + i is 1 (R179). -/
abbrev SubSet := BitVec 16

/-- A set of the thirteen event kinds: kind k is a member when bit k − 1 is 1 (R179). -/
abbrev EventSet := BitVec 13

/-- A code of the analog converter, 0 to 4095 (R124). -/
abbrev AdcCode := BitVec 12

end Sys2Proof
end

