-- ==== Sys2Proof/Syntax.lean ====
section
/-! DEFINITION. The commands: one constructor for each row of spec/opcode_table.json. A command or frame row
carries the frame's bytes as the link delivers them, so that every length check, range check and the check byte
belong to its meaning. -/

namespace Sys2Proof

/-- The level of the work switch input, and the work switch state (R43). -/
inductive SwitchLevel where
  | lowered
  | lifted
deriving DecidableEq, Repr

/-- A COMMAND frame less its header and length byte: the payload and the check byte as received. The command
code in the header is fixed by the table's row, and the length byte is the payload's length. -/
structure Cmd where
  payload : List Byte
  check : Byte
deriving DecidableEq, Repr

/-- A frame of another class: the header's low five bits, which are not examined but are under the check byte
(R167, R179), the payload and the check byte as received. -/
structure Frame where
  low : BitVec 5
  payload : List Byte
  check : Byte
deriving DecidableEq, Repr

/-- The steps of the part, one for each row of the opcode table. -/
inductive Instr where
  -- the power-on reset pin (R178)
  | powerOnResetAssert
  | powerOnResetRelease
  -- frames that are no command (R166 to R169)
  | malformedFrame (bytes : List Byte)
  | statusFrame (f : Frame)
  | fixFrame (f : Frame)
  -- motion events (R31, R34, R36, R43)
  | staleTimerExpiry
  | lostTimerExpiry
  | groundSpeedPulse
  | speedWindowEnd
  | workSwitchLevelChange (level : SwitchLevel)
  | workSwitchChange
  -- seed flight events of one row (R104 to R120)
  | holeEvent (row : RowId)
  | sensedSeed (row : RowId)
  | occlusionEnd (row : RowId)
  | occlusionTimerExpiry (row : RowId)
  | entryExpiry (row : RowId)
  | stallTimerExpiry (row : RowId)
  | syntheticHoleEvent (row : RowId)
  | syntheticSensedSeed (row : RowId)
  -- the conversion in flight completes with a code (R124, R126)
  | conversionComplete (code : AdcCode)
  -- record transfer and its timers (R140, R164, R168, R172)
  | dataFrame (f : Frame)
  /-- `after` counts the byte times clocked after the frame's check byte, in which a reply is shifted out. -/
  | fetchFrame (f : Frame) (after : Nat)
  | dataTimeout
  | scbReadStep
  -- commands (R171 to R188)
  | badCommand (code : BitVec 5) (c : Cmd)
  | idn (c : Cmd)
  | abrt (c : Cmd)
  | rstr (c : Cmd)
  | seti (c : Cmd)
  | setrConfigure (c : Cmd)
  | setrRemove (c : Cmd)
  | sete (c : Cmd)
  | setf (c : Cmd)
  | strtField (c : Cmd)
  | strtShadow (c : Cmd)
  | stop (c : Cmd)
  | prim (c : Cmd)
  | setl (c : Cmd)
  | ldc (c : Cmd)
  | pchSeedTarget (c : Cmd)
  | pchFertTarget (c : Cmd)
  | pchNoApply (c : Cmd)
  | mrgAdd (c : Cmd)
  | mrgRemove (c : Cmd)
  | qryExact (c : Cmd)
  | qryNext (c : Cmd)
  | rtc (c : Cmd)
  | swp (c : Cmd)
  | rms (c : Cmd)
  | scb (c : Cmd)
  | rss (c : Cmd)
  | eve (c : Cmd)
  | ack (c : Cmd)
  | rhc (c : Cmd)
  | rrw (c : Cmd)
  | rmo (c : Cmd)
deriving DecidableEq, Repr

end Sys2Proof
end

