-- ==== Sys2Proof/Machine/State.lean ====
section
/-! DEFINITION. The state of the part as plain data: every piece of state the spec names, block by block,
the model's own fields, and the state after power-on. -/

namespace Sys2Proof.Machine

/-! ## Settings (R174) -/

/-- The cell side (R1). -/
inductive CellSide where
  | cm100
  | cm200
  | cm400
deriving DecidableEq, Repr

/-- The speed source, configured (R27) or effective (R38). -/
inductive SpeedSource where
  | pulse
  | fix
deriving DecidableEq, Repr

/-- The speed filter (R27, R35). -/
inductive SpeedFilter where
  | off
  | light
  | heavy
deriving DecidableEq, Repr

/-- The fix loss policy (R27, R86). -/
inductive LossPolicy where
  | keep
  | stop
deriving DecidableEq, Repr

/-- The seventeen implement settings, in field number order (R174). -/
structure Settings where
  cellSide : CellSide
  speedSource : SpeedSource
  fallback : Bool
  pulsesPer100m : Nat
  filter : SpeedFilter
  holdTime : Nat
  lostLimit : Nat
  lossPolicy : LossPolicy
  seedLatency : Nat
  fertLatency : Nat
  seedOverlap : Bool
  fertOverlap : Bool
  primeSpeed : Nat
  transitLimit : Nat
  blockageRun : Nat
  recovery : Nat
  stallTime : Nat
deriving DecidableEq, Repr

/-! ## The Cell Store (R4 to R26, R157 to R162) -/

/-- The two products metered on a row. -/
inductive Product where
  | seed
  | fert
deriving DecidableEq, Repr

/-- A cell key (R2). -/
structure Key where
  cx : Int
  cy : Int
deriving DecidableEq, Repr

/-- A sub-square of a cell by column and row, each 0 to 3 (R3). -/
structure Sub where
  i : Nat
  j : Nat
deriving DecidableEq, Repr

/-- The coverage of one product in one record, read as two sets of sub-squares (R5). -/
structure Coverage where
  fresh : SubSet
  settled : SubSet
deriving DecidableEq, Repr

/-- The coverage state of one sub-square (R5). -/
inductive Cover where
  | uncovered
  | fresh
  | settled
deriving DecidableEq, Repr

/-- How the stored bits of a payload stand against the bits last written (R157). -/
inductive StoredBits where
  | clean
  | oneFlipped
  | twoFlipped
deriving DecidableEq, Repr

/-- The payload of a record (R4): the values as last written, and the condition of the storage they lie in. -/
structure Payload where
  seedTarget : Nat
  fertTarget : Nat
  noApply : Bool
  seedCov : Coverage
  fertCov : Coverage
  placed : Nat
  skips : Nat
  extras : Nat
  applied : Nat
  bits : StoredBits
deriving DecidableEq, Repr

/-- A cell record (R4). The poisoned form is the record whose payload is absent (R7). The reference count is
derived (R14): `State.refCount`. -/
structure Record where
  key : Key
  payload : Option Payload
deriving DecidableEq, Repr

/-- The Cell Store: the records in ascending key order (R8), the miss set with its *incomplete* indicator (R17)
and the storage status (R162). -/
structure Store where
  records : List Record
  misses : List Key
  incomplete : Bool
  correctedSeen : Bool
  firstKey : Option Key
  poisonedCount : Nat
deriving DecidableEq, Repr

/-! ## The Motion Unit (R27 to R46) -/

/-- The quality of a fix (R181). -/
inductive Quality where
  | none
  | autonomous
  | corrected
  | precise
deriving DecidableEq, Repr

/-- A fix record (R181). -/
structure Fix where
  e : Int
  n : Int
  hE : Int
  hN : Int
  omega : Int
  speed : Nat
  quality : Quality
deriving DecidableEq, Repr

/-- The fix states (R31). -/
inductive FixState where
  | noFix
  | current
  | stale
  | lost
deriving DecidableEq, Repr

/-- The pulse speed states (R36). -/
inductive PulseState where
  | active
  | holding
  | silent
deriving DecidableEq, Repr

/-- The Motion Unit. `fixTimers` holds the moment of the last acceptance while the stale and lost timers run
from it, and `switchSince` the moment from which a new work switch level is being timed. -/
structure Motion where
  fix : Option Fix
  fixState : FixState
  fixTimers : Option Nat
  pulses : Nat
  windowStart : Nat
  filtered : Nat
  pulseState : PulseState
  zeroRun : Nat
  pulseRun : Nat
  silenceReported : Bool
  source : SpeedSource
  vRef : Nat
  yawRef : Int
  switch : SwitchLevel
  switchSince : Option Nat
deriving DecidableEq, Repr

/-! ## The Row Engine (R47 to R100) -/

/-- A point of a row in the field frame (R55). -/
structure Point where
  e : Int
  n : Int
deriving DecidableEq, Repr

/-- What a lane sees at its look-ahead point (R59). -/
inductive ViewOutcome where
  | found
  | poisoned
  | missing
  | noPoint
deriving DecidableEq, Repr

/-- A lane view (R59). -/
structure LaneView where
  outcome : ViewOutcome
  target : Nat
  fallback : Bool
  noApply : Option Bool
  cover : Option Cover
  key : Option Key
deriving DecidableEq, Repr

/-- The held reasons, in the order they are tried (R84, R85). -/
inductive HeldReason where
  | noPosition
  | noApply
  | covered
  | zeroRate
  | noPrescription
deriving DecidableEq, Repr

/-- The states of a lane that is not priming (R84). -/
inductive LaneState where
  | parked
  | running
  | held (reason : HeldReason)
deriving DecidableEq, Repr

/-- The states of a seed lane (R84): PRIMING with the remaining hole count (R95), or a state it shares with a
fertiliser lane. -/
inductive SeedState where
  | priming (remaining : Nat)
  | lane (state : LaneState)
deriving DecidableEq, Repr

/-- A row context (R47). -/
structure RowContext where
  lat : Int
  fa : Nat
  width : Nat
  holes : Nat
  sMax : Nat
  channel : Option Nat
  zeroCode : Nat
  fullScale : Nat
  valveFull : Nat
  enabled : Bool
deriving DecidableEq, Repr

/-- The seed lane of a row: its look-ahead point and that point's previous cell (R10, R16), view (R59), state
(R84), results (R64) and the value its meter drive port carries (R90). -/
structure SeedLane where
  point : Option Point
  prevCell : Option Key
  view : LaneView
  state : SeedState
  q : Nat
  s : Nat
  limited : Bool
  drive : Nat
deriving DecidableEq, Repr

/-- The Flow Scanner's state of one row with a fertiliser channel (R122). -/
structure FlowState where
  lastFlow : Nat
  prevTime : Option Nat
  trim : Int
  railRun : Nat
  inRun : Nat
  lowRun : Nat
  sensorFault : Bool
  noFlow : Bool
  estimated : Bool
deriving DecidableEq, Repr

/-- The fertiliser lane of a row with a channel: its look-ahead point with the previous cell, the drop point,
view, state, results (R64), the duty its valve output carries (R91) and the Flow Scanner's state. -/
structure FertLane where
  look : Option Point
  prevCell : Option Key
  drop : Option Point
  view : LaneView
  state : LaneState
  f : Nat
  ff : Nat
  duty : Nat
  limited : Bool
  valve : Nat
  flow : FlowState
deriving DecidableEq, Repr

/-- An entry of an in-flight queue (R103); the target *none* is `none`. -/
structure Entry where
  release : Nat
  deadline : Nat
  target : Option (Key × Sub)
deriving DecidableEq, Repr

/-- An outcome of the outcome window (R101). -/
inductive Seen where
  | matched
  | skip
deriving DecidableEq, Repr

/-- The level of a seed tube sensor line (R101). -/
inductive Line where
  | clear
  | occluded
deriving DecidableEq, Repr

/-- The Seed Flight Monitor's state of one configured row (R101). The timers hold the moment they run out. -/
structure Flight where
  queue : List Entry
  skipRun : Nat
  window : List Seen
  blocked : Bool
  stuck : Bool
  stalled : Bool
  overflowSeen : Bool
  underflowSeen : Bool
  line : Line
  occlusionDue : Option Nat
  stallDue : Option Nat
  synth : Nat
deriving DecidableEq, Repr

/-- A configured row: its context (R47), row speed (R53), lanes and flight state. A row has a fertiliser lane
when it has a channel. -/
structure Row where
  ctx : RowContext
  vr : Nat
  seed : SeedLane
  fert : Option FertLane
  sfm : Flight
deriving DecidableEq, Repr

/-- The Row Engine: the 32 rows, unconfigured or configured (R47), and the fallback targets (R61). -/
structure Engine where
  rows : Vector (Option Row) 32
  seedFallback : Nat
  fertFallback : Nat
deriving DecidableEq, Repr

/-! ## The Flow Scanner, the Event Unit and the input pins -/

/-- The conversion in flight: its row and start time (R122). -/
structure Conversion where
  row : RowId
  start : Nat
deriving DecidableEq, Repr

/-- The scanner part of the Flow Scanner (R122). The scan list is derived: `State.scanList`. -/
structure Scanner where
  scanning : Bool
  inFlight : Option Conversion
  position : Option RowId
deriving DecidableEq, Repr

/-- The thirteen event kinds, in the order of their numbers (R182). -/
inductive Kind where
  | done
  | health
  | miss
  | storageCorrected
  | storageUncorrectable
  | fixStale
  | fixLost
  | fixRejected
  | speedSilent
  | speedFallback
  | switched
  | linkCheck
  | rateLimit
deriving DecidableEq, Repr

/-- The Event Unit (R182 to R186). -/
structure Events where
  pending : EventSet
  enabled : EventSet
  changed : RowSet
  attention : Bool
deriving DecidableEq, Repr

/-- The levels of the input lines that a restart samples (R44, R115). -/
structure Pins where
  switch : SwitchLevel
  seedLines : Vector Line 32
deriving DecidableEq, Repr

/-! ## The Command Unit and the Link Interface (R166 to R178) -/

/-- The device mode (R80). -/
inductive Mode where
  | idle
  | field
  | shadow
deriving DecidableEq, Repr

/-- The keep rectangle of SWP (R151). -/
structure KeepRect where
  cxMin : Int
  cxMax : Int
  cyMin : Int
  cyMax : Int
deriving DecidableEq, Repr

/-- What SWP holds for its whole length (R151). -/
structure Sweep where
  rect : KeepRect
  most : Nat
  last : Option Key
  retired : Nat
  kept : Nat
  offered : Option Key
deriving DecidableEq, Repr

/-- The command in progress with its progress items (R170): none (IDLE), LDC in DATA IN (R139), SWP in DATA OUT
(R151), SCB in EXECUTING (R164; `due` is the moment of the next read step), PRIM in EXECUTING (R95). -/
inductive Progress where
  | idle
  | ldc (n loaded : Nat) (clamped : Bool)
  | swp (w : Sweep)
  | scb (position : Option Key) (verified due : Nat)
  | prim (named still stalled : RowSet)
deriving DecidableEq, Repr

/-- The fifteen completion codes, in the order of their values (R173). -/
inductive Code where
  | ok
  | clamped
  | badCommand
  | badLength
  | badValue
  | wrongMode
  | notReady
  | storeNotEmpty
  | duplicateKey
  | tableFull
  | notFound
  | referenced
  | poisoned
  | aborted
  | timedOut
deriving DecidableEq, Repr

/-- A completion record (R173). -/
structure Completion where
  code : Code
  field : Nat
  count1 : Nat
  count2 : Nat
  key : Option Key
  payload : List Byte
deriving DecidableEq, Repr

/-- The Command Unit (R170, R173). `dataDue` is the moment the data timer runs out (R172). -/
structure Commander where
  progress : Progress
  dataDue : Option Nat
  completion : Option Completion
  error : Bool
  mode : Mode
  settingsValid : Bool
deriving DecidableEq, Repr

/-- The Link Interface: the frame in assembly (R166), REJECTED (R169) and the bytes the data out line carried in
the last frame. -/
structure Link where
  assembly : List Byte
  rejected : Bool
  dataOut : List Byte
deriving DecidableEq, Repr

/-- A storage upset still to come (assumption log, entry 3): the record it hits and what it leaves of the
stored bits. -/
structure Upset where
  key : Key
  bits : StoredBits
deriving DecidableEq, Repr

/-! ## The state -/

/-- The state of the part. `pending` is the queue of commands that wait; `now`, `upsets` and `choices` are the
model's own (assumption log, entries 1, 3 and 7); every other field is the spec's. -/
structure State where
  pending : List Instr
  now : Nat
  inReset : Bool
  pins : Pins
  lnk : Link
  cmu : Commander
  settings : Settings
  cst : Store
  mot : Motion
  ren : Engine
  fsc : Scanner
  evu : Events
  upsets : List (List Upset)
  choices : Nat
deriving DecidableEq, Repr

/-- The ways the machine stops with a fault. There are none: the spec reports every error as a next state
(a completion code, an event, a health condition, a poisoned record or the REJECTED flag). -/
inductive Fault where
deriving DecidableEq, Repr

/-- The ways the machine refuses a command. -/
inductive Refusal where
  /-- Raised by a dispatch arm without a meaning; safe, since nothing can be proved of a next state. No arm
  of this model raises it. -/
  | notModelled (mnemonic : String)
deriving DecidableEq, Repr

/-! ## After power-on -/

/-- The defaults of the implement settings (R174). -/
def Settings.default : Settings where
  cellSide := .cm200
  speedSource := .pulse
  fallback := true
  pulsesPer100m := 13000
  filter := .light
  holdTime := 1000
  lostLimit := 5000
  lossPolicy := .stop
  seedLatency := 300
  fertLatency := 500
  seedOverlap := true
  fertOverlap := true
  primeSpeed := 250
  transitLimit := 250
  blockageRun := 24
  recovery := 28
  stallTime := 2000

/-- The Cell Store after power-on (R26, R162). -/
def Store.empty : Store where
  records := []
  misses := []
  incomplete := false
  correctedSeen := false
  firstKey := none
  poisonedCount := 0

/-- The Motion Unit after power-on (R44) with the work switch sampled as `level` and the first speed window
beginning at `now`. -/
def Motion.powerOn (level : SwitchLevel) (now : Nat) : Motion where
  fix := none
  fixState := .noFix
  fixTimers := none
  pulses := 0
  windowStart := now
  filtered := 0
  pulseState := .silent
  zeroRun := 0
  pulseRun := 0
  silenceReported := false
  source := .pulse
  vRef := 0
  yawRef := 0
  switch := level
  switchSince := none

/-- The Row Engine after power-on (R47, R61, R63): every row unconfigured. -/
def Engine.empty : Engine where
  rows := Vector.replicate 32 none
  seedFallback := 0
  fertFallback := 0

/-- The Flow Scanner after power-on (R136), after RSTR and after STOP. -/
def Scanner.stopped : Scanner where
  scanning := false
  inFlight := none
  position := none

/-- The Event Unit after power-on (R189): all thirteen kinds enabled. -/
def Events.powerOn : Events where
  pending := 0
  enabled := BitVec.allOnes 13
  changed := 0
  attention := false

/-- The Command Unit after power-on (R178). -/
def Commander.powerOn : Commander where
  progress := .idle
  dataDue := none
  completion := none
  error := false
  mode := .idle
  settingsValid := false

/-- The Link Interface after power-on (R178). -/
def Link.powerOn : Link where
  assembly := []
  rejected := false
  dataOut := []

/-- The input lines at power-on: the toolbar lowered and every sensor line clear. The spec gives no level
(DESIGN CHOICE, unsafe; assumption log, entry 5). -/
def Pins.powerOn : Pins where
  switch := .lowered
  seedLines := Vector.replicate 32 .clear

/-- The part right after the power-on reset pin is released (R178), with no command waiting. -/
def State.reset : State where
  pending := []
  now := 0
  inReset := false
  pins := Pins.powerOn
  lnk := Link.powerOn
  cmu := Commander.powerOn
  settings := Settings.default
  cst := Store.empty
  mot := Motion.powerOn .lowered 0
  ren := Engine.empty
  fsc := Scanner.stopped
  evu := Events.powerOn
  upsets := []
  choices := 0

end Sys2Proof.Machine
end

