-- ==== Sys2Proof/Machine/Operands.lean ====
section
/-! DEFINITION. The operand and record layouts of the link: little-endian quantities, two's complement, keys and
sets (R179), command codes and enumerations (R180), the CRC-8 (R167), FIX and record layouts (R181), and the
range checks of the configuration commands (R48, R174). -/

namespace Sys2Proof.Machine

/-! ## Multi-byte quantities (R179) -/

/-- A quantity sent least significant byte first. -/
def leNat : List Byte → Nat
  | [] => 0
  | b :: bs => b.toNat + 256 * leNat bs

/-- The `w` bytes of a quantity, least significant first. -/
def leBytes : Nat → Nat → List Byte
  | 0, _ => []
  | w + 1, n => BitVec.ofNat 8 n :: leBytes w (n / 256)

/-- A two's complement quantity sent least significant byte first. -/
def leInt (bs : List Byte) : Int :=
  if 2 * leNat bs < 256 ^ bs.length then (leNat bs : Int) else (leNat bs : Int) - (256 ^ bs.length : Nat)

/-- The `w` bytes of a quantity in two's complement. -/
def leIntBytes (w : Nat) (i : Int) : List Byte :=
  leBytes w (i % (256 ^ w : Nat)).toNat

/-- The `w` bytes of a payload from offset `off`. -/
def slice (p : List Byte) (off w : Nat) : List Byte :=
  (p.drop off).take w

/-- The quantity in the `w` bytes from offset `off`. -/
def natAt (p : List Byte) (off w : Nat) : Nat :=
  leNat (slice p off w)

/-- The two's complement quantity in the `w` bytes from offset `off`. -/
def intAt (p : List Byte) (off w : Nat) : Int :=
  leInt (slice p off w)

/-- One indicator as a byte: 1 when set and 0 when clear. -/
def flagByte (b : Bool) : Byte :=
  if b then 1 else 0

/-- A key is 4 bytes: cx, then cy. -/
def keyAt (p : List Byte) (off : Nat) : Key :=
  ⟨intAt p off 2, intAt p (off + 2) 2⟩

/-- The 4 bytes of a key. -/
def keyBytes (k : Key) : List Byte :=
  leIntBytes 2 k.cx ++ leIntBytes 2 k.cy

/-- An optional key is a presence byte and the key, carried as zeros when absent. -/
def optKeyBytes : Option Key → List Byte
  | none => [0, 0, 0, 0, 0]
  | some k => 1 :: keyBytes k

/-- A set of rows in 4 bytes. -/
def rowSetAt (p : List Byte) (off : Nat) : RowSet :=
  BitVec.ofNat 32 (natAt p off 4)

/-- A set of sub-squares in 2 bytes. -/
def subSetAt (p : List Byte) (off : Nat) : SubSet :=
  BitVec.ofNat 16 (natAt p off 2)

/-- A set of event kinds in 2 bytes; bits 13 to 15 are not examined. -/
def eventSetAt (p : List Byte) (off : Nat) : EventSet :=
  BitVec.ofNat 13 (natAt p off 2)

/-! ## Frames (R166, R167, R179) -/

/-- The frame classes (R168). -/
inductive FrameClass where
  | command
  | data
  | fetch
  | fix
  | status
deriving DecidableEq, Repr

/-- The class field, bits 7 to 5 of the header (R179). -/
def FrameClass.bits : FrameClass → BitVec 3
  | .command => 1
  | .data => 2
  | .fetch => 3
  | .fix => 4
  | .status => 5

/-- The class a header's class field holds, or none of the five. -/
def FrameClass.ofBits (b : BitVec 3) : Option FrameClass :=
  if b = 1 then some .command
  else if b = 2 then some .data
  else if b = 3 then some .fetch
  else if b = 4 then some .fix
  else if b = 5 then some .status
  else none

/-- A header byte: the class above the low five bits. -/
def header (c : FrameClass) (low : BitVec 5) : Byte :=
  c.bits ++ low

/-- One bit of the CRC-8: shift toward the most significant end, and combine with 00101111 if the bit shifted
out differs from the incoming bit (R167). -/
def crcBit (r : Byte) (b : Bool) : Byte :=
  if r.msb = b then r <<< 1 else (r <<< 1) ^^^ 0x2F

/-- One byte of the CRC-8, most significant bit first. -/
def crcByte (r b : Byte) : Byte :=
  [7, 6, 5, 4, 3, 2, 1, 0].foldl (fun r i => crcBit r (b.getLsbD i)) r

/-- The CRC-8 of a list of bytes: the register starts at all ones (R167). -/
def crc8 (bs : List Byte) : Byte :=
  bs.foldl crcByte 0xFF

/-- The bytes of a frame before its check byte. -/
def frameHead (hdr : Byte) (payload : List Byte) : List Byte :=
  hdr :: BitVec.ofNat 8 payload.length :: payload

/-- The check byte of a frame (R167). -/
def frameCheck (hdr : Byte) (payload : List Byte) : Byte :=
  crc8 (frameHead hdr payload)

/-- A whole frame with a right check byte, as the part sends its FETCH replies (R168). -/
def frameBytes (hdr : Byte) (payload : List Byte) : List Byte :=
  frameHead hdr payload ++ [frameCheck hdr payload]

/-- The malformed frames (R166, and R168 for a FIX payload that is not 17 bytes), by all the bytes shifted in
while select was asserted. -/
def malformed : List Byte → Bool
  | hdr :: len :: rest =>
    match FrameClass.ofBits (hdr.extractLsb' 5 3) with
    | none => true
    | some c =>
      decide (250 < len.toNat) || decide (rest.length < len.toNat + 1)
        || (decide (c ≠ .fetch) && decide (len.toNat + 1 < rest.length))
        || (decide (c = .fix) && decide (len.toNat ≠ 17))
  | _ => true

/-- The header of these bytes carries the COMMAND class. -/
def commandHeader : List Byte → Bool
  | hdr :: _ => decide (FrameClass.ofBits (hdr.extractLsb' 5 3) = some .command)
  | [] => false

/-! ## Command codes (R180) -/

def Op.idn : BitVec 5 := 0x01
def Op.abrt : BitVec 5 := 0x02
def Op.rstr : BitVec 5 := 0x03
def Op.seti : BitVec 5 := 0x04
def Op.setr : BitVec 5 := 0x05
def Op.sete : BitVec 5 := 0x06
def Op.setf : BitVec 5 := 0x07
def Op.strt : BitVec 5 := 0x08
def Op.stop : BitVec 5 := 0x09
def Op.prim : BitVec 5 := 0x0A
def Op.setl : BitVec 5 := 0x0B
def Op.ldc : BitVec 5 := 0x10
def Op.pch : BitVec 5 := 0x11
def Op.mrg : BitVec 5 := 0x12
def Op.qry : BitVec 5 := 0x13
def Op.rtc : BitVec 5 := 0x14
def Op.swp : BitVec 5 := 0x15
def Op.rms : BitVec 5 := 0x16
def Op.scb : BitVec 5 := 0x17
def Op.rss : BitVec 5 := 0x18
def Op.eve : BitVec 5 := 0x1A
def Op.ack : BitVec 5 := 0x1B
def Op.rhc : BitVec 5 := 0x1C
def Op.rrw : BitVec 5 := 0x1D
def Op.rmo : BitVec 5 := 0x1E

/-- The command codes that name a command (R180). -/
def Op.all : List (BitVec 5) :=
  [Op.idn, Op.abrt, Op.rstr, Op.seti, Op.setr, Op.sete, Op.setf, Op.strt, Op.stop, Op.prim, Op.setl,
   Op.ldc, Op.pch, Op.mrg, Op.qry, Op.rtc, Op.swp, Op.rms, Op.scb, Op.rss,
   Op.eve, Op.ack, Op.rhc, Op.rrw, Op.rmo]

/-! ## The operand byte that tells the rows of one command code apart (R180; assumption log, entry 4) -/

/-- The SETR action byte says REMOVE. -/
def isRemove (p : List Byte) : Bool := p[1]? == some 1

/-- The STRT target mode byte says SHADOW. -/
def isShadow (p : List Byte) : Bool := p[0]? == some 2

/-- The PCH selector byte says FERT TARGET. -/
def isFertTarget (p : List Byte) : Bool := p[4]? == some 1

/-- The PCH selector byte says NO-APPLY. -/
def isNoApply (p : List Byte) : Bool := p[4]? == some 2

/-- The MRG form byte says REMOVE. -/
def isMergeRemove (p : List Byte) : Bool := p[4]? == some 1

/-- The QRY form byte says NEXT. -/
def isNext (p : List Byte) : Bool := p[4]? == some 1

/-! ## The FIX payload (R181) -/

/-- The quality a byte names; above 3 it is taken as NONE. -/
def qualityOf (b : Nat) : Quality :=
  if b = 1 then .autonomous else if b = 2 then .corrected else if b = 3 then .precise else .none

/-- The value of a quality (R181). -/
def Quality.byte : Quality → Byte
  | .none => 0
  | .autonomous => 1
  | .corrected => 2
  | .precise => 3

/-- The fix in a FIX payload of 17 bytes. -/
def fixAt (p : List Byte) : Fix where
  e := intAt p 0 4
  n := intAt p 4 4
  hE := intAt p 8 2
  hN := intAt p 10 2
  omega := intAt p 12 2
  speed := natAt p 14 2
  quality := qualityOf (natAt p 16 1)

/-! ## The implement settings in a SETI payload (R174, R180) -/

/-- The widths of the seventeen fields. -/
def setiWidths : List Nat :=
  [2, 1, 1, 2, 1, 2, 2, 1, 2, 2, 1, 1, 2, 2, 1, 1, 2]

/-- The quantities of consecutive fields of the given widths. -/
def fieldsOf : List Nat → List Byte → List Nat
  | [], _ => []
  | w :: ws, p => leNat (p.take w) :: fieldsOf ws (p.drop w)

/-- A value lies from `lo` to `hi`. -/
def inRange (lo hi v : Nat) : Bool :=
  decide (lo ≤ v) && decide (v ≤ hi)

/-- The lowest and highest value of each field after the first (R174). -/
def setiRanges : List (Nat × Nat) :=
  [(0, 1), (0, 1), (1000, 65000), (0, 2), (200, 5000), (2000, 30000), (0, 1), (0, 2000), (0, 2000),
   (0, 1), (0, 1), (50, 1000), (50, 1000), (4, 64), (16, 32), (500, 5000)]

/-- The number of the first field from `n` upward that lies outside its range. -/
def firstOutside (n : Nat) : List (Nat × Nat) → List Nat → Option Nat
  | (lo, hi) :: rs, v :: vs => if inRange lo hi v then firstOutside (n + 1) rs vs else some n
  | _, _ => none

/-- The number of the first field of a SETI that does not hold a value of its range (R174, check 3). -/
def setiBadField (vs : List Nat) : Option Nat :=
  match vs with
  | side :: rest =>
    if side = 100 ∨ side = 200 ∨ side = 400 then firstOutside 2 setiRanges rest else some 1
  | [] => none

/-- The cell side of a field value. -/
def cellSideOf (v : Nat) : CellSide :=
  if v = 100 then .cm100 else if v = 400 then .cm400 else .cm200

/-- The settings of the seventeen field values, in field number order (R174, R180). -/
def settingsOf (vs : List Nat) : Settings where
  cellSide := cellSideOf (vs.getD 0 0)
  speedSource := if vs.getD 1 0 = 0 then .pulse else .fix
  fallback := decide (vs.getD 2 0 = 1)
  pulsesPer100m := vs.getD 3 0
  filter := if vs.getD 4 0 = 0 then .off else if vs.getD 4 0 = 1 then .light else .heavy
  holdTime := vs.getD 5 0
  lostLimit := vs.getD 6 0
  lossPolicy := if vs.getD 7 0 = 0 then .keep else .stop
  seedLatency := vs.getD 8 0
  fertLatency := vs.getD 9 0
  seedOverlap := decide (vs.getD 10 0 = 1)
  fertOverlap := decide (vs.getD 11 0 = 1)
  primeSpeed := vs.getD 12 0
  transitLimit := vs.getD 13 0
  blockageRun := vs.getD 14 0
  recovery := vs.getD 15 0
  stallTime := vs.getD 16 0

/-! ## The row context in a SETR payload (R47, R48, R180) -/

/-- The row that a field value from 1 to 32 names. -/
def rowOf (n : Nat) : RowId :=
  Fin.ofNat 32 (n - 1)

/-- The number of the first SETR field outside its range, under the action the payload carries (R48, check 3):
row number, action, and under CONFIGURE the context fields. -/
def setrBadField (p : List Byte) : Option Nat :=
  let action := natAt p 1 1
  let ch := natAt p 10 1
  if ¬ inRange 1 32 (natAt p 0 1) then some 1
  else if 1 < action then some 2
  else if action = 1 then none
  else if ¬ (-2400 ≤ intAt p 2 2 ∧ intAt p 2 2 ≤ 2400) then some 3
  else if ¬ inRange 0 1500 (natAt p 4 2) then some 4
  else if ¬ inRange 15 152 (natAt p 6 1) then some 5
  else if ¬ inRange 1 64 (natAt p 7 1) then some 6
  else if ¬ inRange 100 5000 (natAt p 8 2) then some 7
  else if ¬ (ch ≤ 31 ∨ ch = 255) then some 8
  else if ¬ inRange 0 4094 (natAt p 11 2) then some 9
  else if ¬ inRange 1000 200000 (natAt p 13 4) then some 10
  else if ¬ inRange 1000 200000 (natAt p 17 4) then some 11
  else none

/-- The fertiliser channel of a field value: 255 is *none* (R179). -/
def channelOf (v : Nat) : Option Nat :=
  if v = 255 then none else some v

/-- The row context of a SETR CONFIGURE payload; the row is enabled (R49). -/
def contextAt (p : List Byte) : RowContext where
  lat := intAt p 2 2
  fa := natAt p 4 2
  width := natAt p 6 1
  holes := natAt p 7 1
  sMax := natAt p 8 2
  channel := channelOf (natAt p 10 1)
  zeroCode := natAt p 11 2
  fullScale := natAt p 13 4
  valveFull := natAt p 17 4
  enabled := true

end Sys2Proof.Machine
end

