-- ==== Sys2Proof/WellFormed.lean ====
section
/-! DEFINITION. Which commands are well formed: the frame's bytes belong to the table's row. -/

namespace Sys2Proof

open Machine

/-- A payload fits the length byte of a frame that is not malformed (R166). -/
def payloadFits (p : List Byte) : Bool :=
  decide (p.length ≤ 250)

/-- A command is well formed: its bytes are those of its row's frames. The rows of one command code are told apart
by an operand byte, and a frame whose byte is missing or names no row belongs to the first of them (assumption
log, entry 4). Whether the payload's length and values are right is for the command to check. -/
def wellFormed : Instr → Bool
  | .powerOnResetAssert => true
  | .powerOnResetRelease => true
  | .malformedFrame bytes => malformed bytes
  | .statusFrame f => payloadFits f.payload
  | .fixFrame f => decide (f.payload.length = 17)
  | .staleTimerExpiry => true
  | .lostTimerExpiry => true
  | .groundSpeedPulse => true
  | .speedWindowEnd => true
  | .workSwitchLevelChange _ => true
  | .workSwitchChange => true
  | .holeEvent _ => true
  | .sensedSeed _ => true
  | .occlusionEnd _ => true
  | .occlusionTimerExpiry _ => true
  | .entryExpiry _ => true
  | .stallTimerExpiry _ => true
  | .syntheticHoleEvent _ => true
  | .syntheticSensedSeed _ => true
  | .conversionComplete _ => true
  | .dataFrame f => payloadFits f.payload
  | .fetchFrame f _ => payloadFits f.payload
  | .dataTimeout => true
  | .scbReadStep => true
  | .badCommand code c => payloadFits c.payload && decide (code ∉ Op.all)
  | .idn c => payloadFits c.payload
  | .abrt c => payloadFits c.payload
  | .rstr c => payloadFits c.payload
  | .seti c => payloadFits c.payload
  | .setrConfigure c => payloadFits c.payload && !isRemove c.payload
  | .setrRemove c => payloadFits c.payload && isRemove c.payload
  | .sete c => payloadFits c.payload
  | .setf c => payloadFits c.payload
  | .strtField c => payloadFits c.payload && !isShadow c.payload
  | .strtShadow c => payloadFits c.payload && isShadow c.payload
  | .stop c => payloadFits c.payload
  | .prim c => payloadFits c.payload
  | .setl c => payloadFits c.payload
  | .ldc c => payloadFits c.payload
  | .pchSeedTarget c => payloadFits c.payload && !isFertTarget c.payload && !isNoApply c.payload
  | .pchFertTarget c => payloadFits c.payload && isFertTarget c.payload
  | .pchNoApply c => payloadFits c.payload && isNoApply c.payload
  | .mrgAdd c => payloadFits c.payload && !isMergeRemove c.payload
  | .mrgRemove c => payloadFits c.payload && isMergeRemove c.payload
  | .qryExact c => payloadFits c.payload && !isNext c.payload
  | .qryNext c => payloadFits c.payload && isNext c.payload
  | .rtc c => payloadFits c.payload
  | .swp c => payloadFits c.payload
  | .rms c => payloadFits c.payload
  | .scb c => payloadFits c.payload
  | .rss c => payloadFits c.payload
  | .eve c => payloadFits c.payload
  | .ack c => payloadFits c.payload
  | .rhc c => payloadFits c.payload
  | .rrw c => payloadFits c.payload
  | .rmo c => payloadFits c.payload

end Sys2Proof
end

