-- ==== Sys2Proof/Decode.lean ====
section
/-! DEFINITION. Reading the bytes of the link: the row a whole frame is (R166, R179, R180), and the bytes of a row's
frame. The opcode table gives its rows no bits, so a table word spells no command. -/

namespace Sys2Proof

open Machine

/-- The command a word of the opcode table spells. The table gives no row any bits: there is none. -/
def decodeTableWord (_nbits _w : Nat) : Option Instr :=
  none

/-- The row of a COMMAND frame with this code (R180). -/
def commandRow (code : BitVec 5) (c : Cmd) : Instr :=
  if code = Op.idn then .idn c
  else if code = Op.abrt then .abrt c
  else if code = Op.rstr then .rstr c
  else if code = Op.seti then .seti c
  else if code = Op.setr then (if isRemove c.payload then .setrRemove c else .setrConfigure c)
  else if code = Op.sete then .sete c
  else if code = Op.setf then .setf c
  else if code = Op.strt then (if isShadow c.payload then .strtShadow c else .strtField c)
  else if code = Op.stop then .stop c
  else if code = Op.prim then .prim c
  else if code = Op.setl then .setl c
  else if code = Op.ldc then .ldc c
  else if code = Op.pch then
    (if isFertTarget c.payload then .pchFertTarget c
     else if isNoApply c.payload then .pchNoApply c else .pchSeedTarget c)
  else if code = Op.mrg then (if isMergeRemove c.payload then .mrgRemove c else .mrgAdd c)
  else if code = Op.qry then (if isNext c.payload then .qryNext c else .qryExact c)
  else if code = Op.rtc then .rtc c
  else if code = Op.swp then .swp c
  else if code = Op.rms then .rms c
  else if code = Op.scb then .scb c
  else if code = Op.rss then .rss c
  else if code = Op.eve then .eve c
  else if code = Op.ack then .ack c
  else if code = Op.rhc then .rhc c
  else if code = Op.rrw then .rrw c
  else if code = Op.rmo then .rmo c
  else .badCommand code c

/-- The row of a frame of a class, not malformed, with `after` bytes past its check byte (R168, R179). -/
def frameRow (c : FrameClass) (low : BitVec 5) (payload : List Byte) (check : Byte) (after : Nat) : Instr :=
  match c with
  | .command => commandRow low ⟨payload, check⟩
  | .data => .dataFrame ⟨low, payload, check⟩
  | .fetch => .fetchFrame ⟨low, payload, check⟩ after
  | .fix => .fixFrame ⟨low, payload, check⟩
  | .status => .statusFrame ⟨low, payload, check⟩

/-- The row that the bytes shifted in between select and release are (R166). -/
def decodeFrame (bytes : List Byte) : Instr :=
  if malformed bytes then .malformedFrame bytes
  else
    match bytes with
    | hdr :: len :: rest =>
      match FrameClass.ofBits (hdr.extractLsb' 5 3) with
      | some c =>
        frameRow c (hdr.extractLsb' 0 5) (rest.take len.toNat) (rest.getD len.toNat 0)
          (rest.length - (len.toNat + 1))
      | none => .malformedFrame bytes
    | _ => .malformedFrame bytes

/-- The bytes of a COMMAND frame. -/
def encodeCommand (code : BitVec 5) (c : Cmd) : List Byte :=
  frameHead (header .command code) c.payload ++ [c.check]

/-- The bytes of a frame of another class, with `after` more bytes past its check byte, which are not examined. -/
def encodeClass (cls : FrameClass) (f : Frame) (after : Nat) : List Byte :=
  frameHead (header cls f.low) f.payload ++ [f.check] ++ List.replicate after 0

/-- The bytes of a row that is a frame; an event of the field lines, of a timer or of the reset pin has none. -/
def encodeFrame : Instr → Option (List Byte)
  | .powerOnResetAssert => none
  | .powerOnResetRelease => none
  | .malformedFrame bytes => some bytes
  | .statusFrame f => some (encodeClass .status f 0)
  | .fixFrame f => some (encodeClass .fix f 0)
  | .staleTimerExpiry => none
  | .lostTimerExpiry => none
  | .groundSpeedPulse => none
  | .speedWindowEnd => none
  | .workSwitchLevelChange _ => none
  | .workSwitchChange => none
  | .holeEvent _ => none
  | .sensedSeed _ => none
  | .occlusionEnd _ => none
  | .occlusionTimerExpiry _ => none
  | .entryExpiry _ => none
  | .stallTimerExpiry _ => none
  | .syntheticHoleEvent _ => none
  | .syntheticSensedSeed _ => none
  | .conversionComplete _ => none
  | .dataFrame f => some (encodeClass .data f 0)
  | .fetchFrame f after => some (encodeClass .fetch f after)
  | .dataTimeout => none
  | .scbReadStep => none
  | .badCommand code c => some (encodeCommand code c)
  | .idn c => some (encodeCommand Op.idn c)
  | .abrt c => some (encodeCommand Op.abrt c)
  | .rstr c => some (encodeCommand Op.rstr c)
  | .seti c => some (encodeCommand Op.seti c)
  | .setrConfigure c => some (encodeCommand Op.setr c)
  | .setrRemove c => some (encodeCommand Op.setr c)
  | .sete c => some (encodeCommand Op.sete c)
  | .setf c => some (encodeCommand Op.setf c)
  | .strtField c => some (encodeCommand Op.strt c)
  | .strtShadow c => some (encodeCommand Op.strt c)
  | .stop c => some (encodeCommand Op.stop c)
  | .prim c => some (encodeCommand Op.prim c)
  | .setl c => some (encodeCommand Op.setl c)
  | .ldc c => some (encodeCommand Op.ldc c)
  | .pchSeedTarget c => some (encodeCommand Op.pch c)
  | .pchFertTarget c => some (encodeCommand Op.pch c)
  | .pchNoApply c => some (encodeCommand Op.pch c)
  | .mrgAdd c => some (encodeCommand Op.mrg c)
  | .mrgRemove c => some (encodeCommand Op.mrg c)
  | .qryExact c => some (encodeCommand Op.qry c)
  | .qryNext c => some (encodeCommand Op.qry c)
  | .rtc c => some (encodeCommand Op.rtc c)
  | .swp c => some (encodeCommand Op.swp c)
  | .rms c => some (encodeCommand Op.rms c)
  | .scb c => some (encodeCommand Op.scb c)
  | .rss c => some (encodeCommand Op.rss c)
  | .eve c => some (encodeCommand Op.eve c)
  | .ack c => some (encodeCommand Op.ack c)
  | .rhc c => some (encodeCommand Op.rhc c)
  | .rrw c => some (encodeCommand Op.rrw c)
  | .rmo c => some (encodeCommand Op.rmo c)

end Sys2Proof
end

