-- ==== Sys2Proof/Config.lean ====
section
/-! DEFINITION. What the spec leaves open: one free choice, with no value anybody can compute. -/

namespace Sys2Proof.Config

/-- The free choice of an order the spec does not give (assumption log, entry 7): the `n`-th choice made,
among positions counted by `k`. It has no body, so that a claim about the model holds for every choice. -/
opaque choose (n k : Nat) : Nat

end Sys2Proof.Config
end

