-- ==== Sys2Proof/Machine/Flags.lean ====
section
/-! DEFINITION. The flags and sets of the part: sets of rows, the Event Unit's raise and attention line
(R182, R183), the status byte (R169, R179), and the completion that ends every command (R173). -/

namespace Sys2Proof.Machine

/-! ## Sets of rows -/

/-- All rows in ascending number. -/
def rowIds : List RowId :=
  [0, 1, 2, 3, 4, 5, 6, 7, 8, 9, 10, 11, 12, 13, 14, 15,
   16, 17, 18, 19, 20, 21, 22, 23, 24, 25, 26, 27, 28, 29, 30, 31]

/-- The row is a member of the set. -/
def rowIn (r : RowId) (t : RowSet) : Bool :=
  t.getLsbD r.val

/-- The set of one row. -/
def rowBit (r : RowId) : RowSet :=
  1#32 <<< r.val

/-- The number of rows in a set. -/
def rowCount (t : RowSet) : Nat :=
  rowIds.countP (rowIn · t)

/-! ## Events (R182, R183) -/

/-- The place of a kind in a set of event kinds: its number less one. -/
def Kind.index : Kind → Nat
  | .done => 0
  | .health => 1
  | .miss => 2
  | .storageCorrected => 3
  | .storageUncorrectable => 4
  | .fixStale => 5
  | .fixLost => 6
  | .fixRejected => 7
  | .speedSilent => 8
  | .speedFallback => 9
  | .switched => 10
  | .linkCheck => 11
  | .rateLimit => 12

/-- The set of one event kind. -/
def Kind.bit (k : Kind) : EventSet :=
  1#13 <<< k.index

/-- The kind is a member of the set. -/
def kindIn (k : Kind) (t : EventSet) : Bool :=
  t.getLsbD k.index

/-- The attention line recomputed: asserted while the pending and enabled sets share a kind (R183). -/
def Events.recomputed (e : Events) : Events :=
  { e with attention := decide (e.pending &&& e.enabled ≠ 0) }

/-- The pending set with one kind added, and the line recomputed (R182, R183). -/
def Events.raised (e : Events) (k : Kind) : Events :=
  { e with pending := e.pending ||| k.bit }.recomputed

/-- A block raises an event kind. -/
def State.raise (s : State) (k : Kind) : State :=
  { s with evu := s.evu.raised k }

/-- HEALTH is raised and the row joins the changed-rows set (R117, R135). -/
def State.raiseHealth (s : State) (r : RowId) : State :=
  { s with evu := { s.evu with changed := s.evu.changed ||| rowBit r }.raised .health }

/-! ## The status byte (R169, R170, R179) -/

/-- BUSY: a command is in progress. -/
def State.busy (s : State) : Bool :=
  match s.cmu.progress with
  | .idle => false
  | _ => true

/-- DATA REQUEST: the Command Unit is in DATA IN or DATA OUT. -/
def State.dataRequest (s : State) : Bool :=
  match s.cmu.progress with
  | .ldc _ _ _ => true
  | .swp _ => true
  | _ => false

/-- A row's context and running state, or none on an unconfigured row. -/
def State.row (s : State) (r : RowId) : Option Row :=
  s.ren.rows[r.val]

/-- The number of configured rows. -/
def State.configuredCount (s : State) : Nat :=
  rowIds.countP fun r => (s.row r).isSome

/-- The number of configured rows that are enabled. -/
def State.enabledCount (s : State) : Nat :=
  rowIds.countP fun r => (s.row r).any (·.ctx.enabled)

/-- READY: the implement settings are valid and at least one row is configured. -/
def State.ready (s : State) : Bool :=
  s.cmu.settingsValid && decide (0 < s.configuredCount)

/-- The status byte. -/
def State.statusByte (s : State) : Byte :=
  0#2 ++ BitVec.ofBool s.lnk.rejected ++ BitVec.ofBool s.evu.attention ++ BitVec.ofBool s.cmu.error
    ++ BitVec.ofBool s.dataRequest ++ BitVec.ofBool s.ready ++ BitVec.ofBool s.busy

/-! ## Completions (R173) -/

/-- The value of a completion code. -/
def Code.value : Code → Nat
  | .ok => 0
  | .clamped => 1
  | .badCommand => 2
  | .badLength => 3
  | .badValue => 4
  | .wrongMode => 5
  | .notReady => 6
  | .storeNotEmpty => 7
  | .duplicateKey => 8
  | .tableFull => 9
  | .notFound => 10
  | .referenced => 11
  | .poisoned => 12
  | .aborted => 13
  | .timedOut => 14

/-- ERROR after a completion with this code: it is neither OK nor CLAMPED (R169). -/
def Code.isError : Code → Bool
  | .ok => false
  | .clamped => false
  | _ => true

/-- A completion record of a code alone. -/
def Completion.plain (c : Code) : Completion where
  code := c
  field := 0
  count1 := 0
  count2 := 0
  key := none
  payload := []

/-- A completion record of a code and two counts. -/
def Completion.counts (c : Code) (n m : Nat) : Completion :=
  { Completion.plain c with count1 := n, count2 := m }

/-- The completion record of a value outside its range. -/
def Completion.badField (n : Nat) : Completion :=
  { Completion.plain .badValue with field := n }

/-- The Command Unit after a completion: IDLE with the data timer stopped, the new record and ERROR. -/
def Commander.completed (c : Commander) (k : Completion) : Commander :=
  { c with progress := .idle, dataDue := none, completion := some k, error := k.code.isError }

/-- A command ends with a completion record, and DONE is raised (R173). -/
def State.complete (s : State) (k : Completion) : State :=
  { s with cmu := s.cmu.completed k }.raise .done

/-- The bytes of a COMPLETION reply: 15 fixed bytes, then the returned payload (R181). -/
def Completion.bytes (k : Completion) : List Byte :=
  BitVec.ofNat 8 k.code.value :: BitVec.ofNat 8 k.field :: leBytes 4 k.count1 ++ leBytes 4 k.count2
    ++ optKeyBytes k.key ++ k.payload

end Sys2Proof.Machine
end

