-- ==== Sys2Proof/Machine/Rates.lean ====
section
/-! DEFINITION. The arithmetic of the part, in exact integers: the grid (R2, R3), coverage (R5), row speed and
points (R53 to R56), rates (R67 to R71), flow and trim (R73 to R75, R128), the speed filter (R34, R35). Division
is `Int.tdiv` or natural division where the rule says truncated, and `Int.fdiv` where it says floor. -/

namespace Sys2Proof.Machine

/-! ## Clamping and saturation (00, Arithmetic) -/

/-- A value clamped to a range. -/
def clampInt (lo hi v : Int) : Int :=
  if v < lo then lo else if hi < v then hi else v

/-- A saturating counter raised by `n`. -/
def satAdd (most v n : Nat) : Nat :=
  min most (v + n)

/-! ## The grid (R1 to R3) -/

/-- The cell side in cm. -/
def CellSide.cm : CellSide → Int
  | .cm100 => 100
  | .cm200 => 200
  | .cm400 => 400

/-- The key of the cell containing a position (R2). -/
def cellOf (side : CellSide) (p : Point) : Key :=
  ⟨Int.fdiv p.e side.cm, Int.fdiv p.n side.cm⟩

/-- The sub-square a position lies in, within its cell (R3). -/
def subOf (side : CellSide) (p : Point) : Sub :=
  let k := cellOf side p
  ⟨(Int.fdiv ((p.e - k.cx * side.cm) * 4) side.cm).toNat, (Int.fdiv ((p.n - k.cy * side.cm) * 4) side.cm).toNat⟩

/-- One key comes before another: cy first, then cx (R8). -/
def Key.before (a b : Key) : Bool :=
  decide (a.cy < b.cy) || (decide (a.cy = b.cy) && decide (a.cx < b.cx))

/-- A key lies outside the keep rectangle (R151). -/
def KeepRect.outside (r : KeepRect) (k : Key) : Bool :=
  !(decide (r.cxMin ≤ k.cx) && decide (k.cx ≤ r.cxMax) && decide (r.cyMin ≤ k.cy) && decide (k.cy ≤ r.cyMax))

/-! ## Coverage (R5, R19, R22, R23) -/

/-- The set of one sub-square: bit 4 × j + i (R179). -/
def Sub.bit (b : Sub) : SubSet :=
  1#16 <<< (4 * b.j + b.i)

/-- The state of a sub-square. -/
def Coverage.at (c : Coverage) (b : Sub) : Cover :=
  if c.settled &&& b.bit ≠ 0 then .settled else if c.fresh &&& b.bit ≠ 0 then .fresh else .uncovered

/-- A mark makes an uncovered sub-square fresh and leaves any other as it is (R19). -/
def Coverage.mark (c : Coverage) (b : Sub) : Coverage :=
  { c with fresh := c.fresh ||| (b.bit &&& ~~~c.settled) }

/-- A settle turns every fresh sub-square into a settled one (R23). -/
def Coverage.settle (c : Coverage) : Coverage :=
  ⟨0, c.settled ||| c.fresh⟩

/-- MRG ADD makes each named sub-square settled (R22). -/
def Coverage.add (c : Coverage) (m : SubSet) : Coverage :=
  ⟨c.fresh &&& ~~~m, c.settled ||| m⟩

/-- MRG REMOVE makes each named sub-square uncovered (R22). -/
def Coverage.remove (c : Coverage) (m : SubSet) : Coverage :=
  ⟨c.fresh &&& ~~~m, c.settled &&& ~~~m⟩

/-- The 16 sub-squares. -/
def allSubs : List Sub :=
  [⟨0, 0⟩, ⟨1, 0⟩, ⟨2, 0⟩, ⟨3, 0⟩, ⟨0, 1⟩, ⟨1, 1⟩, ⟨2, 1⟩, ⟨3, 1⟩,
   ⟨0, 2⟩, ⟨1, 2⟩, ⟨2, 2⟩, ⟨3, 2⟩, ⟨0, 3⟩, ⟨1, 3⟩, ⟨2, 3⟩, ⟨3, 3⟩]

/-- The number of sub-squares whose state differs (R148). -/
def Coverage.changes (a b : Coverage) : Nat :=
  allSubs.countP fun x => decide (a.at x ≠ b.at x)

/-- The coverage of one product in a payload. -/
def Payload.cov (p : Payload) : Product → Coverage
  | .seed => p.seedCov
  | .fert => p.fertCov

/-- The target of one product in a payload. -/
def Payload.target (p : Payload) : Product → Nat
  | .seed => p.seedTarget
  | .fert => p.fertTarget

/-- The record holds a fresh sub-square of either product (R25). -/
def Payload.hasFresh (p : Payload) : Bool :=
  decide (p.seedCov.fresh ≠ 0) || decide (p.fertCov.fresh ≠ 0)

/-- The payload with every fresh sub-square of both products settled (R23). -/
def Payload.settled (p : Payload) : Payload :=
  { p with seedCov := p.seedCov.settle, fertCov := p.fertCov.settle }

/-! ## Row speed and points (R53 to R56) -/

/-- The row speed, in mm/s (R53). -/
def rowSpeed (vRef : Nat) (yaw lat : Int) : Nat :=
  (clampInt 0 10000 (vRef + Int.tdiv (yaw * lat) 100)).toNat

/-- A look-ahead distance, in cm (R56). -/
def lookAhead (vr latency : Nat) : Nat :=
  vr * latency / 10000

/-- The point of a row at `lat` and `fa` for a look-ahead distance `d` from a fix (R55). -/
def placed (f : Fix) (lat : Int) (fa d : Nat) : Point where
  e := f.e + Int.fdiv (lat * f.hN - ((fa : Int) - d) * f.hE) 16384
  n := f.n + Int.fdiv (-lat * f.hE - ((fa : Int) - d) * f.hN) 16384

/-! ## Rates (R67 to R71) -/

/-- The seed rate q, in milliseeds/s (R67). -/
def seedRate (target width vr : Nat) : Nat :=
  target * width * vr / 10000

/-- The shaft speed before its clamp (R68). -/
def shaftWanted (q holes : Nat) : Nat :=
  q / holes

/-- The target flow before its clamp, in µL/s (R69). -/
def flowWanted (target width vr : Nat) : Nat :=
  target * width * vr / 10000

/-- The target flow f (R69). -/
def targetFlow (target width vr : Nat) : Nat :=
  min 200000 (flowWanted target width vr)

/-- The feed-forward duty before its clamp, in per mille (R70). -/
def dutyWanted (f valveFull : Nat) : Nat :=
  f * 1000 / valveFull

/-- The feed-forward duty ff (R70). -/
def feedForward (f valveFull : Nat) : Nat :=
  min 1000 (dutyWanted f valveFull)

/-- The valve duty: 0 at a target flow of 0, else ff + trim clamped to 0 to 1000 (R71). -/
def valveDutyOf (f ff : Nat) (trim : Int) : Nat :=
  if f = 0 then 0 else (clampInt 0 1000 (ff + trim)).toNat

/-- The results of one computation of a seed lane (R64, R67, R68). -/
def SeedLane.computed (l : SeedLane) (c : RowContext) (vr : Nat) : SeedLane :=
  let q := seedRate l.view.target c.width vr
  let s := shaftWanted q c.holes
  { l with q := q, s := min c.sMax s, limited := decide (c.sMax < s) }

/-- The results of one computation of a fertiliser lane (R64, R69 to R71). -/
def FertLane.computed (l : FertLane) (c : RowContext) (vr : Nat) : FertLane :=
  let wanted := flowWanted l.view.target c.width vr
  let f := targetFlow l.view.target c.width vr
  let ffWanted := dutyWanted f c.valveFull
  let ff := feedForward f c.valveFull
  { l with
    f := f
    ff := ff
    duty := valveDutyOf f ff l.flow.trim
    limited := decide (200000 < wanted) || decide (1000 < ffWanted) }

/-- One computation of a row from the reference speed and yaw rate in force (R64). -/
def Row.computed (w : Row) (vRef : Nat) (yaw : Int) : Row :=
  let vr := rowSpeed vRef yaw w.ctx.lat
  { w with vr := vr, seed := w.seed.computed w.ctx vr, fert := w.fert.map (·.computed w.ctx vr) }

/-- A lane's *rate limited* indicator goes from clear to set between two results of a row (R72). -/
def Row.limitEntered (old new : Row) : Bool :=
  (!old.seed.limited && new.seed.limited)
    || (new.fert.any (·.limited) && !(old.fert.any (·.limited)))

/-! ## Measured flow, trim and volume (R73 to R75, R128 to R130) -/

/-- A code of 0 or 4095 is a rail reading (R73). -/
def isRail (code : AdcCode) : Bool :=
  decide (code = 0) || decide (code = 4095)

/-- The measured flow of an in-range code (R73). -/
def measuredFlow (code : AdcCode) (c : RowContext) : Nat :=
  if code.toNat ≤ c.zeroCode then 0 else (code.toNat - c.zeroCode) * c.fullScale / (4095 - c.zeroCode)

/-- The trim after one update (R74, R75). -/
def trimmed (trim : Int) (f measured valveFull : Nat) : Int :=
  clampInt (-250) 250 (trim + Int.tdiv (Int.tdiv (((f : Int) - measured) * 1000) valveFull) 8)

/-- The interval of a completed conversion, in ms, capped at 1000 (R128). -/
def intervalOf (prev : Option Nat) (now : Nat) : Nat :=
  match prev with
  | none => 0
  | some t => min 1000 (now - t)

/-- The volume of a flow over an interval, in µL (R129, R130). -/
def volumeOf (flow interval : Nat) : Nat :=
  flow * interval / 1000

/-! ## Ground speed from pulses (R34, R35) -/

/-- The raw speed of a window (R34). -/
def rawSpeed (pulses k : Nat) : Nat :=
  min 10000 (pulses * 1000000 / k)

/-- The divisor of the speed filter (R35). -/
def SpeedFilter.divisor : SpeedFilter → Int
  | .off => 1
  | .light => 2
  | .heavy => 8

/-- The step of the speed filter: the difference over the divisor, at least one toward the raw speed (R35). -/
def filterStep (flt : SpeedFilter) (raw filtered : Nat) : Int :=
  let d := (raw : Int) - filtered
  let step := Int.tdiv d flt.divisor
  if step = 0 then (if 0 < d then 1 else if d < 0 then -1 else 0) else step

/-- The filtered speed after a window with pulses (R35). -/
def filteredAfter (flt : SpeedFilter) (raw filtered : Nat) : Nat :=
  ((filtered : Int) + filterStep flt raw filtered).toNat

end Sys2Proof.Machine
end

