-- ==== Sys2Proof/Machine/Ops.lean ====
section
/-! DEFINITION. The shared operations of the blocks: the store and its lookups (R8, R9), derived bindings and
reference counts (R10, R14), lane views, lane decisions and drive outputs, made anew for all rows in one pass an event
(R59, R64, R85, R90), payload reads and poisoning (R157 to R159), credits and settling (R19 to R23), the miss set
(R16). -/

namespace Sys2Proof.Machine

/-! ## Named updates of the state -/

/-- The state with another Link Interface. -/
def State.setLnk (s : State) (x : Link) : State := { s with lnk := x }

/-- The state with another Command Unit. -/
def State.setCmu (s : State) (x : Commander) : State := { s with cmu := x }

/-- The state with other implement settings. -/
def State.setSettings (s : State) (x : Settings) : State := { s with settings := x }

/-- The state with another Cell Store. -/
def State.setCst (s : State) (x : Store) : State := { s with cst := x }

/-- The state with another Motion Unit. -/
def State.setMot (s : State) (x : Motion) : State := { s with mot := x }

/-- The state with another Row Engine. -/
def State.setRen (s : State) (x : Engine) : State := { s with ren := x }

/-- The state with another Flow Scanner. -/
def State.setFsc (s : State) (x : Scanner) : State := { s with fsc := x }

/-- The state with another Event Unit. -/
def State.setEvu (s : State) (x : Events) : State := { s with evu := x }

/-- The state with other input levels. -/
def State.setPins (s : State) (x : Pins) : State := { s with pins := x }

/-! ## Rows -/

/-- A row's place in the Row Engine written. -/
def State.setRow (s : State) (r : RowId) (w : Option Row) : State :=
  s.setRen { s.ren with rows := s.ren.rows.set r.val w }

/-- A configured row changed; an unconfigured row stays so. -/
def State.modRow (s : State) (r : RowId) (f : Row → Row) : State :=
  match s.row r with
  | none => s
  | some w => s.setRow r (some (f w))

/-- Every configured row changed by a function of its row; the rows are independent of one another (R58). -/
def State.mapRows (s : State) (g : RowId → Row → Row) : State :=
  s.setRen { s.ren with rows := Vector.ofFn fun r => (s.row r).map (g r) }

/-- A step made for every row, in ascending row number. -/
def forRows (f : RowId → State → State) (s : State) : State :=
  rowIds.foldl (fun s r => f r s) s

/-- The look-ahead point of a lane, where it exists (R55). -/
def Row.point (w : Row) : Product → Option Point
  | .seed => w.seed.point
  | .fert => w.fert.bind (·.look)

/-- The drop point of a row, where it exists (R55). -/
def Row.drop (w : Row) : Option Point :=
  w.fert.bind (·.drop)

/-- The existing points of a row: at most three (R10). -/
def Row.points (w : Row) : List Point :=
  (w.point .seed).toList ++ (w.point .fert).toList ++ w.drop.toList

/-! ## The store (R8, R9) -/

/-- The record of a key, where the store holds one. -/
def Store.find (c : Store) (k : Key) : Option Record :=
  c.records.find? fun x => decide (x.key = k)

/-- The store holds a record of the key, poisoned or not. -/
def Store.holds (c : Store) (k : Key) : Bool :=
  (c.find k).isSome

/-- The payload of the record of a key, where it is held and not poisoned. -/
def Store.payload (c : Store) (k : Key) : Option Payload :=
  (c.find k).bind (·.payload)

/-- The payload of the record of a key written, `none` being the poisoned form. -/
def Store.put (c : Store) (k : Key) (p : Option Payload) : Store :=
  { c with records := c.records.map fun x => if x.key = k then { x with payload := p } else x }

/-- A record put in its place in ascending key order (R8). -/
def insertRecord (x : Record) : List Record → List Record
  | [] => [x]
  | y :: ys => if x.key.before y.key then x :: y :: ys else y :: insertRecord x ys

/-- A new record joins the store. -/
def Store.insert (c : Store) (x : Record) : Store :=
  { c with records := insertRecord x c.records }

/-- The record of a key leaves the store; a poisoned one lowers the live poisoned count (R162). -/
def Store.remove (c : Store) (k : Key) : Store :=
  { c with
    records := c.records.filter fun x => decide (x.key ≠ k)
    poisonedCount := c.poisonedCount - c.records.countP fun x => decide (x.key = k) && x.payload.isNone }

/-- The key lies above a position in key order, where none lies below every key (R152, R164). -/
def aboveKey (position : Option Key) (k : Key) : Bool :=
  match position with
  | none => true
  | some p => p.before k

/-! ## Bindings and reference counts (R10, R14, R15) -/

/-- The key of the record a point is bound to: its cell's key, where the store holds a record of it (R10; DEDUCED;
assumption log, entry 8). -/
def State.boundKey (s : State) (p : Option Point) : Option Key :=
  match p with
  | none => none
  | some q =>
    let k := cellOf s.settings.cellSide q
    if s.cst.holds k then some k else none

/-- The number of references one row makes to a key: its points that lie in the cell and its in-flight entries
whose credit target carries the key. -/
def Row.refs (w : Row) (side : CellSide) (k : Key) : Nat :=
  (w.points.countP fun p => decide (cellOf side p = k))
    + w.sfm.queue.countP fun e => e.target.any fun t => decide (t.1 = k)

/-- The reference count of a record, derived from the points and the in-flight entries (R14; DEDUCED; assumption log,
entry 8). -/
def State.refCount (s : State) (k : Key) : Nat :=
  (rowIds.map fun r => match s.row r with | none => 0 | some w => w.refs s.settings.cellSide k).sum

/-! ## Drive outputs (R90, R91, R116) -/

/-- The value a row's meter drive port is to carry (R90, R93). -/
def State.meterDrive (s : State) (w : Row) : Nat :=
  match w.seed.state with
  | .priming _ => min s.settings.primeSpeed w.ctx.sMax
  | .lane .running => if s.cmu.mode = .field then w.seed.s else 0
  | .lane _ => 0

/-- The duty a row's valve output is to carry (R91). -/
def State.valveOut (s : State) (l : FertLane) : Nat :=
  if s.cmu.mode = .field ∧ l.state = .running then l.duty else 0

/-- The value the meter drive port of a row carries: 0 on an unconfigured row (R47, R90). -/
def State.meterPort (s : State) (r : RowId) : Nat :=
  (s.row r).elim 0 (·.seed.drive)

/-- The duty the valve output of a row carries: 0 on an unconfigured row and on one without a fertiliser channel (R47,
R91). -/
def State.valvePort (s : State) (r : RowId) : Nat :=
  ((s.row r).bind (·.fert)).elim 0 (·.valve)

/-- The stall timer after the value the port carries goes from `old` to `new`: it starts at a rise to 50 or more, and
stops at a fall below 50 (R116). -/
def stallAfter (now stallTime old new : Nat) (due : Option Nat) : Option Nat :=
  if old < 50 ∧ 50 ≤ new then some (now + stallTime) else if 50 ≤ old ∧ new < 50 then none else due

/-- A row with both outputs at the values the gating passes, and its stall timer following the port. -/
def State.driven (s : State) (w : Row) : Row :=
  let d := s.meterDrive w
  { w with
    seed := { w.seed with drive := d }
    fert := w.fert.map fun l => { l with valve := s.valveOut l }
    sfm := { w.sfm with stallDue := stallAfter s.now s.settings.stallTime w.seed.drive d w.sfm.stallDue } }

/-! ## Lane decisions (R85 to R89) -/

/-- A lane meets NO POSITION (R86). -/
def State.noPosition (s : State) (v : LaneView) : Bool :=
  decide (s.mot.fixState = .noFix)
    || (decide (s.mot.fixState = .lost) && decide (s.settings.lossPolicy = .stop))
    || decide (v.outcome = .noPoint)

/-- Overlap control is on for a product (R93). -/
def Settings.overlap (c : Settings) : Product → Bool
  | .seed => c.seedOverlap
  | .fert => c.fertOverlap

/-- The first held reason that applies, or none (R85, step 3; R86 to R88). -/
def State.heldReason (s : State) (p : Product) (v : LaneView) : Option HeldReason :=
  if s.noPosition v then some .noPosition
  else if v.outcome = .found ∧ v.noApply = some true then some .noApply
  else if s.settings.overlap p ∧ v.outcome = .found ∧ v.cover = some .settled then some .covered
  else if v.outcome = .found ∧ v.target = 0 then some .zeroRate
  else if (v.outcome = .missing ∨ v.outcome = .poisoned) ∧ v.target = 0 then some .noPrescription
  else none

/-- A lane's state at a decision, from step 2 of R85. -/
def State.decided (s : State) (enabled : Bool) (p : Product) (v : LaneView) : LaneState :=
  if s.cmu.mode = .idle ∨ enabled = false ∨ s.mot.switch = .lifted then .parked
  else match s.heldReason p v with
    | some r => .held r
    | none => .running

/-- A row with one lane re-decided; a seed lane in PRIMING stays PRIMING (R85, step 1). -/
def State.redecided (s : State) (p : Product) (w : Row) : Row :=
  match p with
  | .seed =>
    match w.seed.state with
    | .priming _ => w
    | .lane _ => { w with seed := { w.seed with state := .lane (s.decided w.ctx.enabled .seed w.seed.view) } }
  | .fert => { w with fert := w.fert.map fun l => { l with state := s.decided w.ctx.enabled .fert l.view } }

/-! ## Lane views (R59, R60) -/

/-- The fallback target of a product (R61). -/
def Engine.fallback (e : Engine) : Product → Nat
  | .seed => e.seedFallback
  | .fert => e.fertFallback

/-- The view of a lane that uses the fallback target (R59). -/
def fallbackView (o : ViewOutcome) (target : Nat) (key : Option Key) : LaneView where
  outcome := o
  target := target
  fallback := true
  noApply := none
  cover := none
  key := key

/-- What a lane's view holds for a look-ahead point, from the store as it stands (R59). -/
def State.viewAt (s : State) (p : Product) (pt : Option Point) : LaneView :=
  match pt with
  | none => fallbackView .noPoint (s.ren.fallback p) none
  | some q =>
    let k := cellOf s.settings.cellSide q
    match s.cst.find k with
    | none => fallbackView .missing (s.ren.fallback p) none
    | some x =>
      match x.payload with
      | none => fallbackView .poisoned (s.ren.fallback p) (some k)
      | some y =>
        { outcome := .found
          target := y.target p
          fallback := false
          noApply := some y.noApply
          cover := some ((y.cov p).at (subOf s.settings.cellSide q))
          key := some k }

/-- A row with one lane's view. -/
def Row.withView (w : Row) (p : Product) (v : LaneView) : Row :=
  match p with
  | .seed => { w with seed := { w.seed with view := v } }
  | .fert => { w with fert := w.fert.map fun l => { l with view := v } }

/-- A row with one lane's view taken from what the store holds at its look-ahead point. -/
def State.viewed (s : State) (p : Product) (w : Row) : Row :=
  w.withView p (s.viewAt p (w.point p))

/-- The cell of a lane's look-ahead point, where the point exists. -/
def State.laneCell (s : State) (p : Product) (r : RowId) : Option Key :=
  match s.row r with
  | none => none
  | some w => (w.point p).map (cellOf s.settings.cellSide)

/-! ## What an event makes anew (R60, R65, R89) -/

/-- What an event makes anew of a row: lane views, its results, lane decisions. The outputs follow in each case. -/
structure Pass where
  seedView : Bool
  fertView : Bool
  compute : Bool
  seedDecide : Bool
  fertDecide : Bool
deriving DecidableEq, Repr

/-- The outputs alone. -/
def Pass.outputs : Pass := ⟨false, false, false, false, false⟩

/-- A computation (R65). -/
def Pass.results : Pass := ⟨false, false, true, false, false⟩

/-- A decision of both lanes (R89). -/
def Pass.decisions : Pass := ⟨false, false, false, true, true⟩

/-- Both views, the results and both decisions (R58, steps 5 and 6). -/
def Pass.everything : Pass := ⟨true, true, true, true, true⟩

/-- A refresh of the lanes named, with the row's computation and the decision of those lanes (R60). -/
def Pass.refresh (seed fert : Bool) : Pass := ⟨seed, fert, seed || fert, seed, fert⟩

/-- Two things made anew at one event. -/
def Pass.also (x y : Pass) : Pass :=
  ⟨x.seedView || y.seedView, x.fertView || y.fertView, x.compute || y.compute, x.seedDecide || y.seedDecide,
    x.fertDecide || y.fertDecide⟩

/-- A row after an event: its views, then one computation, then its decisions, then its outputs (R58, steps 5 and 6;
R60, R65; DESIGN CHOICE; assumption log, entry 24). -/
def State.remade (s : State) (x : Pass) (w : Row) : Row :=
  let a := if x.seedView then s.viewed .seed w else w
  let b := if x.fertView then s.viewed .fert a else a
  let c := if x.compute then b.computed s.mot.vRef s.mot.yawRef else b
  let d := if x.seedDecide then s.redecided .seed c else c
  let e := if x.fertDecide then s.redecided .fert d else d
  s.driven e

/-- An event makes its rows anew, each once; a row at `none` is not touched. RATE LIMIT is raised where an indicator is
newly set (R65, R72). -/
def State.pass (s : State) (x : RowId → Option Pass) : State :=
  let t := s.mapRows fun r w => (x r).elim w (s.remade · w)
  let entered := rowIds.any fun r =>
    (s.row r).any fun w => (x r).any fun p => w.limitEntered (s.remade p w)
  if entered then t.raise .rateLimit else t

/-- Every row is computed anew (R65). -/
def computeAll (s : State) : State :=
  s.pass fun _ => some .results

/-- Every lane of every configured row is re-decided (R89). -/
def decideAll (s : State) : State :=
  s.pass fun _ => some .decisions

/-- One row is made anew. -/
def passRow (x : Pass) (r : RowId) (s : State) : State :=
  s.pass fun q => if q = r then some x else none

/-- A set of lanes. -/
abbrev Lanes := Product → RowId → Bool

/-- The refresh of the lanes of a row that are in a set, if any is. -/
def Lanes.pass (b : Lanes) (r : RowId) : Option Pass :=
  if b .seed r || b .fert r then some (.refresh (b .seed r) (b .fert r)) else none

/-- The lanes of a set are refreshed from the store as it stands, with no payload read (R60). -/
def reviewLanes (b : Lanes) (s : State) : State :=
  s.pass b.pass

/-- The lanes whose look-ahead points are bound to the record of a key. -/
def State.lanesAt (s : State) (k : Key) : Lanes :=
  fun p r => decide (s.laneCell p r = some k)

/-- Every lane whose look-ahead point is bound to the record of a key is refreshed, after a write of the record or its
poisoning: a record just written reads clean (R60, R157). -/
def reviewBound (k : Key) (s : State) : State :=
  reviewLanes (s.lanesAt k) s

/-! ## Payload reads (R157 to R160) -/

/-- A record is poisoned in a read: steps 1 to 4 of R159. -/
def poisonRecord (k : Key) (s : State) : State :=
  let c := s.cst.put k none
  (s.setCst { c with poisonedCount := c.poisonedCount + 1, firstKey := c.firstKey <|> some k }).raise
    .storageUncorrectable

/-- A correctable error is put right: the write-back, *corrected seen* and STORAGE CORRECTED (R158). -/
def correct (k : Key) (p : Payload) (s : State) : State :=
  (s.setCst { s.cst.put k (some { p with bits := .clean }) with correctedSeen := true }).raise .storageCorrected

/-- What a read of the payload of a key under its check code does to the store and its status (R157 to R159): a clean read
changes nothing (DESIGN CHOICE; assumption log, entry 3). -/
def readRecord (k : Key) (s : State) : State :=
  match s.cst.payload k with
  | none => s
  | some p =>
    match p.bits with
    | .clean => s
    | .oneFlipped => correct k p s
    | .twoFlipped => poisonRecord k s

/-- The state after a payload read that is an event's one read: where it poisons the record, the lanes bound to it are
refreshed before the reader goes on (R159, step 5). -/
def readState (k : Key) (s : State) : State :=
  match s.cst.payload k with
  | none => s
  | some p =>
    match p.bits with
    | .clean => s
    | .oneFlipped => correct k p s
    | .twoFlipped => reviewBound k (poisonRecord k s)

/-- What a read of the payload of a key gives: the payload, or none where the record is missing or poisoned,
be it by this read. -/
def readPayload (k : Key) (s : State) : Option Payload :=
  (readState k s).cst.payload k

/-- A payload is written under a new check code, so that its stored bits are those written (R157). -/
def writePayload (k : Key) (p : Payload) (s : State) : State :=
  s.setCst (s.cst.put k (some { p with bits := .clean }))

/-- The read that a refresh of a lane view makes: of the record its point is bound to, if any (R60). The lanes bound to
a record that it poisons are refreshed with the event's own (DESIGN CHOICE; assumption log, entry 24). -/
def readForLane (p : Product) (r : RowId) (s : State) : State :=
  match s.laneCell p r with
  | none => s
  | some k => readRecord k s

/-- The reads that a refresh of both lanes of a row makes. -/
def readForRow (r : RowId) (s : State) : State :=
  readForLane .fert r (readForLane .seed r s)

/-- The keys of the records that a step poisoned, in key order. -/
def newlyPoisoned (old new : Store) : List Key :=
  (old.records.filter fun x => x.payload.isSome && (new.find x.key).any (·.payload.isNone)).map (·.key)

/-- The lanes whose look-ahead points are bound to records that a step poisoned, from an old store to the present one. -/
def State.lanesPoisoned (s : State) (old : Store) : Lanes :=
  fun p r => (s.laneCell p r).any fun k => decide (k ∈ newlyPoisoned old s.cst)

/-- The coverage a store holds at a lane's look-ahead point, for the lane's product. -/
def State.laneCover (s : State) (c : Store) (p : Product) (r : RowId) : Option Cover :=
  match s.row r with
  | none => none
  | some w =>
    match w.point p with
    | none => none
    | some q =>
      (c.payload (cellOf s.settings.cellSide q)).map fun y => (y.cov p).at (subOf s.settings.cellSide q)

/-- The coverage at a lane's look-ahead point differs between an old store and the present one, both holding
the record. -/
def State.coverMoved (s : State) (old : Store) (p : Product) (r : RowId) : Bool :=
  match s.laneCover old p r, s.laneCover s.cst p r with
  | some a, some b => decide (a ≠ b)
  | _, _ => false

/-- The lanes under whose look-ahead points a mark, a settle or an MRG changed coverage, writing their records, are
refreshed (R60, R157). -/
def refreshMoved (old : Store) (s : State) : State :=
  reviewLanes (s.coverMoved old) s

/-! ## Credits (R20, R21) -/

/-- The seed credits that change a record (R20); an unknown delivers none. -/
inductive SeedCredit where
  | matched (sub : Sub)
  | skip
  | extra
deriving DecidableEq, Repr

/-- The payload after a seed credit (R20). -/
def Payload.seedCredited (p : Payload) : SeedCredit → Payload
  | .matched b => { p with placed := satAdd 65535 p.placed 1, seedCov := p.seedCov.mark b }
  | .skip => { p with skips := satAdd 65535 p.skips 1 }
  | .extra => { p with extras := satAdd 65535 p.extras 1 }

/-- The payload after a fertiliser credit (R21). -/
def Payload.fertCredited (p : Payload) (volume : Nat) (b : Sub) : Payload :=
  { p with
    applied := satAdd 4294967295 p.applied volume
    fertCov := if volume = 0 then p.fertCov else p.fertCov.mark b }

/-- A change is delivered to the record of a key: its payload is read, changed and written in one step, and the
lanes under changed coverage are refreshed; at a poisoned record it is dropped (R20, R21, R160). -/
def deliver (k : Key) (f : Payload → Payload) (s : State) : State :=
  match readPayload k s with
  | none => readState k s
  | some p =>
    let t := readState k s
    refreshMoved t.cst (writePayload k (f p) t)

/-- A seed credit is delivered (R20). -/
def creditSeed (c : SeedCredit) (k : Key) (s : State) : State :=
  deliver k (·.seedCredited c) s

/-- A fertiliser credit is delivered to the record of a drop point's cell (R21). -/
def creditFert (volume : Nat) (q : Point) (s : State) : State :=
  deliver (cellOf s.settings.cellSide q)
    (·.fertCredited volume (subOf s.settings.cellSide q)) s

/-! ## Settling (R23, R161) -/

/-- A settle at one record: its payload is read, and a record with fresh sub-squares is rewritten and counted. -/
def settleOne (x : State × Nat) (k : Key) : State × Nat :=
  let t := readRecord k x.1
  match t.cst.payload k with
  | none => (t, x.2)
  | some p => if p.hasFresh then (writePayload k p.settled t, x.2 + 1) else (t, x.2)

/-- The settle of every record in ascending key order, before any lane sees it (R23, R161). The number counts the
non-poisoned records that held a fresh sub-square (R25). -/
def settleRecords (s : State) : State × Nat :=
  (s.cst.records.map (·.key)).foldl settleOne (s, 0)

/-- The lanes that a settle reaches: those over sub-squares it made settled, and those bound to records it poisoned
(R60; DESIGN CHOICE; assumption log, entry 24). -/
def State.lanesSettled (s : State) (old : Store) : Lanes :=
  fun p r => s.coverMoved old p r || s.lanesPoisoned old p r

/-- A settle (R23): the store settles, and the lanes it reaches are refreshed. -/
def settle (s : State) : State × Nat :=
  let x := settleRecords s
  (reviewLanes (x.1.lanesSettled s.cst) x.1, x.2)

/-- A settle at an event that re-decides every lane (R23, R83, R89). -/
def settleAndDecide (s : State) : State × Nat :=
  let x := settleRecords s
  let b := x.1.lanesSettled s.cst
  (x.1.pass fun r => some (Pass.also .decisions (.refresh (b .seed r) (b .fert r))), x.2)

/-! ## Free choices and the miss set (R16; assumption log, entry 7) -/

/-- A list with an element put in at a place. -/
def insertAt {α : Type} : Nat → α → List α → List α
  | 0, x, ys => x :: ys
  | _ + 1, x, [] => [x]
  | n + 1, x, y :: ys => y :: insertAt n x ys

/-- A list in an order that nothing fixes: each element's place is a free choice. -/
def arranged {α : Type} (n : Nat) : List α → List α
  | [] => []
  | [x] => [x]
  | x :: y :: ys => insertAt (Config.choose n (ys.length + 2) % (ys.length + 2)) x (arranged n (y :: ys))

/-- A list with later repeats left out. -/
def distinct {α : Type} [DecidableEq α] (xs : List α) : List α :=
  xs.foldl (fun acc x => if x ∈ acc then acc else acc ++ [x]) []

/-- Keys are offered to the miss set at one event (R16). -/
def offerMisses (keys : List Key) (s : State) : State :=
  match (distinct keys).filter fun k => decide (k ∉ s.cst.misses) with
  | [] => s
  | x :: xs =>
    let new := x :: xs
    let room := 16 - s.cst.misses.length
    { s.setCst
        { s.cst with
          misses := s.cst.misses ++ (arranged s.choices new).take room
          incomplete := s.cst.incomplete || decide (room < new.length) } with
      choices := s.choices + 1 }.raise .miss

/-- A step in which several records may be poisoned by reads of no fixed order: where it gives the storage
status its first-uncorrectable key, that is the key of any of them (R161). -/
def freeFirst (f : State → State) (s : State) : State :=
  let t := f s
  match s.cst.firstKey, newlyPoisoned s.cst t.cst with
  | none, k :: k' :: ks =>
    { t.setCst { t.cst with firstKey := (arranged t.choices (k :: k' :: ks)).head? } with choices := t.choices + 1 }
  | _, _ => t

end Sys2Proof.Machine
end

