-- ==== Sys2Proof/Machine/Receive.lean ====
section
/-! DEFINITION. How a frame is received: what the data out line shifts out, which frames are discarded (R166,
R167), and how the Command Unit takes or refuses a COMMAND frame (R171, R176, R177). -/

namespace Sys2Proof.Machine

/-- The data out line over a frame of `n` byte times: the status byte as it stood at select, then 0 (R166, R169;
DESIGN CHOICE; assumption log, entry 16). -/
def State.shiftOut (s : State) (n : Nat) : State :=
  s.setLnk { s.lnk with dataOut := (s.statusByte :: List.replicate (n - 1) 0).take n }

/-- A frame is discarded: LINK CHECK is raised, and REJECTED is set if its class is COMMAND (R166, R167). -/
def State.discard (s : State) (command : Bool) : State :=
  (s.setLnk { s.lnk with rejected := s.lnk.rejected || command }).raise .linkCheck

/-- A frame of a class with a payload is malformed: its length is above 250, or it is a FIX frame whose payload
is not 17 bytes (R166, R168). -/
def badLengthFor (c : FrameClass) (payload : List Byte) : Bool :=
  decide (250 < payload.length) || (decide (c = .fix) && decide (payload.length ≠ 17))

/-- A frame arrives, with `after` byte times clocked past its check byte. No frame is assembled while the reset
pin is asserted (R178). A malformed frame or one with a wrong check byte is discarded; any other is taken. -/
def arrive (c : FrameClass) (low : BitVec 5) (payload : List Byte) (check : Byte) (after : Nat)
    (taken : State → State) (s : State) : State :=
  if s.inReset then s
  else
    let t := s.shiftOut (3 + payload.length + after)
    if badLengthFor c payload then t.discard (decide (c = .command))
    else if check = frameCheck (header c low) payload then taken t
    else t.discard (decide (c = .command))

/-- A COMMAND frame is refused: REJECTED is set and nothing else changes (R171). -/
def State.refuse (s : State) : State :=
  s.setLnk { s.lnk with rejected := true }

/-- A command is taken: REJECTED is cleared (R171). -/
def State.accept (s : State) : State :=
  s.setLnk { s.lnk with rejected := false }

/-- A COMMAND frame of a code arrives: taken in IDLE, refused while a command is in progress (R171). -/
def takeCommand (code : BitVec 5) (c : Cmd) (run : List Byte → State → State) (s : State) : State :=
  arrive .command code c.payload c.check 0
    (fun t => if t.busy then t.refuse else run c.payload t.accept) s

/-- ABRT and RSTR: taken in IDLE, and with an empty payload also while a command is in progress (R171). -/
def takeAlways (code : BitVec 5) (c : Cmd) (run : List Byte → State → State) (s : State) : State :=
  arrive .command code c.payload c.check 0
    (fun t => if t.busy ∧ c.payload ≠ [] then t.refuse else run c.payload t.accept) s

/-- A command whose payload must have `n` bytes: another length completes BAD LENGTH (R180). -/
def withLength (n : Nat) (run : List Byte → State → State) (p : List Byte) (s : State) : State :=
  if p.length = n then run p s else s.complete (.plain .badLength)

/-- An event of the field lines or of a timer: while the reset pin is asserted it changes nothing (R178;
assumption log, entry 6). -/
def whenReleased (f : State → State) (s : State) : State :=
  if s.inReset then s else f s

end Sys2Proof.Machine
end

