-- ==== Sys2Proof/Machine/Priming.lean ====
section
/-! DEFINITION. Priming (R94 to R99): its start, its end on a row by count or by stall, and its completion. -/

namespace Sys2Proof.Machine

/-- A row's seed lane is in PRIMING. -/
def Row.priming (w : Row) : Bool :=
  match w.seed.state with
  | .priming _ => true
  | .lane _ => false

/-- A row with its seed lane in PRIMING and `n` holes to go (R95). -/
def Row.primed (w : Row) (n : Nat) : Row :=
  { w with seed := { w.seed with state := .priming n } }

/-- A row whose seed lane has left PRIMING, before it is decided. -/
def Row.unprimed (w : Row) : Row :=
  { w with seed := { w.seed with state := .lane .parked } }

/-- A decision of the seed lane alone. -/
def Pass.seedDecision : Pass := ⟨false, false, false, true, false⟩

/-- The rows of a set start priming: their meters are driven at the priming drive speed (R90, R95). -/
def startPriming (n : Nat) (rows : RowSet) (s : State) : State :=
  (s.mapRows fun r w => if rowIn r rows then w.primed n else w).pass
    fun r => if rowIn r rows then some .outputs else none

/-- The priming of the rows of a set ends: their seed lanes are decided from step 2 of R85, and their outputs follow
(R96, R97, R99). -/
def endPriming (rows : RowSet) (s : State) : State :=
  (s.mapRows fun r w => if rowIn r rows then w.unprimed else w).pass
    fun r => if rowIn r rows then some .seedDecision else none

/-- The completion record of PRIM with a code: the rows ended by count, those ended by stall, and their set
(R98, R99). -/
def primRecord (c : Code) (named still stalled : RowSet) : Completion :=
  { Completion.counts c (rowCount (named &&& ~~~still &&& ~~~stalled)) (rowCount stalled) with
    payload := leBytes 4 stalled.toNat }

/-- A row leaves the set of rows still priming, joining those ended by stall or not; PRIM completes OK when the
set becomes empty (R96 to R98). -/
def leavePriming (r : RowId) (byStall : Bool) (s : State) : State :=
  match s.cmu.progress with
  | .prim named still stalled =>
    let still' := still &&& ~~~rowBit r
    let stalled' := if byStall then stalled ||| rowBit r else stalled
    if still' = 0 then s.complete (primRecord .ok named still' stalled')
    else s.setCmu { s.cmu with progress := .prim named still' stalled' }
  | _ => s

/-- A hole event on a priming row lowers its remaining hole count; at 0 its priming ends by count (R96). -/
def primingHole (r : RowId) (s : State) : State :=
  match s.row r with
  | none => s
  | some w =>
    match w.seed.state with
    | .priming n =>
      if n ≤ 1 then leavePriming r false (endPriming (rowBit r) s) else s.modRow r (·.primed (n - 1))
    | .lane _ => s

/-- The entry of METER STALL handed to the Row Engine: a priming row's priming ends by stall (R97). -/
def primingStall (r : RowId) (s : State) : State :=
  match s.row r with
  | none => s
  | some w => if w.priming then leavePriming r true (endPriming (rowBit r) s) else s

end Sys2Proof.Machine
end

