-- ==== Sys2Proof/Machine/Flight.lean ====
section
/-! DEFINITION. The seed flight commands (R103 to R120): hole events, sensed seeds, occlusions, expiries, stalls and
the synthesis of SHADOW, each for one row. -/

namespace Sys2Proof.Machine

/-! ## Outcomes and blockage (R112 to R114) -/

/-- A row's flight state changed. -/
def modFlight (r : RowId) (f : Flight → Flight) (s : State) : State :=
  s.modRow r fun w => { w with sfm := f w.sfm }

/-- An outcome joins the window, which keeps the most recent 32 (R112). -/
def joined (window : List Seen) (x : Seen) : List Seen :=
  (window ++ [x]).drop (window.length + 1 - 32)

/-- The number of matched outcomes in a window. -/
def matchedCount (window : List Seen) : Nat :=
  window.countP fun x => decide (x = .matched)

/-- The flight state after a matched outcome, before the test of R114. -/
def Flight.matched (f : Flight) : Flight :=
  { f with skipRun := 0, window := joined f.window .matched }

/-- The flight state after a skip outcome, before the test of R113. -/
def Flight.skipped (f : Flight) : Flight :=
  { f with skipRun := satAdd 65535 f.skipRun 1, window := joined f.window .skip }

/-- A matched outcome on a row, and its exit from BLOCKED (R112, R114). -/
def noteMatched (r : RowId) (s : State) : State :=
  match s.row r with
  | none => s
  | some w =>
    let f := w.sfm.matched
    if f.blocked ∧ s.settings.recovery ≤ matchedCount f.window then
      (modFlight r (fun _ => { f with blocked := false }) s).raiseHealth r
    else modFlight r (fun _ => f) s

/-- A skip outcome on a row, and its entry into BLOCKED, which empties the window (R112, R113). -/
def noteSkip (r : RowId) (s : State) : State :=
  match s.row r with
  | none => s
  | some w =>
    let f := w.sfm.skipped
    if f.blocked = false ∧ s.settings.blockageRun ≤ f.skipRun then
      (modFlight r (fun _ => { f with blocked := true, window := [] }) s).raiseHealth r
    else modFlight r (fun _ => f) s

/-! ## Resolutions (R106, R107, R109, R110) -/

/-- The oldest entry leaves its queue, and with it its reference (R14, R15). -/
def dropOldest (r : RowId) (s : State) : State :=
  modFlight r (fun f => { f with queue := f.queue.tail }) s

/-- The oldest entry of a row's queue. -/
def State.oldest (s : State) (r : RowId) : Option Entry :=
  (s.row r).bind fun w => w.sfm.queue.head?

/-- The credit of an entry is delivered to its target; an entry with the target *none* delivers none (R20). -/
def creditEntry (e : Entry) (c : Sub → SeedCredit) (s : State) : State :=
  match e.target with
  | none => s
  | some t => creditSeed (c t.2) t.1 s

/-- The oldest entry is resolved as matched: credit, outcome, release (R107, R110). -/
def resolveMatched (r : RowId) (s : State) : State :=
  match s.oldest r with
  | none => s
  | some e => dropOldest r (noteMatched r (creditEntry e .matched s))

/-- The oldest entry is resolved as a skip: credit, outcome, release (R106, R109, R110). -/
def resolveSkip (r : RowId) (s : State) : State :=
  match s.oldest r with
  | none => s
  | some e => dropOldest r (noteSkip r (creditEntry e (fun _ => .skip) s))

/-- The row holds SENSOR STUCK. -/
def State.sensorStuck (s : State) (r : RowId) : Bool :=
  (s.row r).any (·.sfm.stuck)

/-- The oldest entry is resolved by expiry or by overflow: a skip, or unknown while the row holds SENSOR STUCK
(R106, R109). -/
def resolveUnseen (r : RowId) (s : State) : State :=
  if s.sensorStuck r then dropOldest r s else resolveSkip r s

/-! ## Hole events (R104 to R106) -/

/-- The flight state after a hole event at `now`: METER STALL cleared, and the stall timer restarted while the
port carries 50 or more (R104, R116). -/
def Row.holed (w : Row) (now stallTime : Nat) : Row :=
  { w with sfm :=
      { w.sfm with stalled := false, stallDue := if 50 ≤ w.seed.drive then some (now + stallTime) else none } }

/-- What every hole event does in every device mode: the stall timer and METER STALL (R104, R116). -/
def holeSeen (r : RowId) (s : State) : State :=
  match s.row r with
  | none => s
  | some w =>
    let t := s.modRow r (·.holed s.now s.settings.stallTime)
    if w.sfm.stalled then t.raiseHealth r else t

/-- The credit target of a new entry, from the seed lane view as it stands (R105). -/
def State.creditTarget (s : State) (w : Row) : Option (Key × Sub) :=
  match w.seed.view.outcome, w.seed.view.key, w.seed.point with
  | .found, some k, some q => some (k, subOf s.settings.cellSide q)
  | _, _, _ => none

/-- A full queue forces its oldest entry out, setting *overflow seen* (R106; DEDUCED; assumption log, entry 12). -/
def overflow (resolve : State → State) (r : RowId) (s : State) : State :=
  match s.row r with
  | none => s
  | some w =>
    if 8 ≤ w.sfm.queue.length then modFlight r (fun f => { f with overflowSeen := true }) (resolve s) else s

/-- An entry made at `now` with a target joins the row's queue as the newest (R103, R105). -/
def joinEntry (r : RowId) (target : State → Row → Option (Key × Sub)) (s : State) : State :=
  s.modRow r fun w =>
    { w with sfm :=
        { w.sfm with queue :=
            w.sfm.queue ++ [⟨s.now, s.now + s.settings.transitLimit, target s w⟩] } }

/-- A hole event on a configured row, by mode and priming (R104). -/
def holePassed (r : RowId) (s : State) : State :=
  let t := holeSeen r s
  match t.cmu.mode with
  | .field => joinEntry r State.creditTarget (overflow (resolveUnseen r) r t)
  | .idle => primingHole r t
  | .shadow => t

/-- HOLE_EVENT: the meter drive port of a row reports a hole passing (R104). -/
def execHoleEvent (row : RowId) (s : State) : Host.Outcome State Fault Refusal :=
  .next (whenReleased (fun s => if (s.row row).isSome then holePassed row s else s) s)

/-! ## Sensed seeds and occlusions (R107, R108, R115) -/

/-- The stuck time, in ms (R115). -/
def stuckTime : Nat := 500

/-- A row's sensor line input takes a level (DESIGN CHOICE; assumption log, entry 18). -/
def State.lineAt (s : State) (r : RowId) (l : Line) : State :=
  s.setPins { s.pins with seedLines := s.pins.seedLines.set r.val l }

/-- The level of a row's sensor line input. -/
def State.lineOf (s : State) (r : RowId) : Line :=
  s.pins.seedLines[r.val]

/-- An extra: *underflow seen*, and a credit to the record bound to the seed look-ahead point (R108). -/
def extraSeed (r : RowId) (s : State) : State :=
  let t := modFlight r (fun f => { f with underflowSeen := true }) s
  match s.row r with
  | none => t
  | some w =>
    match w.seed.view.outcome, w.seed.view.key with
    | .found, some k => creditSeed .extra k t
    | _, _ => t

/-- A sensed seed in FIELD: the oldest entry is matched, or the seed is an extra (R107, R108). -/
def seedSensed (r : RowId) (s : State) : State :=
  if (s.oldest r).isSome then resolveMatched r s else extraSeed r s

/-- An occlusion starts on a configured row: its timer starts, and in FIELD the seed is taken (R107, R115). -/
def occlusionStarts (r : RowId) (s : State) : State :=
  let t := modFlight r (fun f => { f with line := .occluded, occlusionDue := some (s.now + stuckTime) }) s
  if t.cmu.mode = .field then seedSensed r t else t

/-- SENSED_SEED: a row's sensor line goes from CLEAR to OCCLUDED (R107, R115). While the reset pin is asserted, and
on an unconfigured row, only the level is followed; a line already OCCLUDED makes no sensed seed. -/
def execSensedSeed (row : RowId) (s : State) : Host.Outcome State Fault Refusal :=
  let t := s.lineAt row .occluded
  .next (if s.inReset ∨ s.lineOf row = .occluded ∨ (s.row row).isSome = false then t else occlusionStarts row t)

/-- An occlusion ends on a configured row: its timer stops and SENSOR STUCK is cleared (R115). -/
def occlusionEnds (r : RowId) (s : State) : State :=
  let t := modFlight r (fun f => { f with line := .clear, occlusionDue := none, stuck := false }) s
  if s.sensorStuck r then t.raiseHealth r else t

/-- OCCLUSION_END: a row's sensor line goes from OCCLUDED to CLEAR (R115). -/
def execOcclusionEnd (row : RowId) (s : State) : Host.Outcome State Fault Refusal :=
  let t := s.lineAt row .clear
  .next (if s.inReset ∨ s.lineOf row = .clear ∨ (s.row row).isSome = false then t else occlusionEnds row t)

/-- A timer of a row's flight state has come to the moment it runs out (DEDUCED; assumption log, entry 2). -/
def State.flightDue (s : State) (r : RowId) (timer : Flight → Option Nat) : Bool :=
  (s.row r).any fun w => (timer w.sfm).any fun t => decide (t ≤ s.now)

/-- The occlusion timer runs out: the row enters SENSOR STUCK (R115). -/
def enterStuck (r : RowId) (s : State) : State :=
  let t := modFlight r (fun f => { f with occlusionDue := none, stuck := true }) s
  if s.sensorStuck r then t else t.raiseHealth r

/-- OCCLUSION_TIMER_EXPIRY: an occlusion has lasted 500 ms (R115). -/
def execOcclusionTimerExpiry (row : RowId) (s : State) : Host.Outcome State Fault Refusal :=
  .next (whenReleased (fun s => if s.flightDue row (·.occlusionDue) then enterStuck row s else s) s)

/-! ## Expiry and stall (R109, R116) -/

/-- The deadline of a row's oldest entry has come (DEDUCED; assumption log, entry 2). -/
def State.entryDue (s : State) (r : RowId) : Bool :=
  (s.oldest r).any fun e => decide (e.deadline ≤ s.now)

/-- ENTRY_EXPIRY: the deadline of the oldest entry passes in FIELD (R109). A synthetic entry does not expire
(R120). -/
def execEntryExpiry (row : RowId) (s : State) : Host.Outcome State Fault Refusal :=
  .next (whenReleased
    (fun s => if s.cmu.mode = .field ∧ s.entryDue row = true then resolveUnseen row s else s) s)

/-- The row holds METER STALL. -/
def State.meterStalled (s : State) (r : RowId) : Bool :=
  (s.row r).any (·.sfm.stalled)

/-- The stall timer runs out: the row enters METER STALL, if it does not hold it, and the entry is handed to the
Row Engine (R97, R116). -/
def enterStall (r : RowId) (s : State) : State :=
  let t := modFlight r (fun f => { f with stallDue := none, stalled := true }) s
  primingStall r (if s.meterStalled r then t else t.raiseHealth r)

/-- STALL_TIMER_EXPIRY: a driven meter has reported no hole for the stall time (R116). -/
def execStallTimerExpiry (row : RowId) (s : State) : Host.Outcome State Fault Refusal :=
  .next (whenReleased (fun s => if s.flightDue row (·.stallDue) then enterStall row s else s) s)

/-! ## Synthesis in SHADOW (R119, R120) -/

/-- The microholes of one hole (R119). -/
def holeMicros : Nat := 1000000

/-- The synthesis accumulator of a row has reached one hole in SHADOW (DEDUCED; assumption log, entries 2 and 19). -/
def State.synthDue (s : State) (r : RowId) : Bool :=
  decide (s.cmu.mode = .shadow) && (s.row r).any fun w => decide (holeMicros ≤ w.sfm.synth)

/-- A synthetic hole event: one hole is taken off the accumulator and a synthetic entry is made; a full queue
overflows with no outcome (R112, R119, R120). -/
def synthHole (r : RowId) (s : State) : State :=
  let t := modFlight r (fun f => { f with synth := f.synth - holeMicros }) s
  joinEntry r (fun _ _ => none) (overflow (dropOldest r) r t)

/-- SYNTHETIC_HOLE_EVENT (R119, R120). -/
def execSyntheticHoleEvent (row : RowId) (s : State) : Host.Outcome State Fault Refusal :=
  .next (whenReleased (fun s => if s.synthDue row then synthHole row s else s) s)

/-- Half the transit limit has passed since the release of the oldest synthetic entry, truncated to whole ms
(R120). -/
def State.synthSensedDue (s : State) (r : RowId) : Bool :=
  decide (s.cmu.mode = .shadow)
    && (s.oldest r).any fun e => decide (e.release + (e.deadline - e.release) / 2 ≤ s.now)

/-- SYNTHETIC_SENSED_SEED: the oldest synthetic entry is resolved as matched, with no credit and no outcome
(R112, R120). -/
def execSyntheticSensedSeed (row : RowId) (s : State) : Host.Outcome State Fault Refusal :=
  .next (whenReleased (fun s => if s.synthSensedDue row then dropOldest row s else s) s)

end Sys2Proof.Machine
end

