-- ==== Sys2Proof/Machine/Clock.lean ====
section
/-! DEFINITION. What one millisecond does when no command waits (assumption log, entries 1, 3 and 17): the clock, the
synthesis accumulators (R119) and the storage upsets that come (R157). -/

namespace Sys2Proof.Machine

/-- A storage upset hits the payload of a record, where it is held and not poisoned (R157). -/
def Store.upset (c : Store) (u : Upset) : Store :=
  match c.payload u.key with
  | none => c
  | some y => c.put u.key (some { y with bits := u.bits })

/-- The upsets of this millisecond hit the store. -/
def takeUpsets (s : State) : State :=
  match s.upsets with
  | [] => s
  | us :: rest => { s.setCst (us.foldl Store.upset s.cst) with upsets := rest }

/-- The synthesis accumulator of a RUNNING seed lane in SHADOW rises by s × H microholes in a millisecond (R119). -/
def Row.synthesised (w : Row) : Row :=
  if w.seed.state = .lane .running then
    { w with sfm := { w.sfm with synth := w.sfm.synth + w.seed.s * w.ctx.holes } }
  else w

/-- The accumulators after a millisecond. -/
def riseAll (s : State) : State :=
  if s.cmu.mode = .shadow then s.mapRows (fun _ => Row.synthesised) else s

/-- One millisecond passes. -/
def tick (s : State) : State :=
  let t := { s with now := s.now + 1 }
  takeUpsets (if s.inReset then t else riseAll t)

end Sys2Proof.Machine
end

