-- ==== Sys2Proof/Machine/Flow.lean ====
section
/-! DEFINITION. The Flow Scanner: the scan (R122 to R125) and a completed conversion with its five steps
(R126 to R135). -/

namespace Sys2Proof.Machine

/-! ## The scan (R123 to R125) -/

/-- A configured row that is enabled and has a fertiliser channel (R123). -/
def Row.scanned (w : Row) : Bool :=
  w.ctx.enabled && w.ctx.channel.isSome

/-- The scan list, in ascending row number; it is derived from the row contexts (R123, R136; DEDUCED; assumption log,
entry 8). -/
def State.scanList (s : State) : List RowId :=
  rowIds.filter fun r => (s.row r).any (·.scanned)

/-- The row of a scan list after a row: the next in ascending number, or the first again (R124). -/
def rowAfter (list : List RowId) (r : RowId) : Option RowId :=
  match list.find? fun x => decide (r.val < x.val) with
  | some x => some x
  | none => list.head?

/-- The conversion of a row starts now, and the scan position moves to the row after it (R124). -/
def startConversion (r : Option RowId) (s : State) : State :=
  match r with
  | none => s.setFsc { s.fsc with inFlight := none, position := none }
  | some x =>
    s.setFsc { s.fsc with inFlight := some ⟨x, s.now⟩, position := rowAfter s.scanList x }

/-- The scan starts from the first row of the scan list (R124, R125). -/
def restartScan (s : State) : State :=
  startConversion s.scanList.head? s

/-- A row's flow state changed; a row without a fertiliser lane has none. -/
def modFlow (r : RowId) (f : FlowState → FlowState) (s : State) : State :=
  s.modRow r fun w => { w with fert := w.fert.map fun l => { l with flow := f l.flow } }

/-- A row whose time of previous conversion is put to none (R123, R128). -/
def Row.timeForgotten (w : Row) : Row :=
  { w with fert := w.fert.map fun l => { l with flow := { l.flow with prevTime := none } } }

/-- A run begins: STRT has set FIELD (R124, R128). -/
def startRun (s : State) : State :=
  let t := s.mapRows fun _ => Row.timeForgotten
  restartScan (t.setFsc { t.fsc with scanning := true })

/-- A run ends: the conversion in flight is abandoned and the scanner stops (R125, R128, R136). -/
def endRun (s : State) : State :=
  (s.mapRows fun _ => Row.timeForgotten).setFsc Scanner.stopped

/-! ## One completed conversion (R126) -/

/-- The state of a row's fertiliser lane, where it has one. -/
def State.fertOf (s : State) (r : RowId) : Option FertLane :=
  (s.row r).bind (·.fert)

/-- The row's flow state, where it has one. -/
def State.flowOf (s : State) (r : RowId) : Option FlowState :=
  (s.fertOf r).map (·.flow)

/-- The row's fertiliser lane is RUNNING. -/
def State.fertRunning (s : State) (r : RowId) : Bool :=
  (s.fertOf r).any fun l => decide (l.state = .running)

/-- The row holds SENSOR FAULT. -/
def State.inFault (s : State) (r : RowId) : Bool :=
  (s.flowOf r).any (·.sensorFault)

/-- The measured flow of a code on a row (R73). -/
def State.measured (s : State) (r : RowId) (code : AdcCode) : Nat :=
  match s.row r with
  | none => 0
  | some w => measuredFlow code w.ctx

/-- Step 1: an in-range reading replaces the row's last flow; a rail reading keeps it (R73, R126). -/
def flowStep (r : RowId) (code : AdcCode) (s : State) : State :=
  if isRail code then s else modFlow r (fun f => { f with lastFlow := s.measured r code }) s

/-- The runs of a row after a reading, before SENSOR FAULT follows them (R127). -/
def FlowState.counted (f : FlowState) (rail : Bool) : FlowState :=
  if rail then { f with railRun := satAdd 3 f.railRun 1, inRun := 0 }
  else { f with inRun := satAdd 3 f.inRun 1, railRun := 0 }

/-- SENSOR FAULT after a reading: entered at the third rail reading, left at the third in-range one (R127). -/
def FlowState.faultAfter (f : FlowState) (rail : Bool) : Bool :=
  if rail then f.sensorFault || decide (f.railRun = 3) else f.sensorFault && decide (f.inRun ≠ 3)

/-- Step 2: the sensor fault runs; HEALTH at each entry and exit (R127, R135). -/
def faultStep (r : RowId) (code : AdcCode) (s : State) : State :=
  match s.flowOf r with
  | none => s
  | some f =>
    let g := f.counted (isRail code)
    let fault := g.faultAfter (isRail code)
    let t := modFlow r (fun _ => { g with sensorFault := fault }) s
    if fault = f.sensorFault then t else t.raiseHealth r

/-- The flow a credit is formed from: none at a rail reading outside SENSOR FAULT, the target flow in SENSOR FAULT,
else the measured flow (R129, R130; DEDUCED; assumption log, entry 14). -/
def State.creditFlow (s : State) (r : RowId) (code : AdcCode) : Option Nat :=
  match s.fertOf r with
  | none => none
  | some l =>
    if l.flow.sensorFault then some l.f
    else if isRail code then none
    else some (s.measured r code)

/-- A volume is delivered to the record under a row's drop point, or lost where the drop point does not exist or is
unbound (R21, R129; DEDUCED; assumption log, entry 11). -/
def deliverVolume (r : RowId) (volume : Nat) (s : State) : State :=
  match (s.row r).bind (·.drop) with
  | none => s
  | some q => creditFert volume q s

/-- Step 3: a RUNNING lane's volume is credited and *estimated* follows how it was formed; then the time of the
previous conversion becomes now (R126, R129, R130). -/
def creditStep (r : RowId) (code : AdcCode) (s : State) : State :=
  let interval := intervalOf ((s.flowOf r).bind (·.prevTime)) s.now
  let t :=
    if s.fertRunning r then
      match s.creditFlow r code with
      | none => s
      | some flow =>
        deliverVolume r (volumeOf flow interval) (modFlow r (fun f => { f with estimated := f.sensorFault }) s)
    else s
  modFlow r (fun f => { f with prevTime := some s.now }) t

/-- The entry test of NO FLOW is made on a row that does not hold it (R132). -/
def State.lowTested (s : State) (r : RowId) (code : AdcCode) : Bool :=
  !(isRail code) && decide (s.cmu.mode = .field) && s.fertRunning r && !(s.inFault r)
    && (s.fertOf r).any fun l => decide (100 ≤ l.duty)

/-- The exit test of NO FLOW is made on a row that holds it (R133). -/
def State.exitTested (s : State) (r : RowId) (code : AdcCode) : Bool :=
  !(isRail code) && decide (s.cmu.mode = .field) && !(s.inFault r)

/-- The low-flow run after a conversion of a row that does not hold NO FLOW (R132). -/
def lowRunAfter (tested : Bool) (measured target run : Nat) : Nat :=
  if tested ∧ measured < target / 4 then satAdd 10 run 1 else 0

/-- Step 4: the NO FLOW test; HEALTH at each entry and exit (R132, R133, R135). -/
def noFlowStep (r : RowId) (code : AdcCode) (s : State) : State :=
  match s.fertOf r with
  | none => s
  | some l =>
    if l.flow.noFlow then
      if s.exitTested r code = true ∧ l.f / 2 ≤ s.measured r code then
        (modFlow r (fun f => { f with noFlow := false }) s).raiseHealth r
      else s
    else
      let run := lowRunAfter (s.lowTested r code) (s.measured r code) l.f l.flow.lowRun
      if run = 10 then
        (modFlow r (fun f => { f with noFlow := true, lowRun := 0 }) s).raiseHealth r
      else modFlow r (fun f => { f with lowRun := run }) s

/-- The conditions of a trim update (R131). -/
def State.trimDue (s : State) (r : RowId) (code : AdcCode) : Bool :=
  !(isRail code) && decide (s.cmu.mode = .field) && s.fertRunning r && !(s.inFault r)

/-- Step 5: the trim is updated and the row computed anew (R74, R131). -/
def trimStep (r : RowId) (code : AdcCode) (s : State) : State :=
  match s.row r with
  | none => s
  | some w =>
    match w.fert with
    | none => s
    | some l =>
      if s.trimDue r code then
        passRow .results r
          (modFlow r (fun f => { f with trim := trimmed f.trim l.f (s.measured r code) w.ctx.valveFull }) s)
      else s

/-- A conversion of a row completes with a code: the five steps in order (R126). Where the credit of step 3 poisons the
record under the row's own look-ahead point, steps 4 and 5 read the lane it leaves (DESIGN CHOICE; assumption log, entry
25). -/
def takeCode (r : RowId) (code : AdcCode) (s : State) : State :=
  trimStep r code (noFlowStep r code (creditStep r code (faultStep r code (flowStep r code s))))

/-- The conversion in flight has had its 2 ms (R124; DEDUCED; assumption log, entry 2). -/
def State.conversionDue (s : State) : Option RowId :=
  match s.fsc.inFlight with
  | none => none
  | some c => if c.start + 2 ≤ s.now then some c.row else none

/-- CONVERSION_COMPLETE: the conversion in flight completes with a code, and that of the row at the scan position
starts (R124, R126). -/
def execConversionComplete (code : AdcCode) (s : State) : Host.Outcome State Fault Refusal :=
  .next (whenReleased
    (fun s =>
      match s.conversionDue with
      | none => s
      | some r => let t := takeCode r code s; startConversion t.fsc.position t) s)

end Sys2Proof.Machine
end

