-- ==== Sys2Proof/Machine/Motion.lean ====
section
/-! DEFINITION. The motion commands (R28 to R46): fixes, the fix timers, the ground speed pulses and windows, and
the work switch; with them the Row Engine's update at an accepted fix (R55 to R58). -/

namespace Sys2Proof.Machine

/-! ## Speed samples (R40, R41) -/

/-- The pulse speed (R36). -/
def Motion.pulseSpeed (m : Motion) : Nat :=
  match m.pulseState with
  | .active => m.filtered
  | .holding => m.filtered
  | .silent => 0

/-- The reference speed under an effective source of FIX (R40). -/
def Motion.fixSpeed (m : Motion) : Nat :=
  match m.fixState, m.fix with
  | .current, some f => f.speed
  | .stale, some f => f.speed
  | _, _ => 0

/-- The reference speed is set, before the rows are computed. -/
def State.setVRef (s : State) (v : Nat) : State :=
  s.setMot { s.mot with vRef := v }

/-- A speed sample: the reference speed is handed on and every row computed (R41). -/
def speedSample (v : Nat) (s : State) : State :=
  computeAll (s.setVRef v)

/-! ## The tests for SPEED SILENT and fallback (R37, R38) -/

/-- The last accepted fix is CURRENT with a speed of 300 mm/s or more. -/
def Motion.fixMoving (m : Motion) : Bool :=
  decide (m.fixState = .current) && m.fix.any fun f => decide (300 ≤ f.speed)

/-- SPEED SILENT is raised, once in a spell of SILENT, under a configured source of PULSE (R37). -/
def testSilence (s : State) : State :=
  if s.settings.speedSource = .pulse ∧ s.mot.pulseState = .silent ∧ s.mot.silenceReported = false
      ∧ s.mot.fixMoving = true then
    (s.setMot { s.mot with silenceReported := true }).raise .speedSilent
  else s

/-- The conditions of fallback hold while the effective source is PULSE (R38). -/
def State.fallbackDue (s : State) : Bool :=
  decide (s.mot.source = .pulse) && decide (s.settings.speedSource = .pulse) && s.settings.fallback
    && decide (s.mot.pulseState = .silent) && s.mot.fixMoving

/-- The fallback test (R38): the effective source goes to FIX with the fix speed as the reference speed, and
SPEED FALLBACK is raised. The rows are computed by the caller. -/
def testFallback (s : State) : State :=
  if s.fallbackDue then
    (s.setMot { s.mot with source := .fix, vRef := s.mot.fixSpeed }).raise .speedFallback
  else s

/-! ## Placement at an accepted fix (R55 to R58) -/

/-- A row with its points placed from a fix and the reference speed and yaw rate in force (R55, R56; R58, steps
1 to 3). -/
def State.placedRow (s : State) (f : Fix) (w : Row) : Row :=
  let c := w.ctx
  let vr := rowSpeed s.mot.vRef s.mot.yawRef c.lat
  { w with
    seed := { w.seed with point := some (placed f c.lat c.fa (lookAhead vr s.settings.seedLatency)) }
    fert := w.fert.map fun l =>
      { l with
        look := some (placed f c.lat c.fa (lookAhead vr s.settings.fertLatency))
        drop := some (placed f c.lat c.fa 0) } }

/-- The key a look-ahead point offers: its cell, if the point came to lie there at this fix and no record of the
key is held (R16). -/
def State.offered (s : State) (prev : Option Key) (pt : Option Point) : List Key :=
  match pt with
  | none => []
  | some q =>
    let k := cellOf s.settings.cellSide q
    if prev ≠ some k ∧ s.cst.holds k = false then [k] else []

/-- The keys the look-ahead points of one row offer (R16). -/
def State.rowOffers (s : State) (r : RowId) : List Key :=
  match s.row r with
  | none => []
  | some w =>
    s.offered w.seed.prevCell w.seed.point
      ++ (match w.fert with | none => [] | some l => s.offered l.prevCell l.look)

/-- A row whose look-ahead points remember the cells they lie in (R16). -/
def Row.notedCells (w : Row) (side : CellSide) : Row :=
  { w with
    seed := { w.seed with prevCell := w.seed.point.map (cellOf side) }
    fert := w.fert.map fun l => { l with prevCell := l.look.map (cellOf side) } }

/-- The Row Engine's update at an accepted fix (R58): the points of every configured row are placed, their bindings
follow (R10), the look-ahead points offer missing keys, the lanes' records are read, and every row is made anew once
(DEDUCED; assumption log, entry 9; DESIGN CHOICE; assumption log, entry 24). -/
def rowFixUpdate (f : Fix) (s : State) : State :=
  let a := s.mapRows fun _ => s.placedRow f
  let b := offerMisses (rowIds.flatMap a.rowOffers) a
  let c := b.mapRows fun _ w => w.notedCells s.settings.cellSide
  (freeFirst (forRows readForRow) c).pass fun _ => some .everything

/-! ## Fixes (R28 to R30) -/

/-- A fix with its heading components clamped (R29). -/
def Fix.headingClamped (f : Fix) : Fix :=
  { f with hE := clampInt (-16384) 16384 f.hE, hN := clampInt (-16384) 16384 f.hN }

/-- A fix is rejected (R28); the heading is tested after its clamp. -/
def Fix.rejected (f : Fix) : Bool :=
  let g := f.headingClamped
  let h := g.hE * g.hE + g.hN * g.hN
  decide (f.quality = .none)
    || decide (f.e < -3000000) || decide (3000000 < f.e) || decide (f.n < -3000000) || decide (3000000 < f.n)
    || decide (h < 251658240) || decide (285212672 < h)

/-- A fix as it is kept when accepted (R29). -/
def Fix.clamped (f : Fix) : Fix :=
  { f.headingClamped with omega := clampInt (-3000) 3000 f.omega, speed := min 10000 f.speed }

/-- The Motion Unit after a fix is accepted at `now`, before the silence and fallback tests (R30, R33). -/
def Motion.accepted (m : Motion) (f : Fix) (now : Nat) : Motion :=
  { m with
    fix := some f
    fixState := .current
    fixTimers := some now
    yawRef := f.omega
    vRef := if m.source = .fix then f.speed else m.vRef }

/-- An accepted fix (R30): the motion state, the tests made against it while SILENT, and the rows, computed
once. -/
def acceptFix (f : Fix) (s : State) : State :=
  rowFixUpdate f (testFallback (testSilence (s.setMot (s.mot.accepted f s.now))))

/-- A FIX frame's fix is rejected, changing no motion state, or clamped and accepted (R28, R29). -/
def takeFix (f : Fix) (s : State) : State :=
  if f.rejected then s.raise .fixRejected else acceptFix f.clamped s

/-- FIX_FRAME: a FIX frame is passed to the Motion Unit in every Command Unit state (R28, R168). -/
def execFixFrame (f : Frame) (s : State) : Host.Outcome State Fault Refusal :=
  .next (arrive .fix f.low f.payload f.check 0 (takeFix (fixAt f.payload)) s)

/-! ## The fix timers (R31, R33) -/

/-- A time has passed since the last accepted fix, with the fix timers running (DEDUCED; assumption log, entry 2). -/
def State.fixAged (s : State) (ms : Nat) : Bool :=
  s.mot.fixTimers.any fun t => decide (t + ms ≤ s.now)

/-- Entry to STALE (R31). -/
def enterStale (s : State) : State :=
  (s.setMot { s.mot with fixState := .stale }).raise .fixStale

/-- Entry to LOST (R31): FIX LOST is raised, the reference yaw rate becomes 0 and, under an effective source of
FIX, the reference speed too; every row is computed (R54) and every lane re-decided (R89). -/
def enterLost (s : State) : State :=
  let m := s.mot
  let t := s.setMot
    { m with fixState := .lost, fixTimers := none, yawRef := 0, vRef := if m.source = .fix then 0 else m.vRef }
  (t.raise .fixLost).pass fun _ => some (.also .results .decisions)

/-- STALE_TIMER_EXPIRY: 1000 ms after the last accepted fix, CURRENT becomes STALE (R31). -/
def execStaleTimerExpiry (s : State) : Host.Outcome State Fault Refusal :=
  .next (whenReleased (fun s => if s.mot.fixState = .current ∧ s.fixAged 1000 = true then enterStale s else s) s)

/-- LOST_TIMER_EXPIRY: at the fix lost limit, STALE becomes LOST (R31). -/
def execLostTimerExpiry (s : State) : Host.Outcome State Fault Refusal :=
  .next (whenReleased
    (fun s => if s.mot.fixState = .stale ∧ s.fixAged s.settings.lostLimit = true then enterLost s else s) s)

/-! ## Ground speed pulses and windows (R34 to R39) -/

/-- GROUND_SPEED_PULSE: the pulse count of the window in progress rises by one, saturating (R34). -/
def execGroundSpeedPulse (s : State) : Host.Outcome State Fault Refusal :=
  .next (whenReleased (fun s => s.setMot { s.mot with pulses := satAdd 65535 s.mot.pulses 1 }) s)

/-- The Motion Unit after a window with pulses closes, but for the effective source (R34 to R36; DEDUCED; assumption
log, entry 20). -/
def Motion.windowWithPulses (m : Motion) (c : Settings) : Motion :=
  { m with
    pulses := 0
    windowStart := m.windowStart + 100
    filtered := filteredAfter c.filter (rawSpeed m.pulses c.pulsesPer100m)
      (if m.pulseState = .silent then 0 else m.filtered)
    pulseState := .active
    zeroRun := 0
    pulseRun := satAdd 65535 m.pulseRun 1
    silenceReported := if m.pulseState = .silent then false else m.silenceReported }

/-- The zero-pulse run after a window without pulses (R36). -/
def Motion.zeroRunAfter (m : Motion) : Nat :=
  if m.pulseState = .active then 1 else satAdd 65535 m.zeroRun 1

/-- A window without pulses brings SILENT: outside SILENT, the zero-pulse run at 100 ms a window reaches or
passes the hold time (R37). -/
def Motion.entersSilent (m : Motion) (c : Settings) : Bool :=
  decide (m.pulseState ≠ .silent) && decide (c.holdTime ≤ m.zeroRunAfter * 100)

/-- The Motion Unit after a window without pulses closes, before the tests at entry to SILENT (R36, R37). -/
def Motion.windowWithoutPulses (m : Motion) (c : Settings) : Motion :=
  { m with
    pulses := 0
    windowStart := m.windowStart + 100
    filtered := if m.entersSilent c then 0 else m.filtered
    pulseState :=
      if m.pulseState = .silent then .silent else if m.entersSilent c then .silent else .holding
    zeroRun := m.zeroRunAfter
    pulseRun := 0 }

/-- The effective source returns from FIX to PULSE when the pulse run reaches 2 (R39; DESIGN CHOICE; assumption log,
entry 21). -/
def returnTest (s : State) : State :=
  if s.mot.source = .fix ∧ s.settings.speedSource = .pulse ∧ 2 ≤ s.mot.pulseRun then
    s.setMot { s.mot with source := .pulse }
  else s

/-- The sample at a window end: of the pulse speed while the effective source is PULSE after the window, and of
the fix speed, already the reference speed, when the source has just gone to FIX (R38, R40, R41). -/
def windowSample (was : SpeedSource) (s : State) : State :=
  if s.mot.source = .pulse then speedSample s.mot.pulseSpeed s
  else if was = .pulse then computeAll s
  else s

/-- A speed window closes (R36). -/
def closeWindow (s : State) : State :=
  let m := s.mot
  if 0 < m.pulses then
    windowSample m.source (returnTest (s.setMot (m.windowWithPulses s.settings)))
  else
    let t := s.setMot (m.windowWithoutPulses s.settings)
    windowSample m.source (if m.entersSilent s.settings then testFallback (testSilence t) else t)

/-- SPEED_WINDOW_END: 100 ms after it began, the window in progress closes and the next begins (R34, R36). -/
def execSpeedWindowEnd (s : State) : Host.Outcome State Fault Refusal :=
  .next (whenReleased (fun s => if s.mot.windowStart + 100 ≤ s.now then closeWindow s else s) s)

/-! ## The work switch (R43) -/

/-- The work switch input takes a level: a level other than the work switch state is timed from now, and a return to
it ends the timing (R43; DESIGN CHOICE; assumption log, entry 18). -/
def Motion.levelAt (m : Motion) (old level : SwitchLevel) (now : Nat) : Motion :=
  { m with switchSince := if level = old then m.switchSince else if level = m.switch then none else some now }

/-- WORK_SWITCH_LEVEL_CHANGE: the input changes level, which starts or ends the 50 ms qualification (R43). While
the reset pin is asserted only the level itself is followed. -/
def execWorkSwitchLevelChange (level : SwitchLevel) (s : State) : Host.Outcome State Fault Refusal :=
  let t := s.setPins { s.pins with switch := level }
  .next (if s.inReset then t else t.setMot (s.mot.levelAt s.pins.switch level s.now))

/-- A change of the work switch is taken (R43): SWITCH is raised, a lift settles the store, and every lane is
re-decided. -/
def takeSwitch (s : State) : State :=
  let level := s.pins.switch
  let t := (s.setMot { s.mot with switch := level, switchSince := none }).raise .switched
  if level = .lifted then (settleAndDecide t).1 else decideAll t

/-- WORK_SWITCH_CHANGE: the input has held its new level for 50 ms, and the change is taken (R43). -/
def execWorkSwitchChange (s : State) : Host.Outcome State Fault Refusal :=
  .next (whenReleased
    (fun s => if s.mot.switchSince.any (fun t => decide (t + 50 ≤ s.now)) = true then takeSwitch s else s) s)

end Sys2Proof.Machine
end

