-- ==== Sys2Proof/Machine/Implement.lean ====
section
/-! DEFINITION. The configuration commands: SETI (R46, R174), SETR in both actions (R48 to R50), SETE (R51) and
SETF (R62). -/

namespace Sys2Proof.Machine

/-! ## SETI – Set Implement (R1, R46, R174) -/

/-- Every look-ahead point of a row forgets its previous cell (R1). -/
def Row.forgotCells (w : Row) : Row :=
  { w with
    seed := { w.seed with prevCell := none }
    fert := w.fert.map fun l => { l with prevCell := none } }

/-- A change of cell side with the store empty empties the miss set and forgets the previous cells (R1). -/
def cellSideChanged (s : State) : State :=
  (s.setCst { s.cst with misses := [], incomplete := false }).mapRows fun _ => Row.forgotCells

/-- The fallback test with its speed sample, outside a window end or a fix (R38, R41). -/
def fallbackSample (s : State) : State :=
  if s.fallbackDue then computeAll (testFallback s) else s

/-- The effective source becomes the new configured source, with a speed sample (R46). -/
def speedSourceChanged (s : State) : State :=
  match s.settings.speedSource with
  | .fix =>
    speedSample s.mot.fixSpeed (s.setMot { s.mot with source := .fix, silenceReported := false })
  | .pulse =>
    let t := speedSample s.mot.pulseSpeed (s.setMot { s.mot with source := .pulse })
    if t.mot.pulseState = .silent then fallbackSample (testSilence t) else t

/-- Fallback turned off leaves a fallen-back source, and turned on makes the test of R38 (R46). -/
def fallbackChanged (s : State) : State :=
  if s.settings.fallback then fallbackSample s
  else if s.mot.source = .fix ∧ s.settings.speedSource = .pulse then
    speedSample s.mot.pulseSpeed (s.setMot { s.mot with source := .pulse })
  else s

/-- The lost timer runs to the new limit: a STALE fix already that old is LOST at once (R46). -/
def lostLimitChanged (s : State) : State :=
  if s.mot.fixState = .stale ∧ s.fixAged s.settings.lostLimit = true then enterLost s else s

/-- A step made where a setting has changed; a setting written with the value it held has no effect (R174). -/
def onChange {α : Type} [DecidableEq α] (old new : α) (f : State → State) (s : State) : State :=
  if old = new then s else f s

/-- The settings are written in one step and become valid, and each changed one acts on running state, in field number
order (R46, R89, R174; DESIGN CHOICE; assumption log, entry 10). -/
def applySettings (new : Settings) (s : State) : State :=
  let old := s.settings
  let t := (s.setSettings new).setCmu { s.cmu with settingsValid := true }
  let t := onChange old.cellSide new.cellSide cellSideChanged t
  let t := onChange old.speedSource new.speedSource speedSourceChanged t
  let t := onChange old.fallback new.fallback fallbackChanged t
  let t := onChange old.lostLimit new.lostLimit lostLimitChanged t
  onChange (old.lossPolicy, old.seedOverlap, old.fertOverlap) (new.lossPolicy, new.seedOverlap, new.fertOverlap)
    decideAll t

/-- SETI on a payload, with its checks in order (R174). -/
def setImplement (p : List Byte) (s : State) : State :=
  if p.length ≠ 26 then s.complete (.plain .badLength)
  else if s.cmu.mode ≠ .idle then s.complete (.plain .wrongMode)
  else
    let vs := fieldsOf setiWidths p
    match setiBadField vs with
    | some n => s.complete (.badField n)
    | none =>
      let new := settingsOf vs
      if new.cellSide ≠ s.settings.cellSide ∧ s.cst.records ≠ [] then s.complete (.plain .storeNotEmpty)
      else (applySettings new s).complete (.plain .ok)

/-- SETI: Set Implement (R174). -/
def execSeti (c : Cmd) (s : State) : Host.Outcome State Fault Refusal :=
  .next (takeCommand Op.seti c setImplement s)

/-! ## SETR – Set Row (R48 to R50) -/

/-- The Seed Flight Monitor's state of a row configured anew or restarted, with its sensor line sampled (R115,
R121). -/
def Flight.fresh (line : Line) (now : Nat) : Flight where
  queue := []
  skipRun := 0
  window := []
  blocked := false
  stuck := false
  stalled := false
  overflowSeen := false
  underflowSeen := false
  line := line
  occlusionDue := if line = .occluded then some (now + stuckTime) else none
  stallDue := none
  synth := 0

/-- The Flow Scanner's state of a row configured anew or restarted (R136). -/
def FlowState.fresh : FlowState where
  lastFlow := 0
  prevTime := none
  trim := 0
  railRun := 0
  inRun := 0
  lowRun := 0
  sensorFault := false
  noFlow := false
  estimated := false

/-- The seed lane of a row configured anew, keeping the point and previous cell it had (R49). -/
def SeedLane.fresh (point : Option Point) (prevCell : Option Key) (target : Nat) : SeedLane where
  point := point
  prevCell := prevCell
  view := fallbackView .noPoint target none
  state := .lane .parked
  q := 0
  s := 0
  limited := false
  drive := 0

/-- The fertiliser lane of a row configured anew, keeping the points and previous cell it had (R49). -/
def FertLane.fresh (look drop : Option Point) (prevCell : Option Key) (target : Nat) : FertLane where
  look := look
  prevCell := prevCell
  drop := drop
  view := fallbackView .noPoint target none
  state := .parked
  f := 0
  ff := 0
  duty := 0
  limited := false
  valve := 0
  flow := FlowState.fresh

/-- A row configured anew from what was in its place before (R49): its points are kept, but a channel lost takes
its two points with it and a channel gained brings none before the next accepted fix. -/
def State.configuredRow (s : State) (r : RowId) (c : RowContext) (old : Option Row) : Row where
  ctx := c
  vr := 0
  seed := SeedLane.fresh (old.bind (·.seed.point)) (old.bind (·.seed.prevCell)) s.ren.seedFallback
  fert :=
    match c.channel with
    | none => none
    | some _ =>
      let l := old.bind (·.fert)
      some (FertLane.fresh (l.bind (·.look)) (l.bind (·.drop)) (l.bind (·.prevCell)) s.ren.fertFallback)
  sfm := Flight.fresh (s.lineOf r) s.now

/-- A row holds a seed or fertiliser health condition (R101, R122). -/
def Row.unhealthy (w : Row) : Bool :=
  w.sfm.blocked || w.sfm.stuck || w.sfm.stalled || w.fert.any fun l => l.flow.sensorFault || l.flow.noFlow

/-- The lanes that a SETR CONFIGURE refreshes: those of the row, and those bound to records that its reads poisoned
(R60, R159). -/
def State.lanesConfigured (s : State) (r : RowId) (old : Store) : Lanes :=
  fun p q => decide (q = r) || s.lanesPoisoned old p q

/-- SETR CONFIGURE carried out (R49): the row is written, conditions it held count as exited (R117, R135), its lanes'
records are read, and its lanes are refreshed, computed and decided (DESIGN CHOICE; assumption log, entry 24). -/
def configureRow (r : RowId) (c : RowContext) (s : State) : State :=
  let old := s.row r
  let t := s.setRow r (some (s.configuredRow r c old))
  let u := freeFirst (readForRow r) (if old.any (·.unhealthy) then t.raiseHealth r else t)
  reviewLanes (u.lanesConfigured r s.cst) u

/-- SETR REMOVE carried out (R50): the row is unconfigured and leaves the changed-rows set (R186). -/
def removeRow (r : RowId) (s : State) : State :=
  let t := s.setRow r none
  t.setEvu { t.evu with changed := t.evu.changed &&& ~~~rowBit r }

/-- Another configured row holds the channel (R48, check 4). -/
def State.channelTaken (s : State) (r : RowId) (ch : Option Nat) : Bool :=
  ch.isSome && rowIds.any fun x => decide (x ≠ r) && (s.row x).any fun w => decide (w.ctx.channel = ch)

/-- The payload's length does not match the form its action names (R48, check 1). -/
def setrBadLength (p : List Byte) : Bool :=
  if p.length < 2 then true
  else if natAt p 1 1 = 0 then decide (p.length ≠ 21)
  else if natAt p 1 1 = 1 then decide (p.length ≠ 2)
  else decide (p.length ≠ 21) && decide (p.length ≠ 2)

/-- SETR on a payload, with its checks in order (R48). -/
def setRowCommand (p : List Byte) (s : State) : State :=
  if setrBadLength p then s.complete (.plain .badLength)
  else if s.cmu.mode ≠ .idle then s.complete (.plain .wrongMode)
  else
    match setrBadField p with
    | some n => s.complete (.badField n)
    | none =>
      let r := rowOf (natAt p 0 1)
      if natAt p 1 1 = 1 then
        let t := removeRow r s
        t.complete (.counts .ok t.configuredCount 0)
      else
        let c := contextAt p
        if s.channelTaken r c.channel then s.complete (.badField 8)
        else
          let t := configureRow r c s
          t.complete (.counts .ok t.configuredCount 0)

/-- SETR_CONFIGURE: Set Row with the action CONFIGURE, or with an action byte that is missing or names none
(R48, R49; assumption log, entry 4). -/
def execSetrConfigure (c : Cmd) (s : State) : Host.Outcome State Fault Refusal :=
  .next (takeCommand Op.setr c setRowCommand s)

/-- SETR_REMOVE: Set Row with the action REMOVE (R48, R50). -/
def execSetrRemove (c : Cmd) (s : State) : Host.Outcome State Fault Refusal :=
  .next (takeCommand Op.setr c setRowCommand s)

/-! ## SETE – Set Row Enables (R51, R123, R125) -/

/-- A row whose enabled field a SETE changes (R51). -/
def Row.switched (w : Row) (on : Bool) : Bool :=
  decide (w.ctx.enabled ≠ on)

/-- A row with its enabled field written; one that so joins or leaves the scan list has its time of previous conversion
put to none (R51, R123). -/
def Row.enabledTo (w : Row) (on : Bool) : Row :=
  if w.switched on then { w.timeForgotten with ctx := { w.ctx with enabled := on } } else w

/-- SETE on a payload of 4 bytes (R51): a row whose enabled state changes is re-decided, and in FIELD a change of the scan
list abandons the conversion in flight and restarts the scan (R125). -/
def setEnables (p : List Byte) (s : State) : State :=
  let on := rowSetAt p 0
  let t := s.mapRows fun r w => w.enabledTo (rowIn r on)
  let u := if t.fsc.scanning ∧ t.scanList ≠ s.scanList then restartScan t else t
  let v := u.pass fun r => if (s.row r).any (·.switched (rowIn r on)) then some .decisions else none
  v.complete (.counts .ok v.enabledCount (v.configuredCount - v.enabledCount))

/-- SETE: Set Row Enables (R51). -/
def execSete (c : Cmd) (s : State) : Host.Outcome State Fault Refusal :=
  .next (takeCommand Op.sete c (withLength 4 setEnables) s)

/-! ## SETF – Set Fallback (R62) -/

/-- The lanes with the *fallback* indicator set (R60, R62). -/
def State.lanesOnFallback (s : State) : Lanes
  | .seed, r => (s.row r).any (·.seed.view.fallback)
  | .fert, r => (s.fertOf r).any (·.view.fallback)

/-- SETF on a payload of 4 bytes (R62): the lanes on fallback are refreshed. A lane on fallback sees no payload to
read. -/
def setFallback (p : List Byte) (s : State) : State :=
  let seed := natAt p 0 2
  let fert := natAt p 2 2
  let t := s.setRen { s.ren with seedFallback := min 6000 seed, fertFallback := min 4000 fert }
  let u := reviewLanes t.lanesOnFallback t
  u.complete (.counts (if 6000 < seed ∨ 4000 < fert then .clamped else .ok) (min 6000 seed) (min 4000 fert))

/-- SETF: Set Fallback (R62). -/
def execSetf (c : Cmd) (s : State) : Host.Outcome State Fault Refusal :=
  .next (takeCommand Op.setf c (withLength 4 setFallback) s)

end Sys2Proof.Machine
end

