-- ==== Sys2Proof/Machine/Modes.lean ====
section
/-! DEFINITION. The mode commands: STRT in both targets (R81, R82), STOP (R83, R111), PRIM (R94, R95) and SETL
(R25). -/

namespace Sys2Proof.Machine

/-! ## STRT – Start (R81, R82) -/

/-- A row whose synthesis accumulator is set to 0 (R119). -/
def Row.synthCleared (w : Row) : Row :=
  { w with sfm := { w.sfm with synth := 0 } }

/-- The device mode is set. -/
def State.setMode (s : State) (m : Mode) : State :=
  s.setCmu { s.cmu with mode := m }

/-- The mode goes from IDLE to FIELD: a run of the scan begins and every lane is re-decided (R82, R124). -/
def startField (s : State) : State :=
  decideAll (startRun (s.setMode .field))

/-- The mode goes from IDLE to SHADOW: synthesis begins and every lane is re-decided (R82, R119). -/
def startShadow (s : State) : State :=
  decideAll ((s.setMode .shadow).mapRows fun _ => Row.synthCleared)

/-- STRT on a payload, with its checks in order (R81). -/
def start (p : List Byte) (s : State) : State :=
  if p.length ≠ 1 then s.complete (.plain .badLength)
  else if natAt p 0 1 ≠ 1 ∧ natAt p 0 1 ≠ 2 then s.complete (.badField 1)
  else if s.cmu.mode ≠ .idle then s.complete (.plain .wrongMode)
  else if s.ready = false then s.complete (.plain .notReady)
  else
    let t := if natAt p 0 1 = 1 then startField s else startShadow s
    t.complete (.counts .ok t.configuredCount t.enabledCount)

/-- STRT_FIELD: Start with the target FIELD, or with a target byte that is missing or names none (R81; assumption
log, entry 4). -/
def execStrtField (c : Cmd) (s : State) : Host.Outcome State Fault Refusal :=
  .next (takeCommand Op.strt c start s)

/-- STRT_SHADOW: Start with the target SHADOW (R81). -/
def execStrtShadow (c : Cmd) (s : State) : Host.Outcome State Fault Refusal :=
  .next (takeCommand Op.strt c start s)

/-! ## STOP – Stop (R83, R111) -/

/-- A row whose queue is emptied, every entry unknown, and whose accumulator is set to 0 (R111, R119). -/
def Row.flightEmptied (w : Row) : Row :=
  { w with sfm := { w.sfm with queue := [], synth := 0 } }

/-- FIELD or SHADOW goes to IDLE: the queues empty and the scanner stops, the store settles and every lane parks
(R83, R111, R125). The number is the settle's count. -/
def stopRun (s : State) : State × Nat :=
  settleAndDecide (endRun ((s.setMode .idle).mapRows fun _ => Row.flightEmptied))

/-- STOP on an empty payload: in IDLE it changes nothing (R83). -/
def stopCommand (_ : List Byte) (s : State) : State :=
  if s.cmu.mode = .idle then s.complete (.counts .ok 0 0)
  else
    let x := stopRun s
    x.1.complete (.counts .ok x.2 0)

/-- STOP (R83). -/
def execStop (c : Cmd) (s : State) : Host.Outcome State Fault Refusal :=
  .next (takeCommand Op.stop c (withLength 0 stopCommand) s)

/-! ## PRIM – Prime Meters (R94, R95) -/

/-- Every row of a set is configured and enabled (R94). -/
def State.allEnabled (s : State) (t : RowSet) : Bool :=
  rowIds.all fun r => !(rowIn r t) || (s.row r).any (·.ctx.enabled)

/-- PRIM on a payload, with its checks in order (R94), and the start of priming (R95). -/
def primeMeters (p : List Byte) (s : State) : State :=
  let rows := rowSetAt p 0
  let holes := natAt p 4 1
  if p.length ≠ 5 then s.complete (.plain .badLength)
  else if s.cmu.mode ≠ .idle then s.complete (.plain .wrongMode)
  else if rows = 0 ∨ s.allEnabled rows = false then s.complete (.badField 1)
  else if holes = 0 then s.complete (.badField 2)
  else
    startPriming holes rows (s.setCmu { s.cmu with progress := .prim rows rows 0 })

/-- PRIM: Prime Meters (R94, R95). -/
def execPrim (c : Cmd) (s : State) : Host.Outcome State Fault Refusal :=
  .next (takeCommand Op.prim c primeMeters s)

/-! ## SETL – Settle Coverage (R25) -/

/-- SETL on an empty payload (R25). -/
def settleCommand (_ : List Byte) (s : State) : State :=
  let x := settle s
  x.1.complete (.counts .ok x.2 0)

/-- SETL: Settle Coverage (R25). -/
def execSetl (c : Cmd) (s : State) : Host.Outcome State Fault Refusal :=
  .next (takeCommand Op.setl c (withLength 0 settleCommand) s)

end Sys2Proof.Machine
end

