-- ==== Sys2Proof/Machine/Records.lean ====
section
/-! DEFINITION. The record commands: the transferred layout (R138, R181), LDC and its records (R139 to R143), QRY (R145),
PCH (R146), MRG (R148), RTC (R150), SWP and its transfers (R151 to R154) and RMS (R156). -/

namespace Sys2Proof.Machine

/-! ## Records transferred out (R138, R181) -/

/-- The 28 bytes of a record transferred out, with its reference count and the KEPT flag. A poisoned record carries
its key, the poisoned flag and the count, and zeros. -/
def recordBytes (k : Key) (p : Option Payload) (refs : Nat) (kept : Bool) : List Byte :=
  match p with
  | none =>
    keyBytes k ++ List.replicate 4 0 ++ [2 ||| (if kept then 4 else 0)] ++ List.replicate 18 0
      ++ [BitVec.ofNat 8 (min 255 refs)]
  | some y =>
    keyBytes k ++ leBytes 2 y.seedTarget ++ leBytes 2 y.fertTarget
      ++ [flagByte y.noApply ||| (if kept then 4 else 0)]
      ++ leBytes 2 y.seedCov.settled.toNat ++ leBytes 2 y.seedCov.fresh.toNat
      ++ leBytes 2 y.fertCov.settled.toNat ++ leBytes 2 y.fertCov.fresh.toNat
      ++ leBytes 2 y.placed ++ leBytes 2 y.skips ++ leBytes 2 y.extras ++ leBytes 4 y.applied
      ++ [BitVec.ofNat 8 (min 255 refs)]

/-- What a transfer of a held record carries, once its payload has been read. -/
def State.transferred (s : State) (k : Key) (kept : Bool) : List Byte :=
  recordBytes k (s.cst.payload k) (s.refCount k) kept

/-- The record of a key is removed from the store (R150, R153). -/
def removeRecord (k : Key) (s : State) : State :=
  s.setCst (s.cst.remove k)

/-! ## LDC – Load Cells (R139 to R143) -/

/-- The Command Unit waits for a record with its data timer started at 1000 ms (R172). -/
def State.await (s : State) (p : Progress) : State :=
  s.setCmu { s.cmu with progress := p, dataDue := some (s.now + 1000) }

/-- LDC on a payload (R139). -/
def loadCells (p : List Byte) (s : State) : State :=
  if p.length ≠ 1 then s.complete (.plain .badLength)
  else if 64 < natAt p 0 1 then s.complete (.badField 1)
  else s.await (.ldc (if natAt p 0 1 = 0 then 64 else natAt p 0 1) 0 false)

/-- LDC: Load Cells (R139). -/
def execLdc (c : Cmd) (s : State) : Host.Outcome State Fault Refusal :=
  .next (takeCommand Op.ldc c loadCells s)

/-- The completion record of LDC: the records loaded and not loaded, and a key (R143). -/
def ldcRecord (c : Code) (n loaded : Nat) (key : Option Key) : Completion :=
  { Completion.counts c loaded (n - loaded) with key := key }

/-- A record of 28 bytes clamps a target (R140). -/
def recordClamps (p : List Byte) : Bool :=
  decide (6000 < natAt p 4 2) || decide (4000 < natAt p 6 2)

/-- The payload a loaded record is written with: targets clamped, settled sets as read, fresh sets empty, tallies 0
(R140, R142). -/
def loadedPayload (p : List Byte) : Payload where
  seedTarget := min 6000 (natAt p 4 2)
  fertTarget := min 4000 (natAt p 6 2)
  noApply := decide (natAt p 8 1 % 2 = 1)
  seedCov := ⟨0, subSetAt p 9⟩
  fertCov := ⟨0, subSetAt p 13⟩
  placed := 0
  skips := 0
  extras := 0
  applied := 0
  bits := .clean

/-- A record is loaded in one step (R142): a new key joins the store and leaves the miss set, a poisoned one is
replaced; the points in the cell are bound by R10, and their lanes refreshed. -/
def loadRecord (k : Key) (y : Payload) (s : State) : State :=
  let t :=
    if s.cst.holds k then
      let c := s.cst.put k (some y)
      s.setCst { c with poisonedCount := c.poisonedCount - 1 }
    else
      let c := s.cst.insert ⟨k, some y⟩
      s.setCst { c with misses := c.misses.filter fun m => decide (m ≠ k) }
  reviewBound k t

/-- The record of a key is held and not poisoned. -/
def Store.sound (c : Store) (k : Key) : Bool :=
  (c.payload k).isSome

/-- A DATA frame's payload is delivered to an LDC that expects `n` records and has loaded `loaded` (R139 to R143). -/
def deliverRecord (p : List Byte) (n loaded : Nat) (clamped : Bool) (s : State) : State :=
  if p.length ≠ 28 then s.complete (ldcRecord .badLength n loaded none)
  else
    let k := keyAt p 0
    if s.cst.sound k then s.complete (ldcRecord .duplicateKey n loaded (some k))
    else if s.cst.holds k = false ∧ 1024 ≤ s.cst.records.length then
      s.complete (ldcRecord .tableFull n loaded (some k))
    else
      let t := loadRecord k (loadedPayload p) s
      let clamped' := clamped || recordClamps p
      if loaded + 1 < n then t.await (.ldc n (loaded + 1) clamped')
      else t.complete (ldcRecord (if clamped' then .clamped else .ok) n (loaded + 1) none)

/-- A DATA frame taken: it delivers a record in DATA IN, and is discarded in any other state (R168). -/
def takeData (p : List Byte) (s : State) : State :=
  match s.cmu.progress with
  | .ldc n loaded clamped => deliverRecord p n loaded clamped s
  | _ => s

/-- DATA_FRAME (R140, R168). -/
def execDataFrame (f : Frame) (s : State) : Host.Outcome State Fault Refusal :=
  .next (arrive .data f.low f.payload f.check 0 (takeData f.payload) s)

/-! ## QRY – Query Cell (R145) -/

/-- The completion record of a code with a key. -/
def Completion.keyed (c : Code) (k : Key) : Completion :=
  { Completion.plain c with key := some k }

/-- The record of a key is returned: read, and transferred in its poisoned form if it is poisoned (R138, R145). -/
def returnRecord (k : Key) (s : State) : State :=
  let t := readState k s
  t.complete
    { Completion.counts .ok t.cst.records.length (t.refCount k) with
      key := some k, payload := t.transferred k false }

/-- QRY in its EXACT form (R145). -/
def queryExact (k : Key) (s : State) : State :=
  if s.cst.holds k then returnRecord k s else s.complete (.keyed .notFound k)

/-- QRY in its NEXT form: the record of smallest key above the given one (R145). -/
def queryNext (k : Key) (s : State) : State :=
  match s.cst.records.find? fun x => k.before x.key with
  | some x => returnRecord x.key s
  | none => s.complete (.keyed .notFound k)

/-- QRY on a payload of 5 bytes (R145). -/
def queryCell (p : List Byte) (s : State) : State :=
  let k := keyAt p 0
  if natAt p 4 1 = 0 then queryExact k s
  else if natAt p 4 1 = 1 then queryNext k s
  else s.complete (.badField 2)

/-- QRY_EXACT: Query Cell with the form EXACT, or with a form byte that is missing or names none (R145; assumption
log, entry 4). -/
def execQryExact (c : Cmd) (s : State) : Host.Outcome State Fault Refusal :=
  .next (takeCommand Op.qry c (withLength 5 queryCell) s)

/-- QRY_NEXT: Query Cell with the form NEXT (R145). -/
def execQryNext (c : Cmd) (s : State) : Host.Outcome State Fault Refusal :=
  .next (takeCommand Op.qry c (withLength 5 queryCell) s)

/-! ## PCH – Patch Cell (R146, R147) -/

/-- The fields PCH can name (R146). -/
inductive PatchField where
  | seedTarget
  | fertTarget
  | noApply
deriving DecidableEq, Repr

/-- The field a selector byte names (R180). -/
def patchFieldOf (v : Nat) : Option PatchField :=
  if v = 0 then some .seedTarget else if v = 1 then some .fertTarget else if v = 2 then some .noApply else none

/-- The highest value of a field. -/
def PatchField.most : PatchField → Nat
  | .seedTarget => 6000
  | .fertTarget => 4000
  | .noApply => 1

/-- The value a payload holds in a field; no-apply is 0 or 1. -/
def PatchField.get (f : PatchField) (y : Payload) : Nat :=
  match f with
  | .seedTarget => y.seedTarget
  | .fertTarget => y.fertTarget
  | .noApply => if y.noApply then 1 else 0

/-- A payload with a field written. -/
def PatchField.put (f : PatchField) (v : Nat) (y : Payload) : Payload :=
  match f with
  | .seedTarget => { y with seedTarget := v }
  | .fertTarget => { y with fertTarget := v }
  | .noApply => { y with noApply := decide (v = 1) }

/-- A patch of a field with a value, once its operands are in range (R146, R147; DEDUCED; assumption log, entry 13).
-/
def patchRecord (k : Key) (f : PatchField) (v : Nat) (s : State) : State :=
  if s.cst.holds k = false then s.complete (.plain .notFound)
  else
    let t := readState k s
    match t.cst.payload k with
    | none => t.complete (.keyed .poisoned k)
    | some y =>
      let v' := min f.most v
      let u := reviewBound k (writePayload k (f.put v' y) t)
      u.complete
        { Completion.counts (if f.most < v then .clamped else .ok) (f.get y) v' with key := some k }

/-- PCH on a payload of 7 bytes (R146). -/
def patchCell (p : List Byte) (s : State) : State :=
  match patchFieldOf (natAt p 4 1) with
  | none => s.complete (.badField 2)
  | some f =>
    if f = .noApply ∧ 1 < natAt p 5 2 then s.complete (.badField 3)
    else patchRecord (keyAt p 0) f (natAt p 5 2) s

/-- PCH_SEED_TARGET: Patch Cell with the selector SEED TARGET, or with a selector byte that is missing or names none
(R146; assumption log, entry 4). -/
def execPchSeedTarget (c : Cmd) (s : State) : Host.Outcome State Fault Refusal :=
  .next (takeCommand Op.pch c (withLength 7 patchCell) s)

/-- PCH_FERT_TARGET: Patch Cell with the selector FERT TARGET (R146). -/
def execPchFertTarget (c : Cmd) (s : State) : Host.Outcome State Fault Refusal :=
  .next (takeCommand Op.pch c (withLength 7 patchCell) s)

/-- PCH_NO_APPLY: Patch Cell with the selector NO-APPLY (R146). -/
def execPchNoApply (c : Cmd) (s : State) : Host.Outcome State Fault Refusal :=
  .next (takeCommand Op.pch c (withLength 7 patchCell) s)

/-! ## MRG – Merge Coverage (R148) -/

/-- A coverage after a merge of a set of sub-squares (R22, R148). -/
def Coverage.merged (c : Coverage) (add : Bool) (m : SubSet) : Coverage :=
  if add then c.add m else c.remove m

/-- A merge into the record of a key, once its operands are in range (R148; DEDUCED; assumption log, entry 13). -/
def mergeRecord (k : Key) (add : Bool) (seed fert : SubSet) (s : State) : State :=
  if s.cst.holds k = false then s.complete (.plain .notFound)
  else
    let t := readState k s
    match t.cst.payload k with
    | none => t.complete (.keyed .poisoned k)
    | some y =>
      let a := y.seedCov.merged add seed
      let b := y.fertCov.merged add fert
      let u := refreshMoved t.cst (writePayload k { y with seedCov := a, fertCov := b } t)
      u.complete
        { Completion.counts .ok (y.seedCov.changes a) (y.fertCov.changes b) with
          key := some k
          payload := leBytes 2 y.seedCov.settled.toNat ++ leBytes 2 y.fertCov.settled.toNat }

/-- MRG on a payload of 9 bytes (R148). -/
def mergeCell (p : List Byte) (s : State) : State :=
  if 1 < natAt p 4 1 then s.complete (.badField 2)
  else mergeRecord (keyAt p 0) (decide (natAt p 4 1 = 0)) (subSetAt p 5) (subSetAt p 7) s

/-- MRG_ADD: Merge Coverage with the form ADD, or with a form byte that is missing or names none (R148; assumption
log, entry 4). -/
def execMrgAdd (c : Cmd) (s : State) : Host.Outcome State Fault Refusal :=
  .next (takeCommand Op.mrg c (withLength 9 mergeCell) s)

/-- MRG_REMOVE: Merge Coverage with the form REMOVE (R148). -/
def execMrgRemove (c : Cmd) (s : State) : Host.Outcome State Fault Refusal :=
  .next (takeCommand Op.mrg c (withLength 9 mergeCell) s)

/-! ## RTC – Retire Cell (R150) -/

/-- RTC on a payload of 4 bytes (R150). -/
def retireCell (p : List Byte) (s : State) : State :=
  let k := keyAt p 0
  if s.cst.holds k = false then s.complete (.keyed .notFound k)
  else if 0 < s.refCount k then
    s.complete { Completion.counts .referenced (s.refCount k) 0 with key := some k }
  else
    let t := readState k s
    let u := removeRecord k t
    u.complete
      { Completion.counts .ok u.cst.records.length 0 with key := some k, payload := t.transferred k false }

/-- RTC: Retire Cell (R150). -/
def execRtc (c : Cmd) (s : State) : Host.Outcome State Fault Refusal :=
  .next (takeCommand Op.rtc c (withLength 4 retireCell) s)

/-! ## SWP – Sweep (R151 to R154) -/

/-- The candidate of a sweep: the record of smallest key above the last chosen key, outside the rectangle and with a
reference count of 0 (R152). -/
def State.candidate (s : State) (w : Sweep) : Option Key :=
  (s.cst.records.find? fun x =>
    aboveKey w.last x.key && w.rect.outside x.key && decide (s.refCount x.key = 0)).map (·.key)

/-- *More remain*: a record is held outside the rectangle (R154). -/
def State.moreRemain (s : State) (w : Sweep) : Bool :=
  s.cst.records.any fun x => w.rect.outside x.key

/-- A sweep ends with a code (R154, R155). -/
def endSweep (c : Code) (w : Sweep) (s : State) : State :=
  s.complete
    { Completion.counts c w.retired w.kept with key := w.last, payload := [flagByte (s.moreRemain w)] }

/-- SWP chooses: the next candidate is offered in DATA OUT, or the sweep completes (R152). -/
def chooseNext (w : Sweep) (s : State) : State :=
  match s.candidate w with
  | some k => s.await (.swp { w with last := some k, offered := some k })
  | none => endSweep .ok { w with offered := none } s

/-- SWP on a payload of 9 bytes (R151). -/
def sweep (p : List Byte) (s : State) : State :=
  let rect : KeepRect := ⟨intAt p 0 2, intAt p 2 2, intAt p 4 2, intAt p 6 2⟩
  let m := natAt p 8 1
  if rect.cxMax < rect.cxMin then s.complete (.badField 2)
  else if rect.cyMax < rect.cyMin then s.complete (.badField 4)
  else if 64 < m then s.complete (.badField 5)
  else chooseNext ⟨rect, if m = 0 then 64 else m, none, 0, 0, none⟩ s

/-- SWP: Sweep (R151, R152). -/
def execSwp (c : Cmd) (s : State) : Host.Outcome State Fault Refusal :=
  .next (takeCommand Op.swp c (withLength 9 sweep) s)

/-- The sweep after the offered record is transferred: retired at a reference count of 0, else kept (R153). -/
def Sweep.after (w : Sweep) (kept : Bool) : Sweep :=
  { w with
    retired := if kept then w.retired else w.retired + 1
    kept := if kept then w.kept + 1 else w.kept
    offered := none }

/-- A FETCH taken for SWP (R153): the offered record is transferred, and removed at a reference count of 0; then the
sweep completes at m transfers, or chooses again. The bytes are the payload of the RECORD reply. -/
def transferOffered (k : Key) (w : Sweep) (s : State) : State × List Byte :=
  let kept := decide (0 < s.refCount k)
  let t := readState k s
  let u := if kept then t else removeRecord k t
  let w' := w.after kept
  (if w.most ≤ w'.retired + w'.kept then endSweep .ok w' u else chooseNext w' u, t.transferred k kept)

/-! ## RMS – Read Misses (R156) -/

/-- RMS on an empty payload: the miss set and *incomplete* are handed over and the set emptied (R18, R156). -/
def readMisses (_ : List Byte) (s : State) : State :=
  (s.setCst { s.cst with misses := [], incomplete := false }).complete
    { Completion.counts .ok s.cst.misses.length (if s.cst.incomplete then 1 else 0) with
      payload := s.cst.misses.flatMap keyBytes }

/-- RMS: Read Misses (R156). -/
def execRms (c : Cmd) (s : State) : Host.Outcome State Fault Refusal :=
  .next (takeCommand Op.rms c (withLength 0 readMisses) s)

end Sys2Proof.Machine
end

