-- ==== Sys2Proof/Machine/Scrub.lean ====
section
/-! DEFINITION. The storage commands: SCB with its read steps (R164, R165) and RSS (R163). -/

namespace Sys2Proof.Machine

/-! ## SCB – Scrub (R164, R165) -/

/-- SCB on an empty payload: EXECUTING, with the first read step 1 ms from now (R164). -/
def scrub (_ : List Byte) (s : State) : State :=
  s.setCmu { s.cmu with progress := .scb none 0 (s.now + 1) }

/-- SCB: Scrub (R164). -/
def execScb (c : Cmd) (s : State) : Host.Outcome State Fault Refusal :=
  .next (takeCommand Op.scb c (withLength 0 scrub) s)

/-- The record of smallest key above the scrub's position that is held and not poisoned (R164). -/
def State.scrubNext (s : State) (position : Option Key) : Option Key :=
  (s.cst.records.find? fun x => aboveKey position x.key && x.payload.isSome).map (·.key)

/-- The number not yet verified: the non-poisoned records above the position (R165). -/
def State.unverified (s : State) (position : Option Key) : Nat :=
  s.cst.records.countP fun x => aboveKey position x.key && x.payload.isSome

/-- One read step of a scrub (R164, R165). -/
def scrubStep (position : Option Key) (verified : Nat) (s : State) : State :=
  match s.scrubNext position with
  | none => s.complete (.counts .ok verified 0)
  | some k =>
    let t := readState k s
    match t.cst.payload k with
    | some _ => t.setCmu { t.cmu with progress := .scb (some k) (verified + 1) (t.now + 1) }
    | none => t.complete { Completion.counts .poisoned verified (t.unverified (some k)) with key := some k }

/-- The read step that is due, if SCB is in progress and 1 ms has passed (R164). -/
def stepScrub (s : State) : State :=
  match s.cmu.progress with
  | .scb position verified due => if due ≤ s.now then scrubStep position verified s else s
  | _ => s

/-- SCB_READ_STEP (R164). -/
def execScbReadStep (s : State) : Host.Outcome State Fault Refusal :=
  .next (whenReleased stepScrub s)

/-! ## RSS – Read Storage Status (R163) -/

/-- RSS on an empty payload: the status is taken, then *corrected seen* and the first key are cleared (R163). -/
def readStatus (_ : List Byte) (s : State) : State :=
  (s.setCst { s.cst with correctedSeen := false, firstKey := none }).complete
    { Completion.counts .ok s.cst.poisonedCount (if s.cst.correctedSeen then 1 else 0) with key := s.cst.firstKey }

/-- RSS: Read Storage Status (R163). -/
def execRss (c : Cmd) (s : State) : Host.Outcome State Fault Refusal :=
  .next (takeCommand Op.rss c (withLength 0 readStatus) s)

end Sys2Proof.Machine
end

