-- ==== Sys2Proof/Machine/Control.lean ====
section
/-! DEFINITION. Identification and control: BAD_COMMAND (R171), IDN (R175), ABRT (R176) and RSTR (R177), with what
each block holds after a restart (R26, R45, R63, R100, R121, R136, R189). -/

namespace Sys2Proof.Machine

/-! ## BAD_COMMAND and IDN -/

/-- BAD_COMMAND: a command code that names no command is taken and completes BAD COMMAND (R171). -/
def execBadCommand (code : BitVec 5) (c : Cmd) (s : State) : Host.Outcome State Fault Refusal :=
  .next (takeCommand code c (fun _ t => t.complete (.plain .badCommand)) s)

/-- The identification record: vendor, part, revision, cell capacity, row count, queue depth, event kinds (R175). -/
def identification : List Byte :=
  leBytes 2 0x2B17 ++ leBytes 2 3260 ++ leBytes 1 1 ++ leBytes 2 1024 ++ leBytes 1 32 ++ leBytes 1 8 ++ leBytes 1 13

/-- IDN on an empty payload (R175). -/
def identify (_ : List Byte) (s : State) : State :=
  s.complete { Completion.plain .ok with payload := identification }

/-- IDN: Identify (R175). -/
def execIdn (c : Cmd) (s : State) : Host.Outcome State Fault Refusal :=
  .next (takeCommand Op.idn c (withLength 0 identify) s)

/-! ## ABRT – Abort (R99, R143, R155, R165, R176) -/

/-- The command in progress ends ABORTED, by its own rule; with none in progress ABRT completes OK (R176). -/
def abortCommand (_ : List Byte) (s : State) : State :=
  match s.cmu.progress with
  | .idle => s.complete (.plain .ok)
  | .ldc n loaded _ => s.complete (ldcRecord .aborted n loaded none)
  | .swp w => endSweep .aborted w s
  | .scb position verified _ => s.complete (.counts .aborted verified (s.unverified position))
  | .prim named still stalled =>
    (endPriming still s).complete (primRecord .aborted named still stalled)

/-- ABRT: Abort (R176). -/
def execAbrt (c : Cmd) (s : State) : Host.Outcome State Fault Refusal :=
  .next (takeAlways Op.abrt c (withLength 0 abortCommand) s)

/-! ## RSTR – Restart (R177) -/

/-- The Command Unit after a restart: no command in progress and the mode IDLE; the last completion record, ERROR and
the settings' validity stand until the restart's own completion (R100, R177). -/
def Commander.restarted (c : Commander) : Commander :=
  { c with progress := .idle, dataDue := none, mode := .idle }

/-- The Motion Unit after a restart (R45), with the work switch sampled from the input. -/
def Motion.restarted (level : SwitchLevel) (source : SpeedSource) (now : Nat) : Motion :=
  { Motion.powerOn level now with source := source }

/-- A configured row after a restart (R63, R100, R121, R136): its context kept, no points, its lanes PARKED on their
fallback targets, its flight and flow state cleared, both outputs at 0. -/
def State.restartedRow (s : State) (r : RowId) (w : Row) : Row :=
  { w with
    seed := { SeedLane.fresh none none s.ren.seedFallback with limited := w.seed.limited }
    fert := w.fert.map fun l => { FertLane.fresh none none none s.ren.fertFallback with limited := l.limited }
    sfm := Flight.fresh (s.lineOf r) s.now }

/-- The Event Unit after a restart: the pending and changed-rows sets empty, the enabled set kept and the line
recomputed (R189). -/
def Events.restarted (e : Events) : Events :=
  { e with pending := 0, changed := 0 }.recomputed

/-- Every block is restarted (R177, step 2): the store settles (R26), then each block takes its values and every row
is computed at a reference speed and yaw rate of 0 (R79). The lanes lose their points with the restart, so that none is
left for the settle to refresh. -/
def restart (s : State) : State :=
  let a := s.setCmu s.cmu.restarted
  let b := (settleRecords a).1
  let c := b.setMot (Motion.restarted b.pins.switch b.settings.speedSource b.now)
  let d := c.mapRows c.restartedRow
  let e := d.setCst { d.cst with misses := [], incomplete := false }
  let f := computeAll (e.setFsc Scanner.stopped)
  f.setEvu f.evu.restarted

/-- RSTR on an empty payload: the restart, then its own completion (R177). -/
def restartCommand (_ : List Byte) (s : State) : State :=
  (restart s).complete (.plain .ok)

/-- RSTR: Restart (R177). -/
def execRstr (c : Cmd) (s : State) : Host.Outcome State Fault Refusal :=
  .next (takeAlways Op.rstr c (withLength 0 restartCommand) s)

end Sys2Proof.Machine
end

