-- ==== Sys2Proof/Machine/Link.lean ====
section
/-! DEFINITION. The link and pin commands: the power-on reset pin (R178), malformed, STATUS and FETCH frames (R166 to
R169) and the data timeout (R172). -/

namespace Sys2Proof.Machine

/-! ## The power-on reset pin (R178) -/

/-- A row with both outputs at 0. -/
def Row.silenced (w : Row) : Row :=
  { w with
    seed := { w.seed with drive := 0 }
    fert := w.fert.map fun l => { l with valve := 0 } }

/-- The pin is asserted: the attention line is released, every output and the data out line carry 0, and a frame in
assembly is discarded without an event (R178). -/
def assertReset (s : State) : State :=
  let t := s.mapRows fun _ => Row.silenced
  { (t.setLnk { t.lnk with assembly := [], dataOut := [] }).setEvu { t.evu with attention := false } with
    inReset := true }

/-- POWER_ON_RESET_ASSERT (R178). -/
def execPowerOnResetAssert (s : State) : Host.Outcome State Fault Refusal :=
  .next (assertReset s)

/-- The pin is released: every block takes its power-on values, with the work switch sampled from its input and the
first speed window beginning now (R44, R178). The inputs and the model's own fields stand as they are. -/
def releaseReset (s : State) : State :=
  { State.reset with
    pending := s.pending
    now := s.now
    pins := s.pins
    mot := Motion.powerOn s.pins.switch s.now
    upsets := s.upsets
    choices := s.choices }

/-- POWER_ON_RESET_RELEASE (R178). -/
def execPowerOnResetRelease (s : State) : Host.Outcome State Fault Refusal :=
  .next (releaseReset s)

/-! ## Malformed and STATUS frames (R166, R169) -/

/-- Bytes shifted in while select was asserted make a malformed frame: it is discarded (R166). -/
def discardMalformed (bytes : List Byte) (s : State) : State :=
  (s.shiftOut bytes.length).discard (commandHeader bytes)

/-- MALFORMED_FRAME (R166). -/
def execMalformedFrame (bytes : List Byte) (s : State) : Host.Outcome State Fault Refusal :=
  .next (whenReleased (discardMalformed bytes) s)

/-- STATUS_FRAME: the status byte is shifted out, and nothing else happens (R168, R169). -/
def execStatusFrame (f : Frame) (s : State) : Host.Outcome State Fault Refusal :=
  .next (arrive .status f.low f.payload f.check 0 (fun t => t) s)

/-! ## FETCH frames (R168, R173) -/

/-- A FETCH reply frame of a kind: 0 NONE, 1 COMPLETION, 2 RECORD (R168, R179). -/
def replyFrame (kind : BitVec 5) (payload : List Byte) : List Byte :=
  frameBytes (header .fetch kind) payload

/-- A reply is shifted out in the byte times clocked after the check byte: cut short when they end before it, and
followed by 0 when they go on (R166, R168). -/
def State.reply (s : State) (sent after : Nat) (bytes : List Byte) : State :=
  s.setLnk
    { s.lnk with
      dataOut := s.lnk.dataOut.take sent ++ (bytes ++ List.replicate (after - bytes.length) 0).take after }

/-- A FETCH frame taken (R168): the completion record in IDLE, the offered record in DATA OUT, NONE otherwise. -/
def takeFetch (sent after : Nat) (s : State) : State :=
  match s.cmu.progress with
  | .idle =>
    match s.cmu.completion with
    | some k => s.reply sent after (replyFrame 1 k.bytes)
    | none => s.reply sent after (replyFrame 0 [])
  | .swp w =>
    match w.offered with
    | some k => let x := transferOffered k w s; x.1.reply sent after (replyFrame 2 x.2)
    | none => s.reply sent after (replyFrame 0 [])
  | _ => s.reply sent after (replyFrame 0 [])

/-- FETCH_FRAME (R168). -/
def execFetchFrame (f : Frame) (after : Nat) (s : State) : Host.Outcome State Fault Refusal :=
  .next (arrive .fetch f.low f.payload f.check after (takeFetch (3 + f.payload.length) after) s)

/-! ## The data timeout (R172) -/

/-- The data timer has run out (DEDUCED; assumption log, entry 2). -/
def State.dataTimedOut (s : State) : Bool :=
  s.cmu.dataDue.any fun t => decide (t ≤ s.now)

/-- The command in progress ends TIMED OUT: LDC keeps what it loaded, SWP leaves its offered record held (R143,
R155, R172). -/
def timeOut (s : State) : State :=
  match s.cmu.progress with
  | .ldc n loaded _ => s.complete (ldcRecord .timedOut n loaded none)
  | .swp w => endSweep .timedOut w s
  | _ => s

/-- DATA_TIMEOUT (R172). -/
def execDataTimeout (s : State) : Host.Outcome State Fault Refusal :=
  .next (whenReleased (fun s => if s.dataTimedOut then timeOut s else s) s)

end Sys2Proof.Machine
end

