-- ==== Sys2Proof/Machine/Status.lean ====
section
/-! DEFINITION. The status commands: EVE (R185), ACK (R184), RHC (R186), RRW (R187) and RMO (R188). -/

namespace Sys2Proof.Machine

/-! ## EVE – Set Event Enables, and ACK – Acknowledge Events -/

/-- EVE on a payload of 2 bytes: the enabled set is replaced and the line recomputed before DONE is raised (R185). -/
def setEventEnables (p : List Byte) (s : State) : State :=
  let e := eventSetAt p 0
  (s.setEvu { s.evu with enabled := e }.recomputed).complete (.counts .ok s.evu.enabled.toNat e.toNat)

/-- EVE: Set Event Enables (R185). -/
def execEve (c : Cmd) (s : State) : Host.Outcome State Fault Refusal :=
  .next (takeCommand Op.eve c (withLength 2 setEventEnables) s)

/-- ACK on a payload of 2 bytes, in the order of R184: the copy, the completion with its DONE, the removal, the
line. -/
def acknowledge (p : List Byte) (s : State) : State :=
  let remains := (s.evu.pending ||| Kind.done.bit) &&& ~~~eventSetAt p 0
  let t := s.complete (.counts .ok s.evu.pending.toNat remains.toNat)
  t.setEvu { t.evu with pending := t.evu.pending &&& ~~~eventSetAt p 0 }.recomputed

/-- ACK: Acknowledge Events (R184). -/
def execAck (c : Cmd) (s : State) : Host.Outcome State Fault Refusal :=
  .next (takeCommand Op.ack c (withLength 2 acknowledge) s)

/-! ## RHC – Read Changed Rows -/

/-- RHC on an empty payload: the changed-rows set is copied and emptied (R186). -/
def readChanged (_ : List Byte) (s : State) : State :=
  (s.setEvu { s.evu with changed := 0 }).complete (.counts .ok s.evu.changed.toNat (rowCount s.evu.changed))

/-- RHC: Read Changed Rows (R186). -/
def execRhc (c : Cmd) (s : State) : Host.Outcome State Fault Refusal :=
  .next (takeCommand Op.rhc c (withLength 0 readChanged) s)

/-! ## RRW – Read Row Status -/

/-- The byte of a held reason (R187). -/
def HeldReason.byte : HeldReason → Byte
  | .noPosition => 1
  | .noApply => 2
  | .covered => 3
  | .zeroRate => 4
  | .noPrescription => 5

/-- The two bytes of a lane state and its held reason (R187). -/
def LaneState.bytes : LaneState → List Byte
  | .parked => [0, 0]
  | .running => [2, 0]
  | .held r => [3, r.byte]

/-- The two bytes of a seed lane state and its held reason (R187). -/
def SeedState.bytes : SeedState → List Byte
  | .priming _ => [1, 0]
  | .lane l => l.bytes

/-- The items of a fertiliser lane: present, state and reason, *fallback*, *rate limited*; zeros without a lane
(R187). -/
def fertBytes : Option FertLane → List Byte
  | none => [0, 0, 0, 0, 0]
  | some l => 1 :: l.state.bytes ++ [flagByte l.view.fallback, flagByte l.limited]

/-- The 74 bytes of a row's status (R187). -/
def State.rowStatus (s : State) (w : Row) : List Byte :=
  [flagByte w.ctx.enabled] ++ w.seed.state.bytes ++ [flagByte w.seed.view.fallback, flagByte w.seed.limited]
    ++ fertBytes w.fert
    ++ leBytes 4 w.vr ++ leBytes 4 w.seed.q ++ leBytes 4 w.seed.s
    ++ leBytes 4 (w.fert.elim 0 (·.f)) ++ leBytes 4 (w.fert.elim 0 (·.ff))
    ++ leIntBytes 4 (w.fert.elim 0 (·.flow.trim)) ++ leBytes 4 (w.fert.elim 0 (·.duty))
    ++ leBytes 4 w.seed.drive ++ leBytes 4 (w.fert.elim 0 (·.valve))
    ++ optKeyBytes (s.boundKey w.seed.point) ++ optKeyBytes (s.boundKey (w.point .fert))
    ++ optKeyBytes (s.boundKey w.drop)
    ++ [BitVec.ofNat 8 w.sfm.queue.length]
    ++ [flagByte w.sfm.blocked, flagByte w.sfm.stuck, flagByte w.sfm.stalled,
        flagByte (w.fert.any (·.flow.sensorFault)), flagByte (w.fert.any (·.flow.noFlow))]
    ++ leBytes 4 (w.fert.elim 0 (·.flow.lastFlow)) ++ [flagByte (w.fert.any (·.flow.estimated))]
    ++ [flagByte w.sfm.overflowSeen, flagByte w.sfm.underflowSeen]

/-- A row whose sticky flags are cleared (R118). -/
def Row.flagsRead (w : Row) : Row :=
  { w with sfm := { w.sfm with overflowSeen := false, underflowSeen := false } }

/-- The row a payload byte names, with its number, where it is configured (R187). -/
def State.namedRow (s : State) (n : Nat) : Option (RowId × Row) :=
  if inRange 1 32 n then (s.row (rowOf n)).map fun w => (rowOf n, w) else none

/-- RRW on a payload of 1 byte: the snapshot, then the sticky flags cleared (R187). -/
def readRow (p : List Byte) (s : State) : State :=
  match s.namedRow (natAt p 0 1) with
  | none => s.complete (.badField 1)
  | some (r, w) =>
    (s.modRow r Row.flagsRead).complete
      { Completion.counts .ok (natAt p 0 1) 0 with payload := s.rowStatus w }

/-- RRW: Read Row Status (R187). -/
def execRrw (c : Cmd) (s : State) : Host.Outcome State Fault Refusal :=
  .next (takeCommand Op.rrw c (withLength 1 readRow) s)

/-! ## RMO – Read Motion -/

/-- The byte of a fix state (R188). -/
def FixState.byte : FixState → Byte
  | .noFix => 0
  | .current => 1
  | .stale => 2
  | .lost => 3

/-- The byte of a pulse speed state (R188). -/
def PulseState.byte : PulseState → Byte
  | .active => 0
  | .holding => 1
  | .silent => 2

/-- The byte of a speed source (R180, R188). -/
def SpeedSource.byte : SpeedSource → Byte
  | .pulse => 0
  | .fix => 1

/-- The byte of a work switch state (R188). -/
def SwitchLevel.byte : SwitchLevel → Byte
  | .lowered => 0
  | .lifted => 1

/-- The byte of a device mode (R188). -/
def Mode.byte : Mode → Byte
  | .idle => 0
  | .field => 1
  | .shadow => 2

/-- The last accepted fix in RMO: a presence byte and the fields, 0 when absent (R188). -/
def fixBytes : Option Fix → List Byte
  | none => List.replicate 26 0
  | some f =>
    1 :: leIntBytes 4 f.e ++ leIntBytes 4 f.n ++ leIntBytes 4 f.hE ++ leIntBytes 4 f.hN ++ leIntBytes 4 f.omega
      ++ leBytes 4 f.speed ++ [f.quality.byte]

/-- The 44 bytes of the Motion Unit's snapshot (R188). -/
def State.motionStatus (s : State) : List Byte :=
  let m := s.mot
  [m.fixState.byte] ++ fixBytes m.fix ++ [m.pulseState.byte] ++ leBytes 4 m.filtered ++ [m.source.byte]
    ++ leBytes 4 m.vRef ++ leIntBytes 4 m.yawRef
    ++ [flagByte m.silenceReported, SwitchLevel.byte m.switch, s.cmu.mode.byte]

/-- RMO on an empty payload (R188). -/
def readMotion (_ : List Byte) (s : State) : State :=
  s.complete { Completion.plain .ok with payload := s.motionStatus }

/-- RMO: Read Motion (R188). -/
def execRmo (c : Cmd) (s : State) : Host.Outcome State Fault Refusal :=
  .next (takeCommand Op.rmo c (withLength 0 readMotion) s)

end Sys2Proof.Machine
end

