-- ==== Sys2Proof/Machine/Dispatch.lean ====
section
/-! DEFINITION. The dispatch: one arm for each row of the opcode table, each one call of the row's meaning. -/

namespace Sys2Proof.Machine

/-- What a command does to everything but the queue. -/
def exec (i : Instr) (s : State) : Host.Outcome State Fault Refusal :=
  match i with
  | .powerOnResetAssert => Sys2Proof.Machine.execPowerOnResetAssert s
  | .powerOnResetRelease => Sys2Proof.Machine.execPowerOnResetRelease s
  | .malformedFrame bytes => Sys2Proof.Machine.execMalformedFrame bytes s
  | .statusFrame f => Sys2Proof.Machine.execStatusFrame f s
  | .fixFrame f => Sys2Proof.Machine.execFixFrame f s
  | .staleTimerExpiry => Sys2Proof.Machine.execStaleTimerExpiry s
  | .lostTimerExpiry => Sys2Proof.Machine.execLostTimerExpiry s
  | .groundSpeedPulse => Sys2Proof.Machine.execGroundSpeedPulse s
  | .speedWindowEnd => Sys2Proof.Machine.execSpeedWindowEnd s
  | .workSwitchLevelChange level => Sys2Proof.Machine.execWorkSwitchLevelChange level s
  | .workSwitchChange => Sys2Proof.Machine.execWorkSwitchChange s
  | .holeEvent row => Sys2Proof.Machine.execHoleEvent row s
  | .sensedSeed row => Sys2Proof.Machine.execSensedSeed row s
  | .occlusionEnd row => Sys2Proof.Machine.execOcclusionEnd row s
  | .occlusionTimerExpiry row => Sys2Proof.Machine.execOcclusionTimerExpiry row s
  | .entryExpiry row => Sys2Proof.Machine.execEntryExpiry row s
  | .stallTimerExpiry row => Sys2Proof.Machine.execStallTimerExpiry row s
  | .syntheticHoleEvent row => Sys2Proof.Machine.execSyntheticHoleEvent row s
  | .syntheticSensedSeed row => Sys2Proof.Machine.execSyntheticSensedSeed row s
  | .conversionComplete code => Sys2Proof.Machine.execConversionComplete code s
  | .dataFrame f => Sys2Proof.Machine.execDataFrame f s
  | .fetchFrame f after => Sys2Proof.Machine.execFetchFrame f after s
  | .dataTimeout => Sys2Proof.Machine.execDataTimeout s
  | .scbReadStep => Sys2Proof.Machine.execScbReadStep s
  | .badCommand code c => Sys2Proof.Machine.execBadCommand code c s
  | .idn c => Sys2Proof.Machine.execIdn c s
  | .abrt c => Sys2Proof.Machine.execAbrt c s
  | .rstr c => Sys2Proof.Machine.execRstr c s
  | .seti c => Sys2Proof.Machine.execSeti c s
  | .setrConfigure c => Sys2Proof.Machine.execSetrConfigure c s
  | .setrRemove c => Sys2Proof.Machine.execSetrRemove c s
  | .sete c => Sys2Proof.Machine.execSete c s
  | .setf c => Sys2Proof.Machine.execSetf c s
  | .strtField c => Sys2Proof.Machine.execStrtField c s
  | .strtShadow c => Sys2Proof.Machine.execStrtShadow c s
  | .stop c => Sys2Proof.Machine.execStop c s
  | .prim c => Sys2Proof.Machine.execPrim c s
  | .setl c => Sys2Proof.Machine.execSetl c s
  | .ldc c => Sys2Proof.Machine.execLdc c s
  | .pchSeedTarget c => Sys2Proof.Machine.execPchSeedTarget c s
  | .pchFertTarget c => Sys2Proof.Machine.execPchFertTarget c s
  | .pchNoApply c => Sys2Proof.Machine.execPchNoApply c s
  | .mrgAdd c => Sys2Proof.Machine.execMrgAdd c s
  | .mrgRemove c => Sys2Proof.Machine.execMrgRemove c s
  | .qryExact c => Sys2Proof.Machine.execQryExact c s
  | .qryNext c => Sys2Proof.Machine.execQryNext c s
  | .rtc c => Sys2Proof.Machine.execRtc c s
  | .swp c => Sys2Proof.Machine.execSwp c s
  | .rms c => Sys2Proof.Machine.execRms c s
  | .scb c => Sys2Proof.Machine.execScb c s
  | .rss c => Sys2Proof.Machine.execRss c s
  | .eve c => Sys2Proof.Machine.execEve c s
  | .ack c => Sys2Proof.Machine.execAck c s
  | .rhc c => Sys2Proof.Machine.execRhc c s
  | .rrw c => Sys2Proof.Machine.execRrw c s
  | .rmo c => Sys2Proof.Machine.execRmo c s

end Sys2Proof.Machine
end

