-- ==== Sys2Proof/Safety.lean ====
section
/-! DEFINITION. What a good state is, in the terms the statements use: the canonical form of the Cell Store, the ranges
the spec gives, the gating of the outputs, and the agreement of the Command Unit with the lanes. -/

namespace Sys2Proof.Machine

/-! ## The Cell Store (R4 to R8, R17, R162) -/

/-- No sub-square is both fresh and settled (R5). -/
def Coverage.wf (c : Coverage) : Bool :=
  decide (c.fresh &&& c.settled = 0)

/-- A payload holds values of R4 and R6. -/
def Payload.wf (p : Payload) : Bool :=
  decide (p.seedTarget ≤ 6000) && decide (p.fertTarget ≤ 4000) && p.seedCov.wf && p.fertCov.wf
    && decide (p.placed ≤ 65535) && decide (p.skips ≤ 65535) && decide (p.extras ≤ 65535)
    && decide (p.applied ≤ 4294967295)

/-- The records are in strictly ascending key order, so that no two have the same key (R8). -/
abbrev Store.ordered (c : Store) : Prop :=
  c.records.Pairwise fun a b => a.key.before b.key = true

/-- The canonical form of the Cell Store: the order and size of R8, payloads of R4 to R6, the live poisoned count of
R162, and the miss set of R17. -/
abbrev Store.wf (c : Store) : Prop :=
  c.ordered ∧ c.records.length ≤ 1024
    ∧ (∀ x ∈ c.records, x.payload.all Payload.wf = true)
    ∧ c.poisonedCount = c.records.countP (fun x => x.payload.isNone)
    ∧ c.misses.length ≤ 16 ∧ c.misses.Nodup ∧ (∀ k ∈ c.misses, c.holds k = false)

/-! ## Rows (R47, R59, R61, R64, R75, R101, R103, R122) -/

/-- A row context holds values of R47. -/
def RowContext.wf (c : RowContext) : Bool :=
  decide (-2400 ≤ c.lat) && decide (c.lat ≤ 2400) && decide (c.fa ≤ 1500) && decide (15 ≤ c.width)
    && decide (c.width ≤ 152) && decide (1 ≤ c.holes) && decide (c.holes ≤ 64) && decide (100 ≤ c.sMax)
    && decide (c.sMax ≤ 5000) && c.channel.all (fun x => decide (x ≤ 31)) && decide (c.zeroCode ≤ 4094)
    && decide (1000 ≤ c.fullScale) && decide (c.fullScale ≤ 200000) && decide (1000 ≤ c.valveFull)
    && decide (c.valveFull ≤ 200000)

/-- The Flow Scanner's state of a row lies in the ranges of R122. -/
def FlowState.wf (f : FlowState) : Bool :=
  decide (f.lastFlow ≤ 200000) && decide (-250 ≤ f.trim) && decide (f.trim ≤ 250) && decide (f.railRun ≤ 3)
    && decide (f.inRun ≤ 3) && decide (f.lowRun ≤ 10)

/-- The Seed Flight Monitor's state of a row lies in the ranges of R101. -/
def Flight.wf (f : Flight) : Bool :=
  decide (f.queue.length ≤ 8) && decide (f.skipRun ≤ 65535) && decide (f.window.length ≤ 32)

/-- A row's context, view targets, results, flight and flow state lie in their ranges (R47, R59, R64, R101, R122), and it
has a fertiliser lane exactly when it has a channel (R47). -/
def Row.wf (w : Row) : Bool :=
  w.ctx.wf && decide (w.vr ≤ 10000) && decide (w.seed.view.target ≤ 6000) && decide (w.seed.q ≤ 912000)
    && decide (w.seed.s ≤ w.ctx.sMax) && w.sfm.wf && decide (w.fert.isSome = w.ctx.channel.isSome)
    && w.fert.all fun l =>
      decide (l.view.target ≤ 4000) && decide (l.f ≤ 200000) && decide (l.ff ≤ 1000) && decide (l.duty ≤ 1000)
        && l.flow.wf

/-- Every configured row is in its ranges, no two share a fertiliser channel (R47), and the fallback targets are in
theirs (R61). -/
def State.rowsWf (s : State) : Prop :=
  (∀ r w, s.row r = some w → w.wf = true)
    ∧ (∀ q r v w, q ≠ r → s.row q = some v → s.row r = some w → v.ctx.channel ≠ none → v.ctx.channel ≠ w.ctx.channel)
    ∧ s.ren.seedFallback ≤ 6000 ∧ s.ren.fertFallback ≤ 4000

/-! ## Outputs and priming (R47, R84, R90, R91, R95, R116) -/

/-- The rows still priming, for the command in progress (R95). -/
def Progress.still : Progress → RowSet
  | .prim _ still _ => still
  | _ => 0

/-- The output ports of every row carry what the gating passes, 0 on a row that is not configured (R47, R90, R91), and 0
while the reset pin is asserted (R178). -/
def State.gated (s : State) : Prop :=
  ∀ r,
    (s.meterPort r = if s.inReset then 0 else (s.row r).elim 0 s.meterDrive)
      ∧ s.valvePort r = if s.inReset then 0 else ((s.row r).bind (·.fert)).elim 0 s.valveOut

/-- The stall timer of a row is stopped while its port carries less than 50, and runs while it carries 50 or more, but
where it has run out into METER STALL (R116). -/
def Row.stallWf (w : Row) : Prop :=
  (w.seed.drive < 50 → w.sfm.stallDue = none)
    ∧ (50 ≤ w.seed.drive → w.sfm.stalled = false → w.sfm.stallDue.isSome = true)

/-- The output ports are gated, the stall timers follow them outside reset, and a seed lane is in PRIMING only while PRIM
is in progress with the row still priming. -/
def State.outputsWf (s : State) : Prop :=
  s.gated
    ∧ ∀ r w, s.row r = some w →
      (s.inReset = false → w.stallWf) ∧ (w.priming = true → rowIn r s.cmu.progress.still = true)

/-! ## The Event Unit and the Command Unit (R170, R172, R183) -/

/-- The attention line stands as R183 says, and is released while the reset pin is asserted (R178). -/
def State.lineWf (s : State) : Prop :=
  s.evu.attention = (!s.inReset && decide (s.evu.pending &&& s.evu.enabled ≠ 0))

/-- The data timer runs exactly in DATA IN and DATA OUT, and a sweep in progress offers its last chosen key (R152,
R170, R172). -/
def State.commandWf (s : State) : Prop :=
  s.cmu.dataDue.isSome = s.dataRequest
    ∧ ∀ w, s.cmu.progress = .swp w → w.offered.isSome = true ∧ w.offered = w.last

end Sys2Proof.Machine

namespace Sys2Proof

open Machine

/-! ## Frames and commands as the statements take them (R166, R167, R171) -/

/-- A COMMAND frame of a code with a length and a check byte that are right. -/
def Cmd.right (c : Cmd) (code : BitVec 5) : Prop :=
  c.payload.length ≤ 250 ∧ c.check = frameCheck (header .command code) c.payload

/-- A frame of another class with a length and a check byte that are right. -/
def Frame.right (f : Frame) (cls : FrameClass) : Prop :=
  badLengthFor cls f.payload = false ∧ f.check = frameCheck (header cls f.low) f.payload

/-- The command code and the bytes of a command that is a COMMAND frame (R180). -/
def Instr.command : Instr → Option (BitVec 5 × Cmd)
  | .badCommand code c => some (code, c)
  | .idn c => some (Op.idn, c)
  | .abrt c => some (Op.abrt, c)
  | .rstr c => some (Op.rstr, c)
  | .seti c => some (Op.seti, c)
  | .setrConfigure c => some (Op.setr, c)
  | .setrRemove c => some (Op.setr, c)
  | .sete c => some (Op.sete, c)
  | .setf c => some (Op.setf, c)
  | .strtField c => some (Op.strt, c)
  | .strtShadow c => some (Op.strt, c)
  | .stop c => some (Op.stop, c)
  | .prim c => some (Op.prim, c)
  | .setl c => some (Op.setl, c)
  | .ldc c => some (Op.ldc, c)
  | .pchSeedTarget c => some (Op.pch, c)
  | .pchFertTarget c => some (Op.pch, c)
  | .pchNoApply c => some (Op.pch, c)
  | .mrgAdd c => some (Op.mrg, c)
  | .mrgRemove c => some (Op.mrg, c)
  | .qryExact c => some (Op.qry, c)
  | .qryNext c => some (Op.qry, c)
  | .rtc c => some (Op.rtc, c)
  | .swp c => some (Op.swp, c)
  | .rms c => some (Op.rms, c)
  | .scb c => some (Op.scb, c)
  | .rss c => some (Op.rss, c)
  | .eve c => some (Op.eve, c)
  | .ack c => some (Op.ack, c)
  | .rhc c => some (Op.rhc, c)
  | .rrw c => some (Op.rrw, c)
  | .rmo c => some (Op.rmo, c)
  | _ => none

/-- The class and the bytes of a command that is a frame with a length byte of its own, and the byte times clocked past
its check byte (R166, R168). -/
def Instr.frame (i : Instr) : Option (FrameClass × Frame × Nat) :=
  match i.command with
  | some (code, c) => some (.command, ⟨code, c.payload, c.check⟩, 0)
  | none =>
    match i with
    | .statusFrame f => some (.status, f, 0)
    | .fixFrame f => some (.fix, f, 0)
    | .dataFrame f => some (.data, f, 0)
    | .fetchFrame f after => some (.fetch, f, after)
    | _ => none

end Sys2Proof

namespace Sys2Proof.Machine

/-- The payload lengths that some form of each command has (R180). -/
def commandLengths : List (BitVec 5 × List Nat) :=
  [(Op.idn, [0]), (Op.abrt, [0]), (Op.rstr, [0]), (Op.seti, [26]), (Op.setr, [21, 2]), (Op.sete, [4]), (Op.setf, [4]),
   (Op.strt, [1]), (Op.stop, [0]), (Op.prim, [5]), (Op.setl, [0]), (Op.ldc, [1]), (Op.pch, [7]), (Op.mrg, [9]),
   (Op.qry, [5]), (Op.rtc, [4]), (Op.swp, [9]), (Op.rms, [0]), (Op.scb, [0]), (Op.rss, [0]), (Op.eve, [2]),
   (Op.ack, [2]), (Op.rhc, [0]), (Op.rrw, [1]), (Op.rmo, [0])]

/-- A key that its 4 bytes can carry (R2, R179). -/
def Key.fits (k : Key) : Prop :=
  -32768 ≤ k.cx ∧ k.cx ≤ 32767 ∧ -32768 ≤ k.cy ∧ k.cy ≤ 32767

/-- A rational truncated toward zero (00, Arithmetic). -/
def truncated (x : ℚ) : Int :=
  if 0 ≤ x then ⌊x⌋ else ⌈x⌉

/-- A key is that of the first record, in key order, with a property (R8). -/
def Store.smallest (c : Store) (P : Record → Prop) (k : Key) : Prop :=
  (∃ x ∈ c.records, x.key = k ∧ P x) ∧ ∀ y ∈ c.records, P y → y.key = k ∨ k.before y.key = true

/-- The part takes a command of a code: it is not held in reset, no command is in progress and the frame is right. -/
def State.takes (s : State) (code : BitVec 5) (c : Cmd) : Prop :=
  s.inReset = false ∧ s.cmu.progress = .idle ∧ c.right code

/-- The part takes a frame of another class. -/
def State.takesFrame (s : State) (cls : FrameClass) (f : Frame) : Prop :=
  s.inReset = false ∧ f.right cls

/-- The state after a frame of `n` byte times has shifted out the status byte and zeros (R166, R169). -/
def State.shifted (s : State) (n : Nat) : State :=
  { s with lnk := { s.lnk with dataOut := s.statusByte :: List.replicate (n - 1) 0 } }

/-- The state in which the meaning of a taken command begins: the status byte has been shifted out and REJECTED is
cleared (R171). -/
def State.begun (s : State) (c : Cmd) : State :=
  { s with lnk :=
      { s.lnk with rejected := false, dataOut := s.statusByte :: List.replicate (2 + c.payload.length) 0 } }

/-! ## What follows from a row's setup (R59, R64, R85, R90) -/

/-- A lane view that says nothing. -/
def blankView : LaneView :=
  fallbackView .noPoint 0 none

/-- What a refresh, a computation or a decision of a row never changes: everything but its row speed, views, results,
outputs and stall timer, and the state of a lane that is not priming. -/
def Row.core (w : Row) : Row :=
  { w with
    vr := 0
    seed :=
      { w.seed with
        view := blankView
        state := match w.seed.state with | .priming n => .priming n | .lane _ => .lane .parked
        q := 0
        s := 0
        limited := false
        drive := 0 }
    fert := w.fert.map fun l =>
      { l with view := blankView, state := .parked, f := 0, ff := 0, duty := 0, limited := false, valve := 0 }
    sfm := { w.sfm with stallDue := none } }

/-- A lane of a row enters the limit between two states of the row: its *rate limited* indicator goes from clear to set
(R72). -/
def Row.entersLimit (v w : Row) : Prop :=
  (v.seed.limited = false ∧ w.seed.limited = true)
    ∨ ((∀ l, v.fert = some l → l.limited = false) ∧ ∃ m, w.fert = some m ∧ m.limited = true)

/-- The stall timer follows the value of a row's port between two states of the row (R116): it starts where the value
rises from below 50 to 50 or more, stops where it falls below 50, and is else as it was. -/
def State.stallFollows (s : State) (v w : Row) : Prop :=
  (v.seed.drive < 50 → 50 ≤ w.seed.drive → w.sfm.stallDue = some (s.now + s.settings.stallTime))
    ∧ (50 ≤ v.seed.drive → w.seed.drive < 50 → w.sfm.stallDue = none)
    ∧ ((v.seed.drive < 50 ↔ w.seed.drive < 50) → w.sfm.stallDue = v.sfm.stallDue)

/-- One state follows another by refreshes, one computation of each row and decisions alone: nothing differs but what
follows from the rows' setup; the stall timers follow the ports (R116); and RATE LIMIT is raised if a lane's indicator
goes from clear to set, and nothing else is (R72). What the differing parts hold is `State.current` and
`State.outputsWf`. -/
def State.follows (s t : State) : Prop :=
  t = { s with ren := { s.ren with rows := t.ren.rows }, evu := t.evu }
    ∧ (∀ r, (t.row r).map Row.core = (s.row r).map Row.core)
    ∧ (∀ r v w, s.row r = some v → t.row r = some w → s.stallFollows v w)
    ∧ ((∃ r v w, s.row r = some v ∧ t.row r = some w ∧ v.entersLimit w) → t.evu = s.evu.raised .rateLimit)
    ∧ (¬ (∃ r v w, s.row r = some v ∧ t.row r = some w ∧ v.entersLimit w) → t.evu = s.evu)

/-- A look-ahead point of one of the rows named lies in the cell of a key. -/
def State.looksInto (s : State) (rows : RowId → Bool) (k : Key) : Bool :=
  rowIds.any fun r =>
    rows r && (s.row r).any fun w =>
      w.seed.point.any (fun q => decide (cellOf s.settings.cellSide q = k))
        || w.fert.any fun l => l.look.any fun q => decide (cellOf s.settings.cellSide q = k)

/-- A record whose payload has two bits flipped. -/
def Record.lost (x : Record) : Bool :=
  x.payload.any fun p => decide (p.bits = .twoFlipped)

/-- A record whose payload has one bit flipped. -/
def Record.marred (x : Record) : Bool :=
  x.payload.any fun p => decide (p.bits = .oneFlipped)

/-- A record after a read of its payload (R158, R159): poisoned where two bits are flipped, put right where one is. -/
def Record.afterRead (x : Record) : Record :=
  if x.lost then { x with payload := none } else { x with payload := x.payload.map fun p => { p with bits := .clean } }

/-- An event kind raised if a condition holds. -/
def Events.raisedIf (e : Events) (b : Bool) (k : Kind) : Events :=
  if b then e.raised k else e

/-- One state follows another by a read of each payload whose key is looked at, and then by what follows from the rows'
setup (R60, R157 to R159): records with one bit flipped are put right and those with two poisoned, with the storage
status and the events of each. Where the status held no first-uncorrectable key, it takes that of one of the records
poisoned, free among them (R161; assumption log, entry 7); the count of free choices is the model's own. -/
def State.reads (s : State) (looked : Key → Bool) (t : State) : Prop :=
  let lost := fun x : Record => looked x.key && x.lost
  let marred := fun x : Record => looked x.key && x.marred
  ∃ (first : Option Key) (n : Nat),
    (s.cst.firstKey ≠ none ∨ s.cst.records.any lost = false → first = s.cst.firstKey)
      ∧ (s.cst.firstKey = none → s.cst.records.any lost = true →
          ∃ x ∈ s.cst.records, lost x = true ∧ first = some x.key)
      ∧ ({ s with
            cst := { s.cst with
              records := s.cst.records.map fun x => if looked x.key then x.afterRead else x
              correctedSeen := s.cst.correctedSeen || s.cst.records.any marred
              firstKey := first
              poisonedCount := s.cst.poisonedCount + s.cst.records.countP lost }
            evu := (s.evu.raisedIf (s.cst.records.any marred) .storageCorrected).raisedIf (s.cst.records.any lost)
              .storageUncorrectable
            choices := n } : State).follows t

/-! ## The fields of SETI and SETR as the spec lays them out (R47, R48, R174, R180) -/

/-- The quantity of a payload at an offset lies in a range. -/
def within (p : List Byte) (off width lo hi : Nat) : Bool :=
  decide (lo ≤ natAt p off width ∧ natAt p off width ≤ hi)

/-- For each of the seventeen fields of SETI, by its place and width, whether it holds a value of its range (R174, R180). -/
def setiFits (p : List Byte) : List Bool :=
  [decide (natAt p 0 2 = 100 ∨ natAt p 0 2 = 200 ∨ natAt p 0 2 = 400), within p 2 1 0 1, within p 3 1 0 1,
    within p 4 2 1000 65000, within p 6 1 0 2, within p 7 2 200 5000, within p 9 2 2000 30000, within p 11 1 0 1,
    within p 12 2 0 2000, within p 14 2 0 2000, within p 16 1 0 1, within p 17 1 0 1, within p 18 2 50 1000,
    within p 20 2 50 1000, within p 22 1 4 64, within p 23 1 16 32, within p 24 2 500 5000]

/-- The settings of a SETI whose fields are in range (R174, R180). -/
def setiSettings (p : List Byte) : Settings where
  cellSide := if natAt p 0 2 = 100 then .cm100 else if natAt p 0 2 = 200 then .cm200 else .cm400
  speedSource := if natAt p 2 1 = 0 then .pulse else .fix
  fallback := decide (natAt p 3 1 = 1)
  pulsesPer100m := natAt p 4 2
  filter := if natAt p 6 1 = 0 then .off else if natAt p 6 1 = 1 then .light else .heavy
  holdTime := natAt p 7 2
  lostLimit := natAt p 9 2
  lossPolicy := if natAt p 11 1 = 0 then .keep else .stop
  seedLatency := natAt p 12 2
  fertLatency := natAt p 14 2
  seedOverlap := decide (natAt p 16 1 = 1)
  fertOverlap := decide (natAt p 17 1 = 1)
  primeSpeed := natAt p 18 2
  transitLimit := natAt p 20 2
  blockageRun := natAt p 22 1
  recovery := natAt p 23 1
  stallTime := natAt p 24 2

/-- For each field of SETR, the row number, the action and under CONFIGURE the nine context fields, by its place and width,
whether it holds a value of its range (R47, R48, R180). -/
def setrFits (p : List Byte) : List Bool :=
  [within p 0 1 1 32, within p 1 1 0 1]
    ++ if natAt p 1 1 = 0 then
      [decide (-2400 ≤ intAt p 2 2 ∧ intAt p 2 2 ≤ 2400), within p 4 2 0 1500, within p 6 1 15 152, within p 7 1 1 64,
        within p 8 2 100 5000, within p 10 1 0 31 || decide (natAt p 10 1 = 255), within p 11 2 0 4094,
        within p 13 4 1000 200000, within p 17 4 1000 200000]
    else []

/-- The row context of a SETR CONFIGURE whose fields are in range, with the row enabled (R47, R49, R180). -/
def setrContext (p : List Byte) : RowContext where
  lat := intAt p 2 2
  fa := natAt p 4 2
  width := natAt p 6 1
  holes := natAt p 7 1
  sMax := natAt p 8 2
  channel := if natAt p 10 1 = 255 then none else some (natAt p 10 1)
  zeroCode := natAt p 11 2
  fullScale := natAt p 13 4
  valveFull := natAt p 17 4
  enabled := true

/-! ## What a change of one record leaves, and the ends of commands -/

/-- One state follows another by a change delivered to the record of a key (R20, R21, R160): the payload is read; where
the record is then held and not poisoned it takes the change, under a new check code, and what follows from the rows'
setup follows. -/
def State.credited (s : State) (k : Key) (f : Payload → Payload) (u : State) : Prop :=
  match (readState k s).cst.payload k with
  | none => u = readState k s
  | some y =>
    ({ readState k s with cst := (readState k s).cst.put k (some { f y with bits := .clean }) } : State).follows u

/-- The flight state of a row after an outcome (R112): a skip may enter BLOCKED, emptying the window (R113), and a match
may leave it (R114). -/
def Flight.noted (f : Flight) (c : Settings) (x : Seen) : Flight :=
  let window := (f.window ++ [x]).drop (f.window.length + 1 - 32)
  match x with
  | .skip =>
    let run := min 65535 (f.skipRun + 1)
    if f.blocked = false ∧ c.blockageRun ≤ run then { f with skipRun := run, blocked := true, window := [] }
    else { f with skipRun := run, window := window }
  | .matched =>
    { f with
      skipRun := 0
      window := window
      blocked := f.blocked && decide ((window.countP fun y => decide (y = .matched)) < c.recovery) }

/-- A payload with one sub-square marked for seed, and a seed placed (R19, R20). -/
def Payload.matchedAt (p : Payload) (b : Sub) : Payload :=
  { p with
    placed := min 65535 (p.placed + 1)
    seedCov := { p.seedCov with fresh := p.seedCov.fresh ||| (b.bit &&& ~~~p.seedCov.settled) } }

/-- A payload with a skip (R20). -/
def Payload.skipped (p : Payload) : Payload :=
  { p with skips := min 65535 (p.skips + 1) }

/-- A payload with a volume applied, and its sub-square marked for fertiliser if the volume is above 0 (R19, R21). -/
def Payload.appliedAt (p : Payload) (volume : Nat) (b : Sub) : Payload :=
  { p with
    applied := min 4294967295 (p.applied + volume)
    fertCov :=
      if 0 < volume then { p.fertCov with fresh := p.fertCov.fresh ||| (b.bit &&& ~~~p.fertCov.settled) }
      else p.fertCov }

/-- One state follows another by the resolution of the oldest entry of a row (R106, R107, R109, R110, R112): a match or a
skip credits the record its target names, if it names one, and is then noted, with HEALTH where BLOCKED is entered or left;
an unknown does neither. Then the entry leaves the queue. -/
def State.resolved (s : State) (r : RowId) (x : Option Seen) (u : State) : Prop :=
  ∃ (w : Row) (e : Entry) (rest : List Entry) (v : State) (w' : Row), s.row r = some w ∧ w.sfm.queue = e :: rest
    ∧ (match x, e.target with
        | some .matched, some (k, b) => s.credited k (·.matchedAt b) v
        | some .skip, some (k, _) => s.credited k (·.skipped) v
        | _, _ => v = s)
    ∧ v.row r = some w'
    ∧ (let f := x.elim w'.sfm (w'.sfm.noted s.settings)
      let t := v.setRow r (some { w' with sfm := { f with queue := rest } })
      u = if f.blocked = w'.sfm.blocked then t else t.raiseHealth r)

/-- The state after a row's priming has ended, for the command in progress: the row leaves the rows still priming, and PRIM
completes OK with the last (R96 to R98). -/
def State.afterPriming (s : State) (r : RowId) (byStall : Bool) : State :=
  match s.cmu.progress with
  | .prim named still stalled =>
    let still' := still &&& ~~~rowBit r
    let stalled' := if byStall then stalled ||| rowBit r else stalled
    if still' = 0 then
      s.complete
        { Completion.counts .ok (rowCount (named &&& ~~~stalled')) (rowCount stalled') with
          payload := leBytes 4 stalled'.toNat }
    else { s with cmu := { s.cmu with progress := .prim named still' stalled' } }
  | _ => s

/-- The state after a FETCH frame with a payload of `n` bytes and `after` byte times past its check byte has shifted out
the status byte, zeros and a reply (R166, R168). -/
def State.replied (s : State) (status : Byte) (n after : Nat) (bytes : List Byte) : State :=
  { s with lnk :=
      { s.lnk with
        dataOut := status :: List.replicate (2 + n) 0 ++ (bytes ++ List.replicate (after - bytes.length) 0).take after } }

/-- A record after a settle has read it (R23, R158, R159): poisoned where the read meets an uncorrectable error, else
settled, with its stored bits as written. -/
def Record.afterSettle (x : Record) : Record :=
  match x.payload with
  | none => x
  | some p =>
    match p.bits with
    | .twoFlipped => { x with payload := none }
    | _ => { x with payload := some { p.settled with bits := .clean } }

/-- A record that a settle reads and whose fresh sub-squares it settles (R25). -/
def Record.settles (x : Record) : Bool :=
  !x.lost && x.payload.any (·.hasFresh)

/-- The Cell Store after a settle (R23, R161). -/
def Store.afterSettle (c : Store) : Store :=
  { c with
    records := c.records.map Record.afterSettle
    correctedSeen := c.correctedSeen || c.records.any Record.marred
    firstKey := c.firstKey <|> (c.records.find? Record.lost).map (·.key)
    poisonedCount := c.poisonedCount + c.records.countP Record.lost }

/-- The state after a settle, but for what follows from the rows' setup (R23, R161). -/
def State.settled (s : State) : State :=
  { s with
    cst := s.cst.afterSettle
    evu := (s.evu.raisedIf (s.cst.records.any Record.marred) .storageCorrected).raisedIf
      (s.cst.records.any Record.lost) .storageUncorrectable }

/-- A fertiliser lane agrees with its inputs: the view is what the store holds at its point, and the state is what a
decision gives (R59, R85). -/
def State.fertCurrent (s : State) (w : Row) (l : FertLane) : Prop :=
  l.view = s.viewAt .fert l.look ∧ l.state = s.decided w.ctx.enabled .fert l.view

/-- Every row agrees with its inputs as they stand: its results are those of a computation, its views are what the store
holds at its points, and its lanes' states are what a decision gives (R59, R60, R64, R65, R85, R89). -/
def State.current (s : State) : Prop :=
  ∀ r w, s.row r = some w →
    w.computed s.mot.vRef s.mot.yawRef = w
      ∧ w.seed.view = s.viewAt .seed w.seed.point
      ∧ (∀ x, w.seed.state = .lane x → x = s.decided w.ctx.enabled .seed w.seed.view)
      ∧ ∀ l, w.fert = some l → s.fertCurrent w l

end Sys2Proof.Machine
end

