-- ==== Sys2Proof/Certificates/Slice0/Obligations.lean ====
section
/-! DEFINITION. The statements for the provers, in the order of OBLIGATIONS.json: the machine and the link, the
invariants, the arithmetic and the layouts, then what each command does. -/

open Sys2Proof Sys2Proof.Machine

/-! ## The machine -/

/-- A step with a command at the front of the queue executes that command with the queue's rest. -/
def Obligations.StepRunsTheFrontCommand : Prop :=
  ∀ (c : Instr) (s : State), step { s with pending := c :: s.pending } = exec c s

/-- With no command waiting a step lets one millisecond pass: in SHADOW every RUNNING seed lane's accumulator rises by
s × H (R119), and the storage upsets of that millisecond hit the store. That a step on an empty queue is a millisecond is
the model's choice (assumption log, entries 1, 3 and 17). -/
def Obligations.EmptyQueuePassesAMillisecond : Prop :=
  ∀ s : State, s.pending = [] →
    let a :=
      if s.cmu.mode = .shadow ∧ s.inReset = false then
        s.mapRows fun _ w =>
          if w.seed.state = .lane .running then
            { w with sfm := { w.sfm with synth := w.sfm.synth + w.seed.s * w.ctx.holes } }
          else w
      else s
    step s =
      .next { a with
        now := s.now + 1
        cst := (s.upsets.headD []).foldl Store.upset s.cst
        upsets := s.upsets.tail }

/-- Every command answers a next state, the model's deduced choice (assumption log, entry 23), and none touches the queue,
the clock or the upsets still to come, which are the model's own fields (assumption log, entries 1 and 3). -/
def Obligations.EveryCommandAnswersNext : Prop :=
  ∀ (c : Instr) (s : State),
    ∃ t, exec c s = .next t ∧ t.pending = s.pending ∧ t.now = s.now ∧ t.upsets = s.upsets

/-! ## Frames -/

/-- Every well-formed command that is a frame is the row that its bytes read as (R166, R168, R179, R180). The rows of
one command code are told apart by an operand byte, the model's choice (assumption log, entry 4). -/
def Obligations.FramesReadBackAsTheirRow : Prop :=
  ∀ (i : Instr) (bytes : List Byte), wellFormed i = true → encodeFrame i = some bytes → decodeFrame bytes = i

/-- Any bytes between select and release read as a well-formed row, and the row's bytes are those bytes; past the check
byte of a FETCH frame, where bytes are not examined, their number is kept (R166, R168). The rows of one command code are
told apart by an operand byte, the model's choice (assumption log, entry 4). -/
def Obligations.AnyBytesReadAsARow : Prop :=
  ∀ bytes : List Byte,
    wellFormed (decodeFrame bytes) = true
      ∧ match decodeFrame bytes with
        | .fetchFrame f after =>
          after ≤ bytes.length ∧ encodeClass .fetch f 0 = bytes.take (bytes.length - after)
        | i => encodeFrame i = some bytes

/-- Two frames that differ in one byte under the check byte have different check bytes (R167). -/
def Obligations.CheckByteTellsOneByte : Prop :=
  ∀ (front back : List Byte) (a b : Byte), a ≠ b → crc8 (front ++ a :: back) ≠ crc8 (front ++ b :: back)

/-- A frame that is malformed, or whose check byte is wrong, is discarded: LINK CHECK is raised, REJECTED is set if its class
is COMMAND, and nothing else changes but the data out line (R166, R167). -/
def Obligations.BadFramesAreDiscarded : Prop :=
  (∀ (i : Instr) (cls : FrameClass) (f : Frame) (after : Nat) (s : State),
      i.frame = some (cls, f, after) → s.inReset = false →
      (badLengthFor cls f.payload = true ∨ f.check ≠ frameCheck (header cls f.low) f.payload) →
      exec i s =
        .next
          (({ s with lnk :=
              { s.lnk with
                rejected := s.lnk.rejected || decide (cls = .command)
                dataOut := s.statusByte :: List.replicate (2 + f.payload.length + after) 0 } } : State).raise .linkCheck))
    ∧ ∀ (bytes : List Byte) (s : State), s.inReset = false → malformed bytes = true →
      exec (.malformedFrame bytes) s =
        .next
          (({ s with lnk :=
              { s.lnk with
                rejected := s.lnk.rejected || commandHeader bytes
                dataOut := (s.statusByte :: List.replicate (bytes.length - 1) 0).take bytes.length } } : State).raise
            .linkCheck)

/-- While a command is in progress every other COMMAND frame is refused: REJECTED is set and nothing else changes but the
data out line. ABRT and RSTR are refused only with a payload that is not empty (R171). -/
def Obligations.CommandsRefusedWhileBusy : Prop :=
  ∀ (i : Instr) (code : BitVec 5) (c : Cmd) (s : State),
    i.command = some (code, c) → s.inReset = false → s.cmu.progress ≠ .idle → c.right code →
    (code = Op.abrt ∨ code = Op.rstr → c.payload ≠ []) →
    exec i s =
      .next { s with lnk :=
        { s.lnk with
          rejected := true
          dataOut := s.statusByte :: List.replicate (2 + c.payload.length) 0 } }

/-- A well-formed command taken with a payload length that no form of it has completes BAD LENGTH, with REJECTED cleared and nothing
else changed (R171, R180). -/
def Obligations.WrongLengthsCompleteBadLength : Prop :=
  ∀ (code : BitVec 5) (lengths : List Nat), (code, lengths) ∈ commandLengths →
    ∀ (i : Instr) (c : Cmd) (s : State),
      wellFormed i = true → i.command = some (code, c) → s.takes code c → c.payload.length ∉ lengths →
      exec i s = .next ((s.begun c).complete (.plain .badLength))

/-- Asserting the reset pin releases the attention line, puts every output and the data out line at 0 and discards a frame in
assembly; while it is asserted nothing but its release changes more than the levels of the input pins; releasing it gives the
power-on values with the work switch sampled and a first speed window beginning (R44, R178). That the rest of the state stands
until the release, and that the input pins are still followed, is the model's choice (assumption log, entry 6). -/
def Obligations.ResetPinHoldsThePart : Prop :=
  (∀ s : State,
      exec .powerOnResetAssert s =
          .next
            { s.mapRows (fun _ w =>
                { w with
                  seed := { w.seed with drive := 0 }
                  fert := w.fert.map fun l => { l with valve := 0 } }) with
              inReset := true
              lnk := { s.lnk with assembly := [], dataOut := [] }
              evu := { s.evu with attention := false } }
        ∧ exec .powerOnResetRelease s =
          .next
            { State.reset with
              pending := s.pending
              now := s.now
              pins := s.pins
              upsets := s.upsets
              choices := s.choices
              mot := { State.reset.mot with switch := s.pins.switch, windowStart := s.now } })
    ∧ ∀ (i : Instr) (s : State), s.inReset = true → i ≠ .powerOnResetAssert → i ≠ .powerOnResetRelease →
      exec i s = .next { s with pins :=
        match i with
        | .workSwitchLevelChange level => { s.pins with switch := level }
        | .sensedSeed r => { s.pins with seedLines := s.pins.seedLines.set r.val .occluded }
        | .occlusionEnd r => { s.pins with seedLines := s.pins.seedLines.set r.val .clear }
        | _ => s.pins }

/-! ## Reset and the invariants -/

/-- After power-on the part holds the values the spec gives (R26, R44, R47, R61, R100, R136, R162, R174, R178, R189), and meets
every invariant stated below. -/
def Obligations.PowerOnValues : Prop :=
  let s := State.reset
  s.inReset = false ∧ s.lnk.assembly = [] ∧ s.lnk.rejected = false
    ∧ s.cmu.progress = .idle ∧ s.cmu.dataDue = none ∧ s.cmu.completion = none ∧ s.cmu.error = false
    ∧ s.cmu.mode = .idle ∧ s.cmu.settingsValid = false
    ∧ s.settings =
      ⟨.cm200, .pulse, true, 13000, .light, 1000, 5000, .stop, 300, 500, true, true, 250, 250, 24, 28, 2000⟩
    ∧ s.cst = ⟨[], [], false, false, none, 0⟩
    ∧ s.mot.fix = none ∧ s.mot.fixState = .noFix ∧ s.mot.fixTimers = none ∧ s.mot.pulses = 0 ∧ s.mot.filtered = 0
    ∧ s.mot.pulseState = .silent ∧ s.mot.zeroRun = 0 ∧ s.mot.pulseRun = 0 ∧ s.mot.silenceReported = false
    ∧ s.mot.source = .pulse ∧ s.mot.vRef = 0 ∧ s.mot.yawRef = 0
    ∧ (∀ r, s.row r = none) ∧ s.ren.seedFallback = 0 ∧ s.ren.fertFallback = 0
    ∧ s.fsc = ⟨false, none, none⟩
    ∧ s.evu = ⟨0, 0x1FFF, 0, false⟩
    ∧ s.statusByte = 0
    ∧ s.cst.wf ∧ s.rowsWf ∧ s.outputsWf ∧ s.lineWf ∧ s.commandWf ∧ s.current

/-- Every step keeps the canonical form of the Cell Store: at most 1024 records in strictly ascending key order, payloads
in their ranges with no sub-square both fresh and settled, the poisoned count equal to the number of poisoned records, and
at most 16 distinct missed keys, none of a record held (R4, R5, R6, R8, R17, R162). -/
def Obligations.StoreFormIsKept : Prop :=
  ∀ s t : State, s.cst.wf → step s = .next t → t.cst.wf

/-- Every step keeps the rows in their ranges: their contexts with no fertiliser channel on two rows (R47), the targets of
their views and the fallback targets (R59, R61), their results (R64), trims (R75), queues, runs and windows (R101, R103) and
flow states with the last flow (R122); and with them no reference count passes 352 (R14). The synthesis accumulator, which
may stand above its range until its event is taken, is left out (assumption log, entry 19). -/
def Obligations.RowRangesAreKept : Prop :=
  (∀ s t : State, s.cst.wf → s.rowsWf → step s = .next t → t.rowsWf)
    ∧ ∀ (s : State) (k : Key), s.rowsWf → s.refCount k ≤ 352

/-- Every step keeps the output ports at what the gating passes, 0 on a row that is not configured, on a valve without a
channel and while the reset pin is asserted (R47, R90, R91, R178); the stall timers running exactly while the ports carry 50 or
more, but where they have run out into METER STALL (R116); and PRIMING to the rows that PRIM has still to prime (R92, R95). -/
def Obligations.OutputsStayGated : Prop :=
  ∀ s t : State, s.outputsWf → step s = .next t → t.outputsWf

/-- Every step keeps the attention line at what R183 says, and released while the reset pin is asserted (R178); and every step
keeps the data timer running exactly in DATA IN and DATA OUT, and a sweep in progress offering its last chosen key (R152, R170,
R172). -/
def Obligations.AttentionAndCommandStateAreKept : Prop :=
  (∀ s t : State, s.lineWf → step s = .next t → t.lineWf)
    ∧ ∀ s t : State, s.commandWf → step s = .next t → t.commandWf

/-- Every step keeps every row in agreement with its inputs: results, lane views and lane states are what a computation, a
refresh and a decision would give at that moment (R59, R60, R65, R85, R89). -/
def Obligations.LanesStayCurrent : Prop :=
  ∀ s t : State, s.cst.wf → s.current → step s = .next t → t.current

/-- While a record is held and not poisoned, none of its tallies decreases (R6). -/
def Obligations.TalliesNeverDecrease : Prop :=
  ∀ (s t : State) (k : Key) (p q : Payload), s.cst.wf → step s = .next t →
    s.cst.payload k = some p → t.cst.payload k = some q →
    p.placed ≤ q.placed ∧ p.skips ≤ q.skips ∧ p.extras ≤ q.extras ∧ p.applied ≤ q.applied

/-- A record joins the store by a DATA frame, and leaves it by RTC or by the FETCH of a sweep, both at a reference count of 0, or
at power-on, and in no other way (R8, R14, R150, R153). -/
def Obligations.RecordsJoinByLoadAndLeaveUnreferenced : Prop :=
  ∀ (c : Instr) (s t : State) (k : Key), exec c s = .next t →
    (s.cst.holds k = false → t.cst.holds k = true → ∃ f, c = .dataFrame f)
      ∧ (s.cst.holds k = true → t.cst.holds k = false →
          c = .powerOnResetRelease ∨ (s.refCount k = 0 ∧ ((∃ x, c = .rtc x) ∨ ∃ f after, c = .fetchFrame f after)))

/-- The points of a row that stays configured change at a FIX frame, at RSTR, where every point ceases, and at SETR
CONFIGURE, where a point can only stay or cease (R13, R49, R57). -/
def Obligations.PointsMoveAtFixesAlone : Prop :=
  ∀ (c : Instr) (s t : State) (r : RowId) (v w : Row), exec c s = .next t → s.row r = some v → t.row r = some w →
    (w.seed.point = v.seed.point ∧ w.fert.bind (·.look) = v.fert.bind (·.look) ∧ w.drop = v.drop)
      ∨ (∃ f, c = .fixFrame f)
      ∨ ((∃ x, c = .rstr x) ∧ w.points = [])
      ∨ ((∃ x, c = .setrConfigure x ∨ c = .setrRemove x) ∧ w.seed.point = v.seed.point
          ∧ w.fert.bind (·.look) = none ∧ w.drop = none)

/-- The device mode changes from IDLE by STRT, and to IDLE by STOP, RSTR and power-on; the implement settings change by
SETI and power-on alone, and by SETI in IDLE alone (R80, R174). -/
def Obligations.ModeAndSettingsChangeByTheirCommands : Prop :=
  ∀ (c : Instr) (s t : State), exec c s = .next t →
    (t.cmu.mode ≠ s.cmu.mode →
        (s.cmu.mode = .idle ∧ ∃ x, c = .strtField x ∨ c = .strtShadow x)
          ∨ (t.cmu.mode = .idle ∧ (c = .powerOnResetRelease ∨ ∃ x, c = .stop x ∨ c = .rstr x)))
      ∧ (t.settings ≠ s.settings →
          c = .powerOnResetRelease ∨ (s.cmu.mode = .idle ∧ ∃ x, c = .seti x))

/-! ## The arithmetic -/

/-- The key of a position is the floor of its coordinates over the cell side, and its sub-square the floor of four times what
is left over, each 0 to 3 (R2, R3). A point lies lat to the right of the fix and fa − d behind it, each offset rounded toward
minus infinity, and a look-ahead distance is v_r × latency / 10,000, truncated (R55, R56). -/
def Obligations.PositionsAndPointsAreFloored : Prop :=
  (∀ (side : CellSide) (p : Point),
      let k := cellOf side p
      let b := subOf side p
      k = ⟨⌊(p.e : ℚ) / side.cm⌋, ⌊(p.n : ℚ) / side.cm⌋⟩
        ∧ (b.i : Int) = ⌊((p.e : ℚ) - k.cx * side.cm) * 4 / side.cm⌋
        ∧ (b.j : Int) = ⌊((p.n : ℚ) - k.cy * side.cm) * 4 / side.cm⌋
        ∧ b.i ≤ 3 ∧ b.j ≤ 3)
    ∧ ∀ (f : Fix) (lat : Int) (fa d vr latency : Nat),
      placed f lat fa d =
          ⟨f.e + ⌊((lat : ℚ) * f.hN - ((fa : ℚ) - d) * f.hE) / 16384⌋,
            f.n + ⌊(-(lat : ℚ) * f.hE - ((fa : ℚ) - d) * f.hN) / 16384⌋⟩
        ∧ (lookAhead vr latency : Int) = truncated ((vr : ℚ) * latency / 10000)

/-- The row speed is v_ref + ω × lat / 100, the division truncated toward zero and the result clamped to 0 to 10,000 (R53); from
it a computation forms the results of both lanes by the chain of R67 to R71, from the lanes' targets, the row's context and the
trim. -/
def Obligations.ComputationsFollowTheRateChain : Prop :=
  ∀ (w : Row) (vRef : Nat) (yaw : Int),
    let c := w.ctx
    let v := w.computed vRef yaw
    let q := truncated ((w.seed.view.target : ℚ) * c.width * v.vr / 10000)
    let s := truncated ((q : ℚ) / c.holes)
    (v.vr : Int) = max 0 (min 10000 (vRef + truncated ((yaw : ℚ) * c.lat / 100)))
      ∧ (v.seed.q : Int) = q ∧ (v.seed.s : Int) = min s c.sMax ∧ (v.seed.limited = true ↔ s > c.sMax)
      ∧ (v.fert.isSome = w.fert.isSome)
      ∧ ∀ l m, w.fert = some l → v.fert = some m →
          let f := truncated ((l.view.target : ℚ) * c.width * v.vr / 10000)
          let f' := min f 200000
          let ff := truncated ((f' : ℚ) * 1000 / c.valveFull)
          let ff' := min ff 1000
          (m.f : Int) = f' ∧ (m.ff : Int) = ff'
            ∧ (m.duty : Int) = (if f' = 0 then 0 else max 0 (min 1000 (ff' + l.flow.trim)))
            ∧ (m.limited = true ↔ f > 200000 ∨ ff > 1000)

/-- An in-range code gives the measured flow of R73, and a trim update the trim of R74 in the bounds of R75. -/
def Obligations.MeasuredFlowAndTrim : Prop :=
  (∀ (code : AdcCode) (c : RowContext), 1 ≤ code.toNat → code.toNat ≤ 4094 → c.zeroCode ≤ 4094 →
      (measuredFlow code c : Int) =
        if code.toNat ≤ c.zeroCode then 0
        else truncated (((code.toNat : ℚ) - c.zeroCode) * c.fullScale / (4095 - c.zeroCode)))
    ∧ ∀ (trim : Int) (f measured valveFull : Nat), 0 < valveFull →
      let e : Int := f - measured
      let step := truncated ((truncated ((e : ℚ) * 1000 / valveFull) : ℚ) / 8)
      trimmed trim f measured valveFull = max (-250) (min 250 (trim + step))

/-- A window's raw speed is pulses × 1,000,000 / K, truncated and clamped to 10,000; the filtered speed moves toward it by
the difference over the divisor, truncated toward zero, but by at least one, and never passes it (R34, R35). -/
def Obligations.SpeedFilterMovesTowardTheRawSpeed : Prop :=
  ∀ (pulses k old : Nat) (flt : SpeedFilter), 0 < k →
    let raw := rawSpeed pulses k
    let new := filteredAfter flt raw old
    (raw : Int) = min 10000 (truncated ((pulses : ℚ) * 1000000 / k))
      ∧ (flt = .off → new = raw)
      ∧ (flt ≠ .off →
          let step := truncated (((raw : ℚ) - old) / (if flt = .light then 2 else 8))
          (step ≠ 0 → (new : Int) = old + step)
            ∧ (step = 0 → old < raw → new = old + 1)
            ∧ (step = 0 → raw < old → new + 1 = old)
            ∧ (raw = old → new = old))
      ∧ (old ≤ raw → old ≤ new ∧ new ≤ raw) ∧ (raw ≤ old → raw ≤ new ∧ new ≤ old)

/-- A lane that is not priming is PARKED in IDLE, on a disabled row or with the work switch LIFTED; else HELD with the
first reason that applies; else RUNNING (R85 to R88). -/
def Obligations.LaneDecisionsTakeTheFirstReason : Prop :=
  ∀ (s : State) (enabled : Bool) (p : Product) (v : LaneView),
    let parks := s.cmu.mode = .idle ∨ enabled = false ∨ s.mot.switch = .lifted
    let noPosition :=
      s.mot.fixState = .noFix ∨ (s.mot.fixState = .lost ∧ s.settings.lossPolicy = .stop) ∨ v.outcome = .noPoint
    let noApply := v.outcome = .found ∧ v.noApply = some true
    let covered :=
      (match p with | .seed => s.settings.seedOverlap | .fert => s.settings.fertOverlap) = true
        ∧ v.outcome = .found ∧ v.cover = some .settled
    let zeroRate := v.outcome = .found ∧ v.target = 0
    let noPrescription := (v.outcome = .missing ∨ v.outcome = .poisoned) ∧ v.target = 0
    let x := s.decided enabled p v
    (x = .parked ↔ parks)
      ∧ (x = .held .noPosition ↔ ¬ parks ∧ noPosition)
      ∧ (x = .held .noApply ↔ ¬ parks ∧ ¬ noPosition ∧ noApply)
      ∧ (x = .held .covered ↔ ¬ parks ∧ ¬ noPosition ∧ ¬ noApply ∧ covered)
      ∧ (x = .held .zeroRate ↔ ¬ parks ∧ ¬ noPosition ∧ ¬ noApply ∧ ¬ covered ∧ zeroRate)
      ∧ (x = .held .noPrescription ↔
          ¬ parks ∧ ¬ noPosition ∧ ¬ noApply ∧ ¬ covered ∧ ¬ zeroRate ∧ noPrescription)
      ∧ (x = .running ↔ ¬ parks ∧ ¬ noPosition ∧ ¬ noApply ∧ ¬ covered ∧ ¬ zeroRate ∧ ¬ noPrescription)

/-! ## The layouts -/

/-- Quantities are sent least significant byte first, in two's complement where they can be negative, keys as cx and then
cy, and an optional key as a presence byte and the key, zeros when absent (R179); and each reads back. -/
def Obligations.QuantitiesReadBack : Prop :=
  (∀ w n : Nat, (leBytes w n).length = w ∧ ∀ x, x < w → (leBytes w n)[x]? = some (BitVec.ofNat 8 (n / 256 ^ x)))
    ∧ (∀ bs : List Byte,
        leNat bs = ((List.range bs.length).map fun x => (bs.getD x 0).toNat * 256 ^ x).sum
          ∧ leInt bs =
            (leNat bs : Int) - if (bs.getLast?.any fun b => b.msb) = true then (256 ^ bs.length : Int) else 0)
    ∧ (∀ (w : Nat) (i : Int), 0 < w → -(256 ^ w : Int) ≤ 2 * i → 2 * i < (256 ^ w : Int) →
        leIntBytes w i = leBytes w (if 0 ≤ i then i else i + (256 ^ w : Int)).toNat ∧ leInt (leIntBytes w i) = i)
    ∧ (∀ w n : Nat, n < 256 ^ w → leNat (leBytes w n) = n)
    ∧ (∀ bs : List Byte, leBytes bs.length (leNat bs) = bs)
    ∧ (∀ (k : Key) (rest : List Byte), k.fits →
        keyBytes k = leIntBytes 2 k.cx ++ leIntBytes 2 k.cy ∧ keyAt (keyBytes k ++ rest) 0 = k)
    ∧ (∀ (cx cy rest : List Byte), cx.length = 2 → cy.length = 2 →
        keyAt (cx ++ cy ++ rest) 0 = ⟨leInt cx, leInt cy⟩ ∧ (keyAt (cx ++ cy ++ rest) 0).fits
          ∧ keyBytes (keyAt (cx ++ cy ++ rest) 0) = cx ++ cy)
    ∧ ∀ k : Key, optKeyBytes (some k) = 1 :: keyBytes k ∧ optKeyBytes none = [0, 0, 0, 0, 0]

/-- The 28 bytes of a transferred record carry its fields in the order of R181, a poisoned record its key, the poisoned
flag and the reference count alone, and the reference count saturates at 255 (R138). -/
def Obligations.TransferredRecordsReadBack : Prop :=
  ∀ (k : Key) (p : Option Payload) (refs : Nat) (kept : Bool), k.fits → p.all Payload.wf = true →
    let b := recordBytes k p refs kept
    b.length = 28 ∧ keyAt b 0 = k ∧ natAt b 27 1 = min 255 refs
      ∧ (natAt b 8 1 = (if p.any (·.noApply) then 1 else 0) + (if p.isNone then 2 else 0) + (if kept then 4 else 0))
      ∧ (p = none → slice b 4 4 = List.replicate 4 0 ∧ slice b 9 18 = List.replicate 18 0)
      ∧ ∀ y, p = some y →
          natAt b 4 2 = y.seedTarget ∧ natAt b 6 2 = y.fertTarget
            ∧ subSetAt b 9 = y.seedCov.settled ∧ subSetAt b 11 = y.seedCov.fresh
            ∧ subSetAt b 13 = y.fertCov.settled ∧ subSetAt b 15 = y.fertCov.fresh
            ∧ natAt b 17 2 = y.placed ∧ natAt b 19 2 = y.skips ∧ natAt b 21 2 = y.extras ∧ natAt b 23 4 = y.applied

/-- The status byte carries BUSY, READY, DATA REQUEST, ERROR, ATTENTION and REJECTED in its bits 0 to 5, and 0 above
(R169, R179). -/
def Obligations.StatusByteCarriesSixFlags : Prop :=
  ∀ s : State,
    let b := s.statusByte
    (b.getLsbD 0 = true ↔ s.cmu.progress ≠ .idle)
      ∧ (b.getLsbD 1 = true ↔ s.cmu.settingsValid = true ∧ ∃ r, (s.row r).isSome = true)
      ∧ (b.getLsbD 2 = true ↔ (∃ n loaded clamped, s.cmu.progress = .ldc n loaded clamped) ∨ ∃ w, s.cmu.progress = .swp w)
      ∧ b.getLsbD 3 = s.cmu.error ∧ b.getLsbD 4 = s.evu.attention ∧ b.getLsbD 5 = s.lnk.rejected
      ∧ b.getLsbD 6 = false ∧ b.getLsbD 7 = false

/-! ## The Cell Store's operations -/

/-- A clean read changes nothing; a correctable error is put right, noted and reported; an uncorrectable one poisons the
record, is counted and reported, and reaches the lanes bound to it (R158, R159). How the stored bits stand is a field of the
model (assumption log, entry 3). -/
def Obligations.PayloadReads : Prop :=
  ∀ (k : Key) (s : State),
    (s.cst.payload k = none → readState k s = s)
      ∧ ∀ p, s.cst.payload k = some p →
          (p.bits = .clean → readState k s = s)
            ∧ (p.bits = .oneFlipped →
                readState k s =
                  ({ s with cst :=
                      { s.cst.put k (some { p with bits := .clean }) with correctedSeen := true } } : State).raise
                    .storageCorrected)
            ∧ (p.bits = .twoFlipped →
                (({ s with cst :=
                    { s.cst.put k none with
                      poisonedCount := s.cst.poisonedCount + 1
                      firstKey := s.cst.firstKey <|> some k } } : State).raise .storageUncorrectable).follows
                  (readState k s))

/-- Keys offered to the miss set join it as its newest members while it has room for 16; the rest set *incomplete*; MISS is
raised where any offered key was not in the set (R16, R17). The order of keys offered at one fix is free (assumption log,
entry 7). -/
def Obligations.OfferedKeysJoinTheMissSet : Prop :=
  ∀ (keys : List Key) (s : State),
    let t := offerMisses keys s
    ((∀ k ∈ keys, k ∈ s.cst.misses) → t = s)
      ∧ ((∃ k ∈ keys, k ∉ s.cst.misses) →
          ∃ added : List Key,
            t = { s with
                  cst := { s.cst with
                    misses := s.cst.misses ++ added
                    incomplete := s.cst.incomplete || decide (∃ k ∈ keys, k ∉ s.cst.misses ++ added) }
                  evu := s.evu.raised .miss
                  choices := s.choices + 1 }
              ∧ added.Nodup ∧ (∀ k ∈ added, k ∈ keys ∧ k ∉ s.cst.misses)
              ∧ added.length ≤ 16 - s.cst.misses.length
              ∧ ((∃ k ∈ keys, k ∉ s.cst.misses ++ added) → 16 - s.cst.misses.length = added.length))

/-! ## What the commands do: completions at once -/

/-- IDN returns the identification record (R175); RMS hands over the miss set, oldest first, with *incomplete*, and empties both
(R18, R156); RSS returns the poisoned count, *corrected seen* and the first-uncorrectable key, and clears the last two (R163);
RHC returns the changed-rows set and the number of its rows, and empties it (R186); a command code that names no command
completes BAD COMMAND (R171). Nothing else changes. With a payload each of the four completes BAD LENGTH. -/
def Obligations.OperandlessReadsCompleteAtOnce : Prop :=
  ∀ (c : Cmd) (s : State),
    let b := s.begun c
    let finish := fun (t : State) (k : Completion) =>
      Host.Outcome.next (ρ := Refusal) (φ := Fault)
        (if c.payload = [] then t.complete k else b.complete (.plain .badLength))
    (s.takes Op.idn c →
        exec (.idn c) s =
          finish b { Completion.plain .ok with payload := [0x17, 0x2B, 0xBC, 0x0C, 1, 0x00, 0x04, 32, 8, 13] })
      ∧ (s.takes Op.rms c →
          exec (.rms c) s =
            finish { b with cst := { s.cst with misses := [], incomplete := false } }
              { Completion.counts .ok s.cst.misses.length (if s.cst.incomplete then 1 else 0) with
                payload := s.cst.misses.flatMap keyBytes })
      ∧ (s.takes Op.rss c →
          exec (.rss c) s =
            finish { b with cst := { s.cst with correctedSeen := false, firstKey := none } }
              { Completion.counts .ok s.cst.poisonedCount (if s.cst.correctedSeen then 1 else 0) with
                key := s.cst.firstKey })
      ∧ (s.takes Op.rhc c →
          exec (.rhc c) s =
            finish { b with evu := { s.evu with changed := 0 } }
              (.counts .ok s.evu.changed.toNat ((List.range 32).countP fun x => s.evu.changed.getLsbD x)))
      ∧ ∀ code, code ∉ Op.all → s.takes code c →
          exec (.badCommand code c) s = .next (b.complete (.plain .badCommand))

/-- EVE replaces the enabled set and returns the sets before and after; ACK returns the pending set, completes with its DONE,
removes the kinds named and returns what remains; the attention line follows each (R184, R185). Nothing else changes. -/
def Obligations.EventSetsFollowEveAndAck : Prop :=
  ∀ (c : Cmd) (s : State),
    let b := s.begun c
    let named := eventSetAt c.payload 0
    let remains := (s.evu.pending ||| 1) &&& ~~~named
    (s.takes Op.eve c →
        exec (.eve c) s =
          .next
            (if c.payload.length = 2 then
              ({ b with evu :=
                  { s.evu with enabled := named, attention := decide (s.evu.pending &&& named ≠ 0) } } : State).complete
                (.counts .ok s.evu.enabled.toNat named.toNat)
            else b.complete (.plain .badLength)))
      ∧ (s.takes Op.ack c →
          exec (.ack c) s =
            .next
              (if c.payload.length = 2 then
                { b.complete (.counts .ok s.evu.pending.toNat remains.toNat) with
                  evu :=
                    { s.evu with pending := remains, attention := decide (remains &&& s.evu.enabled ≠ 0) } }
              else b.complete (.plain .badLength)))

/-- RRW returns the 74 bytes of a configured row's status in the order of R187, the values its ports carry and the keys of its
bound points among them, with zeros for what a row without a channel lacks, and then clears its sticky flags; a row outside 1
to 32 or not configured completes BAD VALUE with field number 1 (R10, R118, R187). -/
def Obligations.ReadRowStatusClearsTheStickyFlags : Prop :=
  ∀ (c : Cmd) (s : State) (n : Nat), s.takes Op.rrw c → c.payload.length = 1 → natAt c.payload 0 1 = n →
    ((n = 0 ∨ 32 < n) → exec (.rrw c) s = .next ((s.begun c).complete (.badField 1)))
      ∧ ∀ r : RowId, r.val + 1 = n →
          (s.row r = none → exec (.rrw c) s = .next ((s.begun c).complete (.badField 1)))
            ∧ ∀ w, s.row r = some w →
              let flag := fun b : Bool => ([if b then 1 else 0] : List Byte)
              let code := fun x : LaneState =>
                match x with
                | .parked => ([0, 0] : List Byte)
                | .running => [2, 0]
                | .held .noPosition => [3, 1]
                | .held .noApply => [3, 2]
                | .held .covered => [3, 3]
                | .held .zeroRate => [3, 4]
                | .held .noPrescription => [3, 5]
              let key := fun p : Option Point =>
                let cell := p.map (cellOf s.settings.cellSide)
                if cell.any s.cst.holds = true then optKeyBytes cell else List.replicate 5 0
              ∃ b : List Byte,
                exec (.rrw c) s =
                  .next
                    (((s.begun c).setRow r
                        (some { w with sfm :=
                          { w.sfm with overflowSeen := false, underflowSeen := false } })).complete
                      { Completion.counts .ok n 0 with payload := b })
                ∧ b.length = 74
                ∧ slice b 0 1 = flag w.ctx.enabled
                ∧ slice b 1 2 = (match w.seed.state with | .priming _ => [1, 0] | .lane x => code x)
                ∧ slice b 3 2 = flag w.seed.view.fallback ++ flag w.seed.limited
                ∧ slice b 10 12 = leBytes 4 w.vr ++ leBytes 4 w.seed.q ++ leBytes 4 w.seed.s
                ∧ slice b 38 8 = leBytes 4 (s.meterPort r) ++ leBytes 4 (s.valvePort r)
                ∧ slice b 46 5 = key w.seed.point
                ∧ slice b 61 4 =
                  [BitVec.ofNat 8 w.sfm.queue.length] ++ flag w.sfm.blocked ++ flag w.sfm.stuck ++ flag w.sfm.stalled
                ∧ slice b 72 2 = flag w.sfm.overflowSeen ++ flag w.sfm.underflowSeen
                ∧ (w.fert = none →
                  slice b 5 5 = List.replicate 5 0 ∧ slice b 22 16 = List.replicate 16 0
                    ∧ slice b 42 4 = List.replicate 4 0 ∧ slice b 51 10 = List.replicate 10 0
                    ∧ slice b 65 7 = List.replicate 7 0)
                ∧ ∀ l, w.fert = some l →
                  slice b 5 5 = [1] ++ code l.state ++ flag l.view.fallback ++ flag l.limited
                    ∧ slice b 22 16 = leBytes 4 l.f ++ leBytes 4 l.ff ++ leIntBytes 4 l.flow.trim ++ leBytes 4 l.duty
                    ∧ slice b 51 10 = key l.look ++ key l.drop
                    ∧ slice b 65 7 =
                      flag l.flow.sensorFault ++ flag l.flow.noFlow ++ leBytes 4 l.flow.lastFlow
                        ++ flag l.flow.estimated

/-- RMO returns the 44 bytes of the Motion Unit's snapshot, in the order of R188, and clears nothing. -/
def Obligations.ReadMotionReturnsTheSnapshot : Prop :=
  ∀ (c : Cmd) (s : State), s.takes Op.rmo c → c.payload = [] →
    let m := s.mot
    ∃ b : List Byte,
      exec (.rmo c) s = .next ((s.begun c).complete { Completion.plain .ok with payload := b })
        ∧ b.length = 44
        ∧ slice b 0 1 = [match m.fixState with | .noFix => 0 | .current => 1 | .stale => 2 | .lost => 3]
        ∧ (m.fix = none → slice b 1 26 = List.replicate 26 0)
        ∧ (∀ f, m.fix = some f →
            slice b 1 26 =
              1 :: leIntBytes 4 f.e ++ leIntBytes 4 f.n ++ leIntBytes 4 f.hE ++ leIntBytes 4 f.hN
                ++ leIntBytes 4 f.omega ++ leBytes 4 f.speed
                ++ ([match f.quality with | .none => 0 | .autonomous => 1 | .corrected => 2 | .precise => 3] : List Byte))
        ∧ slice b 27 1 = [match m.pulseState with | .active => 0 | .holding => 1 | .silent => 2]
        ∧ slice b 28 4 = leBytes 4 m.filtered
        ∧ slice b 32 1 = [match m.source with | .pulse => 0 | .fix => 1]
        ∧ slice b 33 4 = leBytes 4 m.vRef ∧ slice b 37 4 = leIntBytes 4 m.yawRef
        ∧ slice b 41 1 = [if m.silenceReported then 1 else 0]
        ∧ slice b 42 1 = [match m.switch with | .lowered => 0 | .lifted => 1]
        ∧ slice b 43 1 = [match s.cmu.mode with | .idle => 0 | .field => 1 | .shadow => 2]

/-! ## Transfers, and the ends of commands in progress -/

/-- A FETCH frame shifts out, in the byte times past its check byte, the completion record in IDLE or NONE before the
first completion, and NONE while LDC, SCB or PRIM is in progress; a STATUS frame shifts out the status byte alone;
nothing else changes (R168, R169, R173). That the bytes shifted out in the last frame are a field, and the byte times
clocked an operand, is the model's choice (assumption log, entry 16). -/
def Obligations.FetchRepliesWithTheCompletion : Prop :=
  (∀ (f : Frame) (after : Nat) (s : State), s.takesFrame .fetch f →
      let out := fun bytes => s.replied s.statusByte f.payload.length after bytes
      (s.cmu.progress = .idle →
          (∀ k, s.cmu.completion = some k →
            exec (.fetchFrame f after) s = .next (out (frameBytes 0x61 k.bytes)))
            ∧ (s.cmu.completion = none → exec (.fetchFrame f after) s = .next (out (frameBytes 0x60 []))))
        ∧ (s.cmu.progress ≠ .idle → (∀ w, s.cmu.progress ≠ .swp w) →
            exec (.fetchFrame f after) s = .next (out (frameBytes 0x60 []))))
    ∧ ∀ (f : Frame) (s : State), s.takesFrame .status f →
      exec (.statusFrame f) s =
        .next { s with lnk :=
          { s.lnk with dataOut := s.statusByte :: List.replicate (2 + f.payload.length) 0 } }

/-- ABRT with an empty payload completes OK in IDLE, and else ends the command in progress ABORTED by that command's
rule: LDC (R143), SWP (R155), SCB (R165) or PRIM, whose rows still priming leave PRIMING (R99, R176). The data timer
running out ends LDC or SWP TIMED OUT with its counts; before that, and with no data timer running, that event does
nothing (R143, R155, R172). That a timer's event before its moment changes nothing is deduced (assumption log, entry 2).
-/
def Obligations.AbortAndTimeoutEndTheCommandInProgress : Prop :=
  (∀ (c : Cmd) (s : State), s.inReset = false → c.right Op.abrt → c.payload = [] →
      let b := s.begun c
      (s.cmu.progress = .idle → exec (.abrt c) s = .next (b.complete (.plain .ok)))
        ∧ (∀ n loaded clamped, s.cmu.progress = .ldc n loaded clamped →
            exec (.abrt c) s = .next (b.complete (.counts .aborted loaded (n - loaded))))
        ∧ (∀ w, s.cmu.progress = .swp w →
            exec (.abrt c) s =
              .next
                (b.complete
                  { Completion.counts .aborted w.retired w.kept with
                    key := w.last
                    payload := [if ∃ x ∈ s.cst.records, w.rect.outside x.key = true then 1 else 0] }))
        ∧ (∀ position verified due, s.cmu.progress = .scb position verified due →
            exec (.abrt c) s =
              .next
                (b.complete
                  (.counts .aborted verified
                    (s.cst.records.countP fun x => aboveKey position x.key && x.payload.isSome))))
        ∧ ∀ named still stalled, s.cmu.progress = .prim named still stalled →
            ∃ u, (b.mapRows fun r w =>
                if rowIn r still then { w with seed := { w.seed with state := .lane .parked } } else w).follows u
              ∧ exec (.abrt c) s =
                .next
                  (u.complete
                    { Completion.counts .aborted (rowCount (named &&& ~~~still &&& ~~~stalled)) (rowCount stalled) with
                      payload := leBytes 4 stalled.toNat }))
    ∧ ∀ s : State, s.inReset = false →
      (∀ d, s.cmu.dataDue = some d → s.now < d → exec .dataTimeout s = .next s)
        ∧ (s.cmu.dataDue = none → exec .dataTimeout s = .next s)
        ∧ ∀ d, s.cmu.dataDue = some d → d ≤ s.now →
            (∀ n loaded clamped, s.cmu.progress = .ldc n loaded clamped →
                exec .dataTimeout s = .next (s.complete (.counts .timedOut loaded (n - loaded))))
              ∧ ∀ w, s.cmu.progress = .swp w →
                exec .dataTimeout s =
                  .next
                    (s.complete
                      { Completion.counts .timedOut w.retired w.kept with
                        key := w.last
                        payload := [if ∃ x ∈ s.cst.records, w.rect.outside x.key = true then 1 else 0] })

/-- LDC goes to DATA IN with its data timer at 1000 ms, awaiting n records, 0 standing for 64; a count above 64 completes BAD
VALUE with field number 1. A DATA frame outside DATA IN does nothing. In DATA IN it ends LDC with BAD LENGTH, DUPLICATE KEY or TABLE
FULL, or loads its record: targets clamped, settled sets as read, no fresh sub-square and no tally, in a new place or in that of a
poisoned record; a new key leaves the miss set. LDC then awaits the next record or completes (R139 to R143, R168, R172). -/
def Obligations.LoadCellsTakesRecords : Prop :=
  (∀ (c : Cmd) (s : State) (n : Nat), s.takes Op.ldc c → c.payload.length = 1 → natAt c.payload 0 1 = n →
      exec (.ldc c) s =
        .next
          (if 64 < n then (s.begun c).complete (.badField 1)
          else
            { s.begun c with cmu :=
              { s.cmu with
                progress := .ldc (if n = 0 then 64 else n) 0 false
                dataDue := some (s.now + 1000) } }))
    ∧ ∀ (f : Frame) (s : State), s.takesFrame .data f →
      let b := s.shifted (3 + f.payload.length)
      let p := f.payload
      let k := keyAt p 0
      ((∀ n loaded clamped, s.cmu.progress ≠ .ldc n loaded clamped) → exec (.dataFrame f) s = .next b)
        ∧ ∀ n loaded clamped, s.cmu.progress = .ldc n loaded clamped →
            let stopped := fun (x : Code) (j : Option Key) =>
              exec (.dataFrame f) s = .next (b.complete { Completion.counts x loaded (n - loaded) with key := j })
            (p.length ≠ 28 → stopped .badLength none)
              ∧ (p.length = 28 → (s.cst.payload k).isSome = true → stopped .duplicateKey (some k))
              ∧ (p.length = 28 → s.cst.holds k = false → 1024 ≤ s.cst.records.length → stopped .tableFull (some k))
              ∧ (p.length = 28 → s.cst.payload k = none → (s.cst.holds k = true ∨ s.cst.records.length < 1024) →
                  let y : Payload :=
                    { seedTarget := min 6000 (natAt p 4 2), fertTarget := min 4000 (natAt p 6 2)
                      noApply := decide (natAt p 8 1 % 2 = 1)
                      seedCov := ⟨0, subSetAt p 9⟩, fertCov := ⟨0, subSetAt p 13⟩
                      placed := 0, skips := 0, extras := 0, applied := 0, bits := .clean }
                  let cst :=
                    if s.cst.holds k = true then
                      { s.cst.put k (some y) with poisonedCount := s.cst.poisonedCount - 1 }
                    else
                      { s.cst.insert ⟨k, some y⟩ with misses := s.cst.misses.filter fun m => decide (m ≠ k) }
                  let clamped' := clamped || decide (6000 < natAt p 4 2 ∨ 4000 < natAt p 6 2)
                  ∃ u, ({ b with cst := cst } : State).follows u
                    ∧ exec (.dataFrame f) s =
                      .next
                        (if loaded + 1 < n then
                          { u with cmu :=
                            { s.cmu with progress := .ldc n (loaded + 1) clamped', dataDue := some (s.now + 1000) } }
                        else
                          u.complete (.counts (if clamped' then .clamped else .ok) (loaded + 1) (n - (loaded + 1)))))

/-- SWP refuses bounds that cross and a maximum above 64, and else offers in DATA OUT the record of smallest key outside the
rectangle with a reference count of 0; with none it completes OK, with *more remain* where a record lies outside (R151,
R152, R154, R172). -/
def Obligations.SweepOffersTheSmallestCandidate : Prop :=
  ∀ (c : Cmd) (s : State) (rect : KeepRect) (m : Nat), s.takes Op.swp c → c.payload.length = 9 → s.cst.wf →
    rect = ⟨intAt c.payload 0 2, intAt c.payload 2 2, intAt c.payload 4 2, intAt c.payload 6 2⟩ →
    natAt c.payload 8 1 = m →
    let b := s.begun c
    let crossed := rect.cxMax < rect.cxMin ∨ rect.cyMax < rect.cyMin
    let candidate := fun x : Record => rect.outside x.key = true ∧ s.refCount x.key = 0
    (rect.cxMax < rect.cxMin → exec (.swp c) s = .next (b.complete (.badField 2)))
      ∧ (rect.cxMin ≤ rect.cxMax → rect.cyMax < rect.cyMin → exec (.swp c) s = .next (b.complete (.badField 4)))
      ∧ (¬ crossed → 64 < m → exec (.swp c) s = .next (b.complete (.badField 5)))
      ∧ (¬ crossed → m ≤ 64 → ∀ k, s.cst.smallest candidate k →
          exec (.swp c) s =
            .next
              { b with cmu :=
                { s.cmu with
                  progress := .swp ⟨rect, if m = 0 then 64 else m, some k, 0, 0, some k⟩
                  dataDue := some (s.now + 1000) } })
      ∧ (¬ crossed → m ≤ 64 → (∀ x ∈ s.cst.records, ¬ candidate x) →
          exec (.swp c) s =
            .next
              (b.complete
                { Completion.counts .ok 0 0 with
                  payload := [if ∃ x ∈ s.cst.records, rect.outside x.key = true then 1 else 0] }))

/-- A FETCH frame in DATA OUT transfers the offered record in a RECORD reply: retired and removed at a reference count
of 0, else kept and flagged KEPT. The sweep then completes at m transfers, or offers the next candidate above, or
completes with none (R138, R152 to R154, R168, R172). That the transfer is made however few byte times are clocked is
the model's choice (assumption log, entry 16). -/
def Obligations.FetchTransfersTheOfferedRecord : Prop :=
  ∀ (f : Frame) (after : Nat) (s : State) (w : Sweep) (k : Key),
    s.takesFrame .fetch f → s.cst.wf → s.cmu.progress = .swp w → w.offered = some k → w.last = some k →
    let t := readState k (s.shifted (3 + f.payload.length + after))
    let kept := decide (0 < s.refCount k)
    let u := if kept then t else { t with cst := t.cst.remove k }
    let w' : Sweep :=
      { w with
        retired := w.retired + (if kept then 0 else 1)
        kept := w.kept + (if kept then 1 else 0)
        offered := none }
    let candidate := fun x : Record =>
      k.before x.key = true ∧ w.rect.outside x.key = true ∧ s.refCount x.key = 0
    let out := fun v : State =>
      v.replied s.statusByte f.payload.length after (frameBytes 0x62 (recordBytes k (t.cst.payload k) (s.refCount k) kept))
    let ended :=
      exec (.fetchFrame f after) s =
        .next
          (out
            (u.complete
              { Completion.counts .ok w'.retired w'.kept with
                key := some k
                payload := [if ∃ x ∈ u.cst.records, w.rect.outside x.key = true then 1 else 0] }))
    (w.most ≤ w'.retired + w'.kept → ended)
      ∧ (w'.retired + w'.kept < w.most → (∀ x ∈ u.cst.records, ¬ candidate x) → ended)
      ∧ (w'.retired + w'.kept < w.most → ∀ j, u.cst.smallest candidate j →
          exec (.fetchFrame f after) s =
            .next
              (out
                { u with cmu :=
                  { s.cmu with
                    progress := .swp { w' with last := some j, offered := some j }
                    dataDue := some (s.now + 1000) } }))

/-- SCB goes to EXECUTING with its first read step 1 ms away. A read step that is due reads the non-poisoned record of
smallest key above the position: verified, it becomes the position; poisoned by the read, it ends SCB POISONED; with
none, SCB completes OK. Before it is due, and with no scrub in progress, the event does nothing (R164, R165). That a
timer's event before its moment changes nothing is deduced (assumption log, entry 2). -/
def Obligations.ScrubReadsTheNextRecord : Prop :=
  (∀ (c : Cmd) (s : State), s.takes Op.scb c →
      exec (.scb c) s =
        .next
          (if c.payload = [] then
            { s.begun c with cmu := { s.cmu with progress := .scb none 0 (s.now + 1) } }
          else (s.begun c).complete (.plain .badLength)))
    ∧ ∀ s : State, s.inReset = false → s.cst.wf →
      ((∀ position n due, s.cmu.progress ≠ .scb position n due) → exec .scbReadStep s = .next s)
        ∧ ∀ position n due, s.cmu.progress = .scb position n due →
            let next := fun x : Record => aboveKey position x.key = true ∧ x.payload.isSome = true
            (s.now < due → exec .scbReadStep s = .next s)
              ∧ (due ≤ s.now → (∀ x ∈ s.cst.records, ¬ next x) →
                  exec .scbReadStep s = .next (s.complete (.counts .ok n 0)))
              ∧ (due ≤ s.now → ∀ k p, s.cst.smallest next k → s.cst.payload k = some p →
                  let t := readState k s
                  exec .scbReadStep s =
                    .next
                      (if p.bits = .twoFlipped then
                        t.complete
                          { Completion.counts .poisoned n
                              (s.cst.records.countP fun x => k.before x.key && x.payload.isSome) with
                            key := some k }
                      else { t with cmu := { s.cmu with progress := .scb (some k) (n + 1) (s.now + 1) } }))

/-! ## One record -/

/-- QRY returns the record of its key, or under NEXT that of the smallest key above it, read and in the transferred layout,
with the number of records and the reference count; with no such record it completes NOT FOUND with the key given (R138,
R145). -/
def Obligations.QueriesReturnRecords : Prop :=
  ∀ (i : Instr) (c : Cmd) (s : State) (k : Key) (form : Nat),
    (i = .qryExact c ∨ i = .qryNext c) → s.takes Op.qry c → c.payload.length = 5 → s.cst.wf →
    keyAt c.payload 0 = k → natAt c.payload 4 1 = form →
    let b := s.begun c
    let returned := fun j : Key =>
      let t := readState j b
      exec i s =
        .next
          (t.complete
            { Completion.counts .ok s.cst.records.length (s.refCount j) with
              key := some j
              payload := recordBytes j (t.cst.payload j) (s.refCount j) false })
    let notFound := exec i s = .next (b.complete { Completion.plain .notFound with key := some k })
    (form = 0 → s.cst.holds k = true → returned k)
      ∧ (form = 0 → s.cst.holds k = false → notFound)
      ∧ (form = 1 → ∀ j, s.cst.smallest (fun x => k.before x.key = true) j → returned j)
      ∧ (form = 1 → (∀ x ∈ s.cst.records, k.before x.key = false) → notFound)
      ∧ (1 < form → exec i s = .next (b.complete (.badField 2)))

/-- PCH writes one field of a record that is held and not poisoned, clamping a target, and returns the value before and
after; the lanes bound to the record follow. A selector or a no-apply value out of range, no record, or a poisoned
record ends it with nothing written (R146, R147). That NOT FOUND carries no key is deduced (assumption log, entry 13).
-/
def Obligations.PatchesWriteOneField : Prop :=
  ∀ (i : Instr) (c : Cmd) (s : State) (k : Key) (sel v : Nat),
    (i = .pchSeedTarget c ∨ i = .pchFertTarget c ∨ i = .pchNoApply c) → s.takes Op.pch c → c.payload.length = 7 →
    keyAt c.payload 0 = k → natAt c.payload 4 1 = sel → natAt c.payload 5 2 = v →
    let b := s.begun c
    let t := readState k b
    let inRange := sel ≤ 2 ∧ (sel = 2 → v ≤ 1)
    (2 < sel → exec i s = .next (b.complete (.badField 2)))
      ∧ (sel = 2 → 1 < v → exec i s = .next (b.complete (.badField 3)))
      ∧ (inRange → s.cst.holds k = false → exec i s = .next (b.complete (.plain .notFound)))
      ∧ (inRange → s.cst.holds k = true → t.cst.payload k = none →
          exec i s = .next (t.complete { Completion.plain .poisoned with key := some k }))
      ∧ (inRange → ∀ y, t.cst.payload k = some y →
          let most := if sel = 0 then 6000 else if sel = 1 then 4000 else 1
          let old := if sel = 0 then y.seedTarget else if sel = 1 then y.fertTarget else if y.noApply then 1 else 0
          let z : Payload :=
            { y with
              seedTarget := if sel = 0 then min 6000 v else y.seedTarget
              fertTarget := if sel = 1 then min 4000 v else y.fertTarget
              noApply := if sel = 2 then decide (v = 1) else y.noApply
              bits := .clean }
          ∃ u, ({ t with cst := t.cst.put k (some z) } : State).follows u
            ∧ exec i s =
              .next
                (u.complete
                  { Completion.counts (if most < v then .clamped else .ok) old (min most v) with key := some k }))

/-- MRG makes the sub-squares it names settled under ADD and uncovered under REMOVE, leaves the others, and returns the
settled sets from before and the numbers of sub-squares changed (R22, R148). That NOT FOUND carries no key is deduced
(assumption log, entry 13). -/
def Obligations.MergesSetCoverage : Prop :=
  ∀ (i : Instr) (c : Cmd) (s : State) (k : Key) (form : Nat),
    (i = .mrgAdd c ∨ i = .mrgRemove c) → s.takes Op.mrg c → c.payload.length = 9 →
    keyAt c.payload 0 = k → natAt c.payload 4 1 = form →
    let b := s.begun c
    let t := readState k b
    (1 < form → exec i s = .next (b.complete (.badField 2)))
      ∧ (form ≤ 1 → s.cst.holds k = false → exec i s = .next (b.complete (.plain .notFound)))
      ∧ (form ≤ 1 → s.cst.holds k = true → t.cst.payload k = none →
          exec i s = .next (t.complete { Completion.plain .poisoned with key := some k }))
      ∧ (form ≤ 1 → ∀ y, t.cst.payload k = some y →
          let after := fun (v : Coverage) (m : SubSet) =>
            if form = 0 then (⟨v.fresh &&& ~~~m, v.settled ||| m⟩ : Coverage)
            else ⟨v.fresh &&& ~~~m, v.settled &&& ~~~m⟩
          let moved := fun v w : Coverage =>
            (List.range 16).countP fun x =>
              decide (v.fresh.getLsbD x ≠ w.fresh.getLsbD x ∨ v.settled.getLsbD x ≠ w.settled.getLsbD x)
          let seed := after y.seedCov (subSetAt c.payload 5)
          let fert := after y.fertCov (subSetAt c.payload 7)
          y.wf = true →
            ∃ u, ({ t with cst := t.cst.put k (some { y with seedCov := seed, fertCov := fert, bits := .clean }) }
                  : State).follows u
              ∧ exec i s =
                .next
                  (u.complete
                    { Completion.counts .ok (moved y.seedCov seed) (moved y.fertCov fert) with
                      key := some k
                      payload := leBytes 2 y.seedCov.settled.toNat ++ leBytes 2 y.fertCov.settled.toNat }))

/-- RTC removes a record with a reference count of 0 and returns it as it was read; a referenced record stays held with
REFERENCED, and no record is NOT FOUND (R150). -/
def Obligations.RetireRemovesUnreferencedRecords : Prop :=
  ∀ (c : Cmd) (s : State) (k : Key), s.takes Op.rtc c → c.payload.length = 4 → keyAt c.payload 0 = k → s.cst.wf →
    let b := s.begun c
    let t := readState k b
    (s.cst.holds k = false → exec (.rtc c) s = .next (b.complete { Completion.plain .notFound with key := some k }))
      ∧ (s.cst.holds k = true → 0 < s.refCount k →
          exec (.rtc c) s =
            .next (b.complete { Completion.counts .referenced (s.refCount k) 0 with key := some k }))
      ∧ (s.cst.holds k = true → s.refCount k = 0 →
          exec (.rtc c) s =
            .next
              (({ t with cst := t.cst.remove k } : State).complete
                { Completion.counts .ok (s.cst.records.length - 1) 0 with
                  key := some k
                  payload := recordBytes k (t.cst.payload k) 0 false }))

/-! ## Motion -/

/-- A fix is rejected for a quality of NONE, a position out of range, or a heading whose squared length, after the clamp of
its components, is out of range: FIX REJECTED is raised and nothing else changes but the data out line (R28). -/
def Obligations.BadFixesAreRejected : Prop :=
  ∀ (f : Frame) (s : State), s.takesFrame .fix f →
    let x := fixAt f.payload
    let hE := max (-16384) (min 16384 x.hE)
    let hN := max (-16384) (min 16384 x.hN)
    (x.quality = .none ∨ x.e < -3000000 ∨ 3000000 < x.e ∨ x.n < -3000000 ∨ 3000000 < x.n
      ∨ hE * hE + hN * hN < 251658240 ∨ 285212672 < hE * hE + hN * hN) →
    exec (.fixFrame f) s = .next ((s.shifted 20).raise .fixRejected)

/-- An accepted fix, as clamped, replaces the last, makes the fix CURRENT and restarts its timers; its yaw rate, and under an
effective source of FIX its speed, become the references; the silence and fallback tests are made; every row's points are
placed; a look-ahead point whose cell is not the one it lay in, and which no record holds, offers that cell's key; and every lane
is refreshed with a read of the record under its point, each row being computed once (R16, R29, R30, R33, R37, R38, R40, R55,
R56, R58, R60). That all rows are placed before any lane is refreshed is deduced (assumption log, entry 9); that the reads come
before the one computation, and which of several records poisoned gives the first-uncorrectable key and which offered keys
find room, is the model's choice (assumption log, entries 7 and 24). -/
def Obligations.AcceptedFixesMoveThePart : Prop :=
  ∀ (f : Frame) (s : State), s.takesFrame .fix f → s.cst.wf →
    let x := fixAt f.payload
    let hE := max (-16384) (min 16384 x.hE)
    let hN := max (-16384) (min 16384 x.hN)
    ¬ (x.quality = .none ∨ x.e < -3000000 ∨ 3000000 < x.e ∨ x.n < -3000000 ∨ 3000000 < x.n
      ∨ hE * hE + hN * hN < 251658240 ∨ 285212672 < hE * hE + hN * hN) →
    let g : Fix := { x with hE := hE, hN := hN, omega := max (-3000) (min 3000 x.omega), speed := min 10000 x.speed }
    let quiet := s.settings.speedSource = .pulse ∧ s.mot.pulseState = .silent ∧ 300 ≤ g.speed
    let silent := quiet ∧ s.mot.silenceReported = false
    let fall := quiet ∧ s.mot.source = .pulse ∧ s.settings.fallback = true
    let vRef := if fall ∨ s.mot.source = .fix then g.speed else s.mot.vRef
    let place := fun (w : Row) (latency : Nat) =>
      placed g w.ctx.lat w.ctx.fa (lookAhead (rowSpeed vRef g.omega w.ctx.lat) latency)
    let a : State :=
      { s.shifted 20 with
        mot :=
          { s.mot with
            fix := some g
            fixState := .current
            fixTimers := some s.now
            yawRef := g.omega
            vRef := vRef
            source := if fall then .fix else s.mot.source
            silenceReported := s.mot.silenceReported || decide silent }
        evu := (s.evu.raisedIf (decide silent) .speedSilent).raisedIf (decide fall) .speedFallback }
    let b := a.mapRows fun _ w =>
      { w with
        seed := { w.seed with point := some (place w s.settings.seedLatency) }
        fert := w.fert.map fun l =>
          { l with look := some (place w s.settings.fertLatency), drop := some (placed g w.ctx.lat w.ctx.fa 0) } }
    let arrives := fun (prev : Option Key) (pt : Option Point) (k : Key) =>
      pt.map (cellOf s.settings.cellSide) = some k ∧ prev ≠ some k ∧ s.cst.holds k = false
    ∃ (keys : List Key) (t : State),
      (∀ k, k ∈ keys ↔
          ∃ r w, b.row r = some w
            ∧ (arrives w.seed.prevCell w.seed.point k ∨ ∃ l, w.fert = some l ∧ arrives l.prevCell l.look k))
        ∧ (let d := (offerMisses keys b).mapRows fun _ w =>
            { w with
              seed := { w.seed with prevCell := w.seed.point.map (cellOf s.settings.cellSide) }
              fert := w.fert.map fun l => { l with prevCell := l.look.map (cellOf s.settings.cellSide) } }
          d.reads (d.looksInto fun _ => true) t)
        ∧ exec (.fixFrame f) s = .next t

/-- The stale timer takes CURRENT to STALE 1000 ms after the last accepted fix; the lost timer takes STALE to LOST at
the lost limit, with a yaw rate of 0, and under an effective source of FIX a speed of 0, and every row is computed and
re-decided. In every other case the two events do nothing (R31, R33, R40). That a timer's event before its moment
changes nothing is deduced (assumption log, entry 2). -/
def Obligations.FixTimersAgeTheFix : Prop :=
  ∀ s : State, s.inReset = false →
    let aged := fun ms : Nat => ∃ t0, s.mot.fixTimers = some t0 ∧ t0 + ms ≤ s.now
    (s.mot.fixState = .current → aged 1000 →
        exec .staleTimerExpiry s =
          .next (({ s with mot := { s.mot with fixState := .stale } } : State).raise .fixStale))
      ∧ (s.mot.fixState ≠ .current ∨ ¬ aged 1000 → exec .staleTimerExpiry s = .next s)
      ∧ (s.mot.fixState = .stale → aged s.settings.lostLimit →
          ∃ u, (({ s with mot :=
              { s.mot with
                fixState := .lost
                fixTimers := none
                yawRef := 0
                vRef := if s.mot.source = .fix then 0 else s.mot.vRef } } : State).raise .fixLost).follows u
            ∧ exec .lostTimerExpiry s = .next u)
      ∧ (s.mot.fixState ≠ .stale ∨ ¬ aged s.settings.lostLimit → exec .lostTimerExpiry s = .next s)

/-- A pulse raises the count of the window in progress, which stops at 65535. A window that closes with pulses steps the
filter, from 0 out of SILENT, makes the pulse speed state ACTIVE, and returns a fallen-back source to PULSE at the
second such window in a row; under an effective source of PULSE the filtered speed becomes the reference speed and every
row is computed. One that closes without pulses makes the state HOLDING, or SILENT once the zero-pulse run reaches the
hold time, where SPEED SILENT and fallback are tested; under an effective source of PULSE the reference speed is the
held speed, or 0 in SILENT (R34 to R41). That a pulse run above 2 returns the source too is the model's reading
(assumption log, entry 21). That a timer's event before its moment changes nothing is deduced (assumption log, entry 2).
-/
def Obligations.SpeedWindowsStepOrHoldTheSpeed : Prop :=
  (∀ s : State, s.inReset = false →
      let m := s.mot
      let c := s.settings
      exec .groundSpeedPulse s = .next { s with mot := { m with pulses := min 65535 (m.pulses + 1) } }
        ∧ (s.now < m.windowStart + 100 → exec .speedWindowEnd s = .next s)
        ∧ (m.windowStart + 100 ≤ s.now → 0 < m.pulses →
            let filtered :=
              filteredAfter c.filter (rawSpeed m.pulses c.pulsesPer100m) (if m.pulseState = .silent then 0 else m.filtered)
            let run := min 65535 (m.pulseRun + 1)
            let source := if m.source = .fix ∧ c.speedSource = .pulse ∧ 2 ≤ run then .pulse else m.source
            ∃ u, ({ s with mot :=
                { m with
                  pulses := 0
                  windowStart := m.windowStart + 100
                  filtered := filtered
                  pulseState := .active
                  zeroRun := 0
                  pulseRun := run
                  silenceReported := m.silenceReported && decide (m.pulseState ≠ .silent)
                  source := source
                  vRef := if source = .pulse then filtered else m.vRef } } : State).follows u
              ∧ exec .speedWindowEnd s = .next u))
    ∧ ∀ s : State, s.inReset = false → s.mot.windowStart + 100 ≤ s.now → s.mot.pulses = 0 →
      let m := s.mot
      let c := s.settings
      let zeroRun := if m.pulseState = .active then 1 else min 65535 (m.zeroRun + 1)
      let enters := m.pulseState ≠ .silent ∧ c.holdTime ≤ zeroRun * 100
      let moving := m.fixState = .current ∧ ∃ f, m.fix = some f ∧ 300 ≤ f.speed
      let silent := enters ∧ moving ∧ c.speedSource = .pulse ∧ m.silenceReported = false
      let fall := enters ∧ moving ∧ c.speedSource = .pulse ∧ m.source = .pulse ∧ c.fallback = true
      ∀ silentB fallB : Bool, (silentB = true ↔ silent) → (fallB = true ↔ fall) →
        ∃ u, ({ s with
            mot :=
              { m with
                pulses := 0
                windowStart := m.windowStart + 100
                filtered := if enters then 0 else m.filtered
                pulseState := if m.pulseState = .silent ∨ enters then .silent else .holding
                zeroRun := zeroRun
                pulseRun := 0
                silenceReported := m.silenceReported || silentB
                source := if fallB then .fix else m.source
                vRef :=
                  if fallB then (m.fix.map (·.speed)).getD 0
                  else if m.source = .fix then m.vRef
                  else if m.pulseState = .silent ∨ enters then 0 else m.filtered }
            evu := (s.evu.raisedIf silentB .speedSilent).raisedIf fallB .speedFallback } : State).follows u
          ∧ exec .speedWindowEnd s = .next u

/-- A new level of the work switch input is timed, and a return to the state's level ends the timing; a level held for
50 ms is taken: the state follows, SWITCH is raised, a lift settles the store, and every lane is re-decided (R23, R43,
R89). That an event with no change of level is passed over is the model's choice (assumption log, entry 18). That a
timer's event before its moment changes nothing is deduced (assumption log, entry 2). -/
def Obligations.WorkSwitchChangesAreQualified : Prop :=
  ∀ s : State, s.inReset = false →
    (∀ level,
        exec (.workSwitchLevelChange level) s =
          .next { s with
            pins := { s.pins with switch := level }
            mot := { s.mot with switchSince :=
              if level = s.pins.switch then s.mot.switchSince
              else if level = s.mot.switch then none else some s.now } })
      ∧ ((∀ t0, s.mot.switchSince = some t0 → s.now < t0 + 50) → exec .workSwitchChange s = .next s)
      ∧ ∀ t0, s.mot.switchSince = some t0 → t0 + 50 ≤ s.now → s.cst.wf →
          let a := ({ s with mot :=
            { s.mot with switch := s.pins.switch, switchSince := none } } : State).raise .switched
          ∃ u, (if s.pins.switch = .lifted then a.settled else a).follows u ∧ exec .workSwitchChange s = .next u

/-! ## Seed flight -/

/-- A hole event on an unconfigured row does nothing (R47, R101). On a configured row it clears METER STALL and restarts the stall timer while the port carries 50 or more. On a
priming row it lowers the remaining hole count, and at 0 priming ends by count. In FIELD an entry joins the queue with the target
of the seed lane's view; a full queue first has its oldest entry resolved, as a skip or, under SENSOR STUCK, unknown, and
*overflow seen* is set (R47, R96, R98, R101, R103 to R106, R116). That the forced resolution comes before the new entry takes its target is
deduced (assumption log, entry 12). -/
def Obligations.HoleEventsClearTheStallAndMakeEntries : Prop :=
  (∀ (s : State) (r : RowId), s.inReset = false → s.row r = none → exec (.holeEvent r) s = .next s)
    ∧ ∀ (s : State) (r : RowId) (w : Row), s.inReset = false → s.row r = some w →
      let seen : Row :=
        { w with sfm :=
          { w.sfm with
            stalled := false
            stallDue := if 50 ≤ w.seed.drive then some (s.now + s.settings.stallTime) else none } }
      let b := if w.sfm.stalled then (s.setRow r (some seen)).raiseHealth r else s.setRow r (some seen)
      let joined := fun (v : Row) (queue : List Entry) (overflow : Bool) =>
        let target :=
          if v.seed.view.outcome = .found then
            v.seed.view.key.bind fun k => v.seed.point.map fun q => (k, subOf s.settings.cellSide q)
          else none
        { v with sfm :=
          { v.sfm with
            queue := queue ++ [⟨s.now, s.now + s.settings.transitLimit, target⟩]
            overflowSeen := v.sfm.overflowSeen || overflow } }
      ((s.cmu.mode = .shadow ∨ (s.cmu.mode = .idle ∧ ∃ x, w.seed.state = .lane x)) →
          exec (.holeEvent r) s = .next b)
        ∧ (s.cmu.mode = .idle → ∀ n, w.seed.state = .priming n →
            (1 < n →
                exec (.holeEvent r) s =
                  .next (b.setRow r (some { seen with seed := { w.seed with state := .priming (n - 1) } })))
              ∧ (n ≤ 1 →
                  ∃ u, (b.setRow r (some { seen with seed := { w.seed with state := .lane .parked } })).follows u
                    ∧ exec (.holeEvent r) s = .next (u.afterPriming r false)))
        ∧ (s.cmu.mode = .field → w.sfm.queue.length < 8 →
            exec (.holeEvent r) s = .next (b.setRow r (some (joined seen w.sfm.queue false))))
        ∧ (s.cmu.mode = .field → 8 ≤ w.sfm.queue.length →
            ∃ u v, b.resolved r (if w.sfm.stuck then none else some .skip) u ∧ u.row r = some v
              ∧ exec (.holeEvent r) s = .next (u.setRow r (some (joined v v.sfm.queue true))))

/-- A sensed seed starts an occlusion; in FIELD it resolves the oldest entry as matched, or with an empty queue sets
*underflow seen* and credits an extra to the record of the seed lane's view. The deadline of the oldest entry, once
passed in FIELD, resolves it as a skip or, under SENSOR STUCK, unknown; before that, and outside FIELD, it does nothing
(R20, R107 to R110, R112 to R115). That a line already OCCLUDED makes no sensed seed, and an unconfigured row's line is
only followed, is the model's choice (assumption log, entry 18). That a timer's event before its moment changes nothing
is deduced (assumption log, entry 2). -/
def Obligations.SensedSeedsAndDeadlinesResolveEntries : Prop :=
  ∀ (s : State) (r : RowId), s.inReset = false →
    let line := { s with pins := { s.pins with seedLines := s.pins.seedLines.set r.val .occluded } }
    ((s.row r = none ∨ s.lineOf r = .occluded) → exec (.sensedSeed r) s = .next line)
      ∧ (∀ w, s.row r = some w → s.lineOf r = .clear →
          let occluded : Row := { w with sfm := { w.sfm with line := .occluded, occlusionDue := some (s.now + 500) } }
          let a := line.setRow r (some occluded)
          let extra := line.setRow r (some { occluded with sfm := { occluded.sfm with underflowSeen := true } })
          (s.cmu.mode ≠ .field → exec (.sensedSeed r) s = .next a)
            ∧ (s.cmu.mode = .field → w.sfm.queue ≠ [] →
                ∃ u, a.resolved r (some .matched) u ∧ exec (.sensedSeed r) s = .next u)
            ∧ (s.cmu.mode = .field → w.sfm.queue = [] →
                (∀ k, w.seed.view.outcome = .found → w.seed.view.key = some k →
                    ∃ u, extra.credited k (fun p => { p with extras := min 65535 (p.extras + 1) }) u
                      ∧ exec (.sensedSeed r) s = .next u)
                  ∧ (w.seed.view.outcome ≠ .found → exec (.sensedSeed r) s = .next extra)))
      ∧ (∀ w e rest, s.row r = some w → w.sfm.queue = e :: rest →
          (s.cmu.mode = .field → e.deadline ≤ s.now →
              ∃ u, s.resolved r (if w.sfm.stuck then none else some .skip) u ∧ exec (.entryExpiry r) s = .next u)
            ∧ (s.cmu.mode ≠ .field ∨ s.now < e.deadline → exec (.entryExpiry r) s = .next s))
      ∧ ((∀ w, s.row r = some w → w.sfm.queue = []) → exec (.entryExpiry r) s = .next s)

/-- The end of an occlusion stops its timer and clears SENSOR STUCK; the occlusion timer running out enters it; the
stall timer running out enters METER STALL and ends the row's priming by stall. HEALTH is raised and the row joins the
changed rows at each entry and exit. A timer that has not run out does nothing. On an unconfigured row the two timer events do
nothing, and of its line only the level is followed (R47, R97, R98, R101, R115 to R117). That a timer's event before its
moment changes nothing is deduced (assumption log, entry 2). That a line already CLEAR has no end of an occlusion, and that an
unconfigured row's line is followed, is the model's choice (assumption log, entry 18). -/
def Obligations.OcclusionAndStallTimersDriveSeedHealth : Prop :=
  ∀ (s : State) (r : RowId), s.inReset = false →
    let line := { s with pins := { s.pins with seedLines := s.pins.seedLines.set r.val .clear } }
    (s.row r = none →
        exec (.occlusionEnd r) s = .next line ∧ exec (.occlusionTimerExpiry r) s = .next s
          ∧ exec (.stallTimerExpiry r) s = .next s)
      ∧ ∀ w, s.row r = some w →
        let health := fun (b : Bool) (t : State) => if b then t.raiseHealth r else t
        (s.lineOf r = .clear → exec (.occlusionEnd r) s = .next line)
          ∧ (s.lineOf r = .occluded →
              exec (.occlusionEnd r) s =
                .next
                  (health w.sfm.stuck
                    (line.setRow r (some { w with sfm :=
                      { w.sfm with line := .clear, occlusionDue := none, stuck := false } }))))
          ∧ ((∀ d, w.sfm.occlusionDue = some d → s.now < d) → exec (.occlusionTimerExpiry r) s = .next s)
          ∧ (∀ d, w.sfm.occlusionDue = some d → d ≤ s.now →
              exec (.occlusionTimerExpiry r) s =
                .next
                  (health (!w.sfm.stuck)
                    (s.setRow r (some { w with sfm := { w.sfm with occlusionDue := none, stuck := true } }))))
          ∧ ((∀ d, w.sfm.stallDue = some d → s.now < d) → exec (.stallTimerExpiry r) s = .next s)
          ∧ (∀ d, w.sfm.stallDue = some d → d ≤ s.now →
              let stalled : Row := { w with sfm := { w.sfm with stallDue := none, stalled := true } }
              let b := health (!w.sfm.stalled) (s.setRow r (some stalled))
              ((∃ x, w.seed.state = .lane x) → exec (.stallTimerExpiry r) s = .next b)
                ∧ ∀ n, w.seed.state = .priming n →
                    ∃ u, (b.setRow r (some { stalled with seed := { w.seed with state := .lane .parked } })).follows u
                      ∧ exec (.stallTimerExpiry r) s = .next (u.afterPriming r true))

/-- In SHADOW an accumulator that has reached 1,000,000 makes a synthetic entry with no target, a full queue losing its
oldest first and setting *overflow seen*; half the transit limit after its release, the oldest entry is sensed and
leaves. No outcome is noted and no record credited. Before that, outside SHADOW, and on an unconfigured row, the two events do
nothing (R101, R112, R118 to R120). That these events before their moment change nothing, and that the accumulator may stand above 1,000,000,
is deduced (assumption log, entries 2 and 19). -/
def Obligations.ShadowSynthesisMakesAndSensesEntries : Prop :=
  (∀ (s : State) (r : RowId), s.inReset = false → s.row r = none →
      exec (.syntheticHoleEvent r) s = .next s ∧ exec (.syntheticSensedSeed r) s = .next s)
    ∧ ∀ (s : State) (r : RowId) (w : Row), s.inReset = false → s.row r = some w →
      (s.cmu.mode = .shadow → 1000000 ≤ w.sfm.synth →
          exec (.syntheticHoleEvent r) s =
            .next
              (s.setRow r (some { w with sfm :=
                { w.sfm with
                  synth := w.sfm.synth - 1000000
                  queue :=
                    (if 8 ≤ w.sfm.queue.length then w.sfm.queue.tail else w.sfm.queue)
                      ++ [⟨s.now, s.now + s.settings.transitLimit, none⟩]
                  overflowSeen := w.sfm.overflowSeen || decide (8 ≤ w.sfm.queue.length) } })))
        ∧ (s.cmu.mode ≠ .shadow ∨ w.sfm.synth < 1000000 → exec (.syntheticHoleEvent r) s = .next s)
        ∧ (∀ e rest, w.sfm.queue = e :: rest →
            (s.cmu.mode = .shadow → e.release + (e.deadline - e.release) / 2 ≤ s.now →
                exec (.syntheticSensedSeed r) s =
                  .next (s.setRow r (some { w with sfm := { w.sfm with queue := rest } })))
              ∧ (s.cmu.mode ≠ .shadow ∨ s.now < e.release + (e.deadline - e.release) / 2 →
                  exec (.syntheticSensedSeed r) s = .next s))
        ∧ (w.sfm.queue = [] → exec (.syntheticSensedSeed r) s = .next s)

/-! ## Liquid fertiliser -/

/-- A conversion that has had its 2 ms takes its code in the five steps of R126: the flow, the sensor fault runs, the
credit to the record under the drop point, the NO FLOW test and the trim, each on the state the one before it left; the
row is then computed with its trim, and the conversion of the row at the scan position starts. HEALTH is raised at each
entry and exit of a fertiliser condition. With no conversion in flight, or before its 2 ms, the event does nothing (R73
to R75, R124, R126 to R133, R135). That the event before its moment changes nothing, and that a volume of 0 is delivered
and noted like any other, is deduced (assumption log, entries 2, 11 and 14); that steps 4 and 5 read the lane as a record
poisoned by the credit leaves it is the model's choice (assumption log, entry 25). -/
def Obligations.ConversionsTakeTheirFiveSteps : Prop :=
  ∀ (s : State) (code : AdcCode), s.inReset = false →
    ((∀ c, s.fsc.inFlight = some c → s.now < c.start + 2) → exec (.conversionComplete code) s = .next s)
      ∧ ∀ (r : RowId) (start : Nat) (w : Row) (l : FertLane),
          s.fsc.inFlight = some ⟨r, start⟩ → start + 2 ≤ s.now → s.row r = some w → w.fert = some l →
          let x := l.flow
          let rail := decide (code = 0 ∨ code = 4095)
          let measured := measuredFlow code w.ctx
          let railRun := if rail then min 3 (x.railRun + 1) else 0
          let inRun := if rail then 0 else min 3 (x.inRun + 1)
          let fault :=
            if rail then x.sensorFault || decide (railRun = 3) else x.sensorFault && decide (inRun ≠ 3)
          let forms := decide (l.state = .running) && (fault || !rail)
          let interval := x.prevTime.elim 0 fun t => min 1000 (s.now - t)
          let volume := (if fault then l.f else measured) * interval / 1000
          let counted : FlowState :=
            { x with
              lastFlow := if rail then x.lastFlow else measured
              railRun := railRun
              inRun := inRun
              sensorFault := fault
              estimated := if forms then fault else x.estimated }
          let a := s.setRow r (some { w with fert := some { l with flow := counted } })
          let b := if fault = x.sensorFault then a else a.raiseHealth r
          ∃ (u : State) (v : Row) (m : FertLane),
            (match forms, l.drop with
              | true, some q =>
                b.credited (cellOf s.settings.cellSide q) (·.appliedAt volume (subOf s.settings.cellSide q)) u
              | _, _ => u = b)
            ∧ u.row r = some v ∧ v.fert = some m
            ∧ (let tests := !rail && decide (s.cmu.mode = .field) && !fault
              let runs := tests && decide (m.state = .running)
              let low :=
                if runs = true ∧ 100 ≤ m.duty ∧ measured < m.f / 4 then min 10 (x.lowRun + 1) else 0
              let noFlow :=
                if x.noFlow then !(tests && decide (m.f / 2 ≤ measured)) else decide (low = 10)
              let taken : FlowState :=
                { counted with
                  prevTime := some s.now
                  noFlow := noFlow
                  lowRun := if x.noFlow then x.lowRun else if low = 10 then 0 else low
                  trim := if runs then trimmed x.trim m.f measured w.ctx.valveFull else x.trim }
              let c := u.setRow r (some { v with fert := some { m with flow := taken } })
              let d := if noFlow = x.noFlow then c else c.raiseHealth r
              ∃ z, d.follows z
                ∧ exec (.conversionComplete code) s =
                  .next
                    { z with fsc :=
                      { s.fsc with
                        inFlight := s.fsc.position.map fun y => ⟨y, s.now⟩
                        position := s.fsc.position.bind fun y => rowAfter s.scanList y } })

/-! ## Configuration -/

/-- SETI is refused outside IDLE, by the first of its seventeen fields outside its range, and for another cell side while a record is
held. Otherwise every setting is written and valid, and each that changes acts: the cell side empties the miss set and forgets
previous cells; the speed source and fallback set the effective source and reference speed, each with its speed sample, and with
the tests of R37 and R38; a STALE fix as old as a new lost limit is LOST; rows are computed and lanes re-decided (R1, R46, R174,
R180). That the effects come in field number order is the model's choice (assumption log, entry 10). -/
def Obligations.SetImplementAppliesItsSettings : Prop :=
  ∀ (c : Cmd) (s : State), s.takes Op.seti c → c.payload.length = 26 →
    let b := s.begun c
    let p := c.payload
    let fits := setiFits p
    let o := s.settings
    let n := setiSettings p
    (s.cmu.mode ≠ .idle → exec (.seti c) s = .next (b.complete (.plain .wrongMode)))
      ∧ (s.cmu.mode = .idle → ∀ x, fits[x]? = some false → (∀ y < x, fits[y]? = some true) →
          exec (.seti c) s = .next (b.complete (.badField (x + 1))))
      ∧ (s.cmu.mode = .idle → fits.all id = true →
          (n.cellSide ≠ o.cellSide → s.cst.records ≠ [] →
              exec (.seti c) s = .next (b.complete (.plain .storeNotEmpty)))
            ∧ (n.cellSide = o.cellSide ∨ s.cst.records = [] →
                let m := s.mot
                let side := decide (o.cellSide ≠ n.cellSide)
                let moving := decide (m.fixState = .current) && m.fix.any fun f => decide (300 ≤ f.speed)
                let quiet := decide (n.speedSource = .pulse) && decide (m.pulseState = .silent) && moving
                let pulseSpeed := if m.pulseState = .silent then 0 else m.filtered
                let fixSpeed :=
                  if m.fixState = .current ∨ m.fixState = .stale then (m.fix.map (·.speed)).getD 0 else 0
                let changed := decide (o.speedSource ≠ n.speedSource)
                let silent := changed && quiet && !m.silenceReported
                let fell := changed && quiet && n.fallback
                let m1 : Motion :=
                  if changed then
                    { m with
                      source := n.speedSource
                      vRef := if n.speedSource = .fix then fixSpeed else pulseSpeed
                      silenceReported := m.silenceReported && decide (n.speedSource = .pulse) }
                  else m
                let m2 : Motion :=
                  { m1 with
                    source := if fell then .fix else m1.source
                    vRef := if fell then fixSpeed else m1.vRef
                    silenceReported := m1.silenceReported || silent }
                let falls := decide (o.fallback = false ∧ n.fallback = true ∧ m2.source = .pulse) && quiet
                let back :=
                  decide (o.fallback = true ∧ n.fallback = false ∧ m2.source = .fix ∧ n.speedSource = .pulse)
                let m3 : Motion :=
                  { m2 with
                    source := if falls then .fix else if back then .pulse else m2.source
                    vRef := if falls then fixSpeed else if back then pulseSpeed else m2.vRef }
                let lost :=
                  decide (o.lostLimit ≠ n.lostLimit ∧ m.fixState = .stale)
                    && m.fixTimers.any fun t => decide (t + n.lostLimit ≤ s.now)
                let m4 : Motion :=
                  if lost then
                    { m3 with
                      fixState := .lost, fixTimers := none, yawRef := 0, vRef := if m3.source = .fix then 0 else m3.vRef }
                  else m3
                let a : State :=
                  ({ b with
                    settings := n
                    cmu := { s.cmu with settingsValid := true }
                    cst := if side then { s.cst with misses := [], incomplete := false } else s.cst } : State).mapRows
                    fun _ w =>
                      if side then
                        { w with
                          seed := { w.seed with prevCell := none }
                          fert := w.fert.map fun l => { l with prevCell := none } }
                      else w
                ∃ u1 u2 u3 u4 u5 : State,
                  ({ a with mot := m1 } : State).follows u1
                    ∧ ({ u1 with
                        mot := m2
                        evu := (u1.evu.raisedIf silent .speedSilent).raisedIf fell .speedFallback } : State).follows u2
                    ∧ ({ u2 with mot := m3, evu := u2.evu.raisedIf falls .speedFallback } : State).follows u3
                    ∧ ({ u3 with mot := m4, evu := u3.evu.raisedIf lost .fixLost } : State).follows u4
                    ∧ u4.follows u5
                    ∧ exec (.seti c) s = .next (u5.complete (.plain .ok))))

/-- SETR is refused by a length that does not match its action, outside IDLE, by the first field out of range, and for a channel
another row holds. CONFIGURE writes the row's context, enabled, with fresh running state and the points it had (a channel lost
takes its two points), HEALTH where a condition was held, and its lanes refreshed with a read of the records under its look-ahead
points; REMOVE takes the row and its place in the changed rows. Each returns the number of configured rows (R13, R47 to R50, R60,
R115, R117, R121, R135, R136, R180, R186). That both reads come before the one computation, and which of two records poisoned
gives the first-uncorrectable key, is the model's choice (assumption log, entries 7 and 24). -/
def Obligations.SetRowConfiguresAndRemoves : Prop :=
  ∀ (i : Instr) (c : Cmd) (s : State) (action : Nat),
    (i = .setrConfigure c ∨ i = .setrRemove c) → s.takes Op.setr c → natAt c.payload 1 1 = action →
    let b := s.begun c
    let p := c.payload
    let ok := setrFits p
    let fits :=
      (action = 1 ∧ p.length = 2) ∨ (action = 0 ∧ p.length = 21) ∨ (1 < action ∧ (p.length = 2 ∨ p.length = 21))
    (¬ fits → exec i s = .next (b.complete (.plain .badLength)))
      ∧ (fits → s.cmu.mode ≠ .idle → exec i s = .next (b.complete (.plain .wrongMode)))
      ∧ (fits → s.cmu.mode = .idle → ∀ x, ok[x]? = some false → (∀ y < x, ok[y]? = some true) →
          exec i s = .next (b.complete (.badField (x + 1))))
      ∧ (fits → s.cmu.mode = .idle → ok.all id = true → ∀ r : RowId, natAt p 0 1 = r.val + 1 →
          (action = 1 →
              let t : State :=
                { b.setRow r none with evu := { s.evu with changed := s.evu.changed &&& ~~~rowBit r } }
              exec i s = .next (t.complete (.counts .ok t.configuredCount 0)))
            ∧ (action = 0 →
                let x := setrContext p
                let taken := x.channel ≠ none ∧ ∃ q w, q ≠ r ∧ s.row q = some w ∧ w.ctx.channel = x.channel
                (taken → exec i s = .next (b.complete (.badField 8)))
                  ∧ (¬ taken → s.cst.wf →
                      let old := s.row r
                      let lane := old.bind (·.fert)
                      let fresh : Row :=
                        { ctx := x
                          vr := 0
                          seed :=
                            { point := old.bind (·.seed.point), prevCell := old.bind (·.seed.prevCell)
                              view := blankView, state := .lane .parked, q := 0, s := 0, limited := false, drive := 0 }
                          fert := x.channel.map fun _ =>
                            { look := lane.bind (·.look), prevCell := lane.bind (·.prevCell), drop := lane.bind (·.drop)
                              view := blankView, state := .parked, f := 0, ff := 0, duty := 0, limited := false, valve := 0
                              flow := ⟨0, none, 0, 0, 0, 0, false, false, false⟩ }
                          sfm :=
                            { queue := [], skipRun := 0, window := [], blocked := false, stuck := false, stalled := false
                              overflowSeen := false, underflowSeen := false, line := s.lineOf r
                              occlusionDue := if s.lineOf r = .occluded then some (s.now + 500) else none
                              stallDue := none, synth := 0 } }
                      let sick :=
                        old.any fun w =>
                          w.sfm.blocked || w.sfm.stuck || w.sfm.stalled
                            || w.fert.any fun l => l.flow.sensorFault || l.flow.noFlow
                      let a := b.setRow r (some fresh)
                      let a' := if sick then a.raiseHealth r else a
                      ∃ u, a'.reads (a'.looksInto fun q => decide (q = r)) u
                        ∧ exec i s = .next (u.complete (.counts .ok u.configuredCount 0)))))

/-- SETE enables the configured rows of its set and disables the others; a row that changes is re-decided and forgets its time of
previous conversion, and in FIELD a changed scan list restarts the scan; it returns the numbers of rows enabled and disabled (R51,
R123, R125). SETF clamps and writes the fallback targets, refreshes every lane on them, which has no payload to read, and returns
them (R60 to R62). -/
def Obligations.SetEnablesAndFallbackReachTheRows : Prop :=
  ∀ (c : Cmd) (s : State), c.payload.length = 4 →
    let b := s.begun c
    let p := c.payload
    (s.takes Op.sete c →
        let on := rowSetAt p 0
        let a := b.mapRows fun r w =>
          if w.ctx.enabled = rowIn r on then w
          else
            { w with
              ctx := { w.ctx with enabled := rowIn r on }
              fert := w.fert.map fun l => { l with flow := { l.flow with prevTime := none } } }
        let restarts := s.fsc.scanning = true ∧ a.scanList ≠ s.scanList
        ∃ u, ({ a with fsc :=
              if restarts then
                { s.fsc with
                  inFlight := a.scanList.head?.map fun r => ⟨r, s.now⟩
                  position := a.scanList.head?.bind (rowAfter a.scanList) }
              else s.fsc } : State).follows u
          ∧ exec (.sete c) s =
            .next (u.complete (.counts .ok a.enabledCount (s.configuredCount - a.enabledCount))))
      ∧ (s.takes Op.setf c →
          let seed := natAt p 0 2
          let fert := natAt p 2 2
          ∃ u, ({ b with ren := { s.ren with seedFallback := min 6000 seed, fertFallback := min 4000 fert } } : State).follows
                u
            ∧ exec (.setf c) s =
              .next
                (u.complete
                  (.counts (if 6000 < seed ∨ 4000 < fert then .clamped else .ok) (min 6000 seed) (min 4000 fert))))

/-! ## Modes -/

/-- STRT is refused by its target, outside IDLE and with READY clear, in that order; else it sets the mode, every lane is
re-decided, and a run of the scan or the synthesis begins; it returns the numbers of rows configured and enabled (R81, R82, R119,
R124). STOP in IDLE changes nothing; else it goes to IDLE, settles, parks, empties the queues and stops the scanner, and returns the
number of records settled; SETL settles and returns it (R23, R25, R83, R111, R125, R136, R161). -/
def Obligations.StartAndStopChangeTheMode : Prop :=
  ∀ (c : Cmd) (s : State),
    let b := s.begun c
    let settles := s.cst.records.countP Record.settles
    (∀ (i : Instr) (target : Nat), (i = .strtField c ∨ i = .strtShadow c) → s.takes Op.strt c →
        c.payload.length = 1 → natAt c.payload 0 1 = target →
        (target ≠ 1 → target ≠ 2 → exec i s = .next (b.complete (.badField 1)))
          ∧ (target = 1 ∨ target = 2 → s.cmu.mode ≠ .idle → exec i s = .next (b.complete (.plain .wrongMode)))
          ∧ (target = 1 ∨ target = 2 → s.cmu.mode = .idle →
              (s.cmu.settingsValid = false ∨ ∀ r, s.row r = none) → exec i s = .next (b.complete (.plain .notReady)))
          ∧ (target = 1 ∨ target = 2 → s.cmu.mode = .idle → s.cmu.settingsValid = true → (∃ r, s.row r ≠ none) →
              ∃ u, ((if target = 1 then
                  { b with
                    cmu := { s.cmu with mode := .field }
                    fsc :=
                      { scanning := true
                        inFlight := s.scanList.head?.map fun r => ⟨r, s.now⟩
                        position := s.scanList.head?.bind (rowAfter s.scanList) } }
                  else { b with cmu := { s.cmu with mode := .shadow } } : State).mapRows fun _ w =>
                    if target = 1 then
                      { w with fert := w.fert.map fun l => { l with flow := { l.flow with prevTime := none } } }
                    else { w with sfm := { w.sfm with synth := 0 } }).follows u
                ∧ exec i s = .next (u.complete (.counts .ok s.configuredCount s.enabledCount))))
      ∧ (s.takes Op.stop c → c.payload = [] →
          (s.cmu.mode = .idle → exec (.stop c) s = .next (b.complete (.counts .ok 0 0)))
            ∧ (s.cmu.mode ≠ .idle → s.cst.wf →
                ∃ u, (({ b.settled with
                      cmu := { s.cmu with mode := .idle }
                      fsc := ⟨false, none, none⟩ } : State).mapRows fun _ w =>
                        { w with
                          fert := w.fert.map fun l => { l with flow := { l.flow with prevTime := none } }
                          sfm := { w.sfm with queue := [], synth := 0 } }).follows u
                  ∧ exec (.stop c) s = .next (u.complete (.counts .ok settles 0))))
      ∧ (s.takes Op.setl c → c.payload = [] → s.cst.wf →
          ∃ u, b.settled.follows u ∧ exec (.setl c) s = .next (u.complete (.counts .ok settles 0)))

/-- PRIM is refused outside IDLE, for a set that is empty or names a row not configured and enabled, and for a hole count of 0,
in that order; else it goes to EXECUTING with the named rows PRIMING, each with the hole count to go and its meter driven at the
lower of the prime speed and its maximum shaft speed (R90, R93 to R95). -/
def Obligations.PrimeMetersStartsPriming : Prop :=
  ∀ (c : Cmd) (s : State), s.takes Op.prim c → c.payload.length = 5 →
    let b := s.begun c
    let rows := rowSetAt c.payload 0
    let holes := natAt c.payload 4 1
    let named := ∀ r, rowIn r rows = true → ∃ w, s.row r = some w ∧ w.ctx.enabled = true
    (s.cmu.mode ≠ .idle → exec (.prim c) s = .next (b.complete (.plain .wrongMode)))
      ∧ (s.cmu.mode = .idle → (rows = 0 ∨ ¬ named) → exec (.prim c) s = .next (b.complete (.badField 1)))
      ∧ (s.cmu.mode = .idle → rows ≠ 0 → named → holes = 0 → exec (.prim c) s = .next (b.complete (.badField 2)))
      ∧ (s.cmu.mode = .idle → rows ≠ 0 → named → 0 < holes →
          ∃ u, (({ b with cmu := { s.cmu with progress := .prim rows rows 0 } } : State).mapRows fun r w =>
                if rowIn r rows then { w with seed := { w.seed with state := .priming holes } } else w).follows u
            ∧ exec (.prim c) s = .next u
            ∧ ∀ r w, rowIn r rows = true → u.row r = some w →
                w.seed.drive = min s.settings.primeSpeed w.ctx.sMax)

/-! ## Restart -/

/-- RSTR with an empty payload, in every state of the Command Unit, ends the command in progress, settles the store and
restarts every block, and completes OK (R26, R45, R63, R79, R100, R121, R136, R177, R189). -/
def Obligations.RestartRestartsEveryBlock : Prop :=
  ∀ (c : Cmd) (s : State), s.inReset = false → c.right Op.rstr → c.payload = [] → s.cst.wf →
    let b := s.begun c
    exec (.rstr c) s =
      .next
        (({ b.mapRows (fun r w =>
              { ctx := w.ctx
                vr := 0
                seed :=
                  { point := none, prevCell := none, view := fallbackView .noPoint s.ren.seedFallback none
                    state := .lane .parked, q := 0, s := 0, limited := false, drive := 0 }
                fert := w.fert.map fun _ =>
                  { look := none, prevCell := none, drop := none, view := fallbackView .noPoint s.ren.fertFallback none
                    state := .parked, f := 0, ff := 0, duty := 0, limited := false, valve := 0
                    flow := ⟨0, none, 0, 0, 0, 0, false, false, false⟩ }
                sfm :=
                  { queue := [], skipRun := 0, window := [], blocked := false, stuck := false, stalled := false
                    overflowSeen := false, underflowSeen := false, line := s.lineOf r
                    occlusionDue := if s.lineOf r = .occluded then some (s.now + 500) else none
                    stallDue := none, synth := 0 } }) with
            cmu := { s.cmu with progress := .idle, dataDue := none, mode := .idle }
            cst := { s.cst.afterSettle with misses := [], incomplete := false }
            mot :=
              { fix := none, fixState := .noFix, fixTimers := none, pulses := 0, windowStart := s.now, filtered := 0
                pulseState := .silent, zeroRun := 0, pulseRun := 0, silenceReported := false
                source := s.settings.speedSource, vRef := 0, yawRef := 0, switch := s.pins.switch, switchSince := none }
            fsc := ⟨false, none, none⟩
            evu := { pending := 0, enabled := s.evu.enabled, changed := 0, attention := false } } : State).complete
          (.plain .ok))
end

