-- ==== Sys2Proof/Laws/State.lean ====
section
/-! SUPPORT. The state's named updates: what each leaves in each field. -/

namespace Sys2Proof.Machine

variable (s : State)

/-! ### setLnk -/

@[simp] theorem State.setLnk_pending (x : Link) : (s.setLnk x).pending = s.pending := rfl
@[simp] theorem State.setLnk_now (x : Link) : (s.setLnk x).now = s.now := rfl
@[simp] theorem State.setLnk_inReset (x : Link) : (s.setLnk x).inReset = s.inReset := rfl
@[simp] theorem State.setLnk_pins (x : Link) : (s.setLnk x).pins = s.pins := rfl
@[simp] theorem State.setLnk_lnk (x : Link) : (s.setLnk x).lnk = x := rfl
@[simp] theorem State.setLnk_cmu (x : Link) : (s.setLnk x).cmu = s.cmu := rfl
@[simp] theorem State.setLnk_settings (x : Link) : (s.setLnk x).settings = s.settings := rfl
@[simp] theorem State.setLnk_cst (x : Link) : (s.setLnk x).cst = s.cst := rfl
@[simp] theorem State.setLnk_mot (x : Link) : (s.setLnk x).mot = s.mot := rfl
@[simp] theorem State.setLnk_ren (x : Link) : (s.setLnk x).ren = s.ren := rfl
@[simp] theorem State.setLnk_fsc (x : Link) : (s.setLnk x).fsc = s.fsc := rfl
@[simp] theorem State.setLnk_evu (x : Link) : (s.setLnk x).evu = s.evu := rfl
@[simp] theorem State.setLnk_upsets (x : Link) : (s.setLnk x).upsets = s.upsets := rfl
@[simp] theorem State.setLnk_choices (x : Link) : (s.setLnk x).choices = s.choices := rfl
@[simp] theorem State.setLnk_setLnk (x y : Link) : (s.setLnk x).setLnk y = s.setLnk y := rfl
@[simp] theorem State.setLnk_self : s.setLnk s.lnk = s := rfl

/-! ### setCmu -/

@[simp] theorem State.setCmu_pending (x : Commander) : (s.setCmu x).pending = s.pending := rfl
@[simp] theorem State.setCmu_now (x : Commander) : (s.setCmu x).now = s.now := rfl
@[simp] theorem State.setCmu_inReset (x : Commander) : (s.setCmu x).inReset = s.inReset := rfl
@[simp] theorem State.setCmu_pins (x : Commander) : (s.setCmu x).pins = s.pins := rfl
@[simp] theorem State.setCmu_lnk (x : Commander) : (s.setCmu x).lnk = s.lnk := rfl
@[simp] theorem State.setCmu_cmu (x : Commander) : (s.setCmu x).cmu = x := rfl
@[simp] theorem State.setCmu_settings (x : Commander) : (s.setCmu x).settings = s.settings := rfl
@[simp] theorem State.setCmu_cst (x : Commander) : (s.setCmu x).cst = s.cst := rfl
@[simp] theorem State.setCmu_mot (x : Commander) : (s.setCmu x).mot = s.mot := rfl
@[simp] theorem State.setCmu_ren (x : Commander) : (s.setCmu x).ren = s.ren := rfl
@[simp] theorem State.setCmu_fsc (x : Commander) : (s.setCmu x).fsc = s.fsc := rfl
@[simp] theorem State.setCmu_evu (x : Commander) : (s.setCmu x).evu = s.evu := rfl
@[simp] theorem State.setCmu_upsets (x : Commander) : (s.setCmu x).upsets = s.upsets := rfl
@[simp] theorem State.setCmu_choices (x : Commander) : (s.setCmu x).choices = s.choices := rfl
@[simp] theorem State.setCmu_setCmu (x y : Commander) : (s.setCmu x).setCmu y = s.setCmu y := rfl
@[simp] theorem State.setCmu_self : s.setCmu s.cmu = s := rfl

/-! ### setSettings -/

@[simp] theorem State.setSettings_pending (x : Settings) : (s.setSettings x).pending = s.pending := rfl
@[simp] theorem State.setSettings_now (x : Settings) : (s.setSettings x).now = s.now := rfl
@[simp] theorem State.setSettings_inReset (x : Settings) : (s.setSettings x).inReset = s.inReset := rfl
@[simp] theorem State.setSettings_pins (x : Settings) : (s.setSettings x).pins = s.pins := rfl
@[simp] theorem State.setSettings_lnk (x : Settings) : (s.setSettings x).lnk = s.lnk := rfl
@[simp] theorem State.setSettings_cmu (x : Settings) : (s.setSettings x).cmu = s.cmu := rfl
@[simp] theorem State.setSettings_settings (x : Settings) : (s.setSettings x).settings = x := rfl
@[simp] theorem State.setSettings_cst (x : Settings) : (s.setSettings x).cst = s.cst := rfl
@[simp] theorem State.setSettings_mot (x : Settings) : (s.setSettings x).mot = s.mot := rfl
@[simp] theorem State.setSettings_ren (x : Settings) : (s.setSettings x).ren = s.ren := rfl
@[simp] theorem State.setSettings_fsc (x : Settings) : (s.setSettings x).fsc = s.fsc := rfl
@[simp] theorem State.setSettings_evu (x : Settings) : (s.setSettings x).evu = s.evu := rfl
@[simp] theorem State.setSettings_upsets (x : Settings) : (s.setSettings x).upsets = s.upsets := rfl
@[simp] theorem State.setSettings_choices (x : Settings) : (s.setSettings x).choices = s.choices := rfl
@[simp] theorem State.setSettings_setSettings (x y : Settings) : (s.setSettings x).setSettings y = s.setSettings y := rfl
@[simp] theorem State.setSettings_self : s.setSettings s.settings = s := rfl

/-! ### setCst -/

@[simp] theorem State.setCst_pending (x : Store) : (s.setCst x).pending = s.pending := rfl
@[simp] theorem State.setCst_now (x : Store) : (s.setCst x).now = s.now := rfl
@[simp] theorem State.setCst_inReset (x : Store) : (s.setCst x).inReset = s.inReset := rfl
@[simp] theorem State.setCst_pins (x : Store) : (s.setCst x).pins = s.pins := rfl
@[simp] theorem State.setCst_lnk (x : Store) : (s.setCst x).lnk = s.lnk := rfl
@[simp] theorem State.setCst_cmu (x : Store) : (s.setCst x).cmu = s.cmu := rfl
@[simp] theorem State.setCst_settings (x : Store) : (s.setCst x).settings = s.settings := rfl
@[simp] theorem State.setCst_cst (x : Store) : (s.setCst x).cst = x := rfl
@[simp] theorem State.setCst_mot (x : Store) : (s.setCst x).mot = s.mot := rfl
@[simp] theorem State.setCst_ren (x : Store) : (s.setCst x).ren = s.ren := rfl
@[simp] theorem State.setCst_fsc (x : Store) : (s.setCst x).fsc = s.fsc := rfl
@[simp] theorem State.setCst_evu (x : Store) : (s.setCst x).evu = s.evu := rfl
@[simp] theorem State.setCst_upsets (x : Store) : (s.setCst x).upsets = s.upsets := rfl
@[simp] theorem State.setCst_choices (x : Store) : (s.setCst x).choices = s.choices := rfl
@[simp] theorem State.setCst_setCst (x y : Store) : (s.setCst x).setCst y = s.setCst y := rfl
@[simp] theorem State.setCst_self : s.setCst s.cst = s := rfl

/-! ### setMot -/

@[simp] theorem State.setMot_pending (x : Motion) : (s.setMot x).pending = s.pending := rfl
@[simp] theorem State.setMot_now (x : Motion) : (s.setMot x).now = s.now := rfl
@[simp] theorem State.setMot_inReset (x : Motion) : (s.setMot x).inReset = s.inReset := rfl
@[simp] theorem State.setMot_pins (x : Motion) : (s.setMot x).pins = s.pins := rfl
@[simp] theorem State.setMot_lnk (x : Motion) : (s.setMot x).lnk = s.lnk := rfl
@[simp] theorem State.setMot_cmu (x : Motion) : (s.setMot x).cmu = s.cmu := rfl
@[simp] theorem State.setMot_settings (x : Motion) : (s.setMot x).settings = s.settings := rfl
@[simp] theorem State.setMot_cst (x : Motion) : (s.setMot x).cst = s.cst := rfl
@[simp] theorem State.setMot_mot (x : Motion) : (s.setMot x).mot = x := rfl
@[simp] theorem State.setMot_ren (x : Motion) : (s.setMot x).ren = s.ren := rfl
@[simp] theorem State.setMot_fsc (x : Motion) : (s.setMot x).fsc = s.fsc := rfl
@[simp] theorem State.setMot_evu (x : Motion) : (s.setMot x).evu = s.evu := rfl
@[simp] theorem State.setMot_upsets (x : Motion) : (s.setMot x).upsets = s.upsets := rfl
@[simp] theorem State.setMot_choices (x : Motion) : (s.setMot x).choices = s.choices := rfl
@[simp] theorem State.setMot_setMot (x y : Motion) : (s.setMot x).setMot y = s.setMot y := rfl
@[simp] theorem State.setMot_self : s.setMot s.mot = s := rfl

/-! ### setRen -/

@[simp] theorem State.setRen_pending (x : Engine) : (s.setRen x).pending = s.pending := rfl
@[simp] theorem State.setRen_now (x : Engine) : (s.setRen x).now = s.now := rfl
@[simp] theorem State.setRen_inReset (x : Engine) : (s.setRen x).inReset = s.inReset := rfl
@[simp] theorem State.setRen_pins (x : Engine) : (s.setRen x).pins = s.pins := rfl
@[simp] theorem State.setRen_lnk (x : Engine) : (s.setRen x).lnk = s.lnk := rfl
@[simp] theorem State.setRen_cmu (x : Engine) : (s.setRen x).cmu = s.cmu := rfl
@[simp] theorem State.setRen_settings (x : Engine) : (s.setRen x).settings = s.settings := rfl
@[simp] theorem State.setRen_cst (x : Engine) : (s.setRen x).cst = s.cst := rfl
@[simp] theorem State.setRen_mot (x : Engine) : (s.setRen x).mot = s.mot := rfl
@[simp] theorem State.setRen_ren (x : Engine) : (s.setRen x).ren = x := rfl
@[simp] theorem State.setRen_fsc (x : Engine) : (s.setRen x).fsc = s.fsc := rfl
@[simp] theorem State.setRen_evu (x : Engine) : (s.setRen x).evu = s.evu := rfl
@[simp] theorem State.setRen_upsets (x : Engine) : (s.setRen x).upsets = s.upsets := rfl
@[simp] theorem State.setRen_choices (x : Engine) : (s.setRen x).choices = s.choices := rfl
@[simp] theorem State.setRen_setRen (x y : Engine) : (s.setRen x).setRen y = s.setRen y := rfl
@[simp] theorem State.setRen_self : s.setRen s.ren = s := rfl

/-! ### setFsc -/

@[simp] theorem State.setFsc_pending (x : Scanner) : (s.setFsc x).pending = s.pending := rfl
@[simp] theorem State.setFsc_now (x : Scanner) : (s.setFsc x).now = s.now := rfl
@[simp] theorem State.setFsc_inReset (x : Scanner) : (s.setFsc x).inReset = s.inReset := rfl
@[simp] theorem State.setFsc_pins (x : Scanner) : (s.setFsc x).pins = s.pins := rfl
@[simp] theorem State.setFsc_lnk (x : Scanner) : (s.setFsc x).lnk = s.lnk := rfl
@[simp] theorem State.setFsc_cmu (x : Scanner) : (s.setFsc x).cmu = s.cmu := rfl
@[simp] theorem State.setFsc_settings (x : Scanner) : (s.setFsc x).settings = s.settings := rfl
@[simp] theorem State.setFsc_cst (x : Scanner) : (s.setFsc x).cst = s.cst := rfl
@[simp] theorem State.setFsc_mot (x : Scanner) : (s.setFsc x).mot = s.mot := rfl
@[simp] theorem State.setFsc_ren (x : Scanner) : (s.setFsc x).ren = s.ren := rfl
@[simp] theorem State.setFsc_fsc (x : Scanner) : (s.setFsc x).fsc = x := rfl
@[simp] theorem State.setFsc_evu (x : Scanner) : (s.setFsc x).evu = s.evu := rfl
@[simp] theorem State.setFsc_upsets (x : Scanner) : (s.setFsc x).upsets = s.upsets := rfl
@[simp] theorem State.setFsc_choices (x : Scanner) : (s.setFsc x).choices = s.choices := rfl
@[simp] theorem State.setFsc_setFsc (x y : Scanner) : (s.setFsc x).setFsc y = s.setFsc y := rfl
@[simp] theorem State.setFsc_self : s.setFsc s.fsc = s := rfl

/-! ### setEvu -/

@[simp] theorem State.setEvu_pending (x : Events) : (s.setEvu x).pending = s.pending := rfl
@[simp] theorem State.setEvu_now (x : Events) : (s.setEvu x).now = s.now := rfl
@[simp] theorem State.setEvu_inReset (x : Events) : (s.setEvu x).inReset = s.inReset := rfl
@[simp] theorem State.setEvu_pins (x : Events) : (s.setEvu x).pins = s.pins := rfl
@[simp] theorem State.setEvu_lnk (x : Events) : (s.setEvu x).lnk = s.lnk := rfl
@[simp] theorem State.setEvu_cmu (x : Events) : (s.setEvu x).cmu = s.cmu := rfl
@[simp] theorem State.setEvu_settings (x : Events) : (s.setEvu x).settings = s.settings := rfl
@[simp] theorem State.setEvu_cst (x : Events) : (s.setEvu x).cst = s.cst := rfl
@[simp] theorem State.setEvu_mot (x : Events) : (s.setEvu x).mot = s.mot := rfl
@[simp] theorem State.setEvu_ren (x : Events) : (s.setEvu x).ren = s.ren := rfl
@[simp] theorem State.setEvu_fsc (x : Events) : (s.setEvu x).fsc = s.fsc := rfl
@[simp] theorem State.setEvu_evu (x : Events) : (s.setEvu x).evu = x := rfl
@[simp] theorem State.setEvu_upsets (x : Events) : (s.setEvu x).upsets = s.upsets := rfl
@[simp] theorem State.setEvu_choices (x : Events) : (s.setEvu x).choices = s.choices := rfl
@[simp] theorem State.setEvu_setEvu (x y : Events) : (s.setEvu x).setEvu y = s.setEvu y := rfl
@[simp] theorem State.setEvu_self : s.setEvu s.evu = s := rfl

/-! ### setPins -/

@[simp] theorem State.setPins_pending (x : Pins) : (s.setPins x).pending = s.pending := rfl
@[simp] theorem State.setPins_now (x : Pins) : (s.setPins x).now = s.now := rfl
@[simp] theorem State.setPins_inReset (x : Pins) : (s.setPins x).inReset = s.inReset := rfl
@[simp] theorem State.setPins_pins (x : Pins) : (s.setPins x).pins = x := rfl
@[simp] theorem State.setPins_lnk (x : Pins) : (s.setPins x).lnk = s.lnk := rfl
@[simp] theorem State.setPins_cmu (x : Pins) : (s.setPins x).cmu = s.cmu := rfl
@[simp] theorem State.setPins_settings (x : Pins) : (s.setPins x).settings = s.settings := rfl
@[simp] theorem State.setPins_cst (x : Pins) : (s.setPins x).cst = s.cst := rfl
@[simp] theorem State.setPins_mot (x : Pins) : (s.setPins x).mot = s.mot := rfl
@[simp] theorem State.setPins_ren (x : Pins) : (s.setPins x).ren = s.ren := rfl
@[simp] theorem State.setPins_fsc (x : Pins) : (s.setPins x).fsc = s.fsc := rfl
@[simp] theorem State.setPins_evu (x : Pins) : (s.setPins x).evu = s.evu := rfl
@[simp] theorem State.setPins_upsets (x : Pins) : (s.setPins x).upsets = s.upsets := rfl
@[simp] theorem State.setPins_choices (x : Pins) : (s.setPins x).choices = s.choices := rfl
@[simp] theorem State.setPins_setPins (x y : Pins) : (s.setPins x).setPins y = s.setPins y := rfl
@[simp] theorem State.setPins_self : s.setPins s.pins = s := rfl

/-! ### Events raised -/

@[simp] theorem State.raise_pending (k : Kind) : (s.raise k).pending = s.pending := rfl
@[simp] theorem State.raise_now (k : Kind) : (s.raise k).now = s.now := rfl
@[simp] theorem State.raise_inReset (k : Kind) : (s.raise k).inReset = s.inReset := rfl
@[simp] theorem State.raise_pins (k : Kind) : (s.raise k).pins = s.pins := rfl
@[simp] theorem State.raise_lnk (k : Kind) : (s.raise k).lnk = s.lnk := rfl
@[simp] theorem State.raise_cmu (k : Kind) : (s.raise k).cmu = s.cmu := rfl
@[simp] theorem State.raise_settings (k : Kind) : (s.raise k).settings = s.settings := rfl
@[simp] theorem State.raise_cst (k : Kind) : (s.raise k).cst = s.cst := rfl
@[simp] theorem State.raise_mot (k : Kind) : (s.raise k).mot = s.mot := rfl
@[simp] theorem State.raise_ren (k : Kind) : (s.raise k).ren = s.ren := rfl
@[simp] theorem State.raise_fsc (k : Kind) : (s.raise k).fsc = s.fsc := rfl
@[simp] theorem State.raise_evu (k : Kind) : (s.raise k).evu = s.evu.raised k := rfl
@[simp] theorem State.raise_upsets (k : Kind) : (s.raise k).upsets = s.upsets := rfl
@[simp] theorem State.raise_choices (k : Kind) : (s.raise k).choices = s.choices := rfl

@[simp] theorem State.raiseHealth_pending (r : RowId) : (s.raiseHealth r).pending = s.pending := rfl
@[simp] theorem State.raiseHealth_now (r : RowId) : (s.raiseHealth r).now = s.now := rfl
@[simp] theorem State.raiseHealth_inReset (r : RowId) : (s.raiseHealth r).inReset = s.inReset := rfl
@[simp] theorem State.raiseHealth_pins (r : RowId) : (s.raiseHealth r).pins = s.pins := rfl
@[simp] theorem State.raiseHealth_lnk (r : RowId) : (s.raiseHealth r).lnk = s.lnk := rfl
@[simp] theorem State.raiseHealth_cmu (r : RowId) : (s.raiseHealth r).cmu = s.cmu := rfl
@[simp] theorem State.raiseHealth_settings (r : RowId) : (s.raiseHealth r).settings = s.settings := rfl
@[simp] theorem State.raiseHealth_cst (r : RowId) : (s.raiseHealth r).cst = s.cst := rfl
@[simp] theorem State.raiseHealth_mot (r : RowId) : (s.raiseHealth r).mot = s.mot := rfl
@[simp] theorem State.raiseHealth_ren (r : RowId) : (s.raiseHealth r).ren = s.ren := rfl
@[simp] theorem State.raiseHealth_fsc (r : RowId) : (s.raiseHealth r).fsc = s.fsc := rfl
@[simp] theorem State.raiseHealth_evu (r : RowId) :
    (s.raiseHealth r).evu = { s.evu with changed := s.evu.changed ||| rowBit r }.raised .health := rfl
@[simp] theorem State.raiseHealth_upsets (r : RowId) : (s.raiseHealth r).upsets = s.upsets := rfl
@[simp] theorem State.raiseHealth_choices (r : RowId) : (s.raiseHealth r).choices = s.choices := rfl

@[simp] theorem Events.raised_enabled (e : Events) (k : Kind) : (e.raised k).enabled = e.enabled := rfl
@[simp] theorem Events.raised_changed (e : Events) (k : Kind) : (e.raised k).changed = e.changed := rfl
@[simp] theorem Events.raised_pending (e : Events) (k : Kind) : (e.raised k).pending = e.pending ||| k.bit := rfl
@[simp] theorem Events.raised_attention (e : Events) (k : Kind) :
    (e.raised k).attention = decide ((e.pending ||| k.bit) &&& e.enabled ≠ 0) := rfl

/-! ### Completions -/

@[simp] theorem State.complete_pending (k : Completion) : (s.complete k).pending = s.pending := rfl
@[simp] theorem State.complete_now (k : Completion) : (s.complete k).now = s.now := rfl
@[simp] theorem State.complete_inReset (k : Completion) : (s.complete k).inReset = s.inReset := rfl
@[simp] theorem State.complete_pins (k : Completion) : (s.complete k).pins = s.pins := rfl
@[simp] theorem State.complete_lnk (k : Completion) : (s.complete k).lnk = s.lnk := rfl
@[simp] theorem State.complete_cmu (k : Completion) : (s.complete k).cmu = s.cmu.completed k := rfl
@[simp] theorem State.complete_settings (k : Completion) : (s.complete k).settings = s.settings := rfl
@[simp] theorem State.complete_cst (k : Completion) : (s.complete k).cst = s.cst := rfl
@[simp] theorem State.complete_mot (k : Completion) : (s.complete k).mot = s.mot := rfl
@[simp] theorem State.complete_ren (k : Completion) : (s.complete k).ren = s.ren := rfl
@[simp] theorem State.complete_fsc (k : Completion) : (s.complete k).fsc = s.fsc := rfl
@[simp] theorem State.complete_evu (k : Completion) : (s.complete k).evu = s.evu.raised .done := rfl
@[simp] theorem State.complete_upsets (k : Completion) : (s.complete k).upsets = s.upsets := rfl
@[simp] theorem State.complete_choices (k : Completion) : (s.complete k).choices = s.choices := rfl

@[simp] theorem Commander.completed_progress (c : Commander) (k : Completion) : (c.completed k).progress = .idle := rfl
@[simp] theorem Commander.completed_dataDue (c : Commander) (k : Completion) : (c.completed k).dataDue = none := rfl
@[simp] theorem Commander.completed_completion (c : Commander) (k : Completion) : (c.completed k).completion = some k := rfl
@[simp] theorem Commander.completed_error (c : Commander) (k : Completion) : (c.completed k).error = k.code.isError := rfl
@[simp] theorem Commander.completed_mode (c : Commander) (k : Completion) : (c.completed k).mode = c.mode := rfl
@[simp] theorem Commander.completed_settingsValid (c : Commander) (k : Completion) :
    (c.completed k).settingsValid = c.settingsValid := rfl

/-! ### Rows written -/

@[simp] theorem State.setRow_pending (r : RowId) (w : Option Row) : (s.setRow r w).pending = s.pending := rfl
@[simp] theorem State.setRow_now (r : RowId) (w : Option Row) : (s.setRow r w).now = s.now := rfl
@[simp] theorem State.setRow_inReset (r : RowId) (w : Option Row) : (s.setRow r w).inReset = s.inReset := rfl
@[simp] theorem State.setRow_pins (r : RowId) (w : Option Row) : (s.setRow r w).pins = s.pins := rfl
@[simp] theorem State.setRow_lnk (r : RowId) (w : Option Row) : (s.setRow r w).lnk = s.lnk := rfl
@[simp] theorem State.setRow_cmu (r : RowId) (w : Option Row) : (s.setRow r w).cmu = s.cmu := rfl
@[simp] theorem State.setRow_settings (r : RowId) (w : Option Row) : (s.setRow r w).settings = s.settings := rfl
@[simp] theorem State.setRow_cst (r : RowId) (w : Option Row) : (s.setRow r w).cst = s.cst := rfl
@[simp] theorem State.setRow_mot (r : RowId) (w : Option Row) : (s.setRow r w).mot = s.mot := rfl
@[simp] theorem State.setRow_rows (r : RowId) (w : Option Row) :
    (s.setRow r w).ren.rows = s.ren.rows.set r.val w := rfl
@[simp] theorem State.setRow_seedFallback (r : RowId) (w : Option Row) :
    (s.setRow r w).ren.seedFallback = s.ren.seedFallback := rfl
@[simp] theorem State.setRow_fertFallback (r : RowId) (w : Option Row) :
    (s.setRow r w).ren.fertFallback = s.ren.fertFallback := rfl
@[simp] theorem State.setRow_fsc (r : RowId) (w : Option Row) : (s.setRow r w).fsc = s.fsc := rfl
@[simp] theorem State.setRow_evu (r : RowId) (w : Option Row) : (s.setRow r w).evu = s.evu := rfl
@[simp] theorem State.setRow_upsets (r : RowId) (w : Option Row) : (s.setRow r w).upsets = s.upsets := rfl
@[simp] theorem State.setRow_choices (r : RowId) (w : Option Row) : (s.setRow r w).choices = s.choices := rfl

@[simp] theorem State.modRow_pending (r : RowId) (f : Row → Row) : (s.modRow r f).pending = s.pending := by
  unfold State.modRow; split <;> rfl
@[simp] theorem State.modRow_now (r : RowId) (f : Row → Row) : (s.modRow r f).now = s.now := by
  unfold State.modRow; split <;> rfl
@[simp] theorem State.modRow_inReset (r : RowId) (f : Row → Row) : (s.modRow r f).inReset = s.inReset := by
  unfold State.modRow; split <;> rfl
@[simp] theorem State.modRow_pins (r : RowId) (f : Row → Row) : (s.modRow r f).pins = s.pins := by
  unfold State.modRow; split <;> rfl
@[simp] theorem State.modRow_lnk (r : RowId) (f : Row → Row) : (s.modRow r f).lnk = s.lnk := by
  unfold State.modRow; split <;> rfl
@[simp] theorem State.modRow_cmu (r : RowId) (f : Row → Row) : (s.modRow r f).cmu = s.cmu := by
  unfold State.modRow; split <;> rfl
@[simp] theorem State.modRow_settings (r : RowId) (f : Row → Row) : (s.modRow r f).settings = s.settings := by
  unfold State.modRow; split <;> rfl
@[simp] theorem State.modRow_cst (r : RowId) (f : Row → Row) : (s.modRow r f).cst = s.cst := by
  unfold State.modRow; split <;> rfl
@[simp] theorem State.modRow_mot (r : RowId) (f : Row → Row) : (s.modRow r f).mot = s.mot := by
  unfold State.modRow; split <;> rfl
@[simp] theorem State.modRow_seedFallback (r : RowId) (f : Row → Row) : (s.modRow r f).ren.seedFallback = s.ren.seedFallback := by
  unfold State.modRow; split <;> rfl
@[simp] theorem State.modRow_fertFallback (r : RowId) (f : Row → Row) : (s.modRow r f).ren.fertFallback = s.ren.fertFallback := by
  unfold State.modRow; split <;> rfl
@[simp] theorem State.modRow_fsc (r : RowId) (f : Row → Row) : (s.modRow r f).fsc = s.fsc := by
  unfold State.modRow; split <;> rfl
@[simp] theorem State.modRow_evu (r : RowId) (f : Row → Row) : (s.modRow r f).evu = s.evu := by
  unfold State.modRow; split <;> rfl
@[simp] theorem State.modRow_upsets (r : RowId) (f : Row → Row) : (s.modRow r f).upsets = s.upsets := by
  unfold State.modRow; split <;> rfl
@[simp] theorem State.modRow_choices (r : RowId) (f : Row → Row) : (s.modRow r f).choices = s.choices := by
  unfold State.modRow; split <;> rfl

end Sys2Proof.Machine
end

