-- ==== Sys2Proof/Laws/Rows.lean ====
section
/-! SUPPORT. Rows: what writing one row leaves, loops over the rows, and the relation of states that differ in what
follows from the rows' setup alone. -/

namespace Sys2Proof.Machine

/-! ## One row -/

@[simp] theorem State.row_setLnk (s : State) (x : Link) (r : RowId) : (s.setLnk x).row r = s.row r := rfl
@[simp] theorem State.row_setCmu (s : State) (x : Commander) (r : RowId) : (s.setCmu x).row r = s.row r := rfl
@[simp] theorem State.row_setSettings (s : State) (x : Settings) (r : RowId) : (s.setSettings x).row r = s.row r := rfl
@[simp] theorem State.row_setCst (s : State) (x : Store) (r : RowId) : (s.setCst x).row r = s.row r := rfl
@[simp] theorem State.row_setMot (s : State) (x : Motion) (r : RowId) : (s.setMot x).row r = s.row r := rfl
@[simp] theorem State.row_setFsc (s : State) (x : Scanner) (r : RowId) : (s.setFsc x).row r = s.row r := rfl
@[simp] theorem State.row_setEvu (s : State) (x : Events) (r : RowId) : (s.setEvu x).row r = s.row r := rfl
@[simp] theorem State.row_setPins (s : State) (x : Pins) (r : RowId) : (s.setPins x).row r = s.row r := rfl
@[simp] theorem State.row_raise (s : State) (k : Kind) (r : RowId) : (s.raise k).row r = s.row r := rfl
@[simp] theorem State.row_raiseHealth (s : State) (q r : RowId) : (s.raiseHealth q).row r = s.row r := rfl
@[simp] theorem State.row_complete (s : State) (k : Completion) (r : RowId) : (s.complete k).row r = s.row r := rfl

theorem State.row_setRow (s : State) (q r : RowId) (w : Option Row) :
    (s.setRow q w).row r = if r = q then w else s.row r := by
  unfold State.row State.setRow
  simp only [State.setRen_ren, Vector.getElem_set]
  by_cases h : r = q
  · subst h; simp
  · have : ¬ q.val = r.val := fun e => h (Fin.ext e.symm)
    simp [h, this]

@[simp] theorem State.row_setRow_self (s : State) (r : RowId) (w : Option Row) : (s.setRow r w).row r = w := by
  simp [State.row_setRow]

theorem State.row_setRow_ne (s : State) {q r : RowId} (w : Option Row) (h : r ≠ q) :
    (s.setRow q w).row r = s.row r := by
  simp [State.row_setRow, h]

theorem State.row_modRow (s : State) (q r : RowId) (f : Row → Row) :
    (s.modRow q f).row r = if r = q then (s.row r).map f else s.row r := by
  unfold State.modRow
  split
  · rename_i h
    split
    · rename_i e; subst e; simp [h]
    · rfl
  · rename_i w h
    rw [State.row_setRow]
    split
    · rename_i e; subst e; simp [h]
    · rfl

@[simp] theorem State.row_modRow_self (s : State) (r : RowId) (f : Row → Row) :
    (s.modRow r f).row r = (s.row r).map f := by
  simp [State.row_modRow]

theorem State.row_modRow_ne (s : State) {q r : RowId} (f : Row → Row) (h : r ≠ q) :
    (s.modRow q f).row r = s.row r := by
  simp [State.row_modRow, h]

/-- Two states are the same when every field and every row is. -/
theorem State.ext_rows {s t : State} (h : t = { s with ren := { s.ren with rows := t.ren.rows } })
    (hr : ∀ r, t.row r = s.row r) : t = s := by
  have e : t.ren.rows = s.ren.rows := by
    apply Vector.ext
    intro i hi
    exact hr ⟨i, hi⟩
  rw [h, e]

theorem State.setRow_eq_self (s : State) (r : RowId) : s.setRow r (s.row r) = s :=
  State.ext_rows rfl fun q => by
    rw [State.row_setRow]
    split
    · rename_i e; rw [e]
    · rfl

theorem State.modRow_eq_setRow (s : State) (r : RowId) (f : Row → Row) :
    s.modRow r f = s.setRow r ((s.row r).map f) := by
  unfold State.modRow
  split
  · rename_i h
    have e := State.setRow_eq_self s r
    rw [h] at e
    rw [h]
    exact e.symm
  · rename_i w h; simp [h]

theorem State.setRow_setRow (s : State) (r : RowId) (v w : Option Row) :
    (s.setRow r v).setRow r w = s.setRow r w :=
  State.ext_rows rfl fun q => by simp only [State.row_setRow]; split <;> rfl

theorem State.modRow_modRow (s : State) (r : RowId) (f g : Row → Row) :
    (s.modRow r f).modRow r g = s.modRow r (fun w => g (f w)) := by
  simp only [State.modRow_eq_setRow, State.row_setRow_self, State.setRow_setRow, Option.map_map]
  rfl

/-! ## Loops over the rows -/

theorem rowIds_mem (r : RowId) : r ∈ rowIds := by
  revert r; decide

theorem rowIds_nodup : rowIds.Nodup := by decide

/-- What holds of a state and is kept by the step of every row holds after the loop. -/
theorem forRows_induct {P : State → Prop} {f : RowId → State → State} (h : ∀ r t, P t → P (f r t)) (s : State)
    (h0 : P s) : P (forRows f s) := by
  unfold forRows
  generalize rowIds = l
  induction l generalizing s with
  | nil => exact h0
  | cons r rs ih => exact ih (f r s) (h r s h0)

/-- A field that no row's step changes is unchanged by the loop. -/
theorem forRows_field {α : Type} {f : RowId → State → State} (g : State → α) (h : ∀ r t, g (f r t) = g t) (s : State) :
    g (forRows f s) = g s :=
  forRows_induct (P := fun t => g t = g s) (fun r t e => (h r t).trans e) s rfl

/-- A reflexive and transitive relation that every row's step respects is respected by the loop. -/
theorem forRows_rel {R : State → State → Prop} (refl : ∀ s, R s s) (trans : ∀ {a b c}, R a b → R b c → R a c)
    {f : RowId → State → State} (h : ∀ r t, R t (f r t)) (s : State) : R s (forRows f s) :=
  forRows_induct (P := R s) (fun r t e => trans e (h r t)) s (refl s)

@[simp] theorem State.row_mapRows (s : State) (g : RowId → Row → Row) (r : RowId) :
    (s.mapRows g).row r = (s.row r).map (g r) := by
  simp [State.mapRows, State.row]

theorem State.mapRows_rest (s : State) (g : RowId → Row → Row) :
    s.mapRows g = { s with ren := { s.ren with rows := (s.mapRows g).ren.rows } } := by
  simp only [State.mapRows, State.setRen]

theorem State.mapRows_mapRows (s : State) (f g : RowId → Row → Row) :
    (s.mapRows f).mapRows g = s.mapRows fun r w => g r (f r w) := by
  refine State.ext_rows ?_ fun r => by simp [Option.map_map, Function.comp_def]
  simp only [State.mapRows, State.setRen]

theorem State.modRow_eq_mapRows (s : State) (r : RowId) (f : Row → Row) :
    s.modRow r f = s.mapRows fun q w => if q = r then f w else w := by
  refine State.ext_rows ?_ fun q => ?_
  · rw [State.modRow_eq_setRow]
    simp only [State.mapRows, State.setRen, State.setRow]
  · rw [State.row_modRow, State.row_mapRows]
    split <;> simp

end Sys2Proof.Machine
end

