-- ==== Sys2Proof/Laws/Follows.lean ====
section
/-! SUPPORT. What refreshes, computations and decisions change: nothing but what follows from the rows' setup. -/

namespace Sys2Proof.Machine

/-! ## Events -/

theorem Events.raised_idem (e : Events) (k : Kind) : (e.raised k).raised k = e.raised k := by
  simp [Events.raised, Events.recomputed, BitVec.or_assoc]

theorem Events.raised_comm (e : Events) (j k : Kind) : (e.raised j).raised k = (e.raised k).raised j := by
  simp [Events.raised, Events.recomputed, BitVec.or_assoc, BitVec.or_comm j.bit k.bit]

/-! ## The relation `follows` -/

theorem Row.stallFollows_refl (s : State) (w : Row) : s.stallFollows w w :=
  ⟨fun h g => absurd g (by omega), fun h g => absurd g (by omega), fun _ => rfl⟩

theorem Row.not_entersLimit (w : Row) : ¬ w.entersLimit w := by
  rintro (⟨a, b⟩ | ⟨a, m, e, b⟩)
  · rw [a] at b; cases b
  · rw [a m e] at b; cases b

/-- The model's test of an indicator newly set is the statements'. -/
theorem Row.limitEntered_iff (v w : Row) : v.limitEntered w = true ↔ v.entersLimit w := by
  unfold Row.limitEntered Row.entersLimit
  cases v.fert <;> cases w.fert <;> simp [and_comm]

namespace State.follows

variable {s t : State}

theorem refl (s : State) : s.follows s := by
  refine ⟨rfl, fun _ => rfl, fun r v w a b => ?_, fun ⟨r, v, w, a, b, h⟩ => ?_, fun _ => rfl⟩
  · rw [a] at b; cases b; exact Row.stallFollows_refl s v
  · rw [a] at b; cases b; exact absurd h (Row.not_entersLimit v)

theorem pending (h : s.follows t) : t.pending = s.pending := by rw [h.1]
theorem now (h : s.follows t) : t.now = s.now := by rw [h.1]
theorem inReset (h : s.follows t) : t.inReset = s.inReset := by rw [h.1]
theorem pins (h : s.follows t) : t.pins = s.pins := by rw [h.1]
theorem lnk (h : s.follows t) : t.lnk = s.lnk := by rw [h.1]
theorem cmu (h : s.follows t) : t.cmu = s.cmu := by rw [h.1]
theorem settings (h : s.follows t) : t.settings = s.settings := by rw [h.1]
theorem cst (h : s.follows t) : t.cst = s.cst := by rw [h.1]
theorem mot (h : s.follows t) : t.mot = s.mot := by rw [h.1]
theorem fsc (h : s.follows t) : t.fsc = s.fsc := by rw [h.1]
theorem upsets (h : s.follows t) : t.upsets = s.upsets := by rw [h.1]
theorem choices (h : s.follows t) : t.choices = s.choices := by rw [h.1]
theorem seedFallback (h : s.follows t) : t.ren.seedFallback = s.ren.seedFallback := by rw [h.1]
theorem fertFallback (h : s.follows t) : t.ren.fertFallback = s.ren.fertFallback := by rw [h.1]
theorem fallback (h : s.follows t) (p : Product) : t.ren.fallback p = s.ren.fallback p := by rw [h.1]; cases p <;> rfl
theorem core (h : s.follows t) (r : RowId) : (t.row r).map Row.core = (s.row r).map Row.core := h.2.1 r

theorem stall (h : s.follows t) {r : RowId} {v w : Row} (hv : s.row r = some v) (hw : t.row r = some w) :
    s.stallFollows v w := h.2.2.1 r v w hv hw

theorem evu (h : s.follows t) : t.evu = s.evu ∨ t.evu = s.evu.raised .rateLimit := by
  by_cases c : ∃ r v w, s.row r = some v ∧ t.row r = some w ∧ v.entersLimit w
  · exact .inr (h.2.2.2.1 c)
  · exact .inl (h.2.2.2.2 c)

theorem changed (h : s.follows t) : t.evu.changed = s.evu.changed := by rcases h.evu with e | e <;> rw [e]; rfl
theorem enabled (h : s.follows t) : t.evu.enabled = s.evu.enabled := by rcases h.evu with e | e <;> rw [e]; rfl

theorem setLnk (h : s.follows t) (x : Link) : (s.setLnk x).follows (t.setLnk x) :=
  ⟨by rw [h.1]; rfl, h.2⟩

theorem setCmu (h : s.follows t) (x : Commander) : (s.setCmu x).follows (t.setCmu x) :=
  ⟨by rw [h.1]; rfl, h.2⟩

theorem setCst (h : s.follows t) (x : Store) : (s.setCst x).follows (t.setCst x) :=
  ⟨by rw [h.1]; rfl, h.2⟩

theorem setMot (h : s.follows t) (x : Motion) : (s.setMot x).follows (t.setMot x) :=
  ⟨by rw [h.1]; rfl, h.2⟩

theorem setFsc (h : s.follows t) (x : Scanner) : (s.setFsc x).follows (t.setFsc x) :=
  ⟨by rw [h.1]; rfl, h.2⟩

theorem setPins (h : s.follows t) (x : Pins) : (s.setPins x).follows (t.setPins x) :=
  ⟨by rw [h.1]; rfl, h.2⟩

theorem raise (h : s.follows t) (k : Kind) : (s.raise k).follows (t.raise k) := by
  refine ⟨by rw [h.1]; rfl, h.2.1, h.2.2.1, fun c => ?_, fun c => ?_⟩
  · rw [State.raise_evu, State.raise_evu, h.2.2.2.1 c, Events.raised_comm]
  · rw [State.raise_evu, State.raise_evu, h.2.2.2.2 c]

end State.follows

/-! ## A pass over the rows -/

theorem driven_core (s : State) (w : Row) : (s.driven w).core = w.core := by
  simp [State.driven, Row.core, Function.comp_def]

theorem computed_core (w : Row) (v : Nat) (y : Int) : (w.computed v y).core = w.core := by
  simp [Row.computed, Row.core, SeedLane.computed, FertLane.computed, Function.comp_def]

theorem redecided_core (s : State) (p : Product) (w : Row) : (s.redecided p w).core = w.core := by
  cases p
  · unfold State.redecided
    dsimp only
    split
    · rfl
    · rename_i h; simp [Row.core, h]
  · simp [State.redecided, Row.core, Function.comp_def]

theorem withView_core (w : Row) (p : Product) (v : LaneView) : (w.withView p v).core = w.core := by
  cases p <;> simp [Row.withView, Row.core, Function.comp_def]

theorem driven_stall (s : State) (w : Row) : s.stallFollows w (s.driven w) := by
  refine ⟨fun a b => ?_, fun a b => ?_, fun h => ?_⟩ <;> simp only [State.driven, stallAfter] at *
  · rw [if_pos ⟨a, b⟩]
  · rw [if_neg (by omega), if_pos ⟨a, b⟩]
  · rw [if_neg (by omega), if_neg (by omega)]

/-- Before the outputs follow, a row made anew keeps its port and its stall timer. -/
theorem viewed_sfm (s : State) (p : Product) (w : Row) :
    (s.viewed p w).sfm = w.sfm ∧ (s.viewed p w).seed.drive = w.seed.drive := by
  cases p <;> exact ⟨rfl, rfl⟩

theorem redecided_sfm (s : State) (p : Product) (w : Row) :
    (s.redecided p w).sfm = w.sfm ∧ (s.redecided p w).seed.drive = w.seed.drive := by
  cases p
  · unfold State.redecided
    dsimp only
    split <;> exact ⟨rfl, rfl⟩
  · exact ⟨rfl, rfl⟩

/-- A row made anew is a row with its outputs following, of the same core, port and stall timer. -/
theorem remade_eq (s : State) (x : Pass) (w : Row) :
    ∃ v : Row, s.remade x w = s.driven v ∧ v.core = w.core ∧ v.sfm = w.sfm ∧ v.seed.drive = w.seed.drive := by
  unfold State.remade
  refine ⟨_, rfl, ?_⟩
  have ite : ∀ (b : Bool) (f : Row → Row) (u : Row),
      (∀ u, (f u).core = u.core ∧ (f u).sfm = u.sfm ∧ (f u).seed.drive = u.seed.drive) →
      (u.core = w.core ∧ u.sfm = w.sfm ∧ u.seed.drive = w.seed.drive) →
      ((if b then f u else u).core = w.core ∧ (if b then f u else u).sfm = w.sfm
        ∧ (if b then f u else u).seed.drive = w.seed.drive) := by
    intro b f u hf hu
    cases b
    · exact hu
    · obtain ⟨a1, a2, a3⟩ := hf u
      exact ⟨a1.trans hu.1, a2.trans hu.2.1, a3.trans hu.2.2⟩
  have view : ∀ (p : Product) (u : Row), (s.viewed p u).core = u.core ∧ (s.viewed p u).sfm = u.sfm
      ∧ (s.viewed p u).seed.drive = u.seed.drive := fun p u => ⟨withView_core u p _, viewed_sfm s p u⟩
  have dec : ∀ (p : Product) (u : Row), (s.redecided p u).core = u.core ∧ (s.redecided p u).sfm = u.sfm
      ∧ (s.redecided p u).seed.drive = u.seed.drive := fun p u => ⟨redecided_core s p u, redecided_sfm s p u⟩
  exact ite _ _ _ (dec .fert) (ite _ _ _ (dec .seed) (ite _ _ _
    (fun u => ⟨computed_core u s.mot.vRef s.mot.yawRef, rfl, rfl⟩)
    (ite _ _ _ (view .fert) (ite _ _ _ (view .seed) ⟨rfl, rfl, rfl⟩))))

theorem remade_core (s : State) (x : Pass) (w : Row) : (s.remade x w).core = w.core := by
  obtain ⟨v, e, c, -⟩ := remade_eq s x w
  rw [e, driven_core, c]

theorem remade_stall (s : State) (x : Pass) (w : Row) : s.stallFollows w (s.remade x w) := by
  obtain ⟨v, e, -, c, d⟩ := remade_eq s x w
  have h := driven_stall s v
  rw [e]
  unfold State.stallFollows at *
  rw [c, d] at h
  exact h

/-- What a pass leaves of each row. -/
theorem State.row_pass (s : State) (x : RowId → Option Pass) (r : RowId) :
    (s.pass x).row r = (s.row r).map fun w => (x r).elim w (s.remade · w) := by
  unfold State.pass
  dsimp only
  split <;> simp

/-- A pass changes the rows and the events alone. -/
theorem State.pass_rest (s : State) (x : RowId → Option Pass) :
    s.pass x = { s with ren := { s.ren with rows := (s.pass x).ren.rows }, evu := (s.pass x).evu } := by
  unfold State.pass
  dsimp only
  split <;> simp only [State.mapRows, State.setRen, State.raise]

/-- Some lane enters the limit in a pass. -/
def State.passEnters (s : State) (x : RowId → Option Pass) : Bool :=
  rowIds.any fun r => (s.row r).any fun w => (x r).any fun p => w.limitEntered (s.remade p w)

theorem State.pass_evu (s : State) (x : RowId → Option Pass) :
    (s.pass x).evu = if s.passEnters x then s.evu.raised .rateLimit else s.evu := by
  unfold State.pass State.passEnters
  dsimp only
  split <;> simp only [State.mapRows, State.setRen, State.raise]

theorem State.passEnters_iff (s : State) (x : RowId → Option Pass) :
    s.passEnters x = true ↔ ∃ r v w, s.row r = some v ∧ (s.pass x).row r = some w ∧ v.entersLimit w := by
  unfold State.passEnters
  simp only [List.any_eq_true, Option.any_eq_true]
  constructor
  · rintro ⟨r, -, v, hv, p, hp, h⟩
    exact ⟨r, v, _, hv, by rw [State.row_pass, hv, hp]; rfl, (Row.limitEntered_iff _ _).mp h⟩
  · rintro ⟨r, v, w, hv, hw, h⟩
    rw [State.row_pass, hv] at hw
    cases hp : x r with
    | none =>
      rw [hp] at hw
      cases hw
      exact absurd h (Row.not_entersLimit v)
    | some p =>
      rw [hp] at hw
      cases hw
      exact ⟨r, rowIds_mem r, v, hv, p, hp, (Row.limitEntered_iff _ _).mpr h⟩

/-- Everything that makes rows anew at an event is a pass, and a pass is all that `follows` allows. -/
theorem State.pass_follows (s : State) (x : RowId → Option Pass) : s.follows (s.pass x) := by
  refine ⟨s.pass_rest x, fun r => ?_, fun r v w hv hw => ?_, fun h => ?_, fun h => ?_⟩
  · rw [State.row_pass, Option.map_map]
    congr 1
    funext w
    simp only [Function.comp_apply]
    cases x r with
    | none => rfl
    | some p => exact remade_core s p w
  · rw [State.row_pass, hv] at hw
    cases hp : x r with
    | none => rw [hp] at hw; cases hw; exact Row.stallFollows_refl s v
    | some p => rw [hp] at hw; cases hw; exact remade_stall s p v
  · rw [s.pass_evu, if_pos ((s.passEnters_iff x).mpr h)]
  · rw [s.pass_evu, if_neg fun e => h ((s.passEnters_iff x).mp e)]

theorem computeAll_follows (s : State) : s.follows (computeAll s) := s.pass_follows _
theorem decideAll_follows (s : State) : s.follows (decideAll s) := s.pass_follows _
theorem passRow_follows (x : Pass) (r : RowId) (s : State) : s.follows (passRow x r s) := s.pass_follows _
theorem reviewLanes_follows (b : Lanes) (s : State) : s.follows (reviewLanes b s) := s.pass_follows _
theorem reviewBound_follows (k : Key) (s : State) : s.follows (reviewBound k s) := s.pass_follows _
theorem refreshMoved_follows (old : Store) (s : State) : s.follows (refreshMoved old s) := s.pass_follows _

/-! ## What the relation keeps -/

section
variable {s t : State} (h : s.follows t)
include h

theorem State.follows.row_some {r : RowId} {w : Row} (hw : s.row r = some w) :
    ∃ w', t.row r = some w' ∧ w'.core = w.core := by
  have e := h.core r
  rw [hw] at e
  cases ht : t.row r with
  | none => rw [ht] at e; cases e
  | some w' => rw [ht] at e; exact ⟨w', rfl, Option.some.inj e⟩

theorem State.follows.row_none {r : RowId} (hw : s.row r = none) : t.row r = none := by
  have e := h.core r
  rw [hw] at e
  cases ht : t.row r with
  | none => rfl
  | some w' => rw [ht] at e; cases e

theorem State.follows.row_back {r : RowId} {w' : Row} (hw : t.row r = some w') :
    ∃ w, s.row r = some w ∧ w'.core = w.core := by
  cases e : s.row r with
  | none => rw [h.row_none e] at hw; cases hw
  | some w =>
    obtain ⟨v, hv, c⟩ := h.row_some e
    rw [hv] at hw
    cases hw
    exact ⟨w, rfl, c⟩

end

section
variable {w w' : Row} (h : w'.core = w.core)
include h

theorem Row.ctx_of_core : w'.ctx = w.ctx := congrArg (·.ctx) h
theorem Row.seedPoint_of_core : w'.seed.point = w.seed.point := congrArg (·.seed.point) h
theorem Row.seedPrev_of_core : w'.seed.prevCell = w.seed.prevCell := congrArg (·.seed.prevCell) h
theorem Row.queue_of_core : w'.sfm.queue = w.sfm.queue := congrArg (·.sfm.queue) h
theorem Row.sfm_of_core : { w'.sfm with stallDue := none } = { w.sfm with stallDue := none } := congrArg (·.sfm) h

theorem Row.look_of_core : w'.fert.bind (·.look) = w.fert.bind (·.look) := by
  have e := congrArg (fun v => v.fert.bind (·.look)) h
  cases h1 : w'.fert <;> cases h2 : w.fert <;> simp_all [Row.core]

theorem Row.drop_of_core : w'.drop = w.drop := by
  have e := congrArg (fun v => v.fert.bind (·.drop)) h
  unfold Row.drop
  cases h1 : w'.fert <;> cases h2 : w.fert <;> simp_all [Row.core]

theorem Row.point_of_core (p : Product) : w'.point p = w.point p := by
  cases p
  · exact Row.seedPoint_of_core h
  · exact Row.look_of_core h

theorem Row.flow_of_core : w'.fert.map (·.flow) = w.fert.map (·.flow) := by
  have e := congrArg (fun v => v.fert.map (·.flow)) h
  cases h1 : w'.fert <;> cases h2 : w.fert <;> simp_all [Row.core]

theorem Row.priming_of_core : w'.priming = w.priming := by
  have e := congrArg (·.priming) h
  unfold Row.priming at *
  cases h1 : w'.seed.state <;> cases h2 : w.seed.state <;> simp_all [Row.core]

theorem Row.refs_of_core (side : CellSide) (k : Key) : w'.refs side k = w.refs side k := by
  unfold Row.refs Row.points
  rw [Row.point_of_core h, Row.point_of_core h, Row.drop_of_core h, Row.queue_of_core h]

end

theorem State.follows.laneCell {s t : State} (h : s.follows t) (p : Product) (r : RowId) :
    t.laneCell p r = s.laneCell p r := by
  unfold State.laneCell
  rw [h.settings]
  cases e : s.row r with
  | none => rw [h.row_none e]
  | some w =>
    obtain ⟨w', e', c⟩ := h.row_some e
    rw [e']
    simp only [Row.point_of_core c]

theorem State.follows.refCount {s t : State} (h : s.follows t) (k : Key) : t.refCount k = s.refCount k := by
  unfold State.refCount
  congr 1
  apply List.map_congr_left
  intro r _
  rw [h.settings]
  cases e : s.row r with
  | none => rw [h.row_none e]
  | some w =>
    obtain ⟨w', e', c⟩ := h.row_some e
    rw [e']
    exact Row.refs_of_core c _ _

theorem State.follows.configuredCount {s t : State} (h : s.follows t) : t.configuredCount = s.configuredCount := by
  unfold State.configuredCount
  apply List.countP_congr
  intro r _
  have e := congrArg Option.isSome (h.core r)
  simp only [Option.isSome_map] at e
  rw [e]

theorem State.follows.enabledCount {s t : State} (h : s.follows t) : t.enabledCount = s.enabledCount := by
  unfold State.enabledCount
  apply List.countP_congr
  intro r _
  cases e : s.row r with
  | none => rw [h.row_none e]
  | some w =>
    obtain ⟨w', e', c⟩ := h.row_some e
    rw [e']
    simp [Row.ctx_of_core c]

end Sys2Proof.Machine
end

