-- ==== Sys2Proof/Laws/Store.lean ====
section
/-! SUPPORT. The Cell Store: what each of its operations leaves in a lookup, and that each keeps its canonical form. -/

namespace Sys2Proof.Machine

/-! ## Key order (R8) -/

theorem Key.before_irrefl (k : Key) : k.before k = false := by
  simp [Key.before]

theorem Key.before_trans {a b c : Key} (h : a.before b = true) (g : b.before c = true) : a.before c = true := by
  simp only [Key.before, Bool.or_eq_true, Bool.and_eq_true, decide_eq_true_eq] at *
  omega

theorem Key.before_ne {a b : Key} (h : a.before b = true) : a ≠ b := by
  rintro rfl
  simp [Key.before_irrefl] at h

theorem Key.before_total {a b : Key} (h : a ≠ b) (g : a.before b = false) : b.before a = true := by
  have e : a.cx = b.cx → a.cy ≠ b.cy := fun x y => h (by cases a; cases b; simp_all)
  simp only [Key.before, Bool.or_eq_true, Bool.and_eq_true, decide_eq_true_eq, Bool.or_eq_false_iff,
    Bool.and_eq_false_imp, decide_eq_false_iff_not] at *
  by_cases x : a.cx = b.cx
  · have := e x; have := g.2; omega
  · by_cases y : a.cy = b.cy
    · have := g.2 y; omega
    · omega

/-! ## Lookups (R9) -/

variable (c : Store)

theorem Store.find_key {c : Store} {k : Key} {x : Record} (h : c.find k = some x) : x.key = k := by
  have := List.find?_some h
  simpa using this

theorem Store.find_mem {c : Store} {k : Key} {x : Record} (h : c.find k = some x) : x ∈ c.records :=
  List.mem_of_find?_eq_some h

theorem Store.holds_iff {c : Store} {k : Key} : c.holds k = true ↔ ∃ x ∈ c.records, x.key = k := by
  simp [Store.holds, Store.find, List.find?_isSome]

theorem Store.holds_false_iff {c : Store} {k : Key} : c.holds k = false ↔ ∀ x ∈ c.records, x.key ≠ k := by
  simp [Store.holds, Store.find]

theorem Store.find_none {c : Store} {k : Key} (h : c.holds k = false) : c.find k = none := by
  simpa [Store.holds] using h

theorem Store.payload_some {c : Store} {k : Key} {p : Payload} (h : c.payload k = some p) :
    ∃ x, c.find k = some x ∧ x.payload = some p := by
  unfold Store.payload at h
  cases e : c.find k with
  | none => rw [e] at h; cases h
  | some x => rw [e] at h; exact ⟨x, rfl, h⟩

theorem Store.holds_of_payload {c : Store} {k : Key} {p : Payload} (h : c.payload k = some p) : c.holds k = true := by
  obtain ⟨x, e, _⟩ := Store.payload_some h
  simp [Store.holds, e]

theorem Store.mem_of_payload {c : Store} {k : Key} {p : Payload} (h : c.payload k = some p) :
    ⟨k, some p⟩ ∈ c.records := by
  obtain ⟨x, e, hp⟩ := Store.payload_some h
  have m := Store.find_mem e
  have hk := Store.find_key e
  rcases x with ⟨xk, xp⟩
  subst hk
  simp only at hp
  rwa [hp] at m

/-- In an ordered store the record of a key is the only one. -/
theorem Store.find_of_mem {c : Store} (h : c.ordered) {x : Record} (m : x ∈ c.records) : c.find x.key = some x := by
  unfold Store.ordered at h
  unfold Store.find
  generalize c.records = l at h m
  induction l with
  | nil => cases m
  | cons y ys ih =>
    have ho := List.pairwise_cons.mp h
    rw [List.find?_cons]
    rcases List.mem_cons.mp m with rfl | m'
    · simp
    · have : y.key ≠ x.key := Key.before_ne (ho.1 x m')
      simp only [this, decide_false]
      exact ih ho.2 m'

/-! ## Writing a payload (R157) -/

@[simp] theorem Store.put_misses (k : Key) (p : Option Payload) : (c.put k p).misses = c.misses := rfl
@[simp] theorem Store.put_incomplete (k : Key) (p : Option Payload) : (c.put k p).incomplete = c.incomplete := rfl
@[simp] theorem Store.put_correctedSeen (k : Key) (p : Option Payload) :
    (c.put k p).correctedSeen = c.correctedSeen := rfl
@[simp] theorem Store.put_firstKey (k : Key) (p : Option Payload) : (c.put k p).firstKey = c.firstKey := rfl
@[simp] theorem Store.put_poisonedCount (k : Key) (p : Option Payload) :
    (c.put k p).poisonedCount = c.poisonedCount := rfl
@[simp] theorem Store.put_length (k : Key) (p : Option Payload) :
    (c.put k p).records.length = c.records.length := by simp [Store.put]

theorem Store.find_put (k j : Key) (p : Option Payload) :
    (c.put k p).find j = (c.find j).map fun x => if j = k then { x with payload := p } else x := by
  unfold Store.find Store.put
  simp only
  induction c.records with
  | nil => rfl
  | cons y ys ih =>
    rw [List.map_cons, List.find?_cons, List.find?_cons]
    have e : (if y.key = k then { y with payload := p } else y).key = y.key := by split <;> rfl
    rw [e]
    by_cases h : y.key = j
    · subst h; simp
    · simp only [h, decide_false]; exact ih

theorem Store.payload_put (k j : Key) (p : Option Payload) :
    (c.put k p).payload j = if j = k then (if c.holds k then p else none) else c.payload j := by
  unfold Store.payload Store.holds
  rw [Store.find_put]
  by_cases h : j = k
  · subst h
    cases c.find j <;> simp
  · cases c.find j <;> simp [h]

@[simp] theorem Store.holds_put (k j : Key) (p : Option Payload) : (c.put k p).holds j = c.holds j := by
  unfold Store.holds
  rw [Store.find_put]
  cases c.find j <;> simp

theorem Store.payload_put_ne {k j : Key} (p : Option Payload) (h : j ≠ k) : (c.put k p).payload j = c.payload j := by
  rw [Store.payload_put, if_neg h]

theorem Store.payload_put_self {k : Key} (p : Option Payload) (h : c.holds k = true) : (c.put k p).payload k = p := by
  rw [Store.payload_put, if_pos rfl, if_pos h]

theorem Store.put_keys (k : Key) (p : Option Payload) : (c.put k p).records.map (·.key) = c.records.map (·.key) := by
  unfold Store.put
  simp only [List.map_map]
  apply List.map_congr_left
  intro x _
  simp only [Function.comp_apply]
  split <;> rfl

/-- The order is a matter of the keys. -/
theorem Store.ordered_iff : c.ordered ↔ (c.records.map (·.key)).Pairwise fun a b => a.before b = true := by
  rw [List.pairwise_map]

theorem Store.put_ordered {c : Store} (h : c.ordered) (k : Key) (p : Option Payload) : (c.put k p).ordered := by
  rw [Store.ordered_iff, Store.put_keys, ← Store.ordered_iff]
  exact h

theorem Store.mem_put {k : Key} {p : Option Payload} {x : Record} (m : x ∈ (c.put k p).records) :
    x ∈ c.records ∨ x = ⟨k, p⟩ := by
  simp only [Store.put, List.mem_map] at m
  obtain ⟨y, hy, e⟩ := m
  split at e
  · rename_i hk
    subst hk
    exact .inr e.symm
  · exact .inl (e ▸ hy)

/-- A payload written with the value the record held changes nothing. -/
theorem Store.put_self {c : Store} {k : Key} {p : Payload} (o : c.ordered) (h : c.payload k = some p) :
    c.put k (some p) = c := by
  unfold Store.put
  have : (c.records.map fun x => if x.key = k then { x with payload := some p } else x) = c.records := by
    conv_rhs => rw [← List.map_id c.records]
    apply List.map_congr_left
    intro x hx
    simp only [id]
    split
    · rename_i e
      obtain ⟨y, hy, hp⟩ := Store.payload_some h
      rw [← e, Store.find_of_mem o hx] at hy
      cases hy
      rw [← hp]
    · rfl
  rw [this]

/-! ## A record joins and leaves -/

theorem mem_insertRecord (x y : Record) (l : List Record) : y ∈ insertRecord x l ↔ y = x ∨ y ∈ l := by
  induction l with
  | nil => simp [insertRecord]
  | cons z zs ih =>
    unfold insertRecord
    split
    · simp
    · simp [ih]; tauto

theorem insertRecord_length (x : Record) (l : List Record) : (insertRecord x l).length = l.length + 1 := by
  induction l with
  | nil => rfl
  | cons z zs ih => unfold insertRecord; split <;> simp [ih]

theorem insertRecord_ordered (x : Record) (l : List Record) (h : l.Pairwise fun a b => a.key.before b.key = true)
    (n : ∀ y ∈ l, y.key ≠ x.key) : (insertRecord x l).Pairwise fun a b => a.key.before b.key = true := by
  induction l with
  | nil => simp [insertRecord]
  | cons z zs ih =>
    have ho := List.pairwise_cons.mp h
    unfold insertRecord
    split
    · rename_i hb
      refine List.pairwise_cons.mpr ⟨fun y hy => ?_, h⟩
      rcases List.mem_cons.mp hy with rfl | hy
      · exact hb
      · exact Key.before_trans hb (ho.1 y hy)
    · rename_i hb
      have hz : z.key.before x.key = true :=
        Key.before_total (n z (by simp)).symm (by simpa using hb)
      refine List.pairwise_cons.mpr ⟨fun y hy => ?_, ih ho.2 fun y hy => n y (by simp [hy])⟩
      rcases (mem_insertRecord x y zs).mp hy with rfl | hy
      · exact hz
      · exact ho.1 y hy

theorem insertRecord_find (x : Record) (l : List Record) (k : Key) (n : ∀ y ∈ l, y.key ≠ x.key) :
    (insertRecord x l).find? (fun y => decide (y.key = k))
      = if x.key = k then some x else l.find? fun y => decide (y.key = k) := by
  induction l with
  | nil => simp only [insertRecord, List.find?_cons, List.find?_nil]; by_cases h : x.key = k <;> simp [h]
  | cons z zs ih =>
    have ih' := ih fun y hy => n y (by simp [hy])
    have hz : z.key ≠ x.key := n z (by simp)
    unfold insertRecord
    split
    · rw [List.find?_cons]; by_cases h : x.key = k <;> simp [h]
    · rw [List.find?_cons, ih', List.find?_cons]
      by_cases h : z.key = k
      · have : x.key ≠ k := fun e => hz (h.trans e.symm)
        simp [h, this]
      · simp [h]

theorem Store.find_insert {c : Store} {x : Record} (h : c.holds x.key = false) (k : Key) :
    (c.insert x).find k = if x.key = k then some x else c.find k :=
  insertRecord_find x c.records k (Store.holds_false_iff.mp h)

theorem Store.insert_ordered {c : Store} (o : c.ordered) {x : Record} (h : c.holds x.key = false) :
    (c.insert x).ordered :=
  insertRecord_ordered x c.records o (Store.holds_false_iff.mp h)

@[simp] theorem Store.insert_misses (x : Record) : (c.insert x).misses = c.misses := rfl
@[simp] theorem Store.insert_incomplete (x : Record) : (c.insert x).incomplete = c.incomplete := rfl
@[simp] theorem Store.insert_poisonedCount (x : Record) : (c.insert x).poisonedCount = c.poisonedCount := rfl
@[simp] theorem Store.insert_length (x : Record) : (c.insert x).records.length = c.records.length + 1 :=
  insertRecord_length x c.records

@[simp] theorem Store.remove_misses (k : Key) : (c.remove k).misses = c.misses := rfl
@[simp] theorem Store.remove_incomplete (k : Key) : (c.remove k).incomplete = c.incomplete := rfl
@[simp] theorem Store.remove_correctedSeen (k : Key) : (c.remove k).correctedSeen = c.correctedSeen := rfl
@[simp] theorem Store.remove_firstKey (k : Key) : (c.remove k).firstKey = c.firstKey := rfl

theorem Store.find_remove (k j : Key) : (c.remove k).find j = if j = k then none else c.find j := by
  unfold Store.find Store.remove
  simp only [List.find?_filter]
  by_cases h : j = k
  · subst h; simp
  · simp only [h, if_false]
    congr 1
    funext x
    by_cases e : x.key = j
    · simp [e, h]
    · simp [e]

theorem Store.remove_ordered {c : Store} (o : c.ordered) (k : Key) : (c.remove k).ordered :=
  List.Pairwise.filter _ o

/-! ## Coverage and tallies (R5, R6) -/

theorem Coverage.wf_iff (v : Coverage) : v.wf = true ↔ v.fresh &&& v.settled = 0 := by
  simp [Coverage.wf]

theorem Coverage.mark_wf {v : Coverage} (h : v.wf = true) (b : Sub) : (v.mark b).wf = true := by
  rw [Coverage.wf_iff] at *
  apply BitVec.eq_of_getLsbD_eq
  intro i hi
  have := congrArg (·.getLsbD i) h
  simp only [Coverage.mark, BitVec.getLsbD_and, BitVec.getLsbD_or, BitVec.getLsbD_not] at *
  by_cases e : v.settled.getLsbD i <;> simp_all

theorem Coverage.settle_wf (v : Coverage) : v.settle.wf = true := by
  simp [Coverage.wf, Coverage.settle]

theorem Coverage.add_wf {v : Coverage} (h : v.wf = true) (m : SubSet) : (v.add m).wf = true := by
  rw [Coverage.wf_iff] at *
  apply BitVec.eq_of_getLsbD_eq
  intro i hi
  have := congrArg (·.getLsbD i) h
  simp only [Coverage.add, BitVec.getLsbD_and, BitVec.getLsbD_or, BitVec.getLsbD_not] at *
  cases hm : m.getLsbD i <;> simp_all

theorem Coverage.remove_wf {v : Coverage} (h : v.wf = true) (m : SubSet) : (v.remove m).wf = true := by
  rw [Coverage.wf_iff] at *
  apply BitVec.eq_of_getLsbD_eq
  intro i hi
  have := congrArg (·.getLsbD i) h
  simp only [Coverage.remove, BitVec.getLsbD_and, BitVec.getLsbD_not] at *
  cases hm : m.getLsbD i <;> simp_all

/-- A payload's form does not depend on the condition of its stored bits. -/
@[simp] theorem Payload.wf_bits (p : Payload) (b : StoredBits) : ({ p with bits := b } : Payload).wf = p.wf := rfl

theorem Payload.wf_iff (p : Payload) :
    p.wf = true ↔ p.seedTarget ≤ 6000 ∧ p.fertTarget ≤ 4000 ∧ p.seedCov.wf = true ∧ p.fertCov.wf = true
      ∧ p.placed ≤ 65535 ∧ p.skips ≤ 65535 ∧ p.extras ≤ 65535 ∧ p.applied ≤ 4294967295 := by
  simp [Payload.wf, and_assoc]

theorem Payload.seedCredited_wf {p : Payload} (h : p.wf = true) (x : SeedCredit) : (p.seedCredited x).wf = true := by
  rw [Payload.wf_iff] at *
  cases x <;> simp only [Payload.seedCredited, satAdd] <;> refine ⟨h.1, h.2.1, ?_, h.2.2.2.1, ?_⟩ <;>
    first
    | exact Coverage.mark_wf h.2.2.1 _
    | exact h.2.2.1
    | omega

theorem Payload.fertCredited_wf {p : Payload} (h : p.wf = true) (v : Nat) (b : Sub) :
    (p.fertCredited v b).wf = true := by
  rw [Payload.wf_iff] at *
  refine ⟨h.1, h.2.1, h.2.2.1, ?_, h.2.2.2.2.1, h.2.2.2.2.2.1, h.2.2.2.2.2.2.1, ?_⟩
  · simp only [Payload.fertCredited]
    split
    · exact h.2.2.2.1
    · exact Coverage.mark_wf h.2.2.2.1 b
  · simp only [Payload.fertCredited, satAdd]
    omega

theorem Payload.settled_wf {p : Payload} (h : p.wf = true) : p.settled.wf = true := by
  rw [Payload.wf_iff] at *
  exact ⟨h.1, h.2.1, Coverage.settle_wf _, Coverage.settle_wf _, h.2.2.2.2⟩

/-! ## The canonical form is kept (R8, R17, R162) -/

/-- The number of poisoned records. -/
def poisonedIn (l : List Record) : Nat :=
  l.countP fun x => x.payload.isNone

/-- In an ordered list of records a payload written changes the number of poisoned records by what it replaces. -/
theorem poisonedIn_put (l : List Record) (o : l.Pairwise fun a b => a.key.before b.key = true) (k : Key)
    (p : Option Payload) (x : Record) (m : x ∈ l) (e : x.key = k) :
    poisonedIn (l.map fun y => if y.key = k then { y with payload := p } else y)
      + (if x.payload.isNone then 1 else 0) = poisonedIn l + if p.isNone then 1 else 0 := by
  induction l with
  | nil => cases m
  | cons y ys ih =>
    have ho := List.pairwise_cons.mp o
    unfold poisonedIn at *
    rw [List.map_cons, List.countP_cons, List.countP_cons]
    rcases List.mem_cons.mp m with rfl | m'
    · have rest : (ys.map fun z => if z.key = k then { z with payload := p } else z) = ys := by
        conv_rhs => rw [← List.map_id ys]
        apply List.map_congr_left
        intro z hz
        have : z.key ≠ k := fun g => Key.before_ne (ho.1 z hz) (e.trans g.symm)
        simp [this]
      rw [rest]
      simp only [e, if_true]
      omega
    · have : y.key ≠ k := fun g => Key.before_ne (ho.1 x m') (g.trans e.symm)
      have := ih ho.2 m'
      simp only [*, if_false]
      omega

theorem poisonedIn_insert (x : Record) (l : List Record) :
    poisonedIn (insertRecord x l) = poisonedIn l + if x.payload.isNone then 1 else 0 := by
  induction l with
  | nil => simp [insertRecord, poisonedIn]
  | cons y ys ih =>
    unfold poisonedIn at *
    unfold insertRecord
    split
    · rw [List.countP_cons]
    · rw [List.countP_cons, List.countP_cons, ih]; omega

theorem poisonedIn_remove (k : Key) (l : List Record) :
    poisonedIn (l.filter fun x => decide (x.key ≠ k))
      = poisonedIn l - l.countP fun x => decide (x.key = k) && x.payload.isNone := by
  have h : poisonedIn l = poisonedIn (l.filter fun x => decide (x.key ≠ k))
      + l.countP fun x => decide (x.key = k) && x.payload.isNone := by
    unfold poisonedIn
    rw [List.countP_filter]
    induction l with
    | nil => rfl
    | cons y ys ih =>
      simp only [List.countP_cons]
      rw [ih]
      by_cases e : y.key = k <;> cases y.payload.isNone <;> simp [e] <;> omega
  omega

/-- Writing the payload of a held record, with the live count following, keeps the form. -/
theorem Store.put_wf {c : Store} (h : c.wf) {k : Key} {x : Record} (hx : c.find k = some x) (p : Option Payload)
    (hp : p.all Payload.wf = true) (n : Nat)
    (hn : n + (if x.payload.isNone then 1 else 0) = c.poisonedCount + if p.isNone then 1 else 0) :
    Store.wf { c.put k p with poisonedCount := n } := by
  obtain ⟨o, len, pay, cnt, m16, nd, nh⟩ := h
  refine ⟨Store.put_ordered o k p, by simpa using len, fun y hy => ?_, ?_, m16, nd, fun j hj => ?_⟩
  · rcases Store.mem_put c hy with hy | rfl
    · exact pay y hy
    · exact hp
  · have e := poisonedIn_put c.records o k p x (Store.find_mem hx) (Store.find_key hx)
    unfold poisonedIn at e
    simp only [Store.put]
    omega
  · exact (Store.holds_put c k j p).trans (nh j hj)

/-- Writing a payload over a payload keeps the form. -/
theorem Store.put_some_wf {c : Store} (h : c.wf) {k : Key} {q : Payload} (hq : c.payload k = some q) {p : Payload}
    (hp : p.wf = true) : (c.put k (some p)).wf := by
  obtain ⟨x, hx, hxp⟩ := Store.payload_some hq
  exact Store.put_wf h hx (some p) (by simpa using hp) c.poisonedCount (by simp [hxp])

/-- The fields that the form does not speak of may take any value. -/
theorem Store.wf_status {c : Store} (h : c.wf) (b i : Bool) (k : Option Key) :
    Store.wf { c with correctedSeen := b, incomplete := i, firstKey := k } := h

/-- A new record that joins the store and leaves the miss set keeps the form. -/
theorem Store.insert_wf {c : Store} (h : c.wf) {k : Key} {p : Payload} (hk : c.holds k = false)
    (room : c.records.length < 1024) (hp : p.wf = true) :
    Store.wf { c.insert ⟨k, some p⟩ with misses := c.misses.filter fun m => decide (m ≠ k) } := by
  obtain ⟨o, len, pay, cnt, m16, nd, nh⟩ := h
  refine ⟨Store.insert_ordered o hk, ?_, fun y hy => ?_, ?_, ?_, nd.filter _, fun j hj => ?_⟩
  · simpa using room
  · rcases (mem_insertRecord ⟨k, some p⟩ y c.records).mp hy with rfl | hy
    · simpa using hp
    · exact pay y hy
  · have e := poisonedIn_insert ⟨k, some p⟩ c.records
    unfold poisonedIn at e
    simp only [Store.insert]
    rw [e, cnt]
    simp
  · exact (List.length_filter_le _ _).trans m16
  · have hj' := List.mem_filter.mp hj
    have hne : j ≠ k := by simpa using hj'.2
    have hh := nh j hj'.1
    rw [Store.holds_false_iff] at *
    intro y hy
    rcases (mem_insertRecord ⟨k, some p⟩ y c.records).mp hy with rfl | hy
    · exact hne.symm
    · exact hh y hy

/-- A record that leaves keeps the form. -/
theorem Store.remove_wf {c : Store} (h : c.wf) (k : Key) : (c.remove k).wf := by
  obtain ⟨o, len, pay, cnt, m16, nd, nh⟩ := h
  refine ⟨Store.remove_ordered o k, (List.length_filter_le _ _).trans len,
    fun y hy => pay y (List.mem_of_mem_filter hy), ?_, m16, nd, fun j hj => ?_⟩
  · have e := poisonedIn_remove k c.records
    unfold poisonedIn at e
    simp only [Store.remove]
    rw [e, cnt]
  · have hh := nh j hj
    rw [Store.holds_false_iff] at *
    exact fun y hy => hh y (List.mem_of_mem_filter hy)

/-- Emptying the miss set keeps the form. -/
theorem Store.noMisses_wf {c : Store} (h : c.wf) (i : Bool) : Store.wf { c with misses := [], incomplete := i } := by
  obtain ⟨o, len, pay, cnt, -, -, -⟩ := h
  exact ⟨o, len, pay, cnt, by simp, by simp, by simp⟩

/-- An upset of the storage keeps the form. -/
theorem Store.upset_wf {c : Store} (h : c.wf) (u : Upset) : (c.upset u).wf := by
  unfold Store.upset
  split
  · exact h
  · rename_i y hy
    obtain ⟨x, hx, hxp⟩ := Store.payload_some hy
    have : y.wf = true := by simpa [hxp] using h.2.2.1 x (Store.find_mem hx)
    exact Store.put_some_wf h hy (by simpa using this)

/-- The store after power-on is in canonical form (R26). -/
theorem Store.empty_wf : Store.empty.wf := by decide

end Sys2Proof.Machine
end

