-- ==== Sys2Proof/Laws/Reads.lean ====
section
/-! SUPPORT. Payload reads (R157 to R159): what a read can do, once. -/

namespace Sys2Proof.Machine

/-! ## One read at the store -/

/-- Everything a payload read does to the store: nothing, a correction, or a poisoning. -/
theorem readRecord_cases (k : Key) (s : State) :
    (s.cst.payload k = none ∧ readRecord k s = s)
      ∨ (∃ p, s.cst.payload k = some p ∧ p.bits = .clean ∧ readRecord k s = s)
      ∨ (∃ p, s.cst.payload k = some p ∧ p.bits = .oneFlipped ∧ readRecord k s =
          (s.setCst { s.cst.put k (some { p with bits := .clean }) with correctedSeen := true }).raise
            .storageCorrected)
      ∨ ∃ p, s.cst.payload k = some p ∧ p.bits = .twoFlipped ∧ readRecord k s =
          (s.setCst
            { s.cst.put k none with
              poisonedCount := s.cst.poisonedCount + 1
              firstKey := s.cst.firstKey <|> some k }).raise .storageUncorrectable := by
  unfold readRecord
  cases h : s.cst.payload k with
  | none => exact .inl ⟨rfl, rfl⟩
  | some p =>
    dsimp only
    cases hb : p.bits with
    | clean => exact .inr (.inl ⟨p, rfl, hb, rfl⟩)
    | oneFlipped => exact .inr (.inr (.inl ⟨p, rfl, hb, rfl⟩))
    | twoFlipped => exact .inr (.inr (.inr ⟨p, rfl, hb, rfl⟩))

theorem readRecord_missing {k : Key} {s : State} (h : s.cst.payload k = none) : readRecord k s = s := by
  unfold readRecord; rw [h]

theorem readRecord_clean {k : Key} {s : State} {p : Payload} (h : s.cst.payload k = some p) (hb : p.bits = .clean) :
    readRecord k s = s := by
  unfold readRecord; rw [h]; dsimp only; rw [hb]

/-- A read changes the store and the events alone. -/
theorem readRecord_rest (k : Key) (s : State) :
    readRecord k s = { s with cst := (readRecord k s).cst, evu := (readRecord k s).evu } := by
  rcases readRecord_cases k s with ⟨-, e⟩ | ⟨p, -, -, e⟩ | ⟨p, -, -, e⟩ | ⟨p, -, -, e⟩ <;> rw [e] <;> rfl

theorem readRecord_row (k : Key) (s : State) (r : RowId) : (readRecord k s).row r = s.row r := by
  rw [readRecord_rest]; rfl

theorem readRecord_laneCell (k : Key) (s : State) (p : Product) (r : RowId) :
    (readRecord k s).laneCell p r = s.laneCell p r := by
  rw [readRecord_rest]; rfl

theorem readRecord_keys (k : Key) (s : State) :
    (readRecord k s).cst.records.map (·.key) = s.cst.records.map (·.key) := by
  rcases readRecord_cases k s with ⟨-, e⟩ | ⟨p, -, -, e⟩ | ⟨p, -, -, e⟩ | ⟨p, -, -, e⟩ <;> rw [e]
  · exact Store.put_keys _ _ _
  · exact Store.put_keys _ _ _

theorem readRecord_misses (k : Key) (s : State) :
    (readRecord k s).cst.misses = s.cst.misses ∧ (readRecord k s).cst.incomplete = s.cst.incomplete := by
  rcases readRecord_cases k s with ⟨-, e⟩ | ⟨p, -, -, e⟩ | ⟨p, -, -, e⟩ | ⟨p, -, -, e⟩ <;> rw [e] <;> exact ⟨rfl, rfl⟩

/-- A read of one key leaves every other record as it is. -/
theorem readRecord_payload_ne {k j : Key} (s : State) (h : j ≠ k) :
    (readRecord k s).cst.payload j = s.cst.payload j := by
  rcases readRecord_cases k s with ⟨-, e⟩ | ⟨p, -, -, e⟩ | ⟨p, -, -, e⟩ | ⟨p, -, -, e⟩ <;> rw [e]
  · exact Store.payload_put_ne _ _ h
  · exact Store.payload_put_ne _ _ h

/-- After a read, the payload of the key read is absent or clean. -/
theorem readRecord_payload_self {k : Key} {s : State} {q : Payload} (h : (readRecord k s).cst.payload k = some q) :
    q.bits = .clean ∧ ∃ p, s.cst.payload k = some p ∧ p.bits ≠ .twoFlipped ∧ q = { p with bits := .clean } := by
  rcases readRecord_cases k s with ⟨n, e⟩ | ⟨p, hp, hb, e⟩ | ⟨p, hp, hb, e⟩ | ⟨p, hp, hb, e⟩
  · rw [e, n] at h; cases h
  · rw [e, hp] at h
    cases h
    exact ⟨hb, _, hp, by simp [hb], by rw [← hb]⟩
  · rw [e] at h
    have h : (s.cst.put k (some { p with bits := .clean })).payload k = some q := h
    rw [Store.payload_put_self _ _ (Store.holds_of_payload hp)] at h
    cases h
    exact ⟨rfl, p, hp, by simp [hb], rfl⟩
  · rw [e] at h
    have h : (s.cst.put k none).payload k = some q := h
    rw [Store.payload_put_self _ _ (Store.holds_of_payload hp)] at h
    cases h

/-- A read keeps the canonical form of the store. -/
theorem readRecord_wf {k : Key} {s : State} (h : s.cst.wf) : (readRecord k s).cst.wf := by
  rcases readRecord_cases k s with ⟨-, e⟩ | ⟨p, -, -, e⟩ | ⟨p, hp, -, e⟩ | ⟨p, hp, -, e⟩
  · rwa [e]
  · rwa [e]
  · rw [e]
    obtain ⟨x, hx, hxp⟩ := Store.payload_some hp
    have w : p.wf = true := by simpa [hxp] using h.2.2.1 x (Store.find_mem hx)
    exact Store.put_some_wf h hp (by simpa using w)
  · rw [e]
    obtain ⟨x, hx, hxp⟩ := Store.payload_some hp
    exact Store.put_wf h hx none rfl _ (by simp [hxp])

/-! ## A read with the refreshes of a poisoning -/

/-- A read that is an event's one read: the read at the store, and then what follows from it. -/
theorem readState_follows (k : Key) (s : State) : (readRecord k s).follows (readState k s) := by
  unfold readRecord readState
  cases h : s.cst.payload k with
  | none => exact .refl s
  | some p =>
    dsimp only
    cases hb : p.bits with
    | clean => exact .refl s
    | oneFlipped => exact .refl _
    | twoFlipped => exact reviewBound_follows k _

theorem readState_cst (k : Key) (s : State) : (readState k s).cst = (readRecord k s).cst :=
  (readState_follows k s).cst

/-- A read that poisons nothing is the read at the store alone. -/
theorem readState_eq {k : Key} {s : State} (h : ∀ p, s.cst.payload k = some p → p.bits ≠ .twoFlipped) :
    readState k s = readRecord k s := by
  unfold readRecord readState
  cases hp : s.cst.payload k with
  | none => rfl
  | some p =>
    dsimp only
    cases hb : p.bits with
    | clean => rfl
    | oneFlipped => rfl
    | twoFlipped => exact absurd hb (h p hp)

theorem readState_missing {k : Key} {s : State} (h : s.cst.payload k = none) : readState k s = s := by
  unfold readState; rw [h]

theorem readState_clean {k : Key} {s : State} {p : Payload} (h : s.cst.payload k = some p) (hb : p.bits = .clean) :
    readState k s = s := by
  unfold readState; rw [h]; dsimp only; rw [hb]

theorem readState_payload_ne {k j : Key} (s : State) (h : j ≠ k) :
    (readState k s).cst.payload j = s.cst.payload j := by
  rw [readState_cst]; exact readRecord_payload_ne s h

theorem readState_payload_self {k : Key} {s : State} {q : Payload} (h : (readState k s).cst.payload k = some q) :
    q.bits = .clean ∧ ∃ p, s.cst.payload k = some p ∧ p.bits ≠ .twoFlipped ∧ q = { p with bits := .clean } := by
  rw [readState_cst] at h; exact readRecord_payload_self h

/-- A second read of the same record changes nothing. -/
theorem readState_again (k : Key) (s : State) : readState k (readState k s) = readState k s := by
  cases h : (readState k s).cst.payload k with
  | none => exact readState_missing h
  | some q => exact readState_clean h (readState_payload_self h).1

theorem readState_wf {k : Key} {s : State} (h : s.cst.wf) : (readState k s).cst.wf := by
  rw [readState_cst]; exact readRecord_wf h

/-- What a read leaves of the state besides the store: what follows from the rows' setup, and events. -/
theorem readState_rest (k : Key) (s : State) :
    readState k s = { s with
        cst := (readState k s).cst
        ren := { s.ren with rows := (readState k s).ren.rows }
        evu := (readState k s).evu }
      ∧ ∀ r, ((readState k s).row r).map Row.core = (s.row r).map Row.core := by
  have h := readState_follows k s
  refine ⟨?_, fun r => by rw [h.core, readRecord_row]⟩
  have e := h.1
  rw [h.cst]
  rw [readRecord_rest] at e
  exact e

/-! ## The reads of a refresh -/

theorem readForLane_cases (p : Product) (r : RowId) (s : State) :
    (s.laneCell p r = none ∧ readForLane p r s = s)
      ∨ ∃ k, s.laneCell p r = some k ∧ readForLane p r s = readRecord k s := by
  unfold readForLane
  cases h : s.laneCell p r with
  | none => exact .inl ⟨rfl, rfl⟩
  | some k => exact .inr ⟨k, rfl, rfl⟩

/-- What holds of a state and is kept by every payload read is kept by the reads of a row's refresh. -/
theorem readForRow_induct {P : State → Prop} (h : ∀ k t, P t → P (readRecord k t)) (r : RowId) {s : State} (h0 : P s) :
    P (readForRow r s) := by
  have lane : ∀ p (t : State), P t → P (readForLane p r t) := fun p t ht => by
    rcases readForLane_cases p r t with ⟨-, e⟩ | ⟨k, -, e⟩
    · rwa [e]
    · rw [e]; exact h k t ht
  exact lane .fert _ (lane .seed s h0)

theorem readForRow_wf (r : RowId) {s : State} (h : s.cst.wf) : (readForRow r s).cst.wf :=
  readForRow_induct (P := fun t => t.cst.wf) (fun _ _ => readRecord_wf) r h

theorem readForRow_rest (r : RowId) (s : State) :
    readForRow r s = { s with cst := (readForRow r s).cst, evu := (readForRow r s).evu } :=
  readForRow_induct (P := fun t => t = { s with cst := t.cst, evu := t.evu }) (fun k t ht => by
    have e := readRecord_rest k t
    generalize readRecord k t = u at e ⊢
    rw [e]
    dsimp only
    rw [ht]) r rfl

theorem readForRows_wf {s : State} (h : s.cst.wf) : (forRows readForRow s).cst.wf :=
  forRows_induct (P := fun t => t.cst.wf) (fun r _ => readForRow_wf r) s h

theorem readForRows_rest (s : State) :
    forRows readForRow s = { s with cst := (forRows readForRow s).cst, evu := (forRows readForRow s).evu } :=
  forRows_induct (P := fun t => t = { s with cst := t.cst, evu := t.evu }) (fun r t ht => by
    have e := readForRow_rest r t
    generalize readForRow r t = u at e ⊢
    rw [e]
    dsimp only
    rw [ht]) s rfl

end Sys2Proof.Machine
end

