-- ==== Sys2Proof/Laws/Writes.lean ====
section
/-! SUPPORT. Payload writes: credits, settles, and the refreshes that follow a write (R20, R21, R23, R60). -/

namespace Sys2Proof.Machine

/-! ## A change delivered to a record (R20, R21) -/

/-- Everything a delivery can do: the read alone at a record that is not there to take it, else the read, the write and
the refreshes that follow. -/
theorem deliver_cases (k : Key) (f : Payload → Payload) (s : State) :
    ((readState k s).cst.payload k = none ∧ deliver k f s = readState k s)
      ∨ ∃ y, (readState k s).cst.payload k = some y
          ∧ (writePayload k (f y) (readState k s)).follows (deliver k f s) := by
  unfold deliver readPayload
  cases h : (readState k s).cst.payload k with
  | none => exact .inl ⟨rfl, rfl⟩
  | some y => exact .inr ⟨y, rfl, refreshMoved_follows _ _⟩

/-- A delivery is the one the statements speak of. -/
theorem deliver_credited (k : Key) (f : Payload → Payload) (s : State) : s.credited k f (deliver k f s) := by
  unfold State.credited
  rcases deliver_cases k f s with ⟨h, e⟩ | ⟨y, h, g⟩
  · rw [h]; exact e
  · rw [h]; exact g

/-- What a delivery leaves of the state besides its record: what reads leave. -/
theorem deliver_base (k : Key) (f : Payload → Payload) (s : State) :
    deliver k f s = { s with
        cst := (deliver k f s).cst
        ren := { s.ren with rows := (deliver k f s).ren.rows }
        evu := (deliver k f s).evu }
      ∧ ∀ r, ((deliver k f s).row r).map Row.core = (s.row r).map Row.core := by
  have h := readState_rest k s
  rcases deliver_cases k f s with ⟨-, e⟩ | ⟨y, -, g⟩
  · rw [e]; exact h
  · refine ⟨?_, fun r => (g.core r).trans (h.2 r)⟩
    have e1 := g.1
    have e2 := g.cst
    unfold writePayload at e1 e2
    rw [State.setCst_cst] at e2
    rw [e2, e1]
    simp only [State.setCst]
    rw [h.1]

/-- A delivery keeps the canonical form, if the change keeps the payload's. -/
theorem deliver_wf {k : Key} {f : Payload → Payload} {s : State} (h : s.cst.wf)
    (hf : ∀ p : Payload, p.wf = true → (f p).wf = true) : (deliver k f s).cst.wf := by
  have hr := readState_wf (k := k) h
  rcases deliver_cases k f s with ⟨-, e⟩ | ⟨y, hy, g⟩
  · rwa [e]
  · rw [g.cst]
    obtain ⟨x, hx, hxp⟩ := Store.payload_some hy
    have w : y.wf = true := by simpa [hxp] using hr.2.2.1 x (Store.find_mem hx)
    exact Store.put_some_wf hr hy (by simpa using hf y w)

/-! ## Settles (R23, R161) -/

/-- One record's settle at a store and the events, with no lane in sight. -/
def settleStep (x : Store × Events × Nat) (k : Key) : Store × Events × Nat :=
  match x.1.payload k with
  | none => x
  | some p =>
    let fresh := if p.hasFresh then 1 else 0
    match p.bits with
    | .clean =>
      (if p.hasFresh then x.1.put k (some { p.settled with bits := .clean }) else x.1, x.2.1, x.2.2 + fresh)
    | .oneFlipped =>
      ({ x.1.put k (some (if p.hasFresh then { p.settled with bits := .clean } else { p with bits := .clean })) with
          correctedSeen := true }, x.2.1.raised .storageCorrected, x.2.2 + fresh)
    | .twoFlipped =>
      ({ x.1.put k none with
          poisonedCount := x.1.poisonedCount + 1
          firstKey := x.1.firstKey <|> some k }, x.2.1.raised .storageUncorrectable, x.2.2)

theorem Store.put_put (c : Store) (k : Key) (p q : Option Payload) : (c.put k p).put k q = c.put k q := by
  unfold Store.put
  simp only [List.map_map]
  congr 1
  apply List.map_congr_left
  intro x _
  simp only [Function.comp_apply]
  split <;> simp_all

/-- The settle of one record changes the store and the events alone, and as `settleStep` says. -/
theorem settleOne_eq (s : State) (n : Nat) (k : Key) :
    settleOne (s, n) k =
      ({ s with cst := (settleStep (s.cst, s.evu, n) k).1, evu := (settleStep (s.cst, s.evu, n) k).2.1 },
        (settleStep (s.cst, s.evu, n) k).2.2) := by
  unfold settleOne settleStep
  dsimp only
  rcases readRecord_cases k s with ⟨hn, e⟩ | ⟨p, hp, hb, e⟩ | ⟨p, hp, hb, e⟩ | ⟨p, hp, hb, e⟩
  · rw [e, hn]
  · rw [e, hp]
    dsimp only
    rw [hb]
    by_cases hf : p.hasFresh = true
    · simp only [hf, if_true]; rfl
    · simp only [hf]; rfl
  · have hself : (readRecord k s).cst.payload k = some { p with bits := .clean } := by
      rw [e]
      exact Store.payload_put_self _ _ (Store.holds_of_payload hp)
    rw [hself, hp]
    dsimp only
    rw [hb]
    dsimp only
    have hfe : ({ p with bits := StoredBits.clean } : Payload).hasFresh = p.hasFresh := rfl
    rw [hfe]
    by_cases hf : p.hasFresh = true
    · simp only [hf, if_true]
      rw [e]
      unfold writePayload
      simp only [State.raise_cst, State.setCst_cst]
      have : ({ s.cst.put k (some { p with bits := .clean }) with correctedSeen := true } : Store).put k
          (some { p.settled with bits := .clean })
          = { s.cst.put k (some { p.settled with bits := .clean }) with correctedSeen := true } := by
        have := s.cst.put_put k (some { p with bits := .clean }) (some { p.settled with bits := .clean })
        unfold Store.put at *
        simpa using this
      exact Prod.ext (congrArg (fun c => ((s.setCst _).raise .storageCorrected).setCst c) this) rfl
    · simp only [hf]
      rw [e]
      rfl
  · have hself : (readRecord k s).cst.payload k = none := by
      rw [e]
      exact Store.payload_put_self _ _ (Store.holds_of_payload hp)
    rw [hself, hp]
    dsimp only
    rw [hb, e]
    rfl

theorem Payload.settled_of_not_fresh {p : Payload} (h : p.hasFresh = false) : p.settled = p := by
  simp only [Payload.hasFresh, Bool.or_eq_false_iff, decide_eq_false_iff_not, Decidable.not_not] at h
  rcases p with ⟨a, b, c, ⟨f1, s1⟩, ⟨f2, s2⟩, d, e, g, i, j⟩
  simp only at h
  obtain ⟨rfl, rfl⟩ := h
  simp [Payload.settled, Coverage.settle]

/-- In an ordered store a write reaches one place. -/
theorem Store.put_split {c : Store} {pre rest : List Record} {x : Record} (hc : c.records = pre ++ x :: rest)
    (o : c.ordered) (p : Option Payload) : (c.put x.key p).records = pre ++ { x with payload := p } :: rest := by
  unfold Store.ordered at o
  rw [hc] at o
  obtain ⟨-, o2, o3⟩ := List.pairwise_append.mp o
  have o2 := List.pairwise_cons.mp o2
  unfold Store.put
  simp only [hc, List.map_append, List.map_cons, if_true]
  congr 1
  · conv_rhs => rw [← List.map_id pre]
    apply List.map_congr_left
    intro y hy
    have : y.key ≠ x.key := Key.before_ne (o3 y hy x (by simp))
    simp [this]
  · congr 1
    conv_rhs => rw [← List.map_id rest]
    apply List.map_congr_left
    intro y hy
    have : y.key ≠ x.key := (Key.before_ne (o2.1 y hy)).symm
    simp [this]

theorem Events.raisedIf_or (e : Events) (a b : Bool) (k : Kind) :
    (e.raisedIf a k).raisedIf b k = e.raisedIf (a || b) k := by
  cases a <;> cases b <;> simp [Events.raisedIf, Events.raised_idem]

theorem Events.raisedIf_comm (e : Events) (a b : Bool) (j k : Kind) :
    (e.raisedIf a j).raisedIf b k = (e.raisedIf b k).raisedIf a j := by
  cases a <;> cases b <;> simp [Events.raisedIf, Events.raised_comm e j k]

/-- The settle of the records that are left, record by record, is that of all of them at once. -/
theorem settle_fold (rest : List Record) : ∀ (pre : List Record) (c : Store) (_ : c.records = pre ++ rest)
    (_ : c.ordered) (e : Events) (n : Nat),
    (rest.map (·.key)).foldl settleStep (c, e, n)
      = ({ c with
            records := pre ++ rest.map Record.afterSettle
            correctedSeen := c.correctedSeen || rest.any Record.marred
            firstKey := c.firstKey <|> (rest.find? Record.lost).map (·.key)
            poisonedCount := c.poisonedCount + rest.countP Record.lost },
          (e.raisedIf (rest.any Record.marred) .storageCorrected).raisedIf (rest.any Record.lost)
            .storageUncorrectable,
          n + rest.countP Record.settles) := by
  induction rest with
  | nil =>
    intro pre c hc _ e n
    rw [List.append_nil] at hc
    simp [Events.raisedIf, ← hc]
  | cons x xs ih =>
    intro pre c hc o e n
    have hp : c.payload x.key = x.payload := by
      unfold Store.payload
      rw [Store.find_of_mem o (by rw [hc]; simp)]
      rfl
    have put : ∀ p, (c.put x.key p).records = (pre ++ [{ x with payload := p }]) ++ xs := fun p => by
      rw [Store.put_split hc o]; simp
    rw [List.map_cons, List.foldl_cons]
    rcases x with ⟨k, xp⟩
    dsimp only at hp put ⊢
    cases xp with
    | none =>
      have step : settleStep (c, e, n) k = (c, e, n) := by unfold settleStep; simp [hp]
      rw [step, ih (pre ++ [⟨k, none⟩]) c (by rw [hc]; simp) o]
      simp [Record.afterSettle, Record.marred, Record.lost, Record.settles]
    | some p =>
      cases hb : p.bits with
      | clean =>
        by_cases hf : p.hasFresh = true
        · have step : settleStep (c, e, n) k = (c.put k (some { p.settled with bits := .clean }), e, n + 1) := by
            unfold settleStep; simp [hp, hb, hf]
          rw [step, ih _ _ (put _) (Store.put_ordered o k _)]
          simp [Record.afterSettle, Record.marred, Record.lost, Record.settles, hb, hf, Nat.add_comm,
            Nat.add_left_comm]
        · have hf : p.hasFresh = false := by simpa using hf
          have e1 : ({ p.settled with bits := StoredBits.clean } : Payload) = p := by
            rw [Payload.settled_of_not_fresh hf, ← hb]
          have step : settleStep (c, e, n) k = (c, e, n) := by unfold settleStep; simp [hp, hb, hf]
          rw [step, ih (pre ++ [⟨k, some p⟩]) c (by rw [hc]; simp) o]
          simp [Record.afterSettle, Record.marred, Record.lost, Record.settles, hb, hf, e1]
      | oneFlipped =>
        have e1 : (if p.hasFresh = true then ({ p.settled with bits := .clean } : Payload) else { p with bits := .clean })
            = { p.settled with bits := .clean } := by
          split
          · rfl
          · rename_i hf; rw [Payload.settled_of_not_fresh (by simpa using hf)]
        have step : settleStep (c, e, n) k
            = ({ c.put k (some { p.settled with bits := .clean }) with correctedSeen := true },
              e.raised .storageCorrected, n + if p.hasFresh then 1 else 0) := by
          unfold settleStep; simp only [hp, hb, e1]
        rw [step, ih (pre ++ [⟨k, some { p.settled with bits := .clean }⟩])
          { c.put k (some { p.settled with bits := .clean }) with correctedSeen := true } (put _) (Store.put_ordered o k _)]
        have e2 : ∀ b : Bool, (e.raised .storageCorrected).raisedIf b .storageCorrected
            = e.raisedIf true .storageCorrected := fun b => by
          have := Events.raisedIf_or e true b .storageCorrected
          simpa [Events.raisedIf] using this
        simp [Record.afterSettle, Record.marred, Record.lost, Record.settles, hb, e2, List.countP_cons]
        omega
      | twoFlipped =>
        have step : settleStep (c, e, n) k
            = ({ c.put k none with
                  poisonedCount := c.poisonedCount + 1
                  firstKey := c.firstKey <|> some k }, e.raised .storageUncorrectable, n) := by
          unfold settleStep; simp only [hp, hb]
        rw [step, ih (pre ++ [⟨k, none⟩])
          { c.put k none with
            poisonedCount := c.poisonedCount + 1
            firstKey := c.firstKey <|> some k } (put none) (Store.put_ordered o k none)]
        have e2 : ∀ a b : Bool, ((e.raised .storageUncorrectable).raisedIf a .storageCorrected).raisedIf b
            .storageUncorrectable = (e.raisedIf a .storageCorrected).raisedIf true .storageUncorrectable :=
          fun a b => by
            rw [Events.raisedIf_comm]
            have := Events.raisedIf_or e true b .storageUncorrectable
            simp only [Bool.true_or] at this
            rw [Events.raisedIf_comm e a true, ← this]
            rfl
        simp [Record.afterSettle, Record.marred, Record.lost, Record.settles, hb, e2]
        omega

/-- What the settle of the records does: every record settles at once, and the count is of those that held a fresh
sub-square. -/
theorem settleRecords_eq {s : State} (o : s.cst.ordered) :
    settleRecords s = (s.settled, s.cst.records.countP Record.settles) := by
  have key : ∀ (l : List Key) (t : State) (n : Nat),
      l.foldl settleOne (t, n) =
        ({ t with
            cst := (l.foldl settleStep (t.cst, t.evu, n)).1
            evu := (l.foldl settleStep (t.cst, t.evu, n)).2.1 },
          (l.foldl settleStep (t.cst, t.evu, n)).2.2) := by
    intro l
    induction l with
    | nil => intro t n; rfl
    | cons k ks ih =>
      intro t n
      rw [List.foldl_cons, List.foldl_cons, settleOne_eq, ih]
  unfold settleRecords
  rw [key, settle_fold s.cst.records [] s.cst rfl o]
  simp only [List.nil_append, Nat.zero_add]
  rfl

/-- What a settle does: the records settle, and what follows from the rows' setup follows. -/
theorem settle_follows {s : State} (o : s.cst.ordered) :
    s.settled.follows (settle s).1 ∧ (settle s).2 = s.cst.records.countP Record.settles := by
  unfold settle
  rw [settleRecords_eq o]
  exact ⟨reviewLanes_follows _ _, rfl⟩

theorem settleAndDecide_follows {s : State} (o : s.cst.ordered) :
    s.settled.follows (settleAndDecide s).1 ∧ (settleAndDecide s).2 = s.cst.records.countP Record.settles := by
  unfold settleAndDecide
  rw [settleRecords_eq o]
  exact ⟨State.pass_follows _ _, rfl⟩

/-- A settle keeps the canonical form. -/
theorem Store.afterSettle_wf {c : Store} (h : c.wf) : c.afterSettle.wf := by
  obtain ⟨o, len, pay, cnt, m16, nd, nh⟩ := h
  have hk : ∀ x : Record, x.afterSettle.key = x.key := fun x => by
    unfold Record.afterSettle
    split
    · rfl
    · split <;> rfl
  have keys : c.afterSettle.records.map (·.key) = c.records.map (·.key) := by
    simp [Store.afterSettle, Function.comp_def, hk]
  refine ⟨?_, ?_, fun y hy => ?_, ?_, m16, nd, fun j hj => ?_⟩
  · rw [Store.ordered_iff, keys, ← Store.ordered_iff]; exact o
  · simpa [Store.afterSettle] using len
  · simp only [Store.afterSettle, List.mem_map] at hy
    obtain ⟨x, hx, rfl⟩ := hy
    have w := pay x hx
    unfold Record.afterSettle
    cases hp : x.payload with
    | none => simp [hp]
    | some p =>
      rw [hp] at w
      have w : p.wf = true := by simpa using w
      cases hb : p.bits <;> simp [hb, Payload.settled_wf w]
  · simp only [Store.afterSettle, cnt, List.countP_map]
    clear cnt o len pay keys nh
    induction c.records with
    | nil => rfl
    | cons x xs ih =>
      simp only [List.countP_cons, ← ih]
      have : (if (Function.comp (fun x : Record => x.payload.isNone) Record.afterSettle) x = true then 1 else 0)
          = (if x.payload.isNone = true then 1 else 0) + if x.lost = true then 1 else 0 := by
        rcases x with ⟨k, _ | p⟩
        · simp [Record.afterSettle, Record.lost]
        · cases hb : p.bits <;> simp [Record.afterSettle, Record.lost, hb]
      omega
  · have := nh j hj
    rw [Store.holds_false_iff] at *
    intro y hy
    simp only [Store.afterSettle, List.mem_map] at hy
    obtain ⟨x, hx, rfl⟩ := hy
    rw [hk]
    exact this x hx

theorem settle_wf {s : State} (h : s.cst.wf) : (settle s).1.cst.wf := by
  rw [(settle_follows h.1).1.cst]
  exact Store.afterSettle_wf h

theorem settleAndDecide_wf {s : State} (h : s.cst.wf) : (settleAndDecide s).1.cst.wf := by
  rw [(settleAndDecide_follows h.1).1.cst]
  exact Store.afterSettle_wf h

end Sys2Proof.Machine
end

