-- ==== Sys2Proof/Laws/Choices.lean ====
section
/-! SUPPORT. Free choices of an order (assumption log, entry 7), and what a step with several poisonings may change. -/

namespace Sys2Proof.Machine

/-! ## An order that nothing fixes -/

theorem insertAt_perm {α : Type} (n : Nat) (x : α) (ys : List α) : (insertAt n x ys).Perm (x :: ys) := by
  induction n generalizing ys with
  | zero => exact .refl _
  | succ n ih =>
    cases ys with
    | nil => exact .refl _
    | cons y ys => exact ((ih ys).cons y).trans (.swap x y ys)

/-- A free choice of order keeps every element. -/
theorem arranged_perm {α : Type} (n : Nat) (xs : List α) : (arranged n xs).Perm xs := by
  induction xs with
  | nil => exact .refl _
  | cons x xs ih =>
    cases xs with
    | nil => exact .refl _
    | cons y ys => exact (insertAt_perm _ x _).trans (ih.cons x)

theorem arranged_nodup {α : Type} (n : Nat) {xs : List α} (h : xs.Nodup) : (arranged n xs).Nodup :=
  (arranged_perm n xs).nodup_iff.mpr h

theorem arranged_length {α : Type} (n : Nat) (xs : List α) : (arranged n xs).length = xs.length :=
  (arranged_perm n xs).length_eq

theorem mem_arranged {α : Type} (n : Nat) (xs : List α) (x : α) : x ∈ arranged n xs ↔ x ∈ xs :=
  (arranged_perm n xs).mem_iff

/-- The repeats of a list left out: no element twice, and the same elements. -/
theorem distinct_spec {α : Type} [DecidableEq α] (xs : List α) :
    (distinct xs).Nodup ∧ ∀ x, x ∈ distinct xs ↔ x ∈ xs := by
  have key : ∀ (xs acc : List α), acc.Nodup →
      (xs.foldl (fun acc x => if x ∈ acc then acc else acc ++ [x]) acc).Nodup
        ∧ ∀ x, x ∈ xs.foldl (fun acc x => if x ∈ acc then acc else acc ++ [x]) acc ↔ x ∈ acc ∨ x ∈ xs := by
    intro xs
    induction xs with
    | nil => intro acc h; exact ⟨h, fun x => by simp⟩
    | cons y ys ih =>
      intro acc h
      rw [List.foldl_cons]
      by_cases m : y ∈ acc
      · rw [if_pos m]
        obtain ⟨i1, i2⟩ := ih acc h
        refine ⟨i1, fun x => (i2 x).trans ?_⟩
        constructor
        · rintro (a | a)
          · exact .inl a
          · exact .inr (List.mem_cons_of_mem _ a)
        · rintro (a | a)
          · exact .inl a
          · rcases List.mem_cons.mp a with rfl | a
            · exact .inl m
            · exact .inr a
      · rw [if_neg m]
        obtain ⟨i1, i2⟩ := ih (acc ++ [y]) (by
          rw [List.nodup_append]
          refine ⟨h, by simp, fun a ha b hb => ?_⟩
          rw [List.mem_singleton] at hb
          rintro rfl
          exact m (hb ▸ ha))
        refine ⟨i1, fun x => (i2 x).trans ?_⟩
        simp [or_assoc]
  have := key xs [] .nil
  exact ⟨this.1, fun x => (this.2 x).trans (by simp)⟩

/-! ## Steps in which several records may be poisoned -/

/-- Where a free first key is chosen, nothing but that key and the count of choices differs. -/
theorem freeFirst_eq (f : State → State) (s : State) :
    ∃ k n, freeFirst f s = { f s with cst := { (f s).cst with firstKey := k }, choices := n } := by
  unfold freeFirst
  dsimp only
  split
  · exact ⟨_, _, rfl⟩
  · exact ⟨(f s).cst.firstKey, (f s).choices, rfl⟩

/-- The first key that a free choice gives is the key of a record that the step poisoned. -/
theorem freeFirst_key (f : State → State) (s : State) {k : Key} (h : (freeFirst f s).cst.firstKey = some k) :
    (f s).cst.firstKey = some k ∨ k ∈ newlyPoisoned s.cst (f s).cst := by
  unfold freeFirst at h
  dsimp only at h
  split at h
  · rename_i e
    refine .inr ?_
    simp only [State.setCst_cst] at h
    rw [e]
    exact (mem_arranged _ _ _).mp (List.mem_of_mem_head? h)
  · exact .inl h

/-! ## The miss set (R16, R17) -/

/-- An offer changes nothing but the miss set, its indicator, the pending events and the count of choices. -/
theorem offerMisses_eq (keys : List Key) (s : State) :
    ∃ m i e n, offerMisses keys s = { s with cst := { s.cst with misses := m, incomplete := i }, evu := e, choices := n } := by
  unfold offerMisses
  split
  · exact ⟨s.cst.misses, s.cst.incomplete, s.evu, s.choices, rfl⟩
  · exact ⟨_, _, _, _, rfl⟩

/-- An offer of keys that have no record keeps the canonical form. -/
theorem offerMisses_wf {keys : List Key} {s : State} (h : s.cst.wf) (hk : ∀ k ∈ keys, s.cst.holds k = false) :
    (offerMisses keys s).cst.wf := by
  unfold offerMisses
  split
  · exact h
  · rename_i x xs e
    have hx : ∀ k ∈ x :: xs, k ∈ keys ∧ k ∉ s.cst.misses := fun k m => by
      rw [← e] at m
      obtain ⟨a, b⟩ := List.mem_filter.mp m
      exact ⟨((distinct_spec keys).2 k).mp a, of_decide_eq_true b⟩
    have nd : (x :: xs).Nodup := by rw [← e]; exact (distinct_spec keys).1.filter _
    obtain ⟨o, len, pay, cnt, m16, mnd, nh⟩ := h
    have sub : ∀ k ∈ (arranged s.choices (x :: xs)).take (16 - s.cst.misses.length), k ∈ x :: xs :=
      fun k m => (mem_arranged _ _ _).mp (List.mem_of_mem_take m)
    refine ⟨o, len, pay, cnt, ?_, ?_, fun k m => ?_⟩
    · show (s.cst.misses ++ (arranged s.choices (x :: xs)).take (16 - s.cst.misses.length)).length ≤ 16
      rw [List.length_append, List.length_take]
      omega
    · show (s.cst.misses ++ (arranged s.choices (x :: xs)).take (16 - s.cst.misses.length)).Nodup
      rw [List.nodup_append]
      refine ⟨mnd, (arranged_nodup _ nd).sublist (List.take_sublist _ _), fun a ha b hb => ?_⟩
      rintro rfl
      exact (hx a (sub a hb)).2 ha
    · rcases List.mem_append.mp m with m | m
      · exact nh k m
      · exact hk k (hx k (sub k m)).1

end Sys2Proof.Machine
end

