-- ==== Sys2Proof/Laws/Looked.lean ====
section
/-! SUPPORT. The reads of several records at one event, as the statements say them (R60, R157 to R161). -/

namespace Sys2Proof.Machine

/-! ## The reads of several records at one event -/

/-- A record that a read leaves is not marred and not lost, and a second read leaves it as it is. -/
theorem Record.afterRead_again (x : Record) :
    x.afterRead.afterRead = x.afterRead ∧ x.afterRead.lost = false ∧ x.afterRead.marred = false
      ∧ x.afterRead.key = x.key := by
  rcases x with ⟨k, _ | p⟩
  · exact ⟨rfl, rfl, rfl, rfl⟩
  · cases hb : p.bits <;> simp [Record.afterRead, Record.lost, Record.marred, hb]

/-- In an ordered store what is said of the records of one key is said of the record found. -/
theorem Store.any_key {c : Store} (o : c.ordered) (k : Key) (f : Record → Bool) :
    c.records.any (fun x => decide (x.key = k) && f x) = (c.find k).any f := by
  rw [Bool.eq_iff_iff]
  simp only [List.any_eq_true, Bool.and_eq_true, decide_eq_true_eq, Option.any_eq_true]
  constructor
  · rintro ⟨x, hx, rfl, h⟩
    exact ⟨x, Store.find_of_mem o hx, h⟩
  · rintro ⟨x, hx, h⟩
    exact ⟨x, Store.find_mem hx, Store.find_key hx, h⟩

theorem Store.countP_key {c : Store} (o : c.ordered) (k : Key) (f : Record → Bool) :
    c.records.countP (fun x => decide (x.key = k) && f x) = if (c.find k).any f then 1 else 0 := by
  rw [← Store.any_key o]
  have h : c.records.Pairwise fun a b => a.key.before b.key = true := o
  clear o
  generalize c.records = l at h
  induction l with
  | nil => rfl
  | cons x xs ih =>
    have h' := List.pairwise_cons.mp h
    rw [List.countP_cons, ih h'.2, List.any_cons]
    by_cases e : x.key = k
    · have : (xs.any fun y => decide (y.key = k) && f y) = false := by
        rw [List.any_eq_false]
        intro y hy
        have := Key.before_ne (h'.1 y hy)
        rw [e] at this
        simp [this.symm]
      rw [this]
      simp [e]
    · simp [e]

/-- A read of one key, as the statements say it. -/
theorem readRecord_eq {s : State} (o : s.cst.ordered) (k : Key) :
    readRecord k s = { s with
      cst := { s.cst with
        records := s.cst.records.map fun x => if x.key = k then x.afterRead else x
        correctedSeen := s.cst.correctedSeen || s.cst.records.any fun x => decide (x.key = k) && x.marred
        firstKey := (readRecord k s).cst.firstKey
        poisonedCount := s.cst.poisonedCount + s.cst.records.countP fun x => decide (x.key = k) && x.lost }
      evu := (s.evu.raisedIf (s.cst.records.any fun x => decide (x.key = k) && x.marred) .storageCorrected).raisedIf
        (s.cst.records.any fun x => decide (x.key = k) && x.lost) .storageUncorrectable }
      ∧ (readRecord k s).cst.firstKey =
        if s.cst.firstKey = none ∧ (s.cst.records.any fun x => decide (x.key = k) && x.lost) = true then some k
        else s.cst.firstKey := by
  rw [Store.countP_key o]
  simp only [Store.any_key o]
  have same : ∀ f : Record → Record, (∀ x ∈ s.cst.records, x.key = k → f x = x) →
      s.cst.records.map (fun x => if x.key = k then f x else x) = s.cst.records := fun f h => by
    conv_rhs => rw [← List.map_id s.cst.records]
    apply List.map_congr_left
    intro x hx
    by_cases e : x.key = k
    · rw [if_pos e]; exact h x hx e
    · rw [if_neg e]; rfl
  have at_k : ∀ x ∈ s.cst.records, x.key = k → s.cst.find k = some x := fun x hx e => by
    rw [← e]; exact Store.find_of_mem o hx
  have put : ∀ p, (∀ x, s.cst.find k = some x → x.afterRead.payload = p) →
      (s.cst.records.map fun x => if x.key = k then x.afterRead else x) = (s.cst.put k p).records := fun p h => by
    unfold Store.put
    apply List.map_congr_left
    intro x hx
    by_cases e : x.key = k
    · rw [if_pos e, if_pos e, ← h x (at_k x hx e)]
      unfold Record.afterRead
      split <;> rfl
    · rw [if_neg e, if_neg e]
  rcases readRecord_cases k s with ⟨hn, e⟩ | ⟨p, hp, hb, e⟩ | ⟨p, hp, hb, e⟩ | ⟨p, hp, hb, e⟩ <;> rw [e]
  · have hx : ∀ x, s.cst.find k = some x → x.payload = none := fun x hx => by
      unfold Store.payload at hn; rw [hx] at hn; exact hn
    have h1 : (s.cst.find k).any Record.marred = false := by
      cases h : s.cst.find k with
      | none => rfl
      | some x => simp [Record.marred, hx x h]
    have h2 : (s.cst.find k).any Record.lost = false := by
      cases h : s.cst.find k with
      | none => rfl
      | some x => simp [Record.lost, hx x h]
    have hs : ∀ x ∈ s.cst.records, x.key = k → x.afterRead = x := fun x m ek => by
      have := hx x (at_k x m ek)
      rcases x with ⟨a, b⟩
      simp only at this
      subst this
      rfl
    rw [h1, h2, same _ hs]
    simp [Events.raisedIf]
  · obtain ⟨x, hx, hxp⟩ := Store.payload_some hp
    have h1 : (s.cst.find k).any Record.marred = false := by simp [hx, Record.marred, hxp, hb]
    have h2 : (s.cst.find k).any Record.lost = false := by simp [hx, Record.lost, hxp, hb]
    have hs : ∀ y ∈ s.cst.records, y.key = k → y.afterRead = y := fun y m ek => by
      have := at_k y m ek
      rw [hx] at this
      cases this
      rcases x with ⟨a, b⟩
      simp only at hxp
      subst hxp
      rcases p with ⟨a1, a2, a3, a4, a5, a6, a7, a8, a9, a10⟩
      simp only at hb
      subst hb
      rfl
    rw [h1, h2, same _ hs]
    simp [Events.raisedIf]
  · obtain ⟨x, hx, hxp⟩ := Store.payload_some hp
    have h1 : (s.cst.find k).any Record.marred = true := by simp [hx, Record.marred, hxp, hb]
    have h2 : (s.cst.find k).any Record.lost = false := by simp [hx, Record.lost, hxp, hb]
    rw [h1, h2, put (some { p with bits := .clean }) fun y hy => by
      rw [hx] at hy; cases hy; simp [Record.afterRead, Record.lost, hxp, hb]]
    simp [Events.raisedIf]
    rfl
  · obtain ⟨x, hx, hxp⟩ := Store.payload_some hp
    have h1 : (s.cst.find k).any Record.marred = false := by simp [hx, Record.marred, hxp, hb]
    have h2 : (s.cst.find k).any Record.lost = true := by simp [hx, Record.lost, hxp, hb]
    rw [h1, h2, put none fun y hy => by
      rw [hx] at hy; cases hy; simp [Record.afterRead, Record.lost, hxp, hb]]
    refine ⟨?_, ?_⟩
    · simp [Events.raisedIf]
      rfl
    · simp only [State.raise_cst, State.setCst_cst]
      cases s.cst.firstKey <;> simp

/-- Reads of the payloads of several keys, one after another, are what the statements say of them all at once; where the
status held no first-uncorrectable key, it takes that of a record poisoned (R161). -/
theorem readRecords_eq (l : List Key) : ∀ {s : State} (_ : s.cst.ordered),
    let t := l.foldl (fun t k => readRecord k t) s
    let lost := fun x : Record => decide (x.key ∈ l) && x.lost
    let marred := fun x : Record => decide (x.key ∈ l) && x.marred
    (t = { s with
      cst := { s.cst with
        records := s.cst.records.map fun x => if x.key ∈ l then x.afterRead else x
        correctedSeen := s.cst.correctedSeen || s.cst.records.any marred
        firstKey := t.cst.firstKey
        poisonedCount := s.cst.poisonedCount + s.cst.records.countP lost }
      evu := (s.evu.raisedIf (s.cst.records.any marred) .storageCorrected).raisedIf (s.cst.records.any lost)
        .storageUncorrectable })
      ∧ (s.cst.firstKey ≠ none ∨ s.cst.records.any lost = false → t.cst.firstKey = s.cst.firstKey)
      ∧ (s.cst.firstKey = none → s.cst.records.any lost = true →
          ∃ x ∈ s.cst.records, lost x = true ∧ t.cst.firstKey = some x.key) := by
  induction l with
  | nil =>
    intro s o
    refine ⟨?_, fun _ => rfl, fun _ h => ?_⟩
    · have none : (s.cst.records.any fun _ => false) = false := by rw [List.any_eq_false]; simp
      simp [Events.raisedIf, none]
    · simp at h
  | cons k ks ih =>
    intro s o
    obtain ⟨e1, e2⟩ := readRecord_eq o k
    have o' : (readRecord k s).cst.ordered := by
      rw [Store.ordered_iff, readRecord_keys, ← Store.ordered_iff]; exact o
    obtain ⟨i1, i2, i3⟩ := ih o'
    rw [List.foldl_cons]
    dsimp only at i1 i2 i3 ⊢
    generalize hu : readRecord k s = u at e1 e2 i1 i2 i3 o'
    generalize ht : ks.foldl (fun t k => readRecord k t) u = t at i1 i2 i3
    have recs : u.cst.records = s.cst.records.map fun x => if x.key = k then x.afterRead else x := by rw [e1]
    have key : ∀ x : Record, (if x.key = k then x.afterRead else x).key = x.key := fun x => by
      split
      · exact (Record.afterRead_again x).2.2.2
      · rfl
    have anyEq : ∀ f : Record → Bool, (∀ x : Record, f x.afterRead = false) →
        (s.cst.records.any fun x => decide (x.key ∈ k :: ks) && f x)
          = ((s.cst.records.any fun x => decide (x.key = k) && f x)
            || u.cst.records.any fun x => decide (x.key ∈ ks) && f x) := fun f hf => by
      rw [recs, List.any_map]
      rw [Bool.eq_iff_iff]
      simp only [List.any_eq_true, Bool.or_eq_true, Bool.and_eq_true, decide_eq_true_eq, List.mem_cons,
        Function.comp_apply, key]
      constructor
      · rintro ⟨x, hx, hk, h⟩
        by_cases e : x.key = k
        · exact .inl ⟨x, hx, e, h⟩
        · exact .inr ⟨x, hx, hk.resolve_left e, by rw [if_neg e]; exact h⟩
      · rintro (⟨x, hx, e, h⟩ | ⟨x, hx, hk, h⟩)
        · exact ⟨x, hx, .inl e, h⟩
        · by_cases e : x.key = k
          · rw [if_pos e, hf] at h; cases h
          · rw [if_neg e] at h; exact ⟨x, hx, .inr hk, h⟩
    have lostF : ∀ x : Record, x.afterRead.lost = false := fun x => (Record.afterRead_again x).2.1
    have marF : ∀ x : Record, x.afterRead.marred = false := fun x => (Record.afterRead_again x).2.2.1
    have countEq : (s.cst.records.countP fun x => decide (x.key ∈ k :: ks) && x.lost)
        = (s.cst.records.countP fun x => decide (x.key = k) && x.lost)
          + u.cst.records.countP fun x => decide (x.key ∈ ks) && x.lost := by
      rw [recs, List.countP_map]
      generalize s.cst.records = l
      induction l with
      | nil => rfl
      | cons x xs ihx =>
        simp only [List.countP_cons, ihx, Function.comp_apply, key]
        by_cases e : x.key = k
        · simp [e, lostF x]; omega
        · simp [e]; omega
    refine ⟨?_, fun h => ?_, fun h0 h1 => ?_⟩
    · rw [i1]
      rw [anyEq _ lostF, anyEq _ marF, countEq]
      have recs2 : (u.cst.records.map fun x => if x.key ∈ ks then x.afterRead else x)
          = s.cst.records.map fun x => if x.key ∈ k :: ks then x.afterRead else x := by
        rw [recs, List.map_map]
        apply List.map_congr_left
        intro x _
        simp only [Function.comp_apply, key, List.mem_cons]
        by_cases e : x.key = k
        · simp only [e, true_or, if_true]
          split
          · exact (Record.afterRead_again x).1
          · rfl
        · simp only [e, false_or, if_false]
      rw [recs2]
      generalize u.cst.records.any (fun x => decide (x.key ∈ ks) && x.lost) = b1
      generalize u.cst.records.any (fun x => decide (x.key ∈ ks) && x.marred) = b2
      generalize u.cst.records.countP (fun x => decide (x.key ∈ ks) && x.lost) = n
      rw [e1]
      dsimp only
      generalize (s.cst.records.any fun x => decide (x.key = k) && x.lost) = a1
      generalize (s.cst.records.any fun x => decide (x.key = k) && x.marred) = a2
      have ev : ((((s.evu.raisedIf a2 .storageCorrected).raisedIf a1 .storageUncorrectable).raisedIf b2
          .storageCorrected).raisedIf b1 .storageUncorrectable)
          = (s.evu.raisedIf (a2 || b2) .storageCorrected).raisedIf (a1 || b1) .storageUncorrectable := by
        rw [Events.raisedIf_comm _ a1 b2, Events.raisedIf_or, Events.raisedIf_or]
      rw [ev, Bool.or_assoc, Nat.add_assoc]
    · have hl : u.cst.firstKey = s.cst.firstKey := by
        rw [e2, if_neg]
        rintro ⟨a, b⟩
        rcases h with h | h
        · exact h a
        · rw [anyEq _ lostF, b] at h; cases h
      rw [i2, hl]
      rcases h with h | h
      · exact .inl (by rwa [hl])
      · rw [anyEq _ lostF, Bool.or_eq_false_iff] at h
        exact .inr h.2
    · by_cases hk : (s.cst.records.any fun x => decide (x.key = k) && x.lost) = true
      · rw [if_pos ⟨h0, hk⟩] at e2
        obtain ⟨x, hx, hxk⟩ := List.any_eq_true.mp hk
        simp only [Bool.and_eq_true, decide_eq_true_eq] at hxk
        refine ⟨x, hx, by simp [hxk.1, hxk.2], ?_⟩
        rw [i2 (.inl (by rw [e2]; simp)), e2, hxk.1]
      · have hk : (s.cst.records.any fun x => decide (x.key = k) && x.lost) = false := by simpa using hk
        rw [anyEq _ lostF, hk, Bool.false_or] at h1
        rw [if_neg (by simp [hk])] at e2
        obtain ⟨y, hy, hyl, hyk⟩ := i3 (by rw [e2, h0]) h1
        rw [recs] at hy
        obtain ⟨x, hx, rfl⟩ := List.mem_map.mp hy
        simp only [key, Bool.and_eq_true, decide_eq_true_eq] at hyl hyk
        have e : x.key ≠ k := fun e => by
          rw [if_pos e, lostF] at hyl; cases hyl.2
        rw [if_neg e] at hyl
        exact ⟨x, hx, by simp [hyl.1, hyl.2], hyk⟩

/-- The records that reads of several keys poison are those with two bits flipped. -/
theorem newlyPoisoned_reads {l : List Key} {s : State} (o : s.cst.ordered) {k : Key}
    (h : k ∈ newlyPoisoned s.cst (l.foldl (fun t k => readRecord k t) s).cst) :
    ∃ x ∈ s.cst.records, (decide (x.key ∈ l) && x.lost) = true ∧ x.key = k := by
  obtain ⟨e, -, -⟩ := readRecords_eq l o
  generalize l.foldl (fun t k => readRecord k t) s = t at e h
  unfold newlyPoisoned at h
  obtain ⟨x, hx, rfl⟩ := List.mem_map.mp h
  obtain ⟨m, hp⟩ := List.mem_filter.mp hx
  simp only [Bool.and_eq_true, Option.any_eq_true] at hp
  obtain ⟨hs, y, hy, hn⟩ := hp
  have my := Store.find_mem hy
  have ky := Store.find_key hy
  rw [e] at my
  obtain ⟨z, mz, rfl⟩ := List.mem_map.mp my
  have key : (if z.key ∈ l then z.afterRead else z).key = z.key := by
    split
    · exact (Record.afterRead_again z).2.2.2
    · rfl
  rw [key] at ky
  have a := Store.find_of_mem o m
  rw [← ky, Store.find_of_mem o mz] at a
  have a : z = x := Option.some.inj a
  subst a
  refine ⟨z, m, ?_, rfl⟩
  by_cases c : z.key ∈ l
  · rw [if_pos c] at hn
    cases hl : z.lost with
    | true => simp [c]
    | false =>
      unfold Record.afterRead at hn
      rw [if_neg (by simp [hl])] at hn
      rw [Option.isNone_map] at hn
      exact absurd hs (by simp [Option.isNone_iff_eq_none.mp hn])
  · rw [if_neg c] at hn
    exact absurd hs (by simp [Option.isNone_iff_eq_none.mp hn])

/-- A step that reads the payloads of several keys, with a free first key where it poisons several, and what then follows
from the rows' setup, is what the statements call reads. -/
theorem freeFirst_reads {f : State → State} {l : List Key} {s : State} (o : s.cst.ordered)
    (hf : f s = l.foldl (fun t k => readRecord k t) s) {looked : Key → Bool} (hl : ∀ k, looked k = decide (k ∈ l))
    {t : State} (ht : (freeFirst f s).follows t) : s.reads looked t := by
  obtain ⟨e, k1, k2⟩ := readRecords_eq l o
  have np : ∀ k, k ∈ newlyPoisoned s.cst (f s).cst →
      ∃ x ∈ s.cst.records, (decide (x.key ∈ l) && x.lost) = true ∧ x.key = k := fun k h => by
    rw [hf] at h
    exact newlyPoisoned_reads o h
  rw [← hf] at e k1 k2
  have main : ∃ (first : Option Key) (n : Nat),
      freeFirst f s = { f s with cst := { (f s).cst with firstKey := first }, choices := n }
        ∧ (s.cst.firstKey ≠ none ∨ s.cst.records.any (fun x => decide (x.key ∈ l) && x.lost) = false →
          first = s.cst.firstKey)
        ∧ (s.cst.firstKey = none → s.cst.records.any (fun x => decide (x.key ∈ l) && x.lost) = true →
          ∃ x ∈ s.cst.records, (decide (x.key ∈ l) && x.lost) = true ∧ first = some x.key) := by
    by_cases c : ∃ k k' ks, s.cst.firstKey = none ∧ newlyPoisoned s.cst (f s).cst = k :: k' :: ks
    · obtain ⟨k, k', ks, c1, c2⟩ := c
      refine ⟨(arranged (f s).choices (k :: k' :: ks)).head?, (f s).choices + 1, ?_, fun h => ?_, fun _ _ => ?_⟩
      · unfold freeFirst
        dsimp only
        rw [c1, c2]
        rfl
      · exfalso
        rcases h with h | h
        · exact h c1
        · obtain ⟨x, m, hx, -⟩ := np k (by rw [c2]; simp)
          rw [List.any_eq_false] at h
          exact h x m hx
      · cases a : (arranged (f s).choices (k :: k' :: ks)).head? with
        | none =>
          have := arranged_length (f s).choices (k :: k' :: ks)
          rw [List.head?_eq_none_iff.mp a] at this
          cases this
        | some j =>
          have m := (mem_arranged _ _ _).mp (List.mem_of_mem_head? a)
          obtain ⟨x, mx, hx, rfl⟩ := np j (by rw [c2]; exact m)
          exact ⟨x, mx, hx, rfl⟩
    · refine ⟨(f s).cst.firstKey, (f s).choices, ?_, k1, k2⟩
      unfold freeFirst
      dsimp only
      split
      · rename_i a b d1 d2
        exact absurd ⟨_, _, _, d1, d2⟩ c
      · rfl
  obtain ⟨first, n, hn, a, b⟩ := main
  have e' : looked = fun k => decide (k ∈ l) := funext hl
  subst e'
  refine ⟨first, n, a, b, ?_⟩
  rw [hn] at ht
  generalize f s = u at e ht
  rw [e] at ht
  simpa using ht

/-! ## The keys a refresh looks at -/

/-- The keys that the refresh of a row's lanes reads, in order. -/
def State.rowKeys (s : State) (r : RowId) : List Key :=
  (s.laneCell .seed r).toList ++ (s.laneCell .fert r).toList

theorem readForRow_eq (r : RowId) (s : State) :
    readForRow r s = (s.rowKeys r).foldl (fun t k => readRecord k t) s := by
  unfold readForRow State.rowKeys
  rw [List.foldl_append]
  have lane : ∀ p (t : State), readForLane p r t = ((t.laneCell p r).toList).foldl (fun t k => readRecord k t) t := by
    intro p t
    unfold readForLane
    cases t.laneCell p r <;> rfl
  rw [lane .seed, lane .fert]
  congr 2
  cases s.laneCell .seed r with
  | none => rfl
  | some k => exact readRecord_laneCell k s .fert r

theorem readRecords_laneCell (l : List Key) (s : State) (p : Product) (r : RowId) :
    (l.foldl (fun t k => readRecord k t) s).laneCell p r = s.laneCell p r := by
  induction l generalizing s with
  | nil => rfl
  | cons k ks ih => rw [List.foldl_cons, ih, readRecord_laneCell]

theorem readForRows_eq (s : State) :
    forRows readForRow s = (rowIds.flatMap s.rowKeys).foldl (fun t k => readRecord k t) s := by
  unfold forRows
  generalize rowIds = l
  have key : ∀ (l : List RowId) (t : State), (∀ p r, t.laneCell p r = s.laneCell p r) →
      l.foldl (fun s r => readForRow r s) t = (l.flatMap s.rowKeys).foldl (fun t k => readRecord k t) t := by
    intro l
    induction l with
    | nil => intro t _; rfl
    | cons r rs ih =>
      intro t ht
      rw [List.foldl_cons, List.flatMap_cons, List.foldl_append, readForRow_eq]
      have e : t.rowKeys r = s.rowKeys r := by unfold State.rowKeys; rw [ht, ht]
      rw [e]
      exact ih _ fun p q => by rw [readRecords_laneCell, ht]
  exact key l s fun _ _ => rfl

theorem rowKeys_iff (s : State) (r : RowId) (k : Key) :
    k ∈ s.rowKeys r ↔ s.looksInto (fun q => decide (q = r)) k = true := by
  unfold State.rowKeys State.laneCell State.looksInto
  simp only [List.any_eq_true, Bool.and_eq_true, decide_eq_true_eq, List.mem_append, Option.mem_toList]
  constructor
  · intro h
    refine ⟨r, rowIds_mem r, rfl, ?_⟩
    cases hw : s.row r with
    | none => simp [hw] at h
    | some w =>
      rcases w with ⟨c, v, ⟨pt, a1, a2, a3, a4, a5, a6, a7⟩, l, x⟩
      cases pt <;> cases l <;> simp_all [Row.point, Option.any_eq_true]
  · rintro ⟨q, -, rfl, h⟩
    cases hw : s.row q with
    | none => simp [hw] at h
    | some w =>
      rcases w with ⟨c, v, ⟨pt, a1, a2, a3, a4, a5, a6, a7⟩, l, x⟩
      cases pt <;> cases l <;> simp_all [Row.point, Option.any_eq_true]

theorem looksInto_all (s : State) (k : Key) :
    s.looksInto (fun _ => true) k = decide (k ∈ rowIds.flatMap s.rowKeys) := by
  rw [Bool.eq_iff_iff]
  simp only [decide_eq_true_eq, List.mem_flatMap, rowKeys_iff]
  unfold State.looksInto
  simp only [List.any_eq_true, Bool.and_eq_true, decide_eq_true_eq]
  constructor
  · rintro ⟨r, hr, -, h⟩
    exact ⟨r, hr, r, hr, rfl, h⟩
  · rintro ⟨r, hr, q, hq, rfl, h⟩
    exact ⟨q, hr, trivial, h⟩

/-- The refresh of every lane of every row, with its reads (R58, steps 5 and 6; R60). -/
theorem refreshRows_reads {s : State} (o : s.cst.ordered) (x : RowId → Option Pass) :
    s.reads (s.looksInto fun _ => true) ((freeFirst (forRows readForRow) s).pass x) :=
  freeFirst_reads o (readForRows_eq s) (looksInto_all s) (State.pass_follows _ _)

/-- The refresh of the lanes of one row, with its reads (R60). -/
theorem refreshRow_reads {s : State} (o : s.cst.ordered) (r : RowId) {t : State}
    (ht : (freeFirst (readForRow r) s).follows t) : s.reads (s.looksInto fun q => decide (q = r)) t :=
  freeFirst_reads o (readForRow_eq r s) (fun k => by
    rw [Bool.eq_iff_iff, decide_eq_true_eq]; exact (rowKeys_iff s r k).symm) ht

end Sys2Proof.Machine
end

