-- ==== Sys2Proof/Laws/PerInstr.lean ====
section
/-! SUPPORT. One law for each command: which of the well-formed commands are malformed on the link. -/

namespace Sys2Proof

open Machine

/-- The class field of a header is its class (R179). -/
theorem header_class (c : FrameClass) (low : BitVec 5) :
    FrameClass.ofBits ((header c low).extractLsb' 5 3) = some c := by
  revert low
  cases c <;> decide

/-- The low five bits of a header. -/
theorem header_low (c : FrameClass) (low : BitVec 5) : (header c low).extractLsb' 0 5 = low := by
  revert low
  cases c <;> decide

/-- A payload that fits is as long as its length byte says (R166). -/
theorem lengthByte {p : List Byte} (h : payloadFits p = true) : (BitVec.ofNat 8 p.length).toNat = p.length := by
  have : p.length ≤ 250 := of_decide_eq_true h
  rw [BitVec.toNat_ofNat]
  omega

/-- A frame that fits its length byte and its class is not malformed (R166, R168). -/
theorem encodeClass_sound (cls : FrameClass) (f : Frame) (after : Nat) (h : payloadFits f.payload = true)
    (hf : cls = .fix → f.payload.length = 17) (ha : cls = .fetch ∨ after = 0) :
    malformed (encodeClass cls f after) = false := by
  have hl := lengthByte h
  have : f.payload.length ≤ 250 := of_decide_eq_true h
  simp only [encodeClass, frameHead, List.cons_append, malformed, header_class, hl, Bool.or_eq_false_iff,
    Bool.and_eq_false_iff, decide_eq_false_iff_not, List.length_append, List.length_cons, List.length_nil,
    List.length_replicate]
  refine ⟨⟨⟨by omega, by omega⟩, ?_⟩, ?_⟩
  · rcases ha with ha | ha
    · exact .inl (by simp [ha])
    · exact .inr (by omega)
  · by_cases e : cls = .fix
    · exact .inr (by simp [hf e])
    · exact .inl e

/-- The same of a COMMAND frame. -/
theorem encodeCommand_sound (code : BitVec 5) (c : Cmd) (h : payloadFits c.payload = true) :
    malformed (encodeCommand code c) = false := by
  have := encodeClass_sound .command ⟨code, c.payload, c.check⟩ 0 h (fun e => by cases e) (.inr rfl)
  simpa [encodeClass, encodeCommand] using this

namespace Laws.WireForm

/-- A well-formed command that is a frame is malformed on the link exactly where it is a MALFORMED_FRAME. -/
def Statement (i : Instr) : Prop :=
  wellFormed i = true → ∀ bytes, encodeFrame i = some bytes →
    (malformed bytes = true ↔ ∃ b, i = .malformedFrame b)

/-- An event is no frame. -/
theorem of_event {i : Instr} (h : encodeFrame i = none) : Statement i := fun _ b hb => by
  rw [h] at hb; cases hb

/-- A frame that is not malformed. -/
theorem of_sound {i : Instr} {bytes : List Byte} (h : encodeFrame i = some bytes) (hn : ∀ b, i ≠ .malformedFrame b)
    (hs : wellFormed i = true → malformed bytes = false) : Statement i := fun w b hb => by
  rw [h] at hb
  cases hb
  rw [hs w]
  exact ⟨fun e => by simp at e, fun e => e.elim fun x e => (hn x e).elim⟩

/-- The row of a COMMAND frame. -/
theorem of_command {i : Instr} (code : BitVec 5) (c : Cmd) (h : encodeFrame i = some (encodeCommand code c))
    (hn : ∀ b, i ≠ .malformedFrame b) (hs : wellFormed i = true → payloadFits c.payload = true) : Statement i :=
  of_sound h hn fun w => encodeCommand_sound code c (hs w)

theorem powerOnResetAssert : Statement .powerOnResetAssert := of_event rfl
theorem powerOnResetRelease : Statement .powerOnResetRelease := of_event rfl
theorem malformedFrame (bytes : List Byte) : Statement (.malformedFrame bytes) := fun w b hb => by
  cases hb
  exact ⟨fun _ => ⟨_, rfl⟩, fun _ => w⟩
theorem statusFrame (f : Frame) : Statement (.statusFrame f) :=
  of_sound rfl (fun _ e => by cases e) fun w => encodeClass_sound _ f 0 w (fun e => by cases e) (.inr rfl)
theorem fixFrame (f : Frame) : Statement (.fixFrame f) :=
  of_sound rfl (fun _ e => by cases e) fun w => by
    have h : f.payload.length = 17 := of_decide_eq_true w
    exact encodeClass_sound _ f 0 (by simp [payloadFits, h]) (fun _ => h) (.inr rfl)
theorem staleTimerExpiry : Statement .staleTimerExpiry := of_event rfl
theorem lostTimerExpiry : Statement .lostTimerExpiry := of_event rfl
theorem groundSpeedPulse : Statement .groundSpeedPulse := of_event rfl
theorem speedWindowEnd : Statement .speedWindowEnd := of_event rfl
theorem workSwitchLevelChange (level : SwitchLevel) : Statement (.workSwitchLevelChange level) := of_event rfl
theorem workSwitchChange : Statement .workSwitchChange := of_event rfl
theorem holeEvent (row : RowId) : Statement (.holeEvent row) := of_event rfl
theorem sensedSeed (row : RowId) : Statement (.sensedSeed row) := of_event rfl
theorem occlusionEnd (row : RowId) : Statement (.occlusionEnd row) := of_event rfl
theorem occlusionTimerExpiry (row : RowId) : Statement (.occlusionTimerExpiry row) := of_event rfl
theorem entryExpiry (row : RowId) : Statement (.entryExpiry row) := of_event rfl
theorem stallTimerExpiry (row : RowId) : Statement (.stallTimerExpiry row) := of_event rfl
theorem syntheticHoleEvent (row : RowId) : Statement (.syntheticHoleEvent row) := of_event rfl
theorem syntheticSensedSeed (row : RowId) : Statement (.syntheticSensedSeed row) := of_event rfl
theorem conversionComplete (code : AdcCode) : Statement (.conversionComplete code) := of_event rfl
theorem dataFrame (f : Frame) : Statement (.dataFrame f) :=
  of_sound rfl (fun _ e => by cases e) fun w => encodeClass_sound _ f 0 w (fun e => by cases e) (.inr rfl)
theorem fetchFrame (f : Frame) (after : Nat) : Statement (.fetchFrame f after) :=
  of_sound rfl (fun _ e => by cases e) fun w => encodeClass_sound _ f after w (fun e => by cases e) (.inl rfl)
theorem dataTimeout : Statement .dataTimeout := of_event rfl
theorem scbReadStep : Statement .scbReadStep := of_event rfl
theorem badCommand (code : BitVec 5) (c : Cmd) : Statement (.badCommand code c) :=
  of_command code c rfl (fun _ e => by cases e) fun w => (Bool.and_eq_true_iff.mp w).1
theorem idn (c : Cmd) : Statement (.idn c) := of_command _ c rfl (fun _ e => by cases e) fun w => w
theorem abrt (c : Cmd) : Statement (.abrt c) := of_command _ c rfl (fun _ e => by cases e) fun w => w
theorem rstr (c : Cmd) : Statement (.rstr c) := of_command _ c rfl (fun _ e => by cases e) fun w => w
theorem seti (c : Cmd) : Statement (.seti c) := of_command _ c rfl (fun _ e => by cases e) fun w => w
theorem setrConfigure (c : Cmd) : Statement (.setrConfigure c) := of_command _ c rfl (fun _ e => by cases e) fun w => (Bool.and_eq_true_iff.mp w).1
theorem setrRemove (c : Cmd) : Statement (.setrRemove c) := of_command _ c rfl (fun _ e => by cases e) fun w => (Bool.and_eq_true_iff.mp w).1
theorem sete (c : Cmd) : Statement (.sete c) := of_command _ c rfl (fun _ e => by cases e) fun w => w
theorem setf (c : Cmd) : Statement (.setf c) := of_command _ c rfl (fun _ e => by cases e) fun w => w
theorem strtField (c : Cmd) : Statement (.strtField c) := of_command _ c rfl (fun _ e => by cases e) fun w => (Bool.and_eq_true_iff.mp w).1
theorem strtShadow (c : Cmd) : Statement (.strtShadow c) := of_command _ c rfl (fun _ e => by cases e) fun w => (Bool.and_eq_true_iff.mp w).1
theorem stop (c : Cmd) : Statement (.stop c) := of_command _ c rfl (fun _ e => by cases e) fun w => w
theorem prim (c : Cmd) : Statement (.prim c) := of_command _ c rfl (fun _ e => by cases e) fun w => w
theorem setl (c : Cmd) : Statement (.setl c) := of_command _ c rfl (fun _ e => by cases e) fun w => w
theorem ldc (c : Cmd) : Statement (.ldc c) := of_command _ c rfl (fun _ e => by cases e) fun w => w
theorem pchSeedTarget (c : Cmd) : Statement (.pchSeedTarget c) := of_command _ c rfl (fun _ e => by cases e) fun w => (Bool.and_eq_true_iff.mp (Bool.and_eq_true_iff.mp w).1).1
theorem pchFertTarget (c : Cmd) : Statement (.pchFertTarget c) := of_command _ c rfl (fun _ e => by cases e) fun w => (Bool.and_eq_true_iff.mp w).1
theorem pchNoApply (c : Cmd) : Statement (.pchNoApply c) := of_command _ c rfl (fun _ e => by cases e) fun w => (Bool.and_eq_true_iff.mp w).1
theorem mrgAdd (c : Cmd) : Statement (.mrgAdd c) := of_command _ c rfl (fun _ e => by cases e) fun w => (Bool.and_eq_true_iff.mp w).1
theorem mrgRemove (c : Cmd) : Statement (.mrgRemove c) := of_command _ c rfl (fun _ e => by cases e) fun w => (Bool.and_eq_true_iff.mp w).1
theorem qryExact (c : Cmd) : Statement (.qryExact c) := of_command _ c rfl (fun _ e => by cases e) fun w => (Bool.and_eq_true_iff.mp w).1
theorem qryNext (c : Cmd) : Statement (.qryNext c) := of_command _ c rfl (fun _ e => by cases e) fun w => (Bool.and_eq_true_iff.mp w).1
theorem rtc (c : Cmd) : Statement (.rtc c) := of_command _ c rfl (fun _ e => by cases e) fun w => w
theorem swp (c : Cmd) : Statement (.swp c) := of_command _ c rfl (fun _ e => by cases e) fun w => w
theorem rms (c : Cmd) : Statement (.rms c) := of_command _ c rfl (fun _ e => by cases e) fun w => w
theorem scb (c : Cmd) : Statement (.scb c) := of_command _ c rfl (fun _ e => by cases e) fun w => w
theorem rss (c : Cmd) : Statement (.rss c) := of_command _ c rfl (fun _ e => by cases e) fun w => w
theorem eve (c : Cmd) : Statement (.eve c) := of_command _ c rfl (fun _ e => by cases e) fun w => w
theorem ack (c : Cmd) : Statement (.ack c) := of_command _ c rfl (fun _ e => by cases e) fun w => w
theorem rhc (c : Cmd) : Statement (.rhc c) := of_command _ c rfl (fun _ e => by cases e) fun w => w
theorem rrw (c : Cmd) : Statement (.rrw c) := of_command _ c rfl (fun _ e => by cases e) fun w => w
theorem rmo (c : Cmd) : Statement (.rmo c) := of_command _ c rfl (fun _ e => by cases e) fun w => w

end Laws.WireForm

end Sys2Proof
end

