-- ==== Sys2Proof/Laws/Receive.lean ====
section
/-! SUPPORT. What the reception of a frame does: taken, refused, discarded or ignored (R166, R167, R171, R178). -/

namespace Sys2Proof.Machine

/-! ## Frames of any class -/

/-- A frame of `n` byte times, at least one, shifts out the status byte and zeros. -/
theorem shiftOut_eq (s : State) {n : Nat} (h : 0 < n) : s.shiftOut n = s.shifted n := by
  obtain ⟨m, rfl⟩ : ∃ m, n = m + 1 := ⟨n - 1, by omega⟩
  simp [State.shiftOut, State.shifted, State.setLnk]

theorem arrive_inReset {c : FrameClass} {low : BitVec 5} {p : List Byte} {x : Byte} {after : Nat}
    {taken : State → State} {s : State} (h : s.inReset = true) : arrive c low p x after taken s = s := by
  simp [arrive, h]

/-- A frame with a right length and check byte is taken. -/
theorem arrive_taken {c : FrameClass} {low : BitVec 5} {p : List Byte} {x : Byte} {after : Nat}
    {taken : State → State} {s : State} (h : s.inReset = false) (hl : badLengthFor c p = false)
    (hx : x = frameCheck (header c low) p) :
    arrive c low p x after taken s = taken (s.shifted (3 + p.length + after)) := by
  unfold arrive
  rw [if_neg (by simp [h])]
  simp only [hl, Bool.false_eq_true, if_false]
  rw [if_pos hx, shiftOut_eq s (by omega)]

/-- A malformed frame, or one with a wrong check byte, is discarded. -/
theorem arrive_discarded {c : FrameClass} {low : BitVec 5} {p : List Byte} {x : Byte} {after : Nat}
    {taken : State → State} {s : State} (h : s.inReset = false)
    (hx : badLengthFor c p = true ∨ x ≠ frameCheck (header c low) p) :
    arrive c low p x after taken s = (s.shifted (3 + p.length + after)).discard (decide (c = .command)) := by
  unfold arrive
  rw [if_neg (by simp [h])]
  rw [shiftOut_eq s (by omega)]
  cases hl : badLengthFor c p with
  | true => simp
  | false =>
    have : x ≠ frameCheck (header c low) p := by simpa [hl] using hx
    simp [this]

/-- Whatever is true of an ignored, a discarded and a taken frame is true of every frame that arrives. -/
theorem arrive_induct {P : State → Prop} {c : FrameClass} {low : BitVec 5} {p : List Byte} {x : Byte} {after : Nat}
    {taken : State → State} {s : State} (h0 : P s)
    (h1 : s.inReset = false → P ((s.shifted (3 + p.length + after)).discard (decide (c = .command))))
    (h2 : s.inReset = false → badLengthFor c p = false → P (taken (s.shifted (3 + p.length + after)))) :
    P (arrive c low p x after taken s) := by
  cases h : s.inReset with
  | true => rw [arrive_inReset h]; exact h0
  | false =>
    by_cases hx : badLengthFor c p = true ∨ x ≠ frameCheck (header c low) p
    · rw [arrive_discarded h hx]; exact h1 h
    · rw [not_or, Bool.not_eq_true, not_not] at hx
      rw [arrive_taken h hx.1 hx.2]; exact h2 h hx.1

/-! ## COMMAND frames -/

theorem badLengthFor_command (p : List Byte) : badLengthFor .command p = decide (250 < p.length) := by
  simp [badLengthFor]

theorem shifted_busy (s : State) (n : Nat) : (s.shifted n).busy = s.busy := rfl

theorem State.busy_iff (s : State) : s.busy = true ↔ s.cmu.progress ≠ .idle := by
  unfold State.busy
  split <;> simp_all

theorem accept_shifted (s : State) (c : Cmd) : (s.shifted (3 + c.payload.length + 0)).accept = s.begun c := by
  simp only [State.accept, State.shifted, State.begun, State.setLnk]
  congr 4
  omega

/-- A command taken in IDLE runs its meaning from the state `begun`. -/
theorem takeCommand_taken {code : BitVec 5} {c : Cmd} {run : List Byte → State → State} {s : State}
    (h : s.takes code c) : takeCommand code c run s = run c.payload (s.begun c) := by
  obtain ⟨hr, hp, hl, hx⟩ := h
  have hb : s.busy = false := by simp [State.busy, hp]
  unfold takeCommand
  rw [arrive_taken hr (by rw [badLengthFor_command]; simp [hl]) hx]
  rw [if_neg (by simp [shifted_busy, hb]), accept_shifted]

/-- A COMMAND frame while a command is in progress is refused. -/
theorem takeCommand_refused {code : BitVec 5} {c : Cmd} {run : List Byte → State → State} {s : State}
    (hr : s.inReset = false) (hp : s.cmu.progress ≠ .idle) (h : c.right code) :
    takeCommand code c run s = (s.shifted (3 + c.payload.length)).refuse := by
  unfold takeCommand
  rw [arrive_taken hr (by rw [badLengthFor_command]; simp [h.1]) h.2, if_pos]
  · rfl
  · rw [shifted_busy, State.busy_iff]; exact hp

/-- ABRT and RSTR are taken in IDLE, and with an empty payload in every state of the Command Unit. -/
theorem takeAlways_taken {code : BitVec 5} {c : Cmd} {run : List Byte → State → State} {s : State}
    (hr : s.inReset = false) (h : c.right code) (hp : s.cmu.progress = .idle ∨ c.payload = []) :
    takeAlways code c run s = run c.payload (s.begun c) := by
  unfold takeAlways
  rw [arrive_taken hr (by rw [badLengthFor_command]; simp [h.1]) h.2, if_neg, accept_shifted]
  rw [shifted_busy, State.busy_iff]
  rintro ⟨g1, g2⟩
  exact hp.elim g1 g2

theorem takeAlways_refused {code : BitVec 5} {c : Cmd} {run : List Byte → State → State} {s : State}
    (hr : s.inReset = false) (h : c.right code) (hp : s.cmu.progress ≠ .idle) (hn : c.payload ≠ []) :
    takeAlways code c run s = (s.shifted (3 + c.payload.length)).refuse := by
  unfold takeAlways
  rw [arrive_taken hr (by rw [badLengthFor_command]; simp [h.1]) h.2, if_pos]
  · rfl
  · rw [shifted_busy, State.busy_iff]; exact ⟨hp, hn⟩

/-- Whatever is true of an ignored, a discarded, a refused and a taken command is true of every one that arrives. -/
theorem takeCommand_induct {P : State → Prop} {code : BitVec 5} {c : Cmd} {run : List Byte → State → State}
    {s : State} (h0 : P s) (h1 : s.inReset = false → P ((s.shifted (3 + c.payload.length)).discard true))
    (h2 : s.inReset = false → s.cmu.progress ≠ .idle → P (s.shifted (3 + c.payload.length)).refuse)
    (h3 : s.inReset = false → s.cmu.progress = .idle → P (run c.payload (s.begun c))) :
    P (takeCommand code c run s) := by
  unfold takeCommand
  refine arrive_induct h0 (fun h => by simpa using h1 h) fun h _ => ?_
  split
  · rename_i hb; rw [shifted_busy, State.busy_iff] at hb; exact h2 h hb
  · rename_i hb
    rw [accept_shifted]
    rw [shifted_busy, State.busy_iff, not_not] at hb
    exact h3 h hb

theorem takeAlways_induct {P : State → Prop} {code : BitVec 5} {c : Cmd} {run : List Byte → State → State}
    {s : State} (h0 : P s) (h1 : s.inReset = false → P ((s.shifted (3 + c.payload.length)).discard true))
    (h2 : s.inReset = false → s.cmu.progress ≠ .idle → P (s.shifted (3 + c.payload.length)).refuse)
    (h3 : s.inReset = false → P (run c.payload (s.begun c))) :
    P (takeAlways code c run s) := by
  unfold takeAlways
  refine arrive_induct h0 (fun h => by simpa using h1 h) fun h _ => ?_
  split
  · rename_i hb; rw [shifted_busy, State.busy_iff] at hb; exact h2 h hb.1
  · rw [accept_shifted]; exact h3 h

theorem withLength_right {n : Nat} {run : List Byte → State → State} {p : List Byte} {s : State} (h : p.length = n) :
    withLength n run p s = run p s := by simp [withLength, h]

theorem withLength_wrong {n : Nat} {run : List Byte → State → State} {p : List Byte} {s : State} (h : p.length ≠ n) :
    withLength n run p s = s.complete (.plain .badLength) := by simp [withLength, h]

theorem whenReleased_released {f : State → State} {s : State} (h : s.inReset = false) : whenReleased f s = f s := by
  simp [whenReleased, h]

theorem whenReleased_inReset {f : State → State} {s : State} (h : s.inReset = true) : whenReleased f s = s := by
  simp [whenReleased, h]

end Sys2Proof.Machine
end

