-- ==== Sys2Proof/Tests/Slice0.lean ====
section
/-! SUPPORT. Tests of the model: the checks of `wellFormed`, frames written out from the spec's layouts, one step of each
command on small states with the spec's own numbers, and, for every statement with hypotheses, states and operands that
meet them. -/

open Sys2Proof Sys2Proof.Machine

set_option Elab.async false

namespace Sys2Proof.Tests

/-! ## Small states -/

/-- The state an outcome answers; the state after power-on stands in for a stop. -/
def after : Host.Outcome State Fault Refusal → State
  | .next s => s
  | _ => State.reset

/-- The outcome is a next state. -/
def goesOn : Host.Outcome State Fault Refusal → Bool
  | .next _ => true
  | _ => false

theorem goesOn_next : ∀ {o : Host.Outcome State Fault Refusal}, goesOn o = true → o = .next (after o)
  | .next _, _ => rfl

/-- A state after a list of commands. -/
def run (s : State) (l : List Instr) : State :=
  l.foldl (fun t i => after (exec i t)) s

/-- A COMMAND frame with a right check byte. -/
def cmd (code : BitVec 5) (p : List Byte) : Cmd :=
  ⟨p, frameCheck (header .command code) p⟩

/-- A frame of another class with a right check byte. -/
def frm (c : FrameClass) (p : List Byte) : Frame :=
  ⟨0, p, frameCheck (header c 0) p⟩

/-- A FIX payload. -/
def fixOf (e n hE hN omega speed : Int) (quality : Byte) : List Byte :=
  leIntBytes 4 e ++ leIntBytes 4 n ++ leIntBytes 2 hE ++ leIntBytes 2 hN ++ leIntBytes 2 omega ++ leIntBytes 2 speed
    ++ [quality]

/-- A SETI payload of the defaults with a cell side. -/
def settings (side : Nat) : List Byte :=
  leBytes 2 side ++ [0, 1] ++ leBytes 2 13000 ++ [1] ++ leBytes 2 1000 ++ leBytes 2 5000 ++ [1] ++ leBytes 2 300
    ++ leBytes 2 500 ++ [1, 1] ++ leBytes 2 250 ++ leBytes 2 250 ++ [24, 28] ++ leBytes 2 2000

/-- A SETR CONFIGURE payload: lat 0, fa 100, band width 76, 32 holes, s_max 2000, zero code 205, flows 60,000 and 40,000. -/
def context (row channel : Byte) : List Byte :=
  [row, 0] ++ leIntBytes 2 0 ++ leBytes 2 100 ++ [76, 32] ++ leBytes 2 2000 ++ [channel] ++ leBytes 2 205
    ++ leBytes 4 60000 ++ leBytes 4 40000

/-- A transferred record with targets. -/
def record (k : Key) (seed fert : Nat) : List Byte :=
  keyBytes k ++ leBytes 2 seed ++ leBytes 2 fert ++ List.replicate 20 0

/-- A payload with a seed target of 850 and a fertiliser target of 500. -/
def plain : Payload :=
  { seedTarget := 850, fertTarget := 500, noApply := false, seedCov := ⟨0, 0⟩, fertCov := ⟨0, 0⟩
    placed := 0, skips := 0, extras := 0, applied := 0, bits := .clean }

/-- Rows 1 (with channel 0) and 2 (with none) configured. -/
def board : State :=
  run State.reset
    [.seti (cmd Op.seti (settings 200)), .setrConfigure (cmd Op.setr (context 1 0)),
      .setrConfigure (cmd Op.setr (context 2 255))]

/-- The board with two records and a poisoned one in the store. -/
def stocked : State :=
  { board with cst :=
    { board.cst with records := [⟨⟨0, 0⟩, some plain⟩, ⟨⟨1, 0⟩, some plain⟩, ⟨⟨0, 1⟩, none⟩], poisonedCount := 1 } }

/-- A fix heading north at 2.5 m/s puts every point of both rows into cell (0, 0). -/
def placedRows : State :=
  run stocked [.fixFrame (frm .fix (fixOf 100 100 0 16384 0 2500 3))]

/-- FIELD, with both rows running. -/
def field : State :=
  run placedRows [.strtField (cmd Op.strt [1])]

/-- SHADOW, with both rows running. -/
def shadow : State :=
  run placedRows [.strtShadow (cmd Op.strt [2])]

/-- A state at a moment. -/
def at' (s : State) (now : Nat) : State :=
  { s with now := now }

/-- A row of a state, or a blank row. -/
def rowAt (s : State) (r : RowId) : Row :=
  (s.row r).getD
    { ctx := ⟨0, 0, 0, 0, 0, none, 0, 0, 0, false⟩
      vr := 0
      seed := { point := none, prevCell := none, view := blankView, state := .lane .parked, q := 0, s := 0
                limited := false, drive := 0 }
      fert := none
      sfm := Flight.fresh .clear 0 }

/-- The fertiliser lane of row 1 of a state. -/
def lane (s : State) : FertLane :=
  (rowAt s 0).fert.getD
    { look := none, prevCell := none, drop := none, view := blankView, state := .parked, f := 0, ff := 0, duty := 0
      limited := false, valve := 0, flow := ⟨0, none, 0, 0, 0, 0, false, false, false⟩ }

/-! ## `wellFormed` refuses the bytes of another row -/

theorem test_wellFormed_malformed : wellFormed (.malformedFrame [0xA0, 0, 0]) = false := by decide +kernel
theorem test_wellFormed_status : wellFormed (.statusFrame (frm .status (List.replicate 251 0))) = false := by decide +kernel
theorem test_wellFormed_fix : wellFormed (.fixFrame (frm .fix [])) = false := by decide +kernel
theorem test_wellFormed_data : wellFormed (.dataFrame (frm .data (List.replicate 251 0))) = false := by decide +kernel
theorem test_wellFormed_fetch : wellFormed (.fetchFrame (frm .fetch (List.replicate 251 0)) 0) = false := by decide +kernel
theorem test_wellFormed_badCommand :
    wellFormed (.badCommand Op.idn (cmd Op.idn [])) = false
      ∧ wellFormed (.badCommand 0 (cmd 0 (List.replicate 251 0))) = false := by decide +kernel
theorem test_wellFormed_setr :
    wellFormed (.setrConfigure (cmd Op.setr [1, 1])) = false ∧ wellFormed (.setrRemove (cmd Op.setr [1, 0])) = false := by
  decide +kernel
theorem test_wellFormed_strt :
    wellFormed (.strtField (cmd Op.strt [2])) = false ∧ wellFormed (.strtShadow (cmd Op.strt [1])) = false := by
  decide +kernel
theorem test_wellFormed_pch :
    wellFormed (.pchSeedTarget (cmd Op.pch [0, 0, 0, 0, 1, 0, 0])) = false
      ∧ wellFormed (.pchFertTarget (cmd Op.pch [0, 0, 0, 0, 2, 0, 0])) = false
      ∧ wellFormed (.pchNoApply (cmd Op.pch [0, 0, 0, 0, 0, 0, 0])) = false := by decide +kernel
theorem test_wellFormed_mrg :
    wellFormed (.mrgAdd (cmd Op.mrg [0, 0, 0, 0, 1, 0, 0, 0, 0])) = false
      ∧ wellFormed (.mrgRemove (cmd Op.mrg [0, 0, 0, 0, 0, 0, 0, 0, 0])) = false := by decide +kernel
theorem test_wellFormed_qry :
    wellFormed (.qryExact (cmd Op.qry [0, 0, 0, 0, 1])) = false
      ∧ wellFormed (.qryNext (cmd Op.qry [0, 0, 0, 0, 0])) = false := by decide +kernel
/-- The commands of one row each are refused by a payload that no length byte gives. -/
theorem test_wellFormed_lengths :
    ([.idn, .abrt, .rstr, .seti, .setrConfigure, .setrRemove, .sete, .setf, .strtField, .strtShadow, .stop, .prim, .setl, .ldc,
        .pchSeedTarget, .pchFertTarget, .pchNoApply, .mrgAdd, .mrgRemove, .qryExact, .qryNext, .rtc, .swp, .rms, .scb, .rss,
        .eve, .ack, .rhc, .rrw, .rmo] : List (Cmd → Instr)).all
      (fun f => !wellFormed (f (cmd 0 (List.replicate 251 0)))) = true := by decide +kernel

/-! ## Frames written out from the layouts of R167, R179 and R180 -/

/-- Check bytes worked out apart from the model, by shifting the register of R167. -/
theorem test_check_bytes :
    crc8 [0x21, 0] = 0x1B ∧ crc8 [0x28, 1, 2] = 0x41 ∧ crc8 [0xA0, 0] = 0xF5 := by decide +kernel
theorem test_frames_read :
    decodeFrame [0x21, 0, 0xAB] = .idn ⟨[], 0xAB⟩
      ∧ decodeFrame [0x28, 1, 2, 0xAB] = .strtShadow ⟨[2], 0xAB⟩
      ∧ decodeFrame [0x25, 2, 7, 1, 0xAB] = .setrRemove ⟨[7, 1], 0xAB⟩
      ∧ decodeFrame [0x33, 5, 1, 0, 255, 255, 1, 0xAB] = .qryNext ⟨[1, 0, 255, 255, 1], 0xAB⟩
      ∧ decodeFrame [0x3F, 0, 0xAB] = .badCommand 0x1F ⟨[], 0xAB⟩
      ∧ decodeFrame [0x45, 0, 0xAB] = .dataFrame ⟨5, [], 0xAB⟩
      ∧ decodeFrame [0x60, 0, 0xAB, 1, 2, 3] = .fetchFrame ⟨0, [], 0xAB⟩ 3
      ∧ decodeFrame [0xA0, 0, 0xAB] = .statusFrame ⟨0, [], 0xAB⟩
      ∧ decodeFrame ([0x80, 17] ++ List.replicate 18 9) = .fixFrame ⟨0, List.replicate 17 9, 9⟩ := by decide +kernel
theorem test_malformed_frames :
    decodeFrame [0x21, 0] = .malformedFrame [0x21, 0] ∧ decodeFrame [0x21, 0, 1, 2] = .malformedFrame [0x21, 0, 1, 2]
      ∧ decodeFrame [0xC0, 0, 1] = .malformedFrame [0xC0, 0, 1] ∧ decodeFrame [0x80, 0, 1] = .malformedFrame [0x80, 0, 1]
      ∧ decodeFrame [0x21, 251] = .malformedFrame [0x21, 251] := by decide +kernel

/-! ## The spec's own numbers -/

/-- R2, R3: a west edge belongs to its cell, and a position below 0 to the cell beyond. -/
theorem test_cells :
    cellOf .cm200 ⟨-1, 200⟩ = ⟨-1, 1⟩ ∧ subOf .cm200 ⟨-1, 250⟩ = ⟨3, 1⟩ ∧ cellOf .cm100 ⟨3000000, 99⟩ = ⟨30000, 0⟩ := by
  decide +kernel
/-- R53: mirror cases both run at 2065. -/
theorem test_rowSpeed : rowSpeed 2500 (-37) 1178 = 2065 ∧ rowSpeed 2500 37 (-1178) = 2065 := by decide +kernel
/-- R34: 1, 33 and 130 pulses at K = 13,000. -/
theorem test_rawSpeed : rawSpeed 1 13000 = 76 ∧ rawSpeed 33 13000 = 2538 ∧ rawSpeed 130 13000 = 10000 := by
  decide +kernel
/-- R39: under LIGHT two windows of raw 2500 from 0 give 1875. -/
theorem test_filter : filteredAfter .light 2500 (filteredAfter .light 2500 0) = 1875 := by decide +kernel
/-- R67, R69: the largest rates. -/
theorem test_rates : seedRate 6000 152 10000 = 912000 ∧ flowWanted 4000 152 10000 = 608000 := by decide +kernel
/-- R71: the trim is added to the clamped feed-forward duty, and the sum clamped. -/
theorem test_duty : valveDutyOf 1 1000 (-30) = 970 ∧ valveDutyOf 1 990 40 = 1000 ∧ valveDutyOf 0 0 200 = 0 := by
  decide +kernel
/-- R74: at a full flow of 40,000 errors below 320 leave the trim, and 320 moves it by one. -/
theorem test_trim : trimmed 5 319 0 40000 = 5 ∧ trimmed 5 320 0 40000 = 6 ∧ trimmed 5 0 320 40000 = 4 := by
  decide +kernel
/-- R129: at most 200,000 µL in one credit. -/
theorem test_volume : volumeOf 200000 1000 = 200000 := by decide +kernel

/-! ## One command each -/

theorem test_power_on_reset :
    (run field [.powerOnResetAssert]).inReset = true
      ∧ (rowAt (run field [.powerOnResetAssert]) 0).seed.drive = 0
      ∧ (run field [.powerOnResetAssert, .powerOnResetRelease]).cst.records = [] := by decide +kernel
theorem test_malformed :
    (run board [.malformedFrame [0x21]]).lnk.rejected = true ∧ (run board [.malformedFrame [0xA0]]).lnk.rejected = false := by
  decide +kernel
theorem test_status : (run field [.statusFrame (frm .status [])]).lnk.dataOut = [0x12, 0, 0] := by decide +kernel
/-- R29: (16,500, 3,000) passes the length test after its clamp; (12,000, 3,000) does not. -/
theorem test_fix :
    ((run board [.fixFrame (frm .fix (fixOf 0 0 16500 3000 0 0 1))]).mot.fix.map (·.hE)) = some 16384
      ∧ (run board [.fixFrame (frm .fix (fixOf 0 0 12000 3000 0 0 1))]).mot.fix = none := by decide +kernel
/-- R55, R56 at 2500 mm/s: the look-ahead distances are 75 and 125 cm, and the points lie 100 cm behind those. -/
theorem test_fix_points :
    (rowAt placedRows 0).seed.point = some ⟨100, 75⟩ ∧ (lane placedRows).look = some ⟨100, 125⟩
      ∧ (lane placedRows).drop = some ⟨100, 0⟩ := by decide +kernel
theorem test_fix_timers :
    (run (at' placedRows 1000) [.staleTimerExpiry]).mot.fixState = .stale
      ∧ (run (at' placedRows 5000) [.staleTimerExpiry, .lostTimerExpiry]).mot.fixState = .lost := by decide +kernel
theorem test_speed_window :
    (run (at' board 100) [.groundSpeedPulse, .speedWindowEnd]).mot.filtered = 38
      ∧ (run (at' board 99) [.groundSpeedPulse, .speedWindowEnd]).mot.pulses = 1 := by decide +kernel
theorem test_work_switch :
    (run { run field [.workSwitchLevelChange .lifted] with now := 50 } [.workSwitchChange]).mot.switch = .lifted
      ∧ (rowAt (run { run field [.workSwitchLevelChange .lifted] with now := 50 } [.workSwitchChange]) 0).seed.state
        = .lane .parked := by decide +kernel
theorem test_hole_event :
    ((rowAt (run field [.holeEvent 0]) 0).sfm.queue.map (·.deadline)) = [250]
      ∧ (run field [.holeEvent 0]).refCount ⟨0, 0⟩ = field.refCount ⟨0, 0⟩ + 1 := by decide +kernel
/-- R20: a matched credit marks the sub-square of the look-ahead point, (2, 1), bit 6. -/
theorem test_sensed_seed :
    ((run field [.holeEvent 0, .sensedSeed 0]).cst.payload ⟨0, 0⟩).map (fun p => (p.placed, p.seedCov.fresh.toNat))
      = some (1, 64)
      ∧ ((run field [.sensedSeed 0]).cst.payload ⟨0, 0⟩).map (·.extras) = some 1 := by decide +kernel
theorem test_occlusion :
    (rowAt (run { run field [.sensedSeed 0] with now := 500 } [.occlusionTimerExpiry 0]) 0).sfm.stuck = true
      ∧ (rowAt (run { run field [.sensedSeed 0] with now := 500 } [.occlusionTimerExpiry 0, .occlusionEnd 0]) 0).sfm.stuck
        = false := by decide +kernel
theorem test_entry_expiry :
    ((run { run field [.holeEvent 0] with now := 250 } [.entryExpiry 0]).cst.payload ⟨0, 0⟩).map (·.skips) = some 1 := by
  decide +kernel
theorem test_stall : (rowAt (run (at' field 2000) [.stallTimerExpiry 0]) 0).sfm.stalled = true := by
  decide +kernel
/-- R119: 504 millirevolutions per second and 32 holes add 16,128 each millisecond. -/
theorem test_synthesis :
    (rowAt (tick shadow) 0).sfm.synth = 16128
      ∧ (rowAt (run (shadow.setRow 0 (some { rowAt shadow 0 with sfm := { (rowAt shadow 0).sfm with synth := 1000001 } }))
          [.syntheticHoleEvent 0]) 0).sfm.synth = 1 := by decide +kernel
theorem test_synthetic_sensed_seed :
    (rowAt (run (at' (shadow.setRow 0 (some { rowAt shadow 0 with sfm :=
          { (rowAt shadow 0).sfm with queue := [⟨0, 250, none⟩] } })) 125) [.syntheticSensedSeed 0]) 0).sfm.queue = [] := by
  decide +kernel
/-- R73: code 2150 is half of the span above 205: (2150 − 205) × 60,000 / 3890 = 30,000. -/
theorem test_conversion :
    (lane (run (at' field 2) [.conversionComplete 2150])).flow.lastFlow = 30000
      ∧ (run (at' field 2) [.conversionComplete 2150]).fsc.inFlight = some ⟨0, 2⟩ := by decide +kernel
theorem test_ldc :
    (run board [.ldc (cmd Op.ldc [1]), .dataFrame (frm .data (record ⟨0, 0⟩ 7000 500))]).cmu.completion
      = some (.counts .clamped 1 0) := by decide +kernel
theorem test_swp_fetch :
    ((run stocked [.swp (cmd Op.swp [0, 0, 0, 0, 0, 0, 0, 0, 1]), .fetchFrame (frm .fetch []) 31]).cmu.completion.map
      fun k => (k.count1, k.key)) = some (1, some ⟨1, 0⟩) := by decide +kernel
theorem test_data_timeout :
    ((run { run board [.ldc (cmd Op.ldc [0])] with now := 1000 } [.dataTimeout]).cmu.completion)
      = some (.counts .timedOut 0 64) := by decide +kernel
theorem test_scb :
    (run { run stocked [.scb (cmd Op.scb [])] with now := 1 } [.scbReadStep]).cmu.progress = .scb (some ⟨0, 0⟩) 1 2 := by
  decide +kernel
theorem test_badCommand :
    (run board [.badCommand 0x1F (cmd 0x1F [])]).cmu.completion = some (.plain .badCommand) := by decide +kernel
theorem test_idn :
    ((run board [.idn (cmd Op.idn [])]).cmu.completion.map (·.payload))
      = some [0x17, 0x2B, 0xBC, 0x0C, 1, 0, 4, 32, 8, 13] := by decide +kernel
theorem test_abrt :
    (run board [.ldc (cmd Op.ldc [3]), .abrt (cmd Op.abrt [])]).cmu.completion = some (.counts .aborted 0 3) := by
  decide +kernel
theorem test_rstr :
    (run field [.rstr (cmd Op.rstr [])]).cmu.mode = .idle ∧ (run field [.rstr (cmd Op.rstr [])]).mot.fixState = .noFix := by
  decide +kernel
theorem test_seti :
    (run stocked [.seti (cmd Op.seti (settings 100))]).cmu.completion = some (.plain .storeNotEmpty)
      ∧ (run board [.seti (cmd Op.seti (settings 300))]).cmu.completion = some (.badField 1) := by decide +kernel
theorem test_setr :
    (run board [.setrConfigure (cmd Op.setr (context 3 0))]).cmu.completion = some (.badField 8)
      ∧ (run board [.setrRemove (cmd Op.setr [1, 1])]).cmu.completion = some (.counts .ok 1 0) := by decide +kernel
theorem test_sete :
    (run field [.sete (cmd Op.sete [2, 0, 0, 0])]).cmu.completion = some (.counts .ok 1 1)
      ∧ (rowAt (run field [.sete (cmd Op.sete [2, 0, 0, 0])]) 0).seed.state = .lane .parked := by decide +kernel
theorem test_setf :
    (run board [.setf (cmd Op.setf [0x58, 0x1B, 1, 0])]).cmu.completion = some (.counts .clamped 6000 1) := by decide +kernel
theorem test_strt :
    (run State.reset [.strtField (cmd Op.strt [1])]).cmu.completion = some (.plain .notReady)
      ∧ (run board [.strtShadow (cmd Op.strt [2])]).cmu.mode = .shadow := by decide +kernel
theorem test_stop :
    (run field [.holeEvent 0, .sensedSeed 0, .stop (cmd Op.stop [])]).cmu.completion = some (.counts .ok 1 0) := by
  decide +kernel
theorem test_prim :
    (rowAt (run board [.prim (cmd Op.prim [1, 0, 0, 0, 5])]) 0).seed.drive = 250
      ∧ (rowAt (run board [.prim (cmd Op.prim [1, 0, 0, 0, 5]), .holeEvent 0]) 0).seed.state = .priming 4 := by decide +kernel
theorem test_setl :
    (run field [.holeEvent 0, .sensedSeed 0, .setl (cmd Op.setl [])]).cmu.completion = some (.counts .ok 1 0) := by
  decide +kernel
theorem test_pch :
    (run stocked [.pchFertTarget (cmd Op.pch [0, 0, 0, 0, 1, 0x88, 0x13])]).cmu.completion
      = some { Completion.counts .clamped 500 4000 with key := some ⟨0, 0⟩ }
      ∧ ((run stocked [.pchNoApply (cmd Op.pch [1, 0, 0, 0, 2, 1, 0])]).cst.payload ⟨1, 0⟩).map (·.noApply) = some true := by
  decide +kernel
theorem test_pch_seed :
    ((run stocked [.pchSeedTarget (cmd Op.pch [1, 0, 0, 0, 0, 1, 2])]).cst.payload ⟨1, 0⟩).map (·.seedTarget)
      = some 513 := by decide +kernel
theorem test_mrg :
    ((run stocked [.mrgAdd (cmd Op.mrg [0, 0, 0, 0, 0, 3, 0, 1, 0])]).cmu.completion.map fun k => (k.count1, k.count2))
      = some (2, 1)
      ∧ ((run stocked [.mrgRemove (cmd Op.mrg [0, 0, 0, 0, 1, 3, 0, 1, 0])]).cmu.completion.map fun k => (k.count1, k.count2))
        = some (0, 0) := by decide +kernel
theorem test_qry :
    ((run stocked [.qryNext (cmd Op.qry [0, 0, 0, 0, 1])]).cmu.completion.map (·.key)) = some (some ⟨1, 0⟩)
      ∧ ((run stocked [.qryExact (cmd Op.qry [2, 0, 0, 0, 0])]).cmu.completion.map (·.code)) = some .notFound := by decide +kernel
theorem test_rtc :
    ((run placedRows [.rtc (cmd Op.rtc [0, 0, 0, 0])]).cmu.completion.map fun k => (k.code, k.count1)) = some (.referenced, 4)
      ∧ (run placedRows [.rtc (cmd Op.rtc [0, 0, 1, 0])]).cst.poisonedCount = 0 := by decide +kernel
theorem test_rms :
    ((run (run board [.fixFrame (frm .fix (fixOf (-50) 0 0 16384 0 0 1))]) [.rms (cmd Op.rms [])]).cmu.completion.map
      (·.payload)) = some [0xFF, 0xFF, 0xFF, 0xFF] := by decide +kernel
theorem test_rss : ((run stocked [.rss (cmd Op.rss [])]).cmu.completion.map (·.count1)) = some 1 := by decide +kernel
theorem test_eve_ack :
    (run board [.eve (cmd Op.eve [2, 0])]).evu.attention = false
      ∧ (run board [.ack (cmd Op.ack [1, 0])]).evu.pending = 0 := by decide +kernel
theorem test_rhc :
    ((run (at' field 2000) [.stallTimerExpiry 0, .rhc (cmd Op.rhc [])]).cmu.completion.map
      fun k => (k.count1, k.count2)) = some (1, 1) := by decide +kernel
theorem test_rrw :
    ((run field [.rrw (cmd Op.rrw [1])]).cmu.completion.map fun k => (k.payload.length, slice k.payload 0 3))
      = some (74, [1, 2, 0]) := by decide +kernel
theorem test_rmo :
    ((run placedRows [.rmo (cmd Op.rmo [])]).cmu.completion.map fun k => slice k.payload 0 6)
      = some [1, 1, 100, 0, 0, 0] := by decide +kernel

/-! ## States and operands that meet the hypotheses of each statement -/

/-- A state with one command waiting. -/
def waiting (s : State) (i : Instr) : State :=
  { s with pending := [i] }

/-- The board in DATA IN, awaiting two records. -/
def loading : State := run board [.ldc (cmd Op.ldc [2])]

/-- The board in DATA OUT, the record of cell (1, 0) offered. -/
def sweeping : State := run stocked [.swp (cmd Op.swp [0, 0, 0, 0, 0, 0, 0, 0, 1])]

/-- The board under SCB. -/
def scrubbing : State := run stocked [.scb (cmd Op.scb [])]

/-- The board with row 1 priming and two holes to go. -/
def priming : State := run board [.prim (cmd Op.prim [1, 0, 0, 0, 2])]

/-- FIELD with the seed tube of row 1 occluded by an extra. -/
def occluded : State := run field [.sensedSeed 0]

/-- FIELD with eight seeds in flight on row 1. -/
def full : State := run field (List.replicate 8 (.holeEvent 0))

/-- What holds of every row can be decided row by row. -/
theorem all_rows {s : State} {p : RowId → Row → Bool} (h : (∀ r : RowId, (s.row r).all (p r) = true)) :
    ∀ r w, s.row r = some w → p r w = true := by
  intro r w e
  have := h r
  rw [e] at this
  exact this

theorem witness_StoreFormIsKept :
    let s := waiting field (.holeEvent 0)
    s.cst.wf ∧ ∃ t, step s = .next t := by
  exact ⟨by decide +kernel, _, goesOn_next (by decide +kernel)⟩

/-- What holds of every row and its number is true of the rows that are not configured too. -/
theorem every_row {p : RowId → Bool} (h : (∀ r : RowId, p r = true)) (r : RowId) : p r = true := h r

theorem witness_RowRangesAreKept :
    let s := waiting field (.holeEvent 0)
    s.cst.wf ∧ s.rowsWf ∧ ∃ t, step s = .next t := by
  refine ⟨by decide +kernel, ⟨all_rows (p := fun _ w => w.wf) (by decide +kernel), fun q r v w ne hv hw hc e => ?_,
    by decide +kernel⟩, _, goesOn_next (by decide +kernel)⟩
  have only := all_rows (s := waiting field (.holeEvent 0))
    (p := fun r w => decide (w.ctx.channel = none) || decide (r = 0)) (by decide +kernel)
  have a := only q v hv
  have b := only r w hw
  rw [← e] at b
  simp only [Bool.or_eq_true, decide_eq_true_eq] at a b
  exact ne ((a.resolve_left hc).trans (b.resolve_left hc).symm)

theorem witness_OutputsStayGated :
    let s := waiting field (.holeEvent 0)
    s.outputsWf ∧ ∃ t, step s = .next t := by
  refine ⟨⟨fun r => ?_, fun r w h => ?_⟩, _, goesOn_next (by decide +kernel)⟩
  · have := every_row
      (p := fun r =>
        decide ((waiting field (.holeEvent 0)).meterPort r
            = ((waiting field (.holeEvent 0)).row r).elim 0 (waiting field (.holeEvent 0)).meterDrive)
          && decide ((waiting field (.holeEvent 0)).valvePort r
            = (((waiting field (.holeEvent 0)).row r).bind (·.fert)).elim 0 (waiting field (.holeEvent 0)).valveOut))
      (by decide +kernel) r
    simp only [Bool.and_eq_true, decide_eq_true_eq] at this
    have e : (waiting field (.holeEvent 0)).inReset = false := by decide +kernel
    simpa [e] using this
  · have := all_rows (s := waiting field (.holeEvent 0))
      (p := fun _ w => decide (50 ≤ w.seed.drive) && w.sfm.stallDue.isSome && !w.priming) (by decide +kernel) r w h
    simp only [Bool.and_eq_true, decide_eq_true_eq, Bool.not_eq_true'] at this
    refine ⟨fun _ => ⟨fun a => absurd a (by omega), fun _ _ => this.1.2⟩, fun e => ?_⟩
    rw [this.2] at e
    cases e

theorem witness_AttentionAndCommandStateAreKept :
    let s := waiting sweeping (.fetchFrame (frm .fetch []) 31)
    s.lineWf ∧ s.commandWf ∧ ∃ t, step s = .next t := by
  refine ⟨?_, ⟨?_, fun w h => ?_⟩, _, goesOn_next (by decide +kernel)⟩
  · unfold State.lineWf
    decide +kernel
  · decide +kernel
  · have e : (waiting sweeping (.fetchFrame (frm .fetch []) 31)).cmu.progress
        = .swp ⟨⟨0, 0, 0, 0⟩, 1, some ⟨1, 0⟩, 0, 0, some ⟨1, 0⟩⟩ := by decide +kernel
    rw [e] at h
    cases h
    exact ⟨rfl, rfl⟩

theorem witness_LanesStayCurrent :
    let s := waiting field (.holeEvent 0)
    s.cst.wf ∧ s.current ∧ ∃ t, step s = .next t := by
  refine ⟨by decide +kernel, fun r w h => ?_, _, goesOn_next (by decide +kernel)⟩
  have := all_rows (s := waiting field (.holeEvent 0))
    (p := fun _ w =>
      decide (w.computed (waiting field (.holeEvent 0)).mot.vRef (waiting field (.holeEvent 0)).mot.yawRef = w)
        && decide (w.seed.view = (waiting field (.holeEvent 0)).viewAt .seed w.seed.point)
        && decide (w.seed.state = .lane ((waiting field (.holeEvent 0)).decided w.ctx.enabled .seed w.seed.view))
        && w.fert.all fun l =>
          decide (l.view = (waiting field (.holeEvent 0)).viewAt .fert l.look)
            && decide (l.state = (waiting field (.holeEvent 0)).decided w.ctx.enabled .fert l.view))
    (by decide +kernel) r w h
  simp only [Bool.and_eq_true, decide_eq_true_eq] at this
  refine ⟨this.1.1.1, this.1.1.2, fun x e => ?_, fun l e => ?_⟩
  · rw [this.1.2] at e
    exact (SeedState.lane.inj e).symm
  · have g := this.2
    rw [e] at g
    simpa [State.fertCurrent] using g

/-- A held record before and after a step: the extra of a sensed seed. -/
theorem witness_TalliesNeverDecrease :
    let s := waiting field (.sensedSeed 0)
    s.cst.wf ∧ step s = .next (after (step s)) ∧ (s.cst.payload ⟨0, 0⟩).map (·.extras) = some 0
      ∧ ((after (step s)).cst.payload ⟨0, 0⟩).map (·.extras) = some 1 :=
  ⟨by decide +kernel, goesOn_next (by decide +kernel), by decide +kernel, by decide +kernel⟩

/-- A record joins, and records leave by each of the three ways. -/
theorem witness_RecordsJoinByLoadAndLeaveUnreferenced :
    (loading.cst.holds ⟨0, 0⟩ = false
        ∧ (after (exec (.dataFrame (frm .data (record ⟨0, 0⟩ 1 1))) loading)).cst.holds ⟨0, 0⟩ = true)
      ∧ (stocked.cst.holds ⟨1, 0⟩ = true ∧ stocked.refCount ⟨1, 0⟩ = 0
        ∧ (after (exec (.rtc (cmd Op.rtc [1, 0, 0, 0])) stocked)).cst.holds ⟨1, 0⟩ = false)
      ∧ (after (exec (.fetchFrame (frm .fetch []) 31) sweeping)).cst.holds ⟨1, 0⟩ = false
      ∧ (after (exec .powerOnResetRelease stocked)).cst.holds ⟨1, 0⟩ = false := by
  decide +kernel

/-- A row before and after a command that leaves its points, a FIX frame, RSTR, and SETR taking the channel away. -/
theorem witness_PointsMoveAtFixesAlone :
    let moved := fun (s : State) (i : Instr) =>
      ((s.row 0).map (·.points.length), ((after (exec i s)).row 0).map (·.points.length))
    moved field (.holeEvent 0) = (some 3, some 3)
      ∧ moved stocked (.fixFrame (frm .fix (fixOf 100 100 0 16384 0 2500 3))) = (some 0, some 3)
      ∧ moved field (.rstr (cmd Op.rstr [])) = (some 3, some 0)
      ∧ moved placedRows (.setrConfigure (cmd Op.setr (context 1 255))) = (some 3, some 1) := by
  decide +kernel

theorem witness_ModeAndSettingsChangeByTheirCommands :
    (after (exec (.strtField (cmd Op.strt [1])) placedRows)).cmu.mode ≠ placedRows.cmu.mode
      ∧ (after (exec (.stop (cmd Op.stop [])) field)).cmu.mode ≠ field.cmu.mode
      ∧ (after (exec (.seti (cmd Op.seti (settings 100))) board)).settings ≠ board.settings
      ∧ (after (exec .powerOnResetRelease (run board [.seti (cmd Op.seti (settings 100))]))).settings
        ≠ (run board [.seti (cmd Op.seti (settings 100))]).settings := by
  decide +kernel

theorem witness_EmptyQueuePassesAMillisecond :
    field.pending = [] ∧ shadow.pending = [] ∧ shadow.cmu.mode = .shadow ∧ shadow.inReset = false := by decide +kernel

theorem witness_FramesReadBackAsTheirRow :
    wellFormed (.rtc (cmd Op.rtc [1, 0, 2, 0])) = true
      ∧ encodeFrame (.rtc (cmd Op.rtc [1, 0, 2, 0])) = some [0x34, 4, 1, 0, 2, 0, (cmd Op.rtc [1, 0, 2, 0]).check]
      ∧ wellFormed (.fetchFrame (frm .fetch []) 2) = true
      ∧ (encodeFrame (.fetchFrame (frm .fetch []) 2)).map (·.length) = some 5 := by decide +kernel

theorem witness_CheckByteTellsOneByte : (0x00 : Byte) ≠ 0xFF := by decide

/-- A FIX frame of a wrong length, a command with a wrong check byte, and a malformed frame. -/
theorem witness_BadFramesAreDiscarded :
    board.inReset = false
      ∧ ((Instr.fixFrame (frm .fix [])).frame = some (.fix, frm .fix [], 0) ∧ badLengthFor .fix (frm .fix []).payload = true)
      ∧ ((Instr.idn ⟨[], 0x1C⟩).frame = some (.command, ⟨Op.idn, [], 0x1C⟩, 0)
        ∧ (0x1C : Byte) ≠ frameCheck (header .command Op.idn) [])
      ∧ malformed [0x21, 0] = true := by decide +kernel

/-- A command refused in DATA IN, and an ABRT refused for its payload. -/
theorem witness_CommandsRefusedWhileBusy :
    (Instr.idn (cmd Op.idn [])).command = some (Op.idn, cmd Op.idn [])
      ∧ (Instr.abrt (cmd Op.abrt [0])).command = some (Op.abrt, cmd Op.abrt [0])
      ∧ loading.inReset = false ∧ loading.cmu.progress ≠ .idle ∧ (cmd Op.idn []).right Op.idn
      ∧ (cmd Op.abrt [0]).right Op.abrt ∧ (cmd Op.abrt [0]).payload ≠ [] := by
  unfold Cmd.right
  decide +kernel

/-- One byte less and one more than the length RTC has. -/
theorem witness_WrongLengthsCompleteBadLength :
    (Op.rtc, [4]) ∈ commandLengths
      ∧ (wellFormed (.rtc (cmd Op.rtc [1, 0, 0])) = true ∧ board.takes Op.rtc (cmd Op.rtc [1, 0, 0]))
      ∧ (wellFormed (.rtc (cmd Op.rtc [1, 0, 0, 0, 0])) = true ∧ board.takes Op.rtc (cmd Op.rtc [1, 0, 0, 0, 0])) := by
  unfold State.takes Cmd.right
  decide +kernel

/-- In reset, a hole event, and each of the three events of an input pin, which then has the level it names. -/
theorem witness_ResetPinHoldsThePart :
    let s := run field [.powerOnResetAssert]
    (s.inReset = true ∧ (Instr.holeEvent 0) ≠ .powerOnResetAssert ∧ (Instr.holeEvent 0) ≠ .powerOnResetRelease)
      ∧ (run s [.workSwitchLevelChange .lifted]).pins.switch = .lifted
      ∧ (run s [.sensedSeed 31]).lineOf 31 = .occluded
      ∧ (run s [.sensedSeed 31, .occlusionEnd 31]).lineOf 31 = .clear := by
  decide +kernel

theorem witness_ComputationsFollowTheRateChain :
    let w := rowAt field 0
    w.fert = some (lane field) ∧ ((w.computed 2500 0).fert).isSome = true := by decide +kernel

/-- The least and the greatest code in range, on the row with the greatest zero code. -/
theorem witness_MeasuredFlowAndTrim :
    let c := { (rowAt board 0).ctx with zeroCode := 4094 }
    (1 ≤ (1 : AdcCode).toNat ∧ (4094 : AdcCode).toNat ≤ 4094 ∧ c.zeroCode ≤ 4094) ∧ 0 < c.valveFull := by decide +kernel

theorem witness_SpeedFilterMovesTowardTheRawSpeed :
    (0 < (1000 : Nat)) ∧ rawSpeed 65535 1000 = 10000 ∧ SpeedFilter.heavy ≠ .off := by decide +kernel

/-- The least and the greatest quantities of two bytes, and the bytes of a key. -/
theorem witness_QuantitiesReadBack :
    (65535 < 256 ^ 2) ∧ (-(256 ^ 2 : Int) ≤ 2 * -32768 ∧ 2 * (32767 : Int) < 256 ^ 2)
      ∧ (leBytes 2 0x0102 = [2, 1] ∧ leIntBytes 2 (-32768) = [0, 0x80] ∧ leIntBytes 2 (-1) = [0xFF, 0xFF])
      ∧ (⟨-32768, 32767⟩ : Key).fits ∧ keyBytes ⟨-32768, 32767⟩ = [0, 0x80, 0xFF, 0x7F]
      ∧ ([0, 0x80] : List Byte).length = 2 ∧ keyAt [0, 0x80, 0xFF, 0x7F] 0 = ⟨-32768, 32767⟩ := by
  unfold Key.fits
  decide +kernel

theorem witness_TransferredRecordsReadBack :
    (⟨-32768, 32767⟩ : Key).fits ∧ (some plain).all Payload.wf = true ∧ (none : Option Payload).all Payload.wf = true := by
  unfold Key.fits
  decide +kernel

/-- A clean record, one with a flipped bit, one with two, a poisoned record and a key that is not held. -/
theorem witness_PayloadReads :
    let s := fun bits => { stocked with cst := stocked.cst.put ⟨0, 0⟩ (some { plain with bits := bits }) }
    ((s .clean).cst.payload ⟨0, 0⟩).map (·.bits) = some .clean
      ∧ ((s .oneFlipped).cst.payload ⟨0, 0⟩).map (·.bits) = some .oneFlipped
      ∧ ((s .twoFlipped).cst.payload ⟨0, 0⟩).map (·.bits) = some .twoFlipped
      ∧ stocked.cst.payload ⟨0, 1⟩ = none ∧ stocked.cst.payload ⟨5, 5⟩ = none := by decide +kernel

/-- A key in the set, a key that joins it, and one more key than there is room for. -/
theorem witness_OfferedKeysJoinTheMissSet :
    let keys : List Key := (List.range 16).map fun x => ⟨x, 9⟩
    let s := { stocked with cst := { stocked.cst with misses := keys } }
    (∀ k ∈ keys, k ∈ s.cst.misses) ∧ (∃ k ∈ keys, k ∉ stocked.cst.misses) ∧ (∃ k ∈ [(⟨5, 5⟩ : Key)], k ∉ s.cst.misses) := by
  decide +kernel

theorem witness_OperandlessReadsCompleteAtOnce :
    board.takes Op.idn (cmd Op.idn []) ∧ board.takes Op.rms (cmd Op.rms []) ∧ board.takes Op.rss (cmd Op.rss [])
      ∧ board.takes Op.rhc (cmd Op.rhc [0]) ∧ 0x19 ∉ Op.all ∧ board.takes 0x19 (cmd 0x19 []) := by
  unfold State.takes Cmd.right
  decide +kernel

theorem witness_EventSetsFollowEveAndAck :
    board.takes Op.eve (cmd Op.eve [0xFF, 0xFF]) ∧ board.takes Op.ack (cmd Op.ack [0, 0])
      ∧ board.takes Op.ack (cmd Op.ack [0]) := by
  unfold State.takes Cmd.right
  decide +kernel

/-- Rows 0, 33 and 32, the last not configured, and row 1. -/
theorem witness_ReadRowStatusClearsTheStickyFlags :
    (board.takes Op.rrw (cmd Op.rrw [0]) ∧ natAt [0] 0 1 = 0) ∧ (board.takes Op.rrw (cmd Op.rrw [33]) ∧ natAt [33] 0 1 = 33)
      ∧ (board.takes Op.rrw (cmd Op.rrw [32]) ∧ (31 : RowId).val + 1 = natAt [32] 0 1 ∧ board.row 31 = none)
      ∧ (board.takes Op.rrw (cmd Op.rrw [1]) ∧ (rowAt board 0).fert.isSome = true ∧ (board.row 0).isSome = true)
      ∧ board.takes Op.rrw (cmd Op.rrw [2]) ∧ (rowAt board 1).fert = none ∧ (board.row 1).isSome = true := by
  unfold State.takes Cmd.right
  decide +kernel

theorem witness_ReadMotionReturnsTheSnapshot :
    (board.takes Op.rmo (cmd Op.rmo []) ∧ board.mot.fix = none)
      ∧ field.takes Op.rmo (cmd Op.rmo []) ∧ field.mot.fix = some ⟨100, 100, 0, 16384, 0, 2500, .precise⟩ := by
  unfold State.takes Cmd.right
  decide +kernel

/-- Before and after the first completion, while a command is in progress, and a STATUS frame. -/
theorem witness_FetchRepliesWithTheCompletion :
    let f := frm .fetch []
    (State.reset.takesFrame .fetch f ∧ State.reset.cmu.progress = .idle ∧ State.reset.cmu.completion = none)
      ∧ (board.takesFrame .fetch f ∧ board.cmu.progress = .idle ∧ board.cmu.completion.isSome = true)
      ∧ (loading.takesFrame .fetch f ∧ loading.cmu.progress = .ldc 2 0 false)
      ∧ board.takesFrame .status (frm .status []) := by
  unfold State.takesFrame Frame.right
  decide +kernel

/-- ABRT in IDLE and in each command, and the data timer a millisecond before and at its end. -/
theorem witness_AbortAndTimeoutEndTheCommandInProgress :
    ((cmd Op.abrt []).right Op.abrt ∧ board.inReset = false ∧ board.cmu.progress = .idle ∧ board.cmu.dataDue = none)
      ∧ loading.cmu.progress = .ldc 2 0 false
      ∧ sweeping.cmu.progress = .swp ⟨⟨0, 0, 0, 0⟩, 1, some ⟨1, 0⟩, 0, 0, some ⟨1, 0⟩⟩
      ∧ scrubbing.cmu.progress = .scb none 0 1 ∧ priming.cmu.progress = .prim 1 1 0
      ∧ loading.cmu.dataDue = some 1000 ∧ sweeping.cmu.dataDue = some 1000
      ∧ (at' loading 999).now < 1000 ∧ 1000 ≤ (at' loading 1000).now := by
  unfold Cmd.right
  decide +kernel

/-- Counts of 64 and 65; a DATA frame outside DATA IN, of a wrong length, of a held key, of a new and of a poisoned key;
and a full store. -/
theorem witness_LoadCellsTakesRecords :
    let f := fun k => frm .data (record k 1 1)
    let s := run stocked [.ldc (cmd Op.ldc [2])]
    let crowded := { loading with cst :=
      { loading.cst with records := (List.range 1024).map fun x => ⟨⟨x, 0⟩, none⟩ } }
    (board.takes Op.ldc (cmd Op.ldc [64]) ∧ natAt [64] 0 1 = 64) ∧ (board.takes Op.ldc (cmd Op.ldc [65]) ∧ natAt [65] 0 1 = 65)
      ∧ (board.takesFrame .data (f ⟨0, 0⟩) ∧ board.cmu.progress = .idle)
      ∧ (loading.takesFrame .data (frm .data [0]) ∧ loading.cmu.progress = .ldc 2 0 false)
      ∧ (s.takesFrame .data (f ⟨0, 0⟩) ∧ s.cmu.progress = .ldc 2 0 false ∧ (f ⟨0, 0⟩).payload.length = 28
        ∧ keyAt (f ⟨0, 0⟩).payload 0 = ⟨0, 0⟩ ∧ (s.cst.payload ⟨0, 0⟩).isSome = true)
      ∧ (s.takesFrame .data (f ⟨9, 9⟩) ∧ s.cst.payload ⟨9, 9⟩ = none ∧ s.cst.records.length < 1024)
      ∧ (s.takesFrame .data (f ⟨0, 1⟩) ∧ s.cst.payload ⟨0, 1⟩ = none ∧ s.cst.holds ⟨0, 1⟩ = true)
      ∧ crowded.takesFrame .data (f ⟨0, 1⟩) ∧ crowded.cst.holds ⟨0, 1⟩ = false ∧ 1024 ≤ crowded.cst.records.length := by
  unfold State.takes State.takesFrame Cmd.right Frame.right
  decide +kernel

/-- Bounds that cross either way, maxima of 64 and 65, a candidate, and no record outside. -/
theorem witness_SweepOffersTheSmallestCandidate :
    let p := fun (b : List Byte) => cmd Op.swp b
    let crossed := p [1, 0, 0, 0, 0, 0, 0, 0, 0]
    let crossedY := p [0, 0, 0, 0, 1, 0, 0, 0, 0]
    let most := p [0, 0, 0, 0, 0, 0, 0, 0, 64]
    let beyond := p [0, 0, 0, 0, 0, 0, 0, 0, 65]
    let all := p [0, 0, 1, 0, 0, 0, 1, 0, 0]
    (stocked.cst.wf ∧ stocked.takes Op.swp crossed ∧ stocked.takes Op.swp crossedY ∧ stocked.takes Op.swp beyond)
      ∧ (stocked.takes Op.swp most ∧ stocked.cst.smallest (fun x => (⟨0, 0, 0, 0⟩ : KeepRect).outside x.key = true
          ∧ stocked.refCount x.key = 0) ⟨1, 0⟩)
      ∧ stocked.takes Op.swp all ∧ ∀ x ∈ stocked.cst.records, (⟨0, 1, 0, 1⟩ : KeepRect).outside x.key = false := by
  unfold State.takes Cmd.right Store.smallest
  decide +kernel

/-- A sweep at its last transfer, one with another candidate above, and one with none above. -/
theorem witness_FetchTransfersTheOfferedRecord :
    let w := fun (n : Nat) (k : Key) => (⟨⟨5, 5, 5, 5⟩, n, some k, 0, 0, some k⟩ : Sweep)
    let s := fun (n : Nat) (k : Key) => { stocked with cmu := { stocked.cmu with progress := .swp (w n k), dataDue := some 9 } }
    let candidate := fun (k : Key) (x : Record) =>
      k.before x.key = true ∧ (⟨5, 5, 5, 5⟩ : KeepRect).outside x.key = true ∧ stocked.refCount x.key = 0
    (stocked.cst.wf ∧ (s 1 ⟨0, 0⟩).takesFrame .fetch (frm .fetch []))
      ∧ (w 1 ⟨0, 0⟩).most ≤ 0 + 1
      ∧ 0 + 1 < (w 2 ⟨0, 0⟩).most ∧ (stocked.cst.remove ⟨0, 0⟩).smallest (candidate ⟨0, 0⟩) ⟨1, 0⟩
      ∧ ∀ x ∈ (stocked.cst.remove ⟨0, 1⟩).records, ¬ candidate ⟨0, 1⟩ x := by
  unfold State.takesFrame Frame.right Store.smallest
  decide +kernel

/-- A read step before it is due, when due with a record above the position, and with none above. -/
theorem witness_ScrubReadsTheNextRecord :
    let next := fun (position : Option Key) (x : Record) => aboveKey position x.key = true ∧ x.payload.isSome = true
    (stocked.takes Op.scb (cmd Op.scb []) ∧ scrubbing.inReset = false ∧ scrubbing.cst.wf
        ∧ scrubbing.cmu.progress = .scb none 0 1 ∧ board.cmu.progress = .idle)
      ∧ ((at' scrubbing 0).now < 1 ∧ 1 ≤ (at' scrubbing 1).now)
      ∧ (scrubbing.cst.smallest (next none) ⟨0, 0⟩ ∧ scrubbing.cst.payload ⟨0, 0⟩ = some plain)
      ∧ ∀ x ∈ scrubbing.cst.records, ¬ next (some ⟨1, 0⟩) x := by
  unfold State.takes Cmd.right Store.smallest
  decide +kernel

theorem witness_QueriesReturnRecords :
    let c := fun (x form : Byte) => cmd Op.qry [x, 0, 0, 0, form]
    (stocked.takes Op.qry (c 0 0) ∧ (c 0 0).payload.length = 5 ∧ stocked.cst.wf ∧ keyAt (c 0 0).payload 0 = ⟨0, 0⟩
        ∧ natAt (c 0 0).payload 4 1 = 0 ∧ stocked.cst.holds ⟨0, 0⟩ = true)
      ∧ (stocked.takes Op.qry (c 2 0) ∧ stocked.cst.holds ⟨2, 0⟩ = false)
      ∧ (stocked.takes Op.qry (c 0 1) ∧ stocked.cst.smallest (fun x => (⟨0, 0⟩ : Key).before x.key = true) ⟨1, 0⟩)
      ∧ (stocked.takes Op.qry (cmd Op.qry [0, 0, 1, 0, 1])
        ∧ ∀ x ∈ stocked.cst.records, (⟨0, 1⟩ : Key).before x.key = false)
      ∧ stocked.takes Op.qry (c 0 2) ∧ 1 < natAt (c 0 2).payload 4 1 := by
  unfold State.takes Cmd.right Store.smallest
  decide +kernel

/-- Selectors of 2 and 3, no-apply values of 1 and 2, a record held, one poisoned and a key not held. -/
theorem witness_PatchesWriteOneField :
    let c := fun (x y sel v : Byte) => cmd Op.pch [x, 0, y, 0, sel, v, 0]
    (stocked.takes Op.pch (c 0 0 2 1) ∧ (c 0 0 2 1).payload.length = 7 ∧ keyAt (c 0 0 2 1).payload 0 = ⟨0, 0⟩
        ∧ natAt (c 0 0 2 1).payload 4 1 = 2 ∧ natAt (c 0 0 2 1).payload 5 2 = 1
        ∧ (readState ⟨0, 0⟩ (stocked.begun (c 0 0 2 1))).cst.payload ⟨0, 0⟩ = some plain)
      ∧ (stocked.takes Op.pch (c 0 0 2 2) ∧ natAt (c 0 0 2 2).payload 5 2 = 2)
      ∧ (stocked.takes Op.pch (c 0 0 3 0) ∧ natAt (c 0 0 3 0).payload 4 1 = 3)
      ∧ (stocked.takes Op.pch (c 5 0 0 0) ∧ stocked.cst.holds ⟨5, 0⟩ = false)
      ∧ stocked.takes Op.pch (c 0 1 0 0) ∧ stocked.cst.holds ⟨0, 1⟩ = true
      ∧ (readState ⟨0, 1⟩ (stocked.begun (c 0 1 0 0))).cst.payload ⟨0, 1⟩ = none := by
  unfold State.takes Cmd.right
  decide +kernel

theorem witness_MergesSetCoverage :
    let c := fun (x y form : Byte) => cmd Op.mrg [x, 0, y, 0, form, 1, 0, 2, 0]
    (stocked.takes Op.mrg (c 0 0 1) ∧ (c 0 0 1).payload.length = 9 ∧ keyAt (c 0 0 1).payload 0 = ⟨0, 0⟩
        ∧ natAt (c 0 0 1).payload 4 1 = 1
        ∧ (readState ⟨0, 0⟩ (stocked.begun (c 0 0 1))).cst.payload ⟨0, 0⟩ = some plain ∧ plain.wf = true)
      ∧ (stocked.takes Op.mrg (c 0 0 2) ∧ natAt (c 0 0 2).payload 4 1 = 2)
      ∧ (stocked.takes Op.mrg (c 5 0 0) ∧ stocked.cst.holds ⟨5, 0⟩ = false)
      ∧ stocked.takes Op.mrg (c 0 1 0) ∧ stocked.cst.holds ⟨0, 1⟩ = true
      ∧ (readState ⟨0, 1⟩ (stocked.begun (c 0 1 0))).cst.payload ⟨0, 1⟩ = none := by
  unfold State.takes Cmd.right
  decide +kernel

/-- A record referenced by four points, one not referenced, and a key not held. -/
theorem witness_RetireRemovesUnreferencedRecords :
    let c := fun (x : Byte) => cmd Op.rtc [x, 0, 0, 0]
    (placedRows.takes Op.rtc (c 0) ∧ (c 0).payload.length = 4 ∧ keyAt (c 0).payload 0 = ⟨0, 0⟩ ∧ placedRows.cst.wf
        ∧ placedRows.cst.holds ⟨0, 0⟩ = true ∧ 0 < placedRows.refCount ⟨0, 0⟩)
      ∧ (placedRows.takes Op.rtc (c 1) ∧ placedRows.cst.holds ⟨1, 0⟩ = true ∧ placedRows.refCount ⟨1, 0⟩ = 0)
      ∧ placedRows.takes Op.rtc (c 2) ∧ placedRows.cst.holds ⟨2, 0⟩ = false := by
  unfold State.takes Cmd.right
  decide +kernel

/-- Just outside each bound: no quality, a position, and a heading. -/
theorem witness_BadFixesAreRejected :
    let f := fun e n hE hN q => frm .fix (fixOf e n hE hN 0 0 q)
    (board.takesFrame .fix (f 0 0 0 16384 0) ∧ (fixAt (f 0 0 0 16384 0).payload).quality = .none)
      ∧ (board.takesFrame .fix (f 3000001 0 0 16384 1) ∧ 3000000 < (fixAt (f 3000001 0 0 16384 1).payload).e)
      ∧ board.takesFrame .fix (f 0 0 16384 4097 1) ∧ (285212672 : Int) < 16384 * 16384 + 4097 * 4097 := by
  unfold State.takesFrame Frame.right
  decide +kernel

/-- A fix over a record with two bits flipped poisons it once for the three lanes over it (R58, R60, R159). -/
theorem test_fixPoisonsUnderThePoint :
    let c : Store := { stocked.cst with records := [⟨⟨0, 0⟩, some { plain with bits := .twoFlipped }⟩], poisonedCount := 0 }
    let t := run { stocked with cst := c } [.fixFrame (frm .fix (fixOf 100 100 0 16384 0 2500 3))]
    t.cst.poisonedCount = 1 ∧ t.cst.firstKey = some ⟨0, 0⟩ ∧ (rowAt t 0).seed.view.outcome = .poisoned
      ∧ (lane t).view.outcome = .poisoned ∧ (rowAt t 1).seed.view.outcome = .poisoned := by
  decide +kernel

/-- The ports of an unconfigured row carry 0 (R47). -/
theorem test_portsOfNoRow : field.meterPort 31 = 0 ∧ field.valvePort 31 = 0 ∧ field.meterPort 0 ≠ 0 := by
  decide +kernel

/-- A fix at the bounds of position and heading. -/
theorem witness_AcceptedFixesMoveThePart :
    let f := frm .fix (fixOf 3000000 (-3000000) 16384 4096 0 0 1)
    let x := fixAt f.payload
    board.takesFrame .fix f ∧ board.cst.wf
      ∧ ¬ (x.quality = .none ∨ x.e < -3000000 ∨ 3000000 < x.e ∨ x.n < -3000000 ∨ 3000000 < x.n
        ∨ max (-16384) (min 16384 x.hE) * max (-16384) (min 16384 x.hE)
            + max (-16384) (min 16384 x.hN) * max (-16384) (min 16384 x.hN) < 251658240
        ∨ 285212672 < max (-16384) (min 16384 x.hE) * max (-16384) (min 16384 x.hE)
            + max (-16384) (min 16384 x.hN) * max (-16384) (min 16384 x.hN)) := by
  unfold State.takesFrame Frame.right
  decide +kernel

/-- Each timer a millisecond before its end and at it. -/
theorem witness_FixTimersAgeTheFix :
    let stale := run (at' placedRows 1000) [.staleTimerExpiry]
    (placedRows.inReset = false ∧ placedRows.mot.fixState = .current ∧ placedRows.mot.fixTimers = some 0)
      ∧ (0 + 1000 ≤ (at' placedRows 1000).now ∧ ¬ 0 + 1000 ≤ (at' placedRows 999).now)
      ∧ (stale.inReset = false ∧ stale.mot.fixState = .stale ∧ stale.mot.fixTimers = some 0 ∧ stale.settings.lostLimit = 5000)
      ∧ 0 + 5000 ≤ (at' stale 5000).now ∧ ¬ 0 + 5000 ≤ (at' stale 4999).now := by
  decide +kernel

/-- A window before its end, at its end with a pulse, and without one at the entry to SILENT on a moving machine. -/
theorem witness_SpeedWindowsStepOrHoldTheSpeed :
    let s := run board [.groundSpeedPulse]
    let held : State :=
      { at' placedRows 100 with mot :=
        { placedRows.mot with pulseState := .holding, zeroRun := 9, silenceReported := false, source := .pulse } }
    (board.inReset = false ∧ (at' board 99).now < board.mot.windowStart + 100)
      ∧ (s.mot.windowStart + 100 ≤ (at' s 100).now ∧ 0 < s.mot.pulses)
      ∧ held.inReset = false ∧ held.mot.windowStart + 100 ≤ held.now ∧ held.mot.pulses = 0
      ∧ held.settings.holdTime ≤ (held.mot.zeroRun + 1) * 100 ∧ held.mot.fixState = .current
      ∧ held.mot.fix.any (fun f => decide (300 ≤ f.speed)) = true := by
  decide +kernel

/-- A lift timed for 49 ms and for 50 ms. -/
theorem witness_WorkSwitchChangesAreQualified :
    let s := run field [.workSwitchLevelChange .lifted]
    s.inReset = false ∧ s.mot.switchSince = some 0 ∧ s.pins.switch = .lifted ∧ s.cst.wf ∧ (at' s 49).now < 0 + 50
      ∧ 0 + 50 ≤ (at' s 50).now := by
  decide +kernel

/-- A row not configured, and row 1 in SHADOW, in IDLE, priming with two holes and with one to go, in FIELD with seven in flight and with eight. -/
theorem witness_HoleEventsClearTheStallAndMakeEntries :
    (shadow.inReset = false ∧ shadow.row 0 = some (rowAt shadow 0) ∧ shadow.cmu.mode = .shadow ∧ shadow.row 31 = none)
      ∧ (board.cmu.mode = .idle ∧ board.row 0 = some (rowAt board 0) ∧ (rowAt board 0).seed.state = .lane .parked)
      ∧ (priming.cmu.mode = .idle ∧ priming.row 0 = some (rowAt priming 0) ∧ (rowAt priming 0).seed.state = .priming 2)
      ∧ (rowAt (run priming [.holeEvent 0]) 0).seed.state = .priming 1
      ∧ (field.cmu.mode = .field ∧ field.row 0 = some (rowAt field 0)
        ∧ (rowAt (run field (List.replicate 7 (.holeEvent 0))) 0).sfm.queue.length = 7)
      ∧ full.cmu.mode = .field ∧ full.row 0 = some (rowAt full 0) ∧ 8 ≤ (rowAt full 0).sfm.queue.length := by
  decide +kernel

/-- A row not configured, a line already occluded, each mode, an empty queue with and without a record, and a deadline a
millisecond before its end and at it. -/
theorem witness_SensedSeedsAndDeadlinesResolveEntries :
    let one := run field [.holeEvent 0]
    let bare := run board [.fixFrame (frm .fix (fixOf 100 100 0 16384 0 2500 3)), .strtField (cmd Op.strt [1])]
    (field.inReset = false ∧ field.row 5 = none ∧ occluded.lineOf 0 = .occluded)
      ∧ (board.row 0 = some (rowAt board 0) ∧ board.lineOf 0 = .clear ∧ board.cmu.mode ≠ .field)
      ∧ (one.row 0 = some (rowAt one 0) ∧ one.lineOf 0 = .clear ∧ one.cmu.mode = .field)
      ∧ (field.row 0 = some (rowAt field 0) ∧ field.lineOf 0 = .clear ∧ (rowAt field 0).sfm.queue = []
        ∧ (rowAt field 0).seed.view.outcome = .found ∧ (rowAt field 0).seed.view.key = some ⟨0, 0⟩)
      ∧ (bare.row 0 = some (rowAt bare 0) ∧ bare.cmu.mode = .field ∧ (rowAt bare 0).seed.view.outcome ≠ .found)
      ∧ (rowAt one 0).sfm.queue = [⟨0, 250, some (⟨0, 0⟩, ⟨2, 1⟩)⟩] ∧ 250 ≤ (at' one 250).now ∧ (at' one 249).now < 250 := by
  decide +kernel

/-- A row not configured, a clear line, an occluded one, and each timer a millisecond before its end and at it, on a running and on a priming
row. -/
theorem witness_OcclusionAndStallTimersDriveSeedHealth :
    (field.inReset = false ∧ field.row 0 = some (rowAt field 0) ∧ field.lineOf 0 = .clear ∧ field.row 31 = none)
      ∧ (occluded.row 0 = some (rowAt occluded 0) ∧ occluded.lineOf 0 = .occluded
        ∧ (rowAt occluded 0).sfm.occlusionDue = some 500 ∧ 500 ≤ (at' occluded 500).now ∧ (at' occluded 499).now < 500)
      ∧ ((rowAt field 0).sfm.stallDue = some 2000 ∧ 2000 ≤ (at' field 2000).now ∧ (at' field 1999).now < 2000
        ∧ (rowAt field 0).seed.state = .lane .running)
      ∧ priming.row 0 = some (rowAt priming 0) ∧ (rowAt priming 0).sfm.stallDue = some 2000
      ∧ (rowAt priming 0).seed.state = .priming 2 := by
  decide +kernel

/-- An accumulator just short of a hole and at it, and an entry a millisecond before half its transit limit and at it. -/
theorem witness_ShadowSynthesisMakesAndSensesEntries :
    let s := fun n =>
      shadow.setRow 0 (some { rowAt shadow 0 with sfm := { (rowAt shadow 0).sfm with synth := n } })
    let t := run (s 1000000) [.syntheticHoleEvent 0]
    ((s 1000000).inReset = false ∧ (s 1000000).cmu.mode = .shadow ∧ 1000000 ≤ (rowAt (s 1000000) 0).sfm.synth)
      ∧ (rowAt (s 999999) 0).sfm.synth < 1000000
      ∧ (rowAt t 0).sfm.queue = [⟨0, 250, none⟩] ∧ 0 + (250 - 0) / 2 ≤ (at' t 125).now ∧ (at' t 124).now < 0 + (250 - 0) / 2
      ∧ (rowAt shadow 0).sfm.queue = [] ∧ shadow.row 31 = none := by
  decide +kernel

/-- A conversion a millisecond before its end and at it. -/
theorem witness_ConversionsTakeTheirFiveSteps :
    field.inReset = false ∧ field.fsc.inFlight = some ⟨0, 0⟩ ∧ (at' field 1).now < 0 + 2 ∧ 0 + 2 ≤ (at' field 2).now
      ∧ field.row 0 = some (rowAt field 0) ∧ (rowAt field 0).fert = some (lane field) := by
  decide +kernel

/-- SETI outside IDLE, with its first, its fourth or its last field one beyond its range, with another cell side over
records, and accepted. -/
theorem witness_SetImplementAppliesItsSettings :
    let c := fun side => cmd Op.seti (settings side)
    let k := (settings 200).set 4 0xE7 |>.set 5 3
    let stall := (settings 200).set 24 0x89 |>.set 25 0x13
    (field.takes Op.seti (c 200) ∧ (c 200).payload.length = 26 ∧ field.cmu.mode ≠ .idle)
      ∧ (board.takes Op.seti (c 300) ∧ board.cmu.mode = .idle ∧ (setiFits (settings 300))[0]? = some false)
      ∧ (board.takes Op.seti (cmd Op.seti k) ∧ natAt k 4 2 = 999 ∧ (setiFits k)[3]? = some false
        ∧ ∀ y < 3, (setiFits k)[y]? = some true)
      ∧ (board.takes Op.seti (cmd Op.seti stall) ∧ natAt stall 24 2 = 5001 ∧ (setiFits stall)[16]? = some false
        ∧ ∀ y < 16, (setiFits stall)[y]? = some true)
      ∧ (stocked.takes Op.seti (c 400) ∧ (setiFits (settings 400)).all id = true
        ∧ (setiSettings (settings 400)).cellSide ≠ stocked.settings.cellSide ∧ stocked.cst.records ≠ [])
      ∧ board.takes Op.seti (c 400) ∧ board.cst.records = [] := by
  unfold State.takes Cmd.right
  decide +kernel

/-- SETR with a length that does not fit its action, outside IDLE, for row 33, with an action of 2, with a valve flow one
beyond its range, for a taken channel, and accepted in both actions. -/
theorem witness_SetRowConfiguresAndRemoves :
    let r := cmd Op.setr [1, 1]
    let c := fun row channel => cmd Op.setr (context row channel)
    let valve := (context 1 0).set 17 0x41 |>.set 18 0x0D |>.set 19 3
    (board.takes Op.setr (cmd Op.setr [1, 0]) ∧ field.takes Op.setr r ∧ field.cmu.mode ≠ .idle)
      ∧ (board.takes Op.setr (c 33 0) ∧ (setrFits (context 33 0))[0]? = some false)
      ∧ (board.takes Op.setr (cmd Op.setr [1, 2]) ∧ (setrFits [1, 2])[0]? = some true
        ∧ (setrFits [1, 2])[1]? = some false)
      ∧ (board.takes Op.setr (cmd Op.setr valve) ∧ natAt valve 17 4 = 200001 ∧ (setrFits valve)[10]? = some false
        ∧ ∀ y < 10, (setrFits valve)[y]? = some true)
      ∧ (board.takes Op.setr r ∧ (setrFits [1, 1]).all id = true ∧ natAt [1, 1] 0 1 = (0 : RowId).val + 1)
      ∧ (board.takes Op.setr (c 2 0) ∧ (setrFits (context 2 0)).all id = true
        ∧ (setrContext (context 2 0)).channel = some 0 ∧ (rowAt board 0).ctx.channel = some 0)
      ∧ board.takes Op.setr (c 32 31) ∧ (setrFits (context 32 31)).all id = true ∧ board.cst.wf
      ∧ natAt (context 32 31) 0 1 = (31 : RowId).val + 1 := by
  unfold State.takes Cmd.right
  decide +kernel

theorem witness_SetEnablesAndFallbackReachTheRows :
    field.takes Op.sete (cmd Op.sete [2, 0, 0, 0]) ∧ field.takes Op.setf (cmd Op.setf [0x70, 0x17, 0xA1, 0x0F])
      ∧ natAt [0x70, 0x17, 0xA1, 0x0F] 0 2 = 6000 ∧ natAt [0x70, 0x17, 0xA1, 0x0F] 2 2 = 4001 := by
  unfold State.takes Cmd.right
  decide +kernel

/-- STRT with a target of 0 and 3, outside IDLE, with READY clear, and accepted; STOP in IDLE and in FIELD; SETL. -/
theorem witness_StartAndStopChangeTheMode :
    let c := fun x => cmd Op.strt [x]
    (board.takes Op.strt (c 0) ∧ natAt [0] 0 1 = 0 ∧ board.takes Op.strt (c 3) ∧ natAt [3] 0 1 = 3)
      ∧ (field.takes Op.strt (c 1) ∧ field.cmu.mode ≠ .idle)
      ∧ (State.reset.takes Op.strt (c 1) ∧ State.reset.cmu.settingsValid = false)
      ∧ (board.takes Op.strt (c 2) ∧ board.cmu.mode = .idle ∧ board.cmu.settingsValid = true ∧ board.row 0 ≠ none)
      ∧ board.takes Op.stop (cmd Op.stop []) ∧ field.takes Op.stop (cmd Op.stop []) ∧ field.cst.wf
      ∧ field.takes Op.setl (cmd Op.setl []) := by
  unfold State.takes Cmd.right
  decide +kernel

/-- PRIM outside IDLE, for no row, for a row not configured, for no holes, and accepted for one hole. -/
theorem witness_PrimeMetersStartsPriming :
    let c := fun (rows holes : Byte) => cmd Op.prim [rows, 0, 0, 0, holes]
    (field.takes Op.prim (c 1 1) ∧ field.cmu.mode ≠ .idle ∧ (c 1 1).payload.length = 5)
      ∧ (board.takes Op.prim (c 0 1) ∧ rowSetAt [0, 0, 0, 0, 1] 0 = 0)
      ∧ (board.takes Op.prim (c 4 1) ∧ Machine.rowIn 2 (rowSetAt [4, 0, 0, 0, 1] 0) = true ∧ board.row 2 = none)
      ∧ (board.takes Op.prim (c 3 0) ∧ natAt [3, 0, 0, 0, 0] 4 1 = 0)
      ∧ board.takes Op.prim (c 3 1) ∧ board.cmu.mode = .idle
      ∧ ∀ r, Machine.rowIn r (rowSetAt [3, 0, 0, 0, 1] 0) = true →
          board.row r = some (rowAt board r) ∧ (rowAt board r).ctx.enabled = true := by
  unfold State.takes Cmd.right
  decide +kernel

/-- RSTR in DATA OUT. -/
theorem witness_RestartRestartsEveryBlock :
    sweeping.inReset = false ∧ (cmd Op.rstr []).right Op.rstr ∧ (cmd Op.rstr []).payload = [] ∧ sweeping.cst.wf := by
  unfold Cmd.right
  decide +kernel

end Sys2Proof.Tests
end

section
/-! What a step keeps, said once: the ranges of the rows. -/

namespace Sys2Proof.Machine

/-! ## Rows in their ranges (R47, R59, R64, R101, R122) -/

/-- A fertiliser lane's view target, results and flow state lie in their ranges. -/
def FertLane.ranged (l : FertLane) : Prop :=
  l.view.target ≤ 4000 ∧ l.f ≤ 200000 ∧ l.ff ≤ 1000 ∧ l.duty ≤ 1000 ∧ l.flow.wf = true

/-- The ranges of a row, part by part. -/
theorem Row.wf_iff (w : Row) :
    w.wf = true ↔ w.ctx.wf = true ∧ w.vr ≤ 10000 ∧ (w.seed.view.target ≤ 6000 ∧ w.seed.q ≤ 912000 ∧ w.seed.s ≤ w.ctx.sMax)
      ∧ w.sfm.wf = true ∧ w.fert.isSome = w.ctx.channel.isSome ∧ ∀ l, w.fert = some l → l.ranged := by
  unfold Row.wf FertLane.ranged
  cases w.fert <;> simp [and_assoc]

theorem RowContext.wf_iff (c : RowContext) :
    c.wf = true ↔ (-2400 ≤ c.lat ∧ c.lat ≤ 2400) ∧ c.fa ≤ 1500 ∧ (15 ≤ c.width ∧ c.width ≤ 152)
      ∧ (1 ≤ c.holes ∧ c.holes ≤ 64) ∧ (100 ≤ c.sMax ∧ c.sMax ≤ 5000) ∧ (∀ x, c.channel = some x → x ≤ 31)
      ∧ c.zeroCode ≤ 4094 ∧ (1000 ≤ c.fullScale ∧ c.fullScale ≤ 200000)
      ∧ (1000 ≤ c.valveFull ∧ c.valveFull ≤ 200000) := by
  unfold RowContext.wf
  cases c.channel <;> simp [and_assoc]

theorem FlowState.wf_iff (f : FlowState) :
    f.wf = true ↔ f.lastFlow ≤ 200000 ∧ (-250 ≤ f.trim ∧ f.trim ≤ 250) ∧ f.railRun ≤ 3 ∧ f.inRun ≤ 3 ∧ f.lowRun ≤ 10 := by
  simp [FlowState.wf, and_assoc]

theorem Flight.wf_iff (f : Flight) :
    f.wf = true ↔ f.queue.length ≤ 8 ∧ f.skipRun ≤ 65535 ∧ f.window.length ≤ 32 := by
  simp [Flight.wf, and_assoc]

/-- The three points of a row (R55). -/
def Row.places (w : Row) : Option Point × Option Point × Option Point :=
  (w.seed.point, w.point .fert, w.drop)

/-- A change of a row that keeps its ranges and its channel. -/
structure Row.Kept (v w : Row) : Prop where
  wf : v.wf = true → w.wf = true
  channel : w.ctx.channel = v.ctx.channel

/-- A change of a row that also keeps its points. -/
structure Row.Steady (v w : Row) : Prop extends Row.Kept v w where
  places : w.places = v.places

theorem Row.Steady.refl (w : Row) : Row.Steady w w := ⟨⟨id, rfl⟩, rfl⟩

/-- A change of the flight state that keeps its ranges. -/
theorem Row.Steady.flight (w : Row) (f : Flight) (h : w.sfm.wf = true → f.wf = true) :
    w.Steady { w with sfm := f } := by
  refine ⟨⟨fun hw => ?_, rfl⟩, rfl⟩
  rw [Row.wf_iff] at *
  obtain ⟨hc, hv, hs, hq, hf, hl⟩ := hw
  exact ⟨hc, hv, hs, h hq, hf, hl⟩

/-- A change of the seed lane that keeps its point, view and results. -/
theorem Row.Steady.seedLane (w : Row) (l : SeedLane) (hp : l.point = w.seed.point) (hv : l.view = w.seed.view)
    (hq : l.q = w.seed.q) (hs : l.s = w.seed.s) : w.Steady { w with seed := l } := by
  refine ⟨⟨fun hw => ?_, rfl⟩, by simp [Row.places, Row.point, Row.drop, hp]⟩
  rw [Row.wf_iff] at *
  simpa [hv, hq, hs] using hw

/-- A change of the fertiliser lane that keeps its points and ranges. -/
theorem Row.Steady.fertLane (w : Row) (g : FertLane → FertLane)
    (hp : ∀ l, (g l).look = l.look ∧ (g l).drop = l.drop)
    (hr : w.ctx.wf = true → ∀ l, w.fert = some l → l.ranged → (g l).ranged) : w.Steady { w with fert := w.fert.map g } := by
  refine ⟨⟨fun hw => ?_, rfl⟩, ?_⟩
  · rw [Row.wf_iff] at *
    obtain ⟨hc, hv, hs, hq, hf, hl⟩ := hw
    refine ⟨hc, hv, hs, hq, by simpa using hf, fun l h => ?_⟩
    obtain ⟨m, hm, rfl⟩ := Option.map_eq_some_iff.mp h
    exact hr hc m hm (hl m hm)
  · cases h : w.fert with
    | none => simp [Row.places, Row.point, Row.drop, h]
    | some l => simp [Row.places, Row.point, Row.drop, h, hp l]

theorem Row.Steady.trans {u v w : Row} (h : u.Steady v) (g : v.Steady w) : u.Steady w :=
  ⟨⟨fun x => g.wf (h.wf x), g.channel.trans h.channel⟩, g.places.trans h.places⟩

/-! ### The named changes of a row -/

/-- A row changed in its flow state. -/
theorem Row.Steady.flow (w : Row) (g : FlowState → FlowState)
    (h : w.ctx.wf = true → ∀ l, w.fert = some l → l.flow.wf = true → (g l.flow).wf = true) : w.Steady
      { w with fert := w.fert.map fun l => { l with flow := g l.flow } } :=
  .fertLane w _ (fun _ => ⟨rfl, rfl⟩) fun hc l hl ⟨ht, hf, hff, hd, hw⟩ => ⟨ht, hf, hff, hd, h hc l hl hw⟩

theorem timeForgotten_steady (w : Row) : w.Steady w.timeForgotten :=
  .flow w (fun f => { f with prevTime := none }) fun _ _ _ h => h

theorem flightEmptied_steady (w : Row) : w.Steady w.flightEmptied :=
  .flight w _ fun h => by
    rw [Flight.wf_iff] at *
    exact ⟨by simp, h.2⟩

theorem synthCleared_steady (w : Row) : w.Steady w.synthCleared := .flight w _ fun h => h

theorem synthesised_steady (w : Row) : w.Steady w.synthesised := by
  unfold Row.synthesised
  split
  · exact .flight w _ fun h => h
  · exact .refl w

theorem silenced_steady (w : Row) : w.Steady w.silenced :=
  (Row.Steady.seedLane w { w.seed with drive := 0 } rfl rfl rfl rfl).trans
    (.fertLane _ (fun l => { l with valve := 0 }) (fun _ => ⟨rfl, rfl⟩) fun _ _ _ h => h)

theorem forgotCells_steady (w : Row) : w.Steady w.forgotCells :=
  (Row.Steady.seedLane w { w.seed with prevCell := none } rfl rfl rfl rfl).trans
    (.fertLane _ (fun l => { l with prevCell := none }) (fun _ => ⟨rfl, rfl⟩) fun _ _ _ h => h)

theorem notedCells_steady (w : Row) (side : CellSide) : w.Steady (w.notedCells side) :=
  (Row.Steady.seedLane w { w.seed with prevCell := w.seed.point.map (cellOf side) } rfl rfl rfl rfl).trans
    (.fertLane _ (fun l => { l with prevCell := l.look.map (cellOf side) }) (fun _ => ⟨rfl, rfl⟩) fun _ _ _ h => h)

theorem flagsRead_steady (w : Row) : w.Steady w.flagsRead := .flight w _ fun h => h

theorem primed_steady (w : Row) (n : Nat) : w.Steady (w.primed n) := .seedLane w _ rfl rfl rfl rfl

theorem unprimed_steady (w : Row) : w.Steady w.unprimed := .seedLane w _ rfl rfl rfl rfl

theorem holed_steady (w : Row) (now stall : Nat) : w.Steady (w.holed now stall) := .flight w _ fun h => h

theorem enabledTo_steady (w : Row) (on : Bool) : w.Steady (w.enabledTo on) := by
  unfold Row.enabledTo
  split
  · exact (timeForgotten_steady w).trans ⟨⟨fun h => h, rfl⟩, rfl⟩
  · exact .refl w

/-! ### A row made anew -/

theorem clampInt_bounds {lo hi : Int} (h : lo ≤ hi) (v : Int) : lo ≤ clampInt lo hi v ∧ clampInt lo hi v ≤ hi := by
  unfold clampInt
  split
  · omega
  · split <;> omega

theorem rowSpeed_le (v : Nat) (yaw lat : Int) : rowSpeed v yaw lat ≤ 10000 := by
  have := clampInt_bounds (lo := 0) (hi := 10000) (by omega) (v + Int.tdiv (yaw * lat) 100)
  unfold rowSpeed
  omega

theorem seedRate_le {target width vr : Nat} (ht : target ≤ 6000) (hw : width ≤ 152) (hv : vr ≤ 10000) :
    seedRate target width vr ≤ 912000 := by
  have h : target * width * vr ≤ 6000 * 152 * 10000 := Nat.mul_le_mul (Nat.mul_le_mul ht hw) hv
  unfold seedRate
  omega

theorem valveDutyOf_le (f ff : Nat) (trim : Int) : valveDutyOf f ff trim ≤ 1000 := by
  have := clampInt_bounds (lo := 0) (hi := 1000) (by omega) (ff + trim)
  unfold valveDutyOf
  split <;> omega

/-- A computation gives results in their ranges (R64, R67 to R71). -/
theorem computed_steady (w : Row) (v : Nat) (yaw : Int) : w.Steady (w.computed v yaw) := by
  refine ⟨⟨fun h => ?_, rfl⟩, ?_⟩
  · rw [Row.wf_iff] at *
    obtain ⟨hc, -, ⟨ht, -, -⟩, hq, hf, hl⟩ := h
    have hv := rowSpeed_le v yaw w.ctx.lat
    have hwd := ((RowContext.wf_iff _).mp hc).2.2.1.2
    refine ⟨hc, hv, ⟨ht, seedRate_le ht hwd hv, Nat.min_le_left _ _⟩, hq, by simpa [Row.computed] using hf, fun l h => ?_⟩
    obtain ⟨m, hm, rfl⟩ := Option.map_eq_some_iff.mp h
    obtain ⟨hmt, -, -, -, hmw⟩ := hl m hm
    exact ⟨hmt, Nat.min_le_left _ _, Nat.min_le_left _ _, valveDutyOf_le _ _ _, hmw⟩
  · cases h : w.fert <;> simp [Row.places, Row.point, Row.drop, Row.computed, SeedLane.computed, FertLane.computed, h]

theorem driven_steady (s : State) (w : Row) : w.Steady (s.driven w) :=
  ((Row.Steady.seedLane w { w.seed with drive := s.meterDrive w } rfl rfl rfl rfl).trans
    (.fertLane _ (fun l => { l with valve := s.valveOut l }) (fun _ => ⟨rfl, rfl⟩) fun _ _ _ h => h)).trans
    (.flight _ _ fun h => h)

theorem redecided_steady (s : State) (p : Product) (w : Row) : w.Steady (s.redecided p w) := by
  cases p with
  | seed =>
    unfold State.redecided
    dsimp only
    split
    · exact .refl w
    · exact .seedLane w _ rfl rfl rfl rfl
  | fert => exact .fertLane w _ (fun _ => ⟨rfl, rfl⟩) fun _ _ _ h => h

/-- The highest target of a product (R4, R61). -/
def Product.most : Product → Nat
  | .seed => 6000
  | .fert => 4000

/-- The payload that a store in canonical form gives has values in range (R4). -/
theorem Store.payload_wf {c : Store} (h : c.wf) {k : Key} {p : Payload} (hp : c.payload k = some p) : p.wf = true := by
  obtain ⟨-, -, hall, -⟩ := h
  simpa using hall _ (Store.mem_of_payload hp)

/-- A lane view's target is a record's or the fallback target (R59). -/
theorem viewAt_target_le {s : State} (hc : s.cst.wf) (hs : s.ren.seedFallback ≤ 6000) (hf : s.ren.fertFallback ≤ 4000)
    (p : Product) (pt : Option Point) : (s.viewAt p pt).target ≤ p.most := by
  have hb : s.ren.fallback p ≤ p.most := by cases p <;> assumption
  unfold State.viewAt
  cases pt with
  | none => exact hb
  | some q =>
    dsimp only
    cases hx : s.cst.find (cellOf s.settings.cellSide q) with
    | none => exact hb
    | some x =>
      dsimp only
      cases hp : x.payload with
      | none => exact hb
      | some y =>
        have hy : y.wf = true := Store.payload_wf hc (k := cellOf s.settings.cellSide q) (by simp [Store.payload, hx, hp])
        rw [Payload.wf_iff] at hy
        cases p
        · exact hy.1
        · exact hy.2.1

theorem viewed_steady {s : State} (hc : s.cst.wf) (hs : s.ren.seedFallback ≤ 6000) (hf : s.ren.fertFallback ≤ 4000)
    (p : Product) (w : Row) : w.Steady (s.viewed p w) := by
  have ht := viewAt_target_le hc hs hf p (w.point p)
  cases p with
  | seed =>
    refine ⟨⟨fun h => ?_, rfl⟩, rfl⟩
    rw [Row.wf_iff] at *
    obtain ⟨hc, hv, ⟨-, hq, hs⟩, hrest⟩ := h
    exact ⟨hc, hv, ⟨ht, hq, hs⟩, hrest⟩
  | fert => exact .fertLane w _ (fun _ => ⟨rfl, rfl⟩) fun _ _ _ ⟨_, hrest⟩ => ⟨ht, hrest⟩

theorem Row.places_of_core {v w : Row} (h : w.core = v.core) : w.places = v.places := by
  have hl : w.point .fert = v.point .fert := Row.point_of_core h .fert
  unfold Row.places
  rw [Row.seedPoint_of_core h, hl, Row.drop_of_core h]

/-- A row made anew from a store in canonical form stays in its ranges. -/
theorem remade_steady {s : State} (hc : s.cst.wf) (hs : s.ren.seedFallback ≤ 6000) (hf : s.ren.fertFallback ≤ 4000)
    (x : Pass) (w : Row) : w.Steady (s.remade x w) := by
  have ite : ∀ (b : Bool) (f : Row → Row) (u : Row), (∀ u : Row, u.Steady (f u)) → w.Steady u →
      w.Steady (if b then f u else u) := by
    intro b f u hf hu
    cases b
    · exact hu
    · exact hu.trans (hf u)
  unfold State.remade
  exact (ite _ _ _ (redecided_steady s .fert) (ite _ _ _ (redecided_steady s .seed) (ite _ _ _
    (fun u => computed_steady u s.mot.vRef s.mot.yawRef) (ite _ _ _ (viewed_steady hc hs hf .fert)
      (ite _ _ _ (viewed_steady hc hs hf .seed) (.refl w)))))).trans (driven_steady s _)

end Sys2Proof.Machine
end

section
/-! What an event keeps, said once for each shared operation: the forms of the store and of the rows, the tallies, the
records held and the points. -/

namespace Sys2Proof.Machine

/-! ## What is kept -/

/-- No tally of one payload is above that of the other (R6). -/
def Payload.talliesLe (p q : Payload) : Prop :=
  p.placed ≤ q.placed ∧ p.skips ≤ q.skips ∧ p.extras ≤ q.extras ∧ p.applied ≤ q.applied

/-- A payload held afterwards was held before, with tallies no higher. -/
def Store.lasts (c d : Store) : Prop :=
  ∀ k q, d.payload k = some q → ∃ p, c.payload k = some p ∧ p.talliesLe q

theorem Payload.talliesLe_refl (p : Payload) : p.talliesLe p := ⟨le_rfl, le_rfl, le_rfl, le_rfl⟩

theorem Payload.talliesLe_trans {p q r : Payload} (h : p.talliesLe q) (g : q.talliesLe r) : p.talliesLe r :=
  ⟨h.1.trans g.1, h.2.1.trans g.2.1, h.2.2.1.trans g.2.2.1, h.2.2.2.trans g.2.2.2⟩

theorem Store.lasts_refl (c : Store) : c.lasts c := fun _ q h => ⟨q, h, q.talliesLe_refl⟩

theorem Store.lasts_trans {c d e : Store} (h : c.lasts d) (g : d.lasts e) : c.lasts e := fun k q hq => by
  obtain ⟨p, hp, hpq⟩ := g k q hq
  obtain ⟨o, ho, hop⟩ := h k p hp
  exact ⟨o, ho, Payload.talliesLe_trans hop hpq⟩

/-- A step from one state to another keeps the canonical form of the store and the ranges of the rows. -/
structure Sound (s t : State) : Prop where
  store : s.cst.wf → t.cst.wf
  rows : s.cst.wf → s.rowsWf → t.rowsWf

/-- And no payload comes to be held by it, nor does a tally fall (R6). -/
structure Lasting (s t : State) : Prop extends Sound s t where
  lasts : s.cst.wf → s.cst.lasts t.cst

/-- And the same records are held. -/
structure Holding (s t : State) : Prop extends Lasting s t where
  keys : t.cst.records.map (·.key) = s.cst.records.map (·.key)

/-- And the same rows are configured, with their points where they were. -/
structure Steady (s t : State) : Prop extends Holding s t where
  places : ∀ r, (t.row r).map Row.places = (s.row r).map Row.places

section
variable {s t u : State}

theorem Sound.trans (h : Sound s t) (g : Sound t u) : Sound s u :=
  ⟨fun x => g.store (h.store x), fun x y => g.rows (h.store x) (h.rows x y)⟩

theorem Lasting.trans (h : Lasting s t) (g : Lasting t u) : Lasting s u :=
  ⟨h.toSound.trans g.toSound, fun x => Store.lasts_trans (h.lasts x) (g.lasts (h.store x))⟩

theorem Holding.trans (h : Holding s t) (g : Holding t u) : Holding s u :=
  ⟨h.toLasting.trans g.toLasting, g.keys.trans h.keys⟩

theorem Steady.trans (h : Steady s t) (g : Steady t u) : Steady s u :=
  ⟨h.toHolding.trans g.toHolding, fun r => (g.places r).trans (h.places r)⟩

/-- The form of the rows is a matter of the rows and the fallback targets. -/
theorem rowsWf_of_ren (h : t.ren = s.ren) (hw : s.rowsWf) : t.rowsWf := by
  have hr : ∀ r, t.row r = s.row r := fun r => by unfold State.row; rw [h]
  unfold State.rowsWf at *
  simpa only [hr, h] using hw

/-- Nothing but the store and the Row Engine matters. -/
theorem Steady.of_same (hc : t.cst = s.cst) (hr : t.ren = s.ren) : Steady s t where
  store h := hc ▸ h
  rows _ h := rowsWf_of_ren hr h
  lasts _ := hc ▸ s.cst.lasts_refl
  keys := by rw [hc]
  places r := by unfold State.row; rw [hr]

theorem Steady.refl (s : State) : Steady s s := .of_same rfl rfl

/-- A change of the store alone. -/
theorem Steady.of_store (hr : t.ren = s.ren) (hw : s.cst.wf → t.cst.wf) (hl : s.cst.wf → s.cst.lasts t.cst)
    (hk : t.cst.records.map (·.key) = s.cst.records.map (·.key)) : Steady s t where
  store := hw
  rows _ h := rowsWf_of_ren hr h
  lasts := hl
  keys := hk
  places r := by unfold State.row; rw [hr]

/-- Rows that change each for itself, and within their ranges, stay in form. -/
theorem rowsWf_of_rows (hs : t.ren.seedFallback = s.ren.seedFallback) (hf : t.ren.fertFallback = s.ren.fertFallback)
    (g : RowId → Row → Row) (hg : ∀ r, t.row r = (s.row r).map (g r))
    (h : ∀ r (w : Row), s.row r = some w → w.Kept (g r w)) (hw : s.rowsWf) : t.rowsWf := by
  obtain ⟨ranged, apart, hs6, hf4⟩ := hw
  have back : ∀ r w, t.row r = some w → ∃ v : Row, s.row r = some v ∧ v.Kept w := fun r w hr => by
    rw [hg] at hr
    obtain ⟨v, hv, rfl⟩ := Option.map_eq_some_iff.mp hr
    exact ⟨v, hv, h r v hv⟩
  refine ⟨fun r w hr => ?_, fun q r v w hne hq hr => ?_, hs ▸ hs6, hf ▸ hf4⟩
  · obtain ⟨v, hv, hvw⟩ := back r w hr
    exact hvw.wf (ranged r v hv)
  · obtain ⟨v', hv', e⟩ := back q v hq
    obtain ⟨w', hw', e'⟩ := back r w hr
    rw [e.channel, e'.channel]
    exact apart q r v' w' hne hv' hw'

/-- The points stay where no row moves its own. -/
theorem places_of_rows (g : RowId → Row → Row) (hg : ∀ r, t.row r = (s.row r).map (g r))
    (hw : ∀ r w, s.row r = some w → (g r w).places = w.places) (r : RowId) :
    (t.row r).map Row.places = (s.row r).map Row.places := by
  rw [hg, Option.map_map]
  cases h : s.row r with
  | none => rfl
  | some w => exact congrArg some (hw r w h)

/-- A change of the rows, each for itself. -/
theorem Steady.of_rows (hc : t.cst = s.cst) (hs : t.ren.seedFallback = s.ren.seedFallback)
    (hf : t.ren.fertFallback = s.ren.fertFallback) (g : RowId → Row → Row) (hg : ∀ r, t.row r = (s.row r).map (g r))
    (hw : ∀ r w, s.row r = some w → (g r w).places = w.places)
    (h : s.cst.wf → s.rowsWf → ∀ r (w : Row), s.row r = some w → w.Steady (g r w)) : Steady s t where
  store h := hc ▸ h
  rows hcw hrw := rowsWf_of_rows hs hf g hg (fun r w e => (h hcw hrw r w e).toKept) hrw
  lasts _ := hc ▸ s.cst.lasts_refl
  keys := by rw [hc]
  places := places_of_rows g hg hw

/-- A change of the rows, each for itself, that may move points. -/
theorem Holding.of_rows (hc : t.cst = s.cst) (hs : t.ren.seedFallback = s.ren.seedFallback)
    (hf : t.ren.fertFallback = s.ren.fertFallback) (g : RowId → Row → Row) (hg : ∀ r, t.row r = (s.row r).map (g r))
    (h : s.rowsWf → ∀ r (w : Row), s.row r = some w → w.Kept (g r w)) : Holding s t where
  store h := hc ▸ h
  rows _ hrw := rowsWf_of_rows hs hf g hg (h hrw) hrw
  lasts _ := hc ▸ s.cst.lasts_refl
  keys := by rw [hc]

end

/-! ## Rows changed -/

@[simp] theorem State.mapRows_cst (s : State) (g : RowId → Row → Row) : (s.mapRows g).cst = s.cst := by
  rw [State.mapRows_rest]

@[simp] theorem State.mapRows_seedFallback (s : State) (g : RowId → Row → Row) :
    (s.mapRows g).ren.seedFallback = s.ren.seedFallback := by
  rw [State.mapRows_rest]

@[simp] theorem State.mapRows_fertFallback (s : State) (g : RowId → Row → Row) :
    (s.mapRows g).ren.fertFallback = s.ren.fertFallback := by
  rw [State.mapRows_rest]

theorem mapRows_steady (s : State) {g : RowId → Row → Row} (h : ∀ (r : RowId) (w : Row), w.Steady (g r w)) :
    Steady s (s.mapRows g) :=
  .of_rows (s.mapRows_cst g) (s.mapRows_seedFallback g) (s.mapRows_fertFallback g) g (s.row_mapRows g)
    (fun r w _ => (h r w).places) fun _ _ r w _ => h r w

theorem modRow_steady {s : State} {r : RowId} {g : Row → Row} (h : ∀ w, s.row r = some w → w.Steady (g w)) :
    Steady s (s.modRow r g) := by
  have step : ∀ q (w : Row), s.row q = some w → w.Steady (if q = r then g w else w) := fun q w hq => by
    split
    · rename_i e
      exact h w (e ▸ hq)
    · exact .refl w
  rw [State.modRow_eq_mapRows]
  exact .of_rows (s.mapRows_cst _) (s.mapRows_seedFallback _) (s.mapRows_fertFallback _) _ (s.row_mapRows _)
    (fun q w hq => (step q w hq).places) fun _ _ => step

/-- Whatever an event makes anew follows from the rows' setup. -/
theorem pass_steady (s : State) (x : RowId → Option Pass) : Steady s (s.pass x) := by
  have rest := s.pass_rest x
  refine .of_rows (by rw [rest]) (by rw [rest]) (by rw [rest]) _ (s.row_pass x) (fun r w _ => ?_)
    fun hc ⟨_, _, hs, hf⟩ r w _ => ?_
  · cases x r with
    | none => rfl
    | some p => exact Row.places_of_core (remade_core s p w)
  · cases x r with
    | none => exact .refl w
    | some p => exact remade_steady hc hs hf p w

theorem modFlight_steady {r : RowId} {s : State} {f : Flight → Flight} (h : ∀ x : Flight, x.wf = true → (f x).wf = true) :
    Steady s (modFlight r f s) :=
  modRow_steady fun w _ => .flight w _ (h _)

theorem modFlow_steady {r : RowId} {s : State} {f : FlowState → FlowState}
    (h : ∀ x : FlowState, x.wf = true → (f x).wf = true) : Steady s (modFlow r f s) :=
  modRow_steady fun w _ => .flow w f fun _ l _ => h l.flow

theorem computeAll_steady (s : State) : Steady s (computeAll s) := pass_steady s _
theorem decideAll_steady (s : State) : Steady s (decideAll s) := pass_steady s _
theorem reviewLanes_steady (b : Lanes) (s : State) : Steady s (reviewLanes b s) := pass_steady s _
theorem reviewBound_steady (k : Key) (s : State) : Steady s (reviewBound k s) := pass_steady s _
theorem refreshMoved_steady (old : Store) (s : State) : Steady s (refreshMoved old s) := pass_steady s _

/-! ## Events and completions -/

theorem raise_steady (s : State) (k : Kind) : Steady s (s.raise k) := .of_same rfl rfl
theorem raiseHealth_steady (s : State) (r : RowId) : Steady s (s.raiseHealth r) := .of_same rfl rfl
theorem complete_steady (s : State) (k : Completion) : Steady s (s.complete k) := .of_same rfl rfl
theorem setMot_steady (s : State) (m : Motion) : Steady s (s.setMot m) := .of_same rfl rfl
theorem setCmu_steady (s : State) (x : Commander) : Steady s (s.setCmu x) := .of_same rfl rfl
theorem setFsc_steady (s : State) (x : Scanner) : Steady s (s.setFsc x) := .of_same rfl rfl

/-! ## Payloads read and written (R157 to R159) -/

/-- A payload written over a payload, with tallies no lower. -/
theorem Store.lasts_put {c : Store} {k : Key} {y p : Payload} (hy : c.payload k = some y) (h : y.talliesLe p) :
    c.lasts (c.put k (some p)) := fun j q hq => by
  rw [Store.payload_put] at hq
  split at hq
  · rename_i e
    subst e
    rw [if_pos (Store.holds_of_payload hy)] at hq
    cases hq
    exact ⟨y, hy, h⟩
  · exact ⟨q, hq, q.talliesLe_refl⟩

/-- A record poisoned. -/
theorem Store.lasts_put_none (c : Store) (k : Key) : c.lasts (c.put k none) := fun j q hq => by
  rw [Store.payload_put] at hq
  split at hq
  · split at hq <;> cases hq
  · exact ⟨q, hq, q.talliesLe_refl⟩

theorem readRecord_steady (k : Key) (s : State) : Steady s (readRecord k s) := by
  refine .of_store (by rw [readRecord_rest]) readRecord_wf (fun _ => ?_) (readRecord_keys k s)
  rcases readRecord_cases k s with ⟨-, e⟩ | ⟨p, -, -, e⟩ | ⟨p, hp, -, e⟩ | ⟨p, hp, -, e⟩ <;> rw [e]
  · exact s.cst.lasts_refl
  · exact s.cst.lasts_refl
  · exact Store.lasts_put hp p.talliesLe_refl
  · exact s.cst.lasts_put_none k

theorem readState_steady (k : Key) (s : State) : Steady s (readState k s) := by
  unfold readState
  split
  · exact .refl s
  · rename_i p hp
    have h := readRecord_steady k s
    unfold readRecord at h
    rw [hp] at h
    dsimp only at h
    cases hb : p.bits <;> rw [hb] at h
    · exact .refl s
    · exact h
    · exact h.trans (reviewBound_steady k _)

/-- A payload written over the one held, in range and with tallies no lower. -/
theorem writePayload_steady {k : Key} {y p : Payload} {s : State} (hy : s.cst.payload k = some y)
    (hw : y.wf = true → p.wf = true) (ht : y.wf = true → y.talliesLe p) : Steady s (writePayload k p s) :=
  .of_store rfl (fun h => Store.put_some_wf h hy (by simpa using hw (Store.payload_wf h hy)))
    (fun h => Store.lasts_put hy (ht (Store.payload_wf h hy))) (Store.put_keys _ _ _)

/-- A change of payloads that keeps their ranges and lowers no tally. -/
def Crediting (f : Payload → Payload) : Prop :=
  ∀ y : Payload, y.wf = true → (f y).wf = true ∧ y.talliesLe (f y)

theorem deliver_steady {k : Key} {f : Payload → Payload} (hf : Crediting f) (s : State) : Steady s (deliver k f s) := by
  have hr := readState_steady k s
  unfold deliver readPayload
  cases hy : (readState k s).cst.payload k with
  | none => exact hr
  | some y =>
    exact (hr.trans (writePayload_steady hy (fun w => (hf y w).1) fun w => (hf y w).2)).trans (refreshMoved_steady _ _)

theorem le_satAdd {most v : Nat} (h : v ≤ most) (n : Nat) : v ≤ satAdd most v n := by
  unfold satAdd
  omega

theorem seedCredited_crediting (c : SeedCredit) : Crediting (·.seedCredited c) := fun y hy => by
  refine ⟨Payload.seedCredited_wf hy c, ?_⟩
  obtain ⟨-, -, -, -, hp, hs, he, -⟩ := (Payload.wf_iff y).mp hy
  cases c with
  | matched b => exact ⟨le_satAdd hp 1, le_rfl, le_rfl, le_rfl⟩
  | skip => exact ⟨le_rfl, le_satAdd hs 1, le_rfl, le_rfl⟩
  | extra => exact ⟨le_rfl, le_rfl, le_satAdd he 1, le_rfl⟩

theorem fertCredited_crediting (v : Nat) (b : Sub) : Crediting (·.fertCredited v b) := fun y hy => by
  obtain ⟨-, -, -, -, -, -, -, ha⟩ := (Payload.wf_iff y).mp hy
  exact ⟨Payload.fertCredited_wf hy v b, le_rfl, le_rfl, le_rfl, le_satAdd ha v⟩

theorem creditSeed_steady (c : SeedCredit) (k : Key) (s : State) : Steady s (creditSeed c k s) :=
  deliver_steady (seedCredited_crediting c) s

theorem creditFert_steady (v : Nat) (q : Point) (s : State) : Steady s (creditFert v q s) :=
  deliver_steady (fertCredited_crediting v _) s

/-! ## Settles (R23) -/

theorem settleOne_steady (x : State × Nat) (k : Key) : Steady x.1 (settleOne x k).1 := by
  have hr := readRecord_steady k x.1
  unfold settleOne
  dsimp only
  split
  · exact hr
  · rename_i p hp
    split
    · exact hr.trans (writePayload_steady hp Payload.settled_wf fun _ => ⟨le_rfl, le_rfl, le_rfl, le_rfl⟩)
    · exact hr

theorem settleRecords_steady (s : State) : Steady s (settleRecords s).1 := by
  have fold : ∀ (l : List Key) (x : State × Nat), Steady x.1 (l.foldl settleOne x).1 := by
    intro l
    induction l with
    | nil => exact fun x => .refl x.1
    | cons k ks ih => exact fun x => (settleOne_steady x k).trans (ih _)
  exact fold _ (s, 0)

theorem settle_steady (s : State) : Steady s (settle s).1 :=
  (settleRecords_steady s).trans (reviewLanes_steady _ _)

theorem settleAndDecide_steady (s : State) : Steady s (settleAndDecide s).1 :=
  (settleRecords_steady s).trans (pass_steady _ _)

/-! ## The status and the miss set (R16, R162) -/

/-- The storage status may take any values. -/
theorem Steady.of_status {s t : State} (b : Bool) (k : Option Key)
    (hc : t.cst = { s.cst with correctedSeen := b, firstKey := k }) (hr : t.ren = s.ren) : Steady s t :=
  .of_store hr (fun h => hc ▸ h) (fun _ => hc ▸ s.cst.lasts_refl) (by rw [hc])

/-- The miss set may be emptied. -/
theorem Steady.of_noMisses {s t : State} (hc : t.cst = { s.cst with misses := [], incomplete := false })
    (hr : t.ren = s.ren) : Steady s t :=
  .of_store hr (fun h => hc ▸ Store.noMisses_wf h false) (fun _ => hc ▸ s.cst.lasts_refl) (by rw [hc])

theorem freeFirst_steady (f : State → State) {s : State} (h : Steady s (f s)) : Steady s (freeFirst f s) := by
  obtain ⟨k, n, e⟩ := freeFirst_eq f s
  rw [e]
  exact h.trans (.of_status (f s).cst.correctedSeen k rfl rfl)

theorem readForRow_steady (r : RowId) (s : State) : Steady s (readForRow r s) :=
  readForRow_induct (P := Steady s) (fun k t h => h.trans (readRecord_steady k t)) r (.refl s)

theorem readForRows_steady (s : State) : Steady s (forRows readForRow s) :=
  forRows_rel Steady.refl Steady.trans readForRow_steady s

/-- Keys without a record may be offered. -/
theorem offerMisses_steady {keys : List Key} {s : State} (hk : ∀ k ∈ keys, s.cst.holds k = false) :
    Steady s (offerMisses keys s) := by
  obtain ⟨m, i, e, n, h⟩ := offerMisses_eq keys s
  have hw : s.cst.wf → (offerMisses keys s).cst.wf := fun w => offerMisses_wf w hk
  rw [h] at hw ⊢
  exact .of_store rfl hw (fun _ => s.cst.lasts_refl) rfl

end Sys2Proof.Machine
end

section
/-! What every command keeps: each operation of the blocks, and then the commands that are steady throughout. -/

namespace Sys2Proof.Machine

/-! ## Reception (R166, R171, R178) -/

theorem shifted_steady (s : State) (n : Nat) : Steady s (s.shifted n) := .of_same rfl rfl
theorem begun_steady (s : State) (c : Cmd) : Steady s (s.begun c) := .of_same rfl rfl
theorem discard_steady (s : State) (n : Nat) (b : Bool) : Steady s ((s.shifted n).discard b) := .of_same rfl rfl
theorem refuse_steady (s : State) (n : Nat) : Steady s (s.shifted n).refuse := .of_same rfl rfl

/-- Whatever relation a steady change gives, a frame's arrival gives it, if its meaning does. -/
theorem arrive_keeps {R : State → Prop} {c : FrameClass} {low : BitVec 5} {p : List Byte} {x : Byte} {after : Nat}
    {taken : State → State} {s : State} (h0 : ∀ t, Steady s t → R t)
    (h : ∀ n, R (taken (s.shifted n))) : R (arrive c low p x after taken s) :=
  arrive_induct (h0 _ (.refl s)) (fun _ => h0 _ (discard_steady s _ _)) fun _ _ => h _

theorem takeCommand_keeps {R : State → Prop} {code : BitVec 5} {c : Cmd} {run : List Byte → State → State} {s : State}
    (h0 : ∀ t, Steady s t → R t) (h : R (run c.payload (s.begun c))) : R (takeCommand code c run s) :=
  takeCommand_induct (h0 _ (.refl s)) (fun _ => h0 _ (discard_steady s _ _)) (fun _ _ => h0 _ (refuse_steady s _))
    fun _ _ => h

theorem takeAlways_keeps {R : State → Prop} {code : BitVec 5} {c : Cmd} {run : List Byte → State → State} {s : State}
    (h0 : ∀ t, Steady s t → R t) (h : R (run c.payload (s.begun c))) : R (takeAlways code c run s) :=
  takeAlways_induct (h0 _ (.refl s)) (fun _ => h0 _ (discard_steady s _ _)) (fun _ _ => h0 _ (refuse_steady s _))
    fun _ => h

section
variable {s : State} {code : BitVec 5} {c : Cmd} {run : List Byte → State → State}

theorem arrive_steady {cls : FrameClass} {low : BitVec 5} {p : List Byte} {x : Byte} {after : Nat}
    {taken : State → State} (h : ∀ t, Steady t (taken t)) : Steady s (arrive cls low p x after taken s) :=
  arrive_keeps (fun _ => id) fun n => (shifted_steady s n).trans (h _)

theorem takeCommand_steady (h : ∀ p t, Steady t (run p t)) : Steady s (takeCommand code c run s) :=
  takeCommand_keeps (fun _ => id) ((begun_steady s c).trans (h _ _))

theorem takeAlways_steady (h : ∀ p t, Steady t (run p t)) : Steady s (takeAlways code c run s) :=
  takeAlways_keeps (fun _ => id) ((begun_steady s c).trans (h _ _))

theorem withLength_steady {n : Nat} (h : ∀ p t, Steady t (run p t)) (p : List Byte) (t : State) :
    Steady t (withLength n run p t) := by
  unfold withLength
  split
  · exact h p t
  · exact complete_steady t _

theorem whenReleased_steady {f : State → State} (h : Steady s (f s)) : Steady s (whenReleased f s) := by
  unfold whenReleased
  split
  · exact .refl s
  · exact h

/-- A step made on a condition. -/
theorem Steady.ite {p : Prop} [Decidable p] {t u : State} (h : Steady s t) (g : Steady s u) :
    Steady s (if p then t else u) := by
  split
  · exact h
  · exact g

end

/-! ## Time (R119, R157) -/

theorem upset_lasts (c : Store) (u : Upset) : c.lasts (c.upset u) := by
  unfold Store.upset
  split
  · exact c.lasts_refl
  · rename_i y hy
    exact Store.lasts_put hy y.talliesLe_refl

theorem upset_keys (c : Store) (u : Upset) : (c.upset u).records.map (·.key) = c.records.map (·.key) := by
  unfold Store.upset
  split
  · rfl
  · exact Store.put_keys _ _ _

theorem takeUpsets_steady (s : State) : Steady s (takeUpsets s) := by
  have fold : ∀ (us : List Upset) (c : Store), (c.wf → (us.foldl Store.upset c).wf) ∧ c.lasts (us.foldl Store.upset c)
      ∧ (us.foldl Store.upset c).records.map (·.key) = c.records.map (·.key) := by
    intro us
    induction us with
    | nil => exact fun c => ⟨id, c.lasts_refl, rfl⟩
    | cons u us ih =>
      intro c
      obtain ⟨hw, hl, hk⟩ := ih (c.upset u)
      exact ⟨fun h => hw (Store.upset_wf h u), Store.lasts_trans (upset_lasts c u) hl, hk.trans (upset_keys c u)⟩
  unfold takeUpsets
  split
  · exact .refl s
  · rename_i us rest _
    obtain ⟨hw, hl, hk⟩ := fold us s.cst
    exact .of_store rfl hw (fun _ => hl) hk

theorem tick_steady (s : State) : Steady s (tick s) := by
  have now : Steady s { s with now := s.now + 1 } := .of_same rfl rfl
  have rise : ∀ t, Steady t (riseAll t) := fun t =>
    .ite (mapRows_steady t fun _ w => synthesised_steady w) (.refl t)
  exact (Steady.ite now (now.trans (rise _))).trans (takeUpsets_steady _)

/-! ## Priming (R94 to R99) -/

theorem startPriming_steady (n : Nat) (rows : RowSet) (s : State) : Steady s (startPriming n rows s) := by
  refine (mapRows_steady s fun r w => ?_).trans (pass_steady _ _)
  split
  · exact primed_steady w n
  · exact .refl w

theorem endPriming_steady (rows : RowSet) (s : State) : Steady s (endPriming rows s) := by
  refine (mapRows_steady s fun r w => ?_).trans (pass_steady _ _)
  split
  · exact unprimed_steady w
  · exact .refl w

theorem leavePriming_steady (r : RowId) (b : Bool) (s : State) : Steady s (leavePriming r b s) := by
  unfold leavePriming
  split
  · exact .ite (complete_steady s _) (setCmu_steady s _)
  · exact .refl s

theorem primingHole_steady (r : RowId) (s : State) : Steady s (primingHole r s) := by
  unfold primingHole
  split
  · exact .refl s
  · split
    · exact .ite ((endPriming_steady _ s).trans (leavePriming_steady r false _)) (modRow_steady fun w _ => primed_steady w _)
    · exact .refl s

theorem primingStall_steady (r : RowId) (s : State) : Steady s (primingStall r s) := by
  unfold primingStall
  split
  · exact .refl s
  · exact .ite ((endPriming_steady _ s).trans (leavePriming_steady r true _)) (.refl s)

/-! ## Seed flight (R103 to R120) -/

theorem joined_length (l : List Seen) (x : Seen) : (joined l x).length ≤ 32 := by
  simp only [joined, List.length_drop, List.length_append, List.length_singleton]
  omega

theorem matched_wf {f : Flight} (h : f.wf = true) : f.matched.wf = true := by
  rw [Flight.wf_iff] at *
  exact ⟨h.1, Nat.zero_le _, joined_length _ _⟩

theorem skipped_wf {f : Flight} (h : f.wf = true) : f.skipped.wf = true := by
  rw [Flight.wf_iff] at *
  exact ⟨h.1, Nat.min_le_left _ _, joined_length _ _⟩

/-- A row's flight state replaced by one made from what it was. -/
theorem setFlight_steady {r : RowId} {s : State} {w : Row} (hw : s.row r = some w) {f : Flight}
    (h : w.sfm.wf = true → f.wf = true) : Steady s (modFlight r (fun _ => f) s) :=
  modRow_steady fun v hv => .flight v f (by rw [hw] at hv; cases hv; exact h)

theorem noteMatched_steady (r : RowId) (s : State) : Steady s (noteMatched r s) := by
  unfold noteMatched
  split
  · exact .refl s
  · rename_i w hw
    exact .ite ((setFlight_steady (f := { w.sfm.matched with blocked := false }) hw fun h => matched_wf h).trans
      (raiseHealth_steady _ r)) (setFlight_steady hw matched_wf)

theorem noteSkip_steady (r : RowId) (s : State) : Steady s (noteSkip r s) := by
  unfold noteSkip
  split
  · exact .refl s
  · rename_i w hw
    have blocked : w.sfm.wf = true → ({ w.sfm.skipped with blocked := true, window := [] } : Flight).wf = true := fun h => by
      have := skipped_wf h
      rw [Flight.wf_iff] at *
      exact ⟨this.1, this.2.1, Nat.zero_le _⟩
    exact .ite ((setFlight_steady hw blocked).trans (raiseHealth_steady _ r)) (setFlight_steady hw skipped_wf)

theorem dropOldest_steady (r : RowId) (s : State) : Steady s (dropOldest r s) :=
  modFlight_steady fun x h => by
    rw [Flight.wf_iff] at *
    exact ⟨by rw [List.length_tail]; omega, h.2⟩

theorem creditEntry_steady (e : Entry) (c : Sub → SeedCredit) (s : State) : Steady s (creditEntry e c s) := by
  unfold creditEntry
  split
  · exact .refl s
  · exact creditSeed_steady _ _ s

theorem resolveMatched_steady (r : RowId) (s : State) : Steady s (resolveMatched r s) := by
  unfold resolveMatched
  split
  · exact .refl s
  · exact ((creditEntry_steady _ _ s).trans (noteMatched_steady r _)).trans (dropOldest_steady r _)

theorem resolveSkip_steady (r : RowId) (s : State) : Steady s (resolveSkip r s) := by
  unfold resolveSkip
  split
  · exact .refl s
  · exact ((creditEntry_steady _ _ s).trans (noteSkip_steady r _)).trans (dropOldest_steady r _)

theorem resolveUnseen_steady (r : RowId) (s : State) : Steady s (resolveUnseen r s) :=
  .ite (dropOldest_steady r s) (resolveSkip_steady r s)

/-! ### The room of a queue (R101, R105, R106) -/

/-- The in-flight queue of a row, where it is configured. -/
def State.queueOf (s : State) (r : RowId) : Option (List Entry) :=
  (s.row r).map (·.sfm.queue)

theorem queueOf_modFlight (r : RowId) (f : Flight → Flight) (s : State) :
    (modFlight r f s).queueOf r = (s.row r).map fun w => (f w.sfm).queue := by
  unfold State.queueOf modFlight
  rw [State.row_modRow_self, Option.map_map]
  rfl

theorem queueOf_of_core {s t : State} {r : RowId} (h : (t.row r).map Row.core = (s.row r).map Row.core) :
    t.queueOf r = s.queueOf r := by
  have e := congrArg (·.map (·.sfm.queue)) h
  simp only [Option.map_map] at e
  exact e

theorem queueOf_creditEntry (e : Entry) (c : Sub → SeedCredit) (r : RowId) (s : State) :
    (creditEntry e c s).queueOf r = s.queueOf r := by
  unfold creditEntry
  split
  · rfl
  · exact queueOf_of_core ((deliver_base _ _ s).2 r)

theorem queueOf_noteSkip (r : RowId) (s : State) : (noteSkip r s).queueOf r = s.queueOf r := by
  unfold noteSkip
  split
  · rfl
  · rename_i w hw
    dsimp only
    split
    · exact (queueOf_modFlight r _ s).trans (by simp [State.queueOf, hw, Flight.skipped])
    · exact (queueOf_modFlight r _ s).trans (by simp [State.queueOf, hw, Flight.skipped])

theorem queueOf_dropOldest (r : RowId) (s : State) : (dropOldest r s).queueOf r = (s.queueOf r).map List.tail := by
  rw [dropOldest, queueOf_modFlight, State.queueOf, Option.map_map]
  rfl

/-- The oldest entry is the head of the queue. -/
theorem oldest_eq (s : State) (r : RowId) : s.oldest r = (s.queueOf r).bind List.head? := by
  unfold State.oldest State.queueOf
  cases s.row r <;> rfl

theorem queueOf_resolveUnseen (r : RowId) (s : State) :
    (resolveUnseen r s).queueOf r = (s.queueOf r).map List.tail := by
  unfold resolveUnseen
  split
  · exact queueOf_dropOldest r s
  · unfold resolveSkip
    split
    · rename_i h
      rw [oldest_eq] at h
      cases hq : s.queueOf r with
      | none => rfl
      | some q =>
        rw [hq] at h
        cases q with
        | nil => rfl
        | cons e rest => cases h
    · rw [queueOf_dropOldest, queueOf_noteSkip, queueOf_creditEntry]

/-- After an overflow a queue within its range has room. -/
theorem overflow_room {resolve : State → State} {r : RowId} {s : State}
    (hq : (resolve s).queueOf r = (s.queueOf r).map List.tail) (hs : ∀ l, s.queueOf r = some l → l.length ≤ 8) :
    ∀ l, (overflow resolve r s).queueOf r = some l → l.length < 8 := by
  intro l hl
  unfold overflow at hl
  cases hw : s.row r with
  | none =>
    rw [hw] at hl
    simp [State.queueOf, hw] at hl
  | some w =>
    have hw8 := hs w.sfm.queue (by simp [State.queueOf, hw])
    rw [hw] at hl
    dsimp only at hl
    split at hl
    · rw [queueOf_modFlight] at hl
      have e : (resolve s).queueOf r = some l := hl
      rw [hq, State.queueOf, hw] at e
      simp only [Option.map_some, Option.some.injEq] at e
      subst e
      rw [List.length_tail]
      omega
    · have e : s.queueOf r = some l := hl
      rw [State.queueOf, hw] at e
      simp only [Option.map_some, Option.some.injEq] at e
      rw [← e]
      omega

theorem queue_le_of_rowsWf {s : State} (h : s.rowsWf) {r : RowId} {l : List Entry} (hl : s.queueOf r = some l) :
    l.length ≤ 8 := by
  obtain ⟨w, hw, rfl⟩ := Option.map_eq_some_iff.mp hl
  obtain ⟨-, -, -, hf, -⟩ := (Row.wf_iff w).mp (h.1 r w hw)
  exact ((Flight.wf_iff _).mp hf).1

theorem overflow_steady {resolve : State → State} (h : ∀ s, Steady s (resolve s)) (r : RowId) (s : State) :
    Steady s (overflow resolve r s) := by
  unfold overflow
  split
  · exact .refl s
  · exact .ite ((h s).trans (modFlight_steady fun _ h => h)) (.refl s)

/-- An entry joins a queue with room. -/
theorem joinEntry_steady {s t : State} (h : Steady s t) (r : RowId) (target : State → Row → Option (Key × Sub))
    (room : s.rowsWf → ∀ l, t.queueOf r = some l → l.length < 8) : Steady s (joinEntry r target t) := by
  unfold joinEntry
  rw [State.modRow_eq_mapRows]
  have step : ∀ q (w : Row), t.row q = some w → (q = r → w.sfm.queue.length < 8) → w.Steady (if q = r then
      { w with sfm := { w.sfm with
        queue := w.sfm.queue ++ [⟨t.now, t.now + t.settings.transitLimit, target t w⟩] } } else w) := fun q w _ hq => by
    split
    · rename_i e
      refine .flight w _ fun hf => ?_
      rw [Flight.wf_iff] at *
      exact ⟨by simpa using hq e, hf.2⟩
    · exact .refl w
  refine ⟨⟨⟨⟨fun hc => by simpa using h.store hc, fun hc hr => ?_⟩, fun hc => by simpa using h.lasts hc⟩,
    by simpa using h.keys⟩, fun q => (places_of_rows _ (State.row_mapRows _ _) (fun q w _ => ?_) q).trans (h.places q)⟩
  · exact rowsWf_of_rows (State.mapRows_seedFallback _ _) (State.mapRows_fertFallback _ _) _ (State.row_mapRows _ _)
      (fun q w hw => (step q w hw fun e => room hr _ (by simp [State.queueOf, ← e, hw])).toKept) (h.rows hc hr)
  · split <;> rfl

theorem holeSeen_steady (r : RowId) (s : State) : Steady s (holeSeen r s) := by
  have h : Steady s (s.modRow r (·.holed s.now s.settings.stallTime)) := modRow_steady fun w _ => holed_steady w _ _
  unfold holeSeen
  split
  · exact .refl s
  · exact .ite (h.trans (raiseHealth_steady _ r)) h

theorem queueOf_holeSeen (r : RowId) (s : State) : (holeSeen r s).queueOf r = s.queueOf r := by
  have e : (s.modRow r (·.holed s.now s.settings.stallTime)).queueOf r = s.queueOf r := by
    unfold State.queueOf
    rw [State.row_modRow_self, Option.map_map]
    rfl
  unfold holeSeen
  split
  · rfl
  · dsimp only
    split
    · exact e
    · exact e

theorem holePassed_steady (r : RowId) (s : State) : Steady s (holePassed r s) := by
  have h := holeSeen_steady r s
  unfold holePassed
  dsimp only
  split
  · refine joinEntry_steady (h.trans (overflow_steady (resolveUnseen_steady r) r _)) r _ fun hr => ?_
    exact overflow_room (queueOf_resolveUnseen r _) fun l hl => queue_le_of_rowsWf hr ((queueOf_holeSeen r s) ▸ hl)
  · exact h.trans (primingHole_steady r _)
  · exact h

theorem extraSeed_steady (r : RowId) (s : State) : Steady s (extraSeed r s) := by
  have h : Steady s (modFlight r (fun f => { f with underflowSeen := true }) s) := modFlight_steady fun _ h => h
  unfold extraSeed
  dsimp only
  split
  · exact h
  · split
    · exact h.trans (creditSeed_steady _ _ _)
    · exact h

theorem occlusionStarts_steady (r : RowId) (s : State) : Steady s (occlusionStarts r s) := by
  have h : Steady s (modFlight r (fun f => { f with line := .occluded, occlusionDue := some (s.now + stuckTime) }) s) :=
    modFlight_steady fun _ h => h
  exact .ite (h.trans (.ite (resolveMatched_steady r _) (extraSeed_steady r _))) h

theorem occlusionEnds_steady (r : RowId) (s : State) : Steady s (occlusionEnds r s) := by
  have h : Steady s (modFlight r (fun f => { f with line := .clear, occlusionDue := none, stuck := false }) s) :=
    modFlight_steady fun _ h => h
  exact .ite (h.trans (raiseHealth_steady _ r)) h

theorem enterStuck_steady (r : RowId) (s : State) : Steady s (enterStuck r s) := by
  have h : Steady s (modFlight r (fun f => { f with occlusionDue := none, stuck := true }) s) :=
    modFlight_steady fun _ h => h
  exact .ite h (h.trans (raiseHealth_steady _ r))

theorem enterStall_steady (r : RowId) (s : State) : Steady s (enterStall r s) := by
  have h : Steady s (modFlight r (fun f => { f with stallDue := none, stalled := true }) s) :=
    modFlight_steady fun _ h => h
  exact (Steady.ite h (h.trans (raiseHealth_steady _ r))).trans (primingStall_steady r _)

theorem synthHole_steady (r : RowId) (s : State) : Steady s (synthHole r s) := by
  have h : Steady s (modFlight r (fun f => { f with synth := f.synth - holeMicros }) s) :=
    modFlight_steady fun x hx => by
      rw [Flight.wf_iff] at *
      exact hx
  unfold synthHole
  refine joinEntry_steady (h.trans (overflow_steady (dropOldest_steady r) r _)) r _ fun hr => ?_
  refine overflow_room (queueOf_dropOldest r _) fun l hl => queue_le_of_rowsWf hr (r := r) ?_
  rw [queueOf_modFlight] at hl
  exact hl

/-! ## Flow (R122 to R135) -/

theorem startConversion_steady (r : Option RowId) (s : State) : Steady s (startConversion r s) := by
  unfold startConversion
  split <;> exact setFsc_steady s _

theorem startRun_steady (s : State) : Steady s (startRun s) := by
  have h := mapRows_steady s fun _ w => timeForgotten_steady w
  unfold startRun restartScan
  exact (h.trans (setFsc_steady _ _)).trans (startConversion_steady _ _)

theorem endRun_steady (s : State) : Steady s (endRun s) := by
  have h := mapRows_steady s fun _ w => timeForgotten_steady w
  exact h.trans (setFsc_steady _ _)

/-- The measured flow never passes the full scale flow (R73). -/
theorem measuredFlow_le (code : AdcCode) {c : RowContext} (h : c.wf = true) : measuredFlow code c ≤ 200000 := by
  obtain ⟨-, -, -, -, -, -, hz, ⟨-, hs⟩, -⟩ := (RowContext.wf_iff c).mp h
  have hc : code.toNat ≤ 4095 := by
    have := code.isLt
    omega
  unfold measuredFlow
  split
  · exact Nat.zero_le _
  · have hn : (code.toNat - c.zeroCode) * c.fullScale ≤ (4095 - c.zeroCode) * 200000 :=
      Nat.mul_le_mul (by omega) hs
    exact Nat.div_le_of_le_mul hn

theorem flowStep_steady (r : RowId) (code : AdcCode) (s : State) : Steady s (flowStep r code s) := by
  refine .ite (.refl s) (modRow_steady fun w hw => .flow w (fun f => { f with lastFlow := s.measured r code })
    fun hc l _ hl => ?_)
  rw [FlowState.wf_iff] at *
  refine ⟨?_, hl.2⟩
  simpa only [State.measured, hw] using measuredFlow_le code hc

theorem counted_wf {f : FlowState} (h : f.wf = true) (b : Bool) : (f.counted b).wf = true := by
  rw [FlowState.wf_iff] at *
  obtain ⟨hf, ht, -, -, hl⟩ := h
  unfold FlowState.counted
  split
  · exact ⟨hf, ht, Nat.min_le_left _ _, Nat.zero_le _, hl⟩
  · exact ⟨hf, ht, Nat.zero_le _, Nat.min_le_left _ _, hl⟩

theorem faultStep_steady (r : RowId) (code : AdcCode) (s : State) : Steady s (faultStep r code s) := by
  unfold faultStep
  split
  · exact .refl s
  · rename_i f hf
    have h : ∀ b, Steady s (modFlow r (fun _ => { f.counted (isRail code) with sensorFault := b }) s) := fun b =>
      modRow_steady fun w hw => .flow w (fun _ => { f.counted (isRail code) with sensorFault := b }) fun _ l hl hlw => by
        have e : l.flow = f := by simpa [State.flowOf, State.fertOf, hw, hl] using hf
        exact counted_wf (f := f) (e ▸ hlw) _
    exact .ite (h _) ((h _).trans (raiseHealth_steady _ r))

theorem creditStep_steady (r : RowId) (code : AdcCode) (s : State) : Steady s (creditStep r code s) := by
  have time : ∀ t u : State, Steady s t → Steady s (modFlow r (fun f => { f with prevTime := some u.now }) t) :=
    fun t _ h => h.trans (modFlow_steady fun _ h => h)
  refine time _ s (.ite ?_ (.refl s))
  split
  · exact .refl s
  · refine (modFlow_steady (r := r) (f := fun f => { f with estimated := f.sensorFault }) fun _ h => h).trans ?_
    unfold deliverVolume
    split
    · exact .refl _
    · exact creditFert_steady _ _ _

theorem noFlowStep_steady (r : RowId) (code : AdcCode) (s : State) : Steady s (noFlowStep r code s) := by
  have run : ∀ (b : Bool) (n : Nat), n ≤ 10 → Steady s (modFlow r (fun f => { f with noFlow := b, lowRun := n }) s) :=
    fun b n hn => modFlow_steady fun x hx => by
      rw [FlowState.wf_iff] at *
      exact ⟨hx.1, hx.2.1, hx.2.2.1, hx.2.2.2.1, hn⟩
  unfold noFlowStep
  split
  · exact .refl s
  · split
    · exact .ite ((modFlow_steady (f := fun f => { f with noFlow := false }) fun _ h => h).trans (raiseHealth_steady _ r))
        (.refl s)
    · refine .ite ((run true 0 (Nat.zero_le _)).trans (raiseHealth_steady _ r)) (modFlow_steady fun x hx => ?_)
      rw [FlowState.wf_iff] at *
      refine ⟨hx.1, hx.2.1, hx.2.2.1, hx.2.2.2.1, ?_⟩
      dsimp only [lowRunAfter]
      split
      · exact Nat.min_le_left _ _
      · exact Nat.zero_le _

theorem trimStep_steady (r : RowId) (code : AdcCode) (s : State) : Steady s (trimStep r code s) := by
  unfold trimStep
  split
  · exact .refl s
  · split
    · exact .refl s
    · refine .ite ((modFlow_steady fun x hx => ?_).trans (pass_steady _ _)) (.refl s)
      rw [FlowState.wf_iff] at *
      exact ⟨hx.1, clampInt_bounds (by omega) _, hx.2.2⟩

theorem takeCode_steady (r : RowId) (code : AdcCode) (s : State) : Steady s (takeCode r code s) :=
  ((((flowStep_steady r code s).trans (faultStep_steady r code _)).trans (creditStep_steady r code _)).trans
    (noFlowStep_steady r code _)).trans (trimStep_steady r code _)

/-! ## Motion (R30 to R43) -/

theorem speedSample_steady (v : Nat) (s : State) : Steady s (speedSample v s) :=
  (setMot_steady s _).trans (computeAll_steady _)

theorem testSilence_steady (s : State) : Steady s (testSilence s) :=
  .ite ((setMot_steady s _).trans (raise_steady _ _)) (.refl s)

theorem testFallback_steady (s : State) : Steady s (testFallback s) :=
  .ite ((setMot_steady s _).trans (raise_steady _ _)) (.refl s)

theorem enterLost_steady (s : State) : Steady s (enterLost s) :=
  ((setMot_steady s _).trans (raise_steady _ _)).trans (pass_steady _ _)

theorem closeWindow_steady (s : State) : Steady s (closeWindow s) := by
  have sample : ∀ (x : SpeedSource) (t : State), Steady t (windowSample x t) := fun x t =>
    .ite (speedSample_steady _ t) (.ite (computeAll_steady t) (.refl t))
  refine .ite (((setMot_steady s _).trans (.ite (setMot_steady _ _) (.refl _))).trans (sample _ _)) ?_
  exact ((setMot_steady s _).trans (.ite ((testSilence_steady _).trans (testFallback_steady _)) (.refl _))).trans
    (sample _ _)

theorem takeSwitch_steady (s : State) : Steady s (takeSwitch s) := by
  have h : Steady s ((s.setMot { s.mot with switch := s.pins.switch, switchSince := none }).raise .switched) :=
    .of_same rfl rfl
  exact .ite (h.trans (settleAndDecide_steady _)) (h.trans (decideAll_steady _))

/-! ## SETI, SETE and SETF (R46, R51, R62, R174) -/

theorem fallbackSample_steady (s : State) : Steady s (fallbackSample s) :=
  .ite ((testFallback_steady s).trans (computeAll_steady _)) (.refl s)

theorem onChange_steady {α : Type} [DecidableEq α] (a b : α) {f : State → State} (h : ∀ s, Steady s (f s)) (s : State) :
    Steady s (onChange a b f s) :=
  .ite (.refl s) (h s)

theorem cellSideChanged_steady (s : State) : Steady s (cellSideChanged s) :=
  (Steady.of_noMisses (t := s.setCst { s.cst with misses := [], incomplete := false }) rfl rfl).trans
    (mapRows_steady _ fun _ w => forgotCells_steady w)

theorem speedSourceChanged_steady (s : State) : Steady s (speedSourceChanged s) := by
  unfold speedSourceChanged
  split
  · exact (setMot_steady s _).trans (speedSample_steady _ _)
  · have h := (setMot_steady s { s.mot with source := .pulse }).trans (speedSample_steady s.mot.pulseSpeed _)
    exact .ite ((h.trans (testSilence_steady _)).trans (fallbackSample_steady _)) h

theorem fallbackChanged_steady (s : State) : Steady s (fallbackChanged s) :=
  .ite (fallbackSample_steady s) (.ite ((setMot_steady s _).trans (speedSample_steady _ _)) (.refl s))

theorem applySettings_steady (new : Settings) (s : State) : Steady s (applySettings new s) := by
  have h : Steady s ((s.setSettings new).setCmu { s.cmu with settingsValid := true }) := .of_same rfl rfl
  have lost : ∀ t, Steady t (lostLimitChanged t) := fun t => .ite (enterLost_steady t) (.refl t)
  exact ((((h.trans (onChange_steady _ _ cellSideChanged_steady _)).trans
    (onChange_steady _ _ speedSourceChanged_steady _)).trans
    (onChange_steady _ _ fallbackChanged_steady _)).trans (onChange_steady _ _ lost _)).trans
    (onChange_steady _ _ decideAll_steady _)

theorem setImplement_steady (p : List Byte) (s : State) : Steady s (setImplement p s) := by
  refine .ite (complete_steady s _) (.ite (complete_steady s _) ?_)
  dsimp only
  split
  · exact complete_steady s _
  · exact .ite (complete_steady s _) ((applySettings_steady _ s).trans (complete_steady _ _))

theorem setEnables_steady (p : List Byte) (s : State) : Steady s (setEnables p s) := by
  have h : Steady s (s.mapRows fun r w => w.enabledTo (rowIn r (rowSetAt p 0))) :=
    mapRows_steady s fun r w => enabledTo_steady w _
  unfold setEnables restartScan
  exact ((h.trans (.ite (startConversion_steady _ _) (.refl _))).trans (pass_steady _ _)).trans (complete_steady _ _)

theorem setFallbacks_steady (s : State) {a b : Nat} (ha : a ≤ 6000) (hb : b ≤ 4000) :
    Steady s (s.setRen { s.ren with seedFallback := a, fertFallback := b }) where
  store := id
  rows _ := fun ⟨ranged, apart, _, _⟩ => ⟨ranged, apart, ha, hb⟩
  lasts _ := s.cst.lasts_refl
  keys := rfl
  places _ := rfl

theorem setFallback_steady (p : List Byte) (s : State) : Steady s (setFallback p s) :=
  ((setFallbacks_steady s (Nat.min_le_left _ _) (Nat.min_le_left _ _)).trans (reviewLanes_steady _ _)).trans
    (complete_steady _ _)

/-! ## Modes (R81 to R95) -/

theorem start_steady (p : List Byte) (s : State) : Steady s (start p s) := by
  have field : Steady s (startField s) := ((setCmu_steady s _).trans (startRun_steady _)).trans (decideAll_steady _)
  have shadow : Steady s (startShadow s) :=
    ((setCmu_steady s _).trans (mapRows_steady _ fun _ w => synthCleared_steady w)).trans (decideAll_steady _)
  exact .ite (complete_steady s _) (.ite (complete_steady s _) (.ite (complete_steady s _) (.ite (complete_steady s _)
    ((Steady.ite field shadow).trans (complete_steady _ _)))))

theorem stopRun_steady (s : State) : Steady s (stopRun s).1 :=
  (((setCmu_steady s _).trans (mapRows_steady _ fun _ w => flightEmptied_steady w)).trans (endRun_steady _)).trans
    (settleAndDecide_steady _)

theorem stopCommand_steady (p : List Byte) (s : State) : Steady s (stopCommand p s) :=
  .ite (complete_steady s _) ((stopRun_steady s).trans (complete_steady _ _))

theorem settleCommand_steady (p : List Byte) (s : State) : Steady s (settleCommand p s) :=
  (settle_steady s).trans (complete_steady _ _)

theorem primeMeters_steady (p : List Byte) (s : State) : Steady s (primeMeters p s) :=
  .ite (complete_steady s _) (.ite (complete_steady s _) (.ite (complete_steady s _) (.ite (complete_steady s _)
    ((setCmu_steady s _).trans (startPriming_steady _ _ _)))))

/-! ## Records (R139 to R165) -/

theorem loadCells_steady (p : List Byte) (s : State) : Steady s (loadCells p s) :=
  .ite (complete_steady s _) (.ite (complete_steady s _) (setCmu_steady s _))

theorem returnRecord_steady (k : Key) (s : State) : Steady s (returnRecord k s) :=
  (readState_steady k s).trans (complete_steady _ _)

theorem queryCell_steady (p : List Byte) (s : State) : Steady s (queryCell p s) := by
  refine .ite (.ite (returnRecord_steady _ s) (complete_steady s _)) (.ite ?_ (complete_steady s _))
  unfold queryNext
  split
  · exact returnRecord_steady _ s
  · exact complete_steady s _

theorem patchField_wf {y : Payload} (h : y.wf = true) (f : PatchField) {v : Nat} (hv : v ≤ f.most) :
    (f.put v y).wf = true := by
  rw [Payload.wf_iff] at *
  cases f with
  | seedTarget => exact ⟨hv, h.2⟩
  | fertTarget => exact ⟨h.1, hv, h.2.2⟩
  | noApply => exact h

theorem patchField_tallies (y : Payload) (f : PatchField) (v : Nat) : y.talliesLe (f.put v y) := by
  cases f <;> exact y.talliesLe_refl

theorem patchRecord_steady (k : Key) (f : PatchField) (v : Nat) (s : State) : Steady s (patchRecord k f v s) := by
  have hr := readState_steady k s
  refine .ite (complete_steady s _) ?_
  dsimp only
  split
  · exact hr.trans (complete_steady _ _)
  · rename_i y hy
    exact ((hr.trans (writePayload_steady hy (fun w => patchField_wf w f (Nat.min_le_left _ _))
      fun _ => patchField_tallies y f _)).trans (reviewBound_steady k _)).trans (complete_steady _ _)

theorem patchCell_steady (p : List Byte) (s : State) : Steady s (patchCell p s) := by
  unfold patchCell
  split
  · exact complete_steady s _
  · exact .ite (complete_steady s _) (patchRecord_steady _ _ _ s)

theorem merged_wf {v : Coverage} (h : v.wf = true) (add : Bool) (m : SubSet) : (v.merged add m).wf = true := by
  cases add
  · exact Coverage.remove_wf h m
  · exact Coverage.add_wf h m

theorem mergeRecord_steady (k : Key) (add : Bool) (a b : SubSet) (s : State) : Steady s (mergeRecord k add a b s) := by
  have hr := readState_steady k s
  refine .ite (complete_steady s _) ?_
  dsimp only
  split
  · exact hr.trans (complete_steady _ _)
  · rename_i y hy
    have write : ∀ c d : Coverage, (y.seedCov.wf = true → c.wf = true) → (y.fertCov.wf = true → d.wf = true) →
        Steady (readState k s) (writePayload k { y with seedCov := c, fertCov := d } (readState k s)) :=
      fun c d hc hd => writePayload_steady hy (fun w => by
        rw [Payload.wf_iff] at *
        obtain ⟨hs, hf, hsc, hfc, rest⟩ := w
        exact ⟨hs, hf, hc hsc, hd hfc, rest⟩) fun _ => ⟨le_rfl, le_rfl, le_rfl, le_rfl⟩
    exact ((hr.trans (write _ _ (fun h => merged_wf h add a) fun h => merged_wf h add b)).trans
      (refreshMoved_steady _ _)).trans (complete_steady _ _)

theorem mergeCell_steady (p : List Byte) (s : State) : Steady s (mergeCell p s) :=
  .ite (complete_steady s _) (mergeRecord_steady _ _ _ _ s)

theorem chooseNext_steady (w : Sweep) (s : State) : Steady s (chooseNext w s) := by
  unfold chooseNext
  split
  · exact setCmu_steady s _
  · exact complete_steady s _

theorem sweep_steady (p : List Byte) (s : State) : Steady s (sweep p s) :=
  .ite (complete_steady s _) (.ite (complete_steady s _) (.ite (complete_steady s _) (chooseNext_steady _ s)))

theorem readMisses_steady (p : List Byte) (s : State) : Steady s (readMisses p s) := .of_noMisses rfl rfl

theorem readStatus_steady (p : List Byte) (s : State) : Steady s (readStatus p s) := .of_status false none rfl rfl

theorem stepScrub_steady (s : State) : Steady s (stepScrub s) := by
  have step : ∀ (position : Option Key) (n : Nat), Steady s (scrubStep position n s) := fun position n => by
    unfold scrubStep
    split
    · exact complete_steady s _
    · dsimp only
      split
      · exact (readState_steady _ s).trans (setCmu_steady _ _)
      · exact (readState_steady _ s).trans (complete_steady _ _)
  unfold stepScrub
  split
  · exact .ite (step _ _) (.refl s)
  · exact .refl s

theorem abortCommand_steady (p : List Byte) (s : State) : Steady s (abortCommand p s) := by
  unfold abortCommand
  split
  · exact complete_steady s _
  · exact complete_steady s _
  · exact complete_steady s _
  · exact complete_steady s _
  · exact (endPriming_steady _ s).trans (complete_steady _ _)

theorem timeOut_steady (s : State) : Steady s (timeOut s) := by
  unfold timeOut
  split
  · exact complete_steady s _
  · exact complete_steady s _
  · exact .refl s

theorem assertReset_steady (s : State) : Steady s (assertReset s) := by
  have h := mapRows_steady s fun _ w => silenced_steady w
  unfold assertReset
  generalize s.mapRows (fun _ => Row.silenced) = t at h
  exact h.trans (.of_same rfl rfl)

theorem readRow_steady (p : List Byte) (s : State) : Steady s (readRow p s) := by
  unfold readRow
  split
  · exact complete_steady s _
  · exact (modRow_steady fun w _ => flagsRead_steady w).trans (complete_steady _ _)

theorem setEventEnables_steady (p : List Byte) (s : State) : Steady s (setEventEnables p s) := .of_same rfl rfl
theorem acknowledge_steady (p : List Byte) (s : State) : Steady s (acknowledge p s) := .of_same rfl rfl
theorem readChanged_steady (p : List Byte) (s : State) : Steady s (readChanged p s) := .of_same rfl rfl

end Sys2Proof.Machine

namespace Sys2Proof

/-- The eight commands that move points, take records in or out, or bring power-on. -/
def Instr.moving : Instr → Bool
  | .powerOnResetRelease => true
  | .fixFrame _ => true
  | .dataFrame _ => true
  | .fetchFrame _ _ => true
  | .rstr _ => true
  | .setrConfigure _ => true
  | .setrRemove _ => true
  | .rtc _ => true
  | _ => false

end Sys2Proof
end

section
/-! The commands that move points or take records in and out, and what every command and every step keeps. -/

namespace Sys2Proof.Machine

/-! ## The steady commands -/

/-- A steady next state, for an outcome that answers it. -/
theorem steady_next {s t u : State} (h : Steady s u)
    (e : (Host.Outcome.next u : Host.Outcome State Fault Refusal) = .next t) :
    Steady s t := by
  cases e
  exact h

theorem exec_steady {i : Instr} {s t : State} (hm : i.moving = false) (h : exec i s = .next t) : Steady s t := by
  cases i with
  | powerOnResetRelease => cases hm
  | fixFrame f => cases hm
  | dataFrame f => cases hm
  | fetchFrame f after => cases hm
  | rstr c => cases hm
  | setrConfigure c => cases hm
  | setrRemove c => cases hm
  | rtc c => cases hm
  | powerOnResetAssert => exact steady_next (assertReset_steady s) h
  | malformedFrame bytes => exact steady_next (whenReleased_steady (.of_same rfl rfl)) h
  | statusFrame f => exact steady_next (arrive_steady Steady.refl) h
  | staleTimerExpiry =>
    exact steady_next (whenReleased_steady (.ite ((setMot_steady s _).trans (raise_steady _ _)) (.refl s))) h
  | lostTimerExpiry => exact steady_next (whenReleased_steady (.ite (enterLost_steady s) (.refl s))) h
  | groundSpeedPulse => exact steady_next (whenReleased_steady (setMot_steady s _)) h
  | speedWindowEnd => exact steady_next (whenReleased_steady (.ite (closeWindow_steady s) (.refl s))) h
  | workSwitchLevelChange level => cases h; exact .ite (.of_same rfl rfl) (.of_same rfl rfl)
  | workSwitchChange => exact steady_next (whenReleased_steady (.ite (takeSwitch_steady s) (.refl s))) h
  | holeEvent row => exact steady_next (whenReleased_steady (.ite (holePassed_steady row s) (.refl s))) h
  | sensedSeed row =>
    have line : Steady s (s.lineAt row .occluded) := .of_same rfl rfl
    exact steady_next (.ite line (line.trans (occlusionStarts_steady row _))) h
  | occlusionEnd row =>
    have line : Steady s (s.lineAt row .clear) := .of_same rfl rfl
    exact steady_next (.ite line (line.trans (occlusionEnds_steady row _))) h
  | occlusionTimerExpiry row => exact steady_next (whenReleased_steady (.ite (enterStuck_steady row s) (.refl s))) h
  | entryExpiry row => exact steady_next (whenReleased_steady (.ite (resolveUnseen_steady row s) (.refl s))) h
  | stallTimerExpiry row => exact steady_next (whenReleased_steady (.ite (enterStall_steady row s) (.refl s))) h
  | syntheticHoleEvent row => exact steady_next (whenReleased_steady (.ite (synthHole_steady row s) (.refl s))) h
  | syntheticSensedSeed row => exact steady_next (whenReleased_steady (.ite (dropOldest_steady row s) (.refl s))) h
  | conversionComplete code =>
    refine steady_next (whenReleased_steady ?_) h
    split
    · exact .refl s
    · exact (takeCode_steady _ code s).trans (startConversion_steady _ _)
  | dataTimeout => exact steady_next (whenReleased_steady (.ite (timeOut_steady s) (.refl s))) h
  | scbReadStep => exact steady_next (whenReleased_steady (stepScrub_steady s)) h
  | badCommand code c => exact steady_next (takeCommand_steady fun _ u => complete_steady u _) h
  | idn c => exact steady_next (takeCommand_steady (withLength_steady fun _ u => complete_steady u _)) h
  | abrt c => exact steady_next (takeAlways_steady (withLength_steady abortCommand_steady)) h
  | seti c => exact steady_next (takeCommand_steady setImplement_steady) h
  | sete c => exact steady_next (takeCommand_steady (withLength_steady setEnables_steady)) h
  | setf c => exact steady_next (takeCommand_steady (withLength_steady setFallback_steady)) h
  | strtField c => exact steady_next (takeCommand_steady start_steady) h
  | strtShadow c => exact steady_next (takeCommand_steady start_steady) h
  | stop c => exact steady_next (takeCommand_steady (withLength_steady stopCommand_steady)) h
  | prim c => exact steady_next (takeCommand_steady primeMeters_steady) h
  | setl c => exact steady_next (takeCommand_steady (withLength_steady settleCommand_steady)) h
  | ldc c => exact steady_next (takeCommand_steady loadCells_steady) h
  | pchSeedTarget c => exact steady_next (takeCommand_steady (withLength_steady patchCell_steady)) h
  | pchFertTarget c => exact steady_next (takeCommand_steady (withLength_steady patchCell_steady)) h
  | pchNoApply c => exact steady_next (takeCommand_steady (withLength_steady patchCell_steady)) h
  | mrgAdd c => exact steady_next (takeCommand_steady (withLength_steady mergeCell_steady)) h
  | mrgRemove c => exact steady_next (takeCommand_steady (withLength_steady mergeCell_steady)) h
  | qryExact c => exact steady_next (takeCommand_steady (withLength_steady queryCell_steady)) h
  | qryNext c => exact steady_next (takeCommand_steady (withLength_steady queryCell_steady)) h
  | swp c => exact steady_next (takeCommand_steady (withLength_steady sweep_steady)) h
  | rms c => exact steady_next (takeCommand_steady (withLength_steady readMisses_steady)) h
  | scb c => exact steady_next (takeCommand_steady (withLength_steady fun _ u => setCmu_steady u _)) h
  | rss c => exact steady_next (takeCommand_steady (withLength_steady readStatus_steady)) h
  | eve c => exact steady_next (takeCommand_steady (withLength_steady setEventEnables_steady)) h
  | ack c => exact steady_next (takeCommand_steady (withLength_steady acknowledge_steady)) h
  | rhc c => exact steady_next (takeCommand_steady (withLength_steady readChanged_steady)) h
  | rrw c => exact steady_next (takeCommand_steady (withLength_steady readRow_steady)) h
  | rmo c => exact steady_next (takeCommand_steady (withLength_steady fun _ u => complete_steady u _)) h

/-! ## FIX frames (R55 to R58) -/

theorem placedRow_kept (s : State) (f : Fix) (w : Row) : w.Kept (s.placedRow f w) := by
  refine ⟨fun h => ?_, rfl⟩
  rw [Row.wf_iff] at *
  obtain ⟨hc, hv, hs, hq, hf, hl⟩ := h
  refine ⟨hc, hv, hs, hq, by simpa [State.placedRow] using hf, fun l h => ?_⟩
  obtain ⟨m, hm, rfl⟩ := Option.map_eq_some_iff.mp h
  exact hl m hm

theorem Holding.mapRows {s : State} {g : RowId → Row → Row} (h : s.rowsWf → ∀ (r : RowId) (w : Row), w.Kept (g r w)) :
    Holding s (s.mapRows g) :=
  .of_rows (s.mapRows_cst g) (s.mapRows_seedFallback g) (s.mapRows_fertFallback g) g (s.row_mapRows g)
    fun hr r w _ => h hr r w

/-- The keys that a row offers have no record (R16). -/
theorem rowOffers_missing {s : State} {r : RowId} {k : Key} (h : k ∈ s.rowOffers r) : s.cst.holds k = false := by
  have one : ∀ prev pt, k ∈ s.offered prev pt → s.cst.holds k = false := fun prev pt hk => by
    unfold State.offered at hk
    split at hk
    · cases hk
    · dsimp only at hk
      split at hk
      · rename_i hc
        rw [List.mem_singleton] at hk
        exact hk ▸ hc.2
      · cases hk
  unfold State.rowOffers at h
  split at h
  · cases h
  · rcases List.mem_append.mp h with h | h
    · exact one _ _ h
    · split at h
      · cases h
      · exact one _ _ h

theorem rowFixUpdate_holding (f : Fix) (s : State) : Holding s (rowFixUpdate f s) := by
  unfold rowFixUpdate
  have place : Holding s (s.mapRows fun _ => s.placedRow f) := .mapRows fun _ _ => placedRow_kept s f
  have offer : Steady _ (offerMisses (rowIds.flatMap (s.mapRows fun _ => s.placedRow f).rowOffers)
      (s.mapRows fun _ => s.placedRow f)) := offerMisses_steady fun k hk => by
    obtain ⟨r, -, hr⟩ := List.mem_flatMap.mp hk
    exact rowOffers_missing hr
  have note := mapRows_steady (offerMisses (rowIds.flatMap (s.mapRows fun _ => s.placedRow f).rowOffers)
      (s.mapRows fun _ => s.placedRow f)) fun _ w => notedCells_steady w s.settings.cellSide
  exact place.trans
    (((offer.trans note).trans (freeFirst_steady _ (readForRows_steady _))).trans (pass_steady _ _)).toHolding

theorem takeFix_holding (f : Fix) (s : State) : Holding s (takeFix f s) := by
  unfold takeFix
  split
  · exact (raise_steady s _).toHolding
  · exact (((setMot_steady s _).trans (testSilence_steady _)).trans (testFallback_steady _)).toHolding.trans
      (rowFixUpdate_holding _ _)

theorem fixFrame_holding {f : Frame} {s t : State} (h : exec (.fixFrame f) s = .next t) : Holding s t := by
  cases h
  exact arrive_keeps (fun _ => Steady.toHolding) fun n => (shifted_steady s n).toHolding.trans (takeFix_holding _ _)

/-! ## RSTR (R177) -/

theorem restartedRow_kept {s : State} (h : s.rowsWf) (r : RowId) (w : Row) : w.Kept (s.restartedRow r w) := by
  obtain ⟨-, -, hs, hf⟩ := h
  refine ⟨fun h => ?_, rfl⟩
  rw [Row.wf_iff] at *
  obtain ⟨hc, hv, -, -, hf', -⟩ := h
  refine ⟨hc, hv, ⟨hs, Nat.zero_le _, Nat.zero_le _⟩, rfl, by simpa [State.restartedRow] using hf', fun l h => ?_⟩
  obtain ⟨m, -, rfl⟩ := Option.map_eq_some_iff.mp h
  exact ⟨hf, Nat.zero_le _, Nat.zero_le _, Nat.zero_le _, rfl⟩

theorem restartedRow_places (s : State) (r : RowId) (w : Row) : (s.restartedRow r w).places = (none, none, none) := by
  cases h : w.fert <;>
    simp [Row.places, Row.point, Row.drop, State.restartedRow, SeedLane.fresh, FertLane.fresh, h]

/-- A restart is a steady part, the loss of every point, and another steady part. -/
theorem restart_parts (s : State) :
    ∃ c : State, Steady s c ∧ Steady (c.mapRows c.restartedRow) ((restart s).complete (.plain .ok)) := by
  have before := (setCmu_steady s s.cmu.restarted).trans (settleRecords_steady _)
  unfold restart
  dsimp only
  generalize (settleRecords (s.setCmu s.cmu.restarted)).1 = b at before ⊢
  refine ⟨_, before.trans (setMot_steady b (Motion.restarted b.pins.switch b.settings.speedSource b.now)), ?_⟩
  generalize (State.setMot _ _).mapRows _ = d
  have misses : Steady d (d.setCst { d.cst with misses := [], incomplete := false }) := .of_noMisses rfl rfl
  exact ((misses.trans (setFsc_steady _ _)).trans (computeAll_steady _)).trans (.of_same rfl rfl)

theorem restart_holding (s : State) : Holding s ((restart s).complete (.plain .ok)) := by
  obtain ⟨c, before, after⟩ := restart_parts s
  have lose : Holding c (c.mapRows c.restartedRow) := .mapRows restartedRow_kept
  exact (before.toHolding.trans lose).trans after.toHolding

/-- A restart leaves no row a point (R63). -/
theorem restart_places {s : State} {r : RowId} {w : Row} (h : ((restart s).complete (.plain .ok)).row r = some w) :
    w.places = (none, none, none) := by
  obtain ⟨c, -, after⟩ := restart_parts s
  have e := after.places r
  rw [h, State.row_mapRows, Option.map_map] at e
  obtain ⟨v, -, hv⟩ := Option.map_eq_some_iff.mp e.symm
  rw [← hv]
  exact restartedRow_places c r v

theorem Row.points_of_places {w : Row} (h : w.places = (none, none, none)) : w.points = [] := by
  simp only [Row.places, Prod.mk.injEq] at h
  obtain ⟨hs, hf, hd⟩ := h
  have hs : w.point .seed = none := hs
  simp [Row.points, hs, hf, hd]

/-! ## SETR (R48 to R50) -/

theorem inRange_iff (lo hi v : Nat) : inRange lo hi v = true ↔ lo ≤ v ∧ v ≤ hi := by
  simp [inRange]

/-- A context that passes the checks of R48 lies in the ranges of R47. -/
theorem contextAt_wf {p : List Byte} (h : setrBadField p = none) (ha : natAt p 1 1 ≠ 1) : (contextAt p).wf = true := by
  unfold setrBadField at h
  simp only [ite_eq_right_iff, reduceCtorEq, imp_false, not_not, inRange_iff, ha, ite_false,
    ite_eq_iff, and_false, false_or] at h
  obtain ⟨-, -, hlat, hfa, hwidth, hholes, hmax, hch, hzero, hfull, hvalve⟩ := h
  rw [RowContext.wf_iff]
  refine ⟨hlat, hfa.2, hwidth, hholes, hmax, fun x hx => ?_, hzero.2, hfull, hvalve⟩
  simp only [contextAt, channelOf] at hx
  split at hx
  · cases hx
  · cases hx
    omega

/-- A row configured anew from a context in range is in range (R49). -/
theorem configuredRow_wf {s : State} (h : s.rowsWf) (r : RowId) {c : RowContext} (hc : c.wf = true) (old : Option Row) :
    (s.configuredRow r c old).wf = true := by
  obtain ⟨-, -, hs, hf⟩ := h
  rw [Row.wf_iff]
  refine ⟨hc, Nat.zero_le _, ⟨hs, Nat.zero_le _, Nat.zero_le _⟩, rfl, ?_, fun l hl => ?_⟩
  · cases hch : c.channel <;> simp [State.configuredRow, hch]
  · unfold State.configuredRow at hl
    dsimp only at hl
    split at hl
    · cases hl
    · cases hl
      exact ⟨hf, Nat.zero_le _, Nat.zero_le _, Nat.zero_le _, rfl⟩

/-- A channel that is not taken is on no other row. -/
theorem channelTaken_false {s : State} {r : RowId} {ch : Option Nat} (h : s.channelTaken r ch = false) (hch : ch ≠ none)
    {q : RowId} {w : Row} (hq : q ≠ r) (hw : s.row q = some w) : w.ctx.channel ≠ ch := by
  intro e
  simp only [State.channelTaken, Option.isSome_iff_ne_none.mpr hch, Bool.true_and, List.any_eq_false] at h
  exact h q (rowIds_mem q) (by simp [hq, hw, e])

/-- A row written in its ranges, with no channel that another row holds. -/
theorem setRow_holding (s : State) (r : RowId) {w : Option Row}
    (hw : s.rowsWf → ∀ x, w = some x → x.wf = true)
    (hch : ∀ x, w = some x → x.ctx.channel ≠ none → ∀ q v, q ≠ r → s.row q = some v → v.ctx.channel ≠ x.ctx.channel) :
    Holding s (s.setRow r w) where
  store := id
  rows _ h := by
    have hw := hw h
    obtain ⟨ranged, apart, hs, hf⟩ := h
    refine ⟨fun q x hx => ?_, fun p q v x hne hv hx hc => ?_, hs, hf⟩
    · rw [State.row_setRow] at hx
      split at hx
      · exact hw x hx
      · exact ranged q x hx
    · rw [State.row_setRow] at hv hx
      split at hv
      · rename_i e
        rw [if_neg (fun e' => hne (e.trans e'.symm))] at hx
        exact (hch v hv hc q x (fun e' => hne (e.trans e'.symm)) hx).symm
      · rename_i hp
        split at hx
        · intro e
          exact hch x hx (e ▸ hc) p v hp hv e
        · exact apart p q v x hne hv hx hc
  lasts _ := s.cst.lasts_refl
  keys := rfl

/-- A configured row's points stay, or its two fertiliser points cease (R49). -/
def Row.keptOrLost (v w : Row) : Prop :=
  w.places = v.places ∨ w.places = (v.seed.point, none, none)

theorem configuredRow_places (s : State) (r : RowId) (c : RowContext) (v : Row) :
    v.keptOrLost (s.configuredRow r c (some v)) := by
  cases hch : c.channel with
  | none => exact .inr (by simp [Row.places, Row.point, Row.drop, State.configuredRow, hch, SeedLane.fresh])
  | some n =>
    refine .inl ?_
    cases hf : v.fert <;>
      simp [Row.places, Row.point, Row.drop, State.configuredRow, hch, hf, SeedLane.fresh, FertLane.fresh]

/-- After the row is written, a SETR CONFIGURE is steady. -/
theorem configureRow_steady (r : RowId) (c : RowContext) (s : State) :
    Steady (s.setRow r (some (s.configuredRow r c (s.row r)))) (configureRow r c s) := by
  unfold configureRow
  dsimp only
  generalize s.setRow r (some (s.configuredRow r c (s.row r))) = t
  have health : Steady t (if (s.row r).any (·.unhealthy) then t.raiseHealth r else t) :=
    .ite (raiseHealth_steady t r) (.refl t)
  generalize (if (s.row r).any (·.unhealthy) then t.raiseHealth r else t) = a at health ⊢
  exact (health.trans (freeFirst_steady _ (readForRow_steady r a))).trans (reviewLanes_steady _ _)

/-- What a SETR does is a row written, and then a steady part. -/
theorem setRowCommand_cases (p : List Byte) (s : State) :
    Steady s (setRowCommand p s)
      ∨ Steady (s.setRow (rowOf (natAt p 0 1)) none) (setRowCommand p s)
      ∨ ((contextAt p).wf = true ∧ s.channelTaken (rowOf (natAt p 0 1)) (contextAt p).channel = false
          ∧ Steady (s.setRow (rowOf (natAt p 0 1))
              (some (s.configuredRow (rowOf (natAt p 0 1)) (contextAt p) (s.row (rowOf (natAt p 0 1))))))
            (setRowCommand p s)) := by
  unfold setRowCommand
  split
  · exact .inl (complete_steady s _)
  · split
    · exact .inl (complete_steady s _)
    · split
      · exact .inl (complete_steady s _)
      · rename_i hbad
        dsimp only
        split
        · exact .inr (.inl (.of_same rfl rfl))
        · rename_i ha
          split
          · exact .inl (complete_steady s _)
          · rename_i hch
            refine .inr (.inr ⟨contextAt_wf hbad ha, by simpa using hch, ?_⟩)
            exact (configureRow_steady _ _ s).trans (complete_steady _ _)

theorem setRowCommand_holding (p : List Byte) (s : State) : Holding s (setRowCommand p s) := by
  rcases setRowCommand_cases p s with h | h | ⟨hc, hch, h⟩
  · exact h.toHolding
  · exact (setRow_holding s _ (fun _ _ e => by cases e) fun _ e => by cases e).trans h.toHolding
  · refine (setRow_holding s _ (fun hr x e => ?_) fun x e hx q v hq hv => ?_).trans h.toHolding
    · cases e
      exact configuredRow_wf hr _ hc _
    · cases e
      exact channelTaken_false hch hx hq hv

/-- A steady part leaves each row its points. -/
theorem Steady.row_back {s t : State} (h : Steady s t) {r : RowId} {w : Row} (hw : t.row r = some w) :
    ∃ v, s.row r = some v ∧ w.places = v.places := by
  have e := h.places r
  rw [hw] at e
  obtain ⟨v, hv, hp⟩ := Option.map_eq_some_iff.mp e.symm
  exact ⟨v, hv, hp.symm⟩

theorem Steady.places_eq {s t : State} (h : Steady s t) {r : RowId} {v w : Row} (hv : s.row r = some v)
    (hw : t.row r = some w) : w.places = v.places := by
  obtain ⟨x, hx, e⟩ := h.row_back hw
  rw [hv] at hx
  cases hx
  exact e

theorem setRowCommand_places {p : List Byte} {s : State} {q : RowId} {v w : Row} (hv : s.row q = some v)
    (hw : (setRowCommand p s).row q = some w) : v.keptOrLost w := by
  rcases setRowCommand_cases p s with h | h | ⟨-, -, h⟩
  · exact .inl (h.places_eq hv hw)
  · obtain ⟨x, hx, e⟩ := h.row_back hw
    rw [State.row_setRow] at hx
    split at hx
    · cases hx
    · rw [hv] at hx
      cases hx
      exact .inl e
  · obtain ⟨x, hx, e⟩ := h.row_back hw
    rw [State.row_setRow] at hx
    unfold Row.keptOrLost
    rw [e]
    split at hx
    · rename_i eq
      rw [← eq, hv] at hx
      cases hx
      exact configuredRow_places s _ _ v
    · rw [hv] at hx
      cases hx
      exact .inl rfl

/-! ## RTC and FETCH frames (R150, R153) -/

theorem holds_iff_keys {c : Store} {k : Key} : c.holds k = true ↔ k ∈ c.records.map (·.key) := by
  simp [Store.holds_iff]

theorem Holding.holds {s t : State} (h : Holding s t) (k : Key) : t.cst.holds k = s.cst.holds k := by
  rw [Bool.eq_iff_iff, holds_iff_keys, holds_iff_keys, h.keys]

/-- A step that may let go of records without references. -/
structure Releasing (s t : State) : Prop extends Lasting s t where
  places : ∀ r, (t.row r).map Row.places = (s.row r).map Row.places
  joins : ∀ k, t.cst.holds k = true → s.cst.holds k = true
  leaves : ∀ k, s.cst.holds k = true → t.cst.holds k = false → s.refCount k = 0

theorem Steady.releasing {s t : State} (h : Steady s t) : Releasing s t where
  toLasting := h.toLasting
  places := h.places
  joins k hk := (h.holds k) ▸ hk
  leaves k hs ht := by
    rw [h.holds, hs] at ht
    cases ht

theorem holds_remove (c : Store) (k j : Key) : (c.remove k).holds j = if j = k then false else c.holds j := by
  unfold Store.holds
  rw [Store.find_remove]
  split <;> rfl

theorem removeRecord_lasting (k : Key) (s : State) : Lasting s (removeRecord k s) where
  store h := Store.remove_wf h k
  rows _ h := rowsWf_of_ren rfl h
  lasts _ j q hq := by
    have e : (s.cst.remove k).payload j = some q := hq
    unfold Store.payload at e
    rw [Store.find_remove] at e
    split at e
    · cases e
    · exact ⟨q, e, q.talliesLe_refl⟩

/-- A record without references is removed between two steady parts. -/
theorem releasing_of_remove {s u t : State} {k : Key} (before : Steady s u) (hk : s.refCount k = 0)
    (after : Steady (removeRecord k u) t) : Releasing s t where
  toLasting := (before.toLasting.trans (removeRecord_lasting k u)).trans after.toLasting
  places r := (after.places r).trans (before.places r)
  joins j hj := by
    rw [after.holds] at hj
    have e : (u.cst.remove k).holds j = true := hj
    rw [holds_remove] at e
    split at e
    · cases e
    · exact (before.holds j) ▸ e
  leaves j hs ht := by
    rw [after.holds] at ht
    have e : (u.cst.remove k).holds j = false := ht
    rw [holds_remove] at e
    split at e
    · rename_i e'
      exact e' ▸ hk
    · rw [before.holds, hs] at e
      cases e

theorem retireCell_releasing (p : List Byte) (s : State) : Releasing s (retireCell p s) := by
  unfold retireCell
  dsimp only
  split
  · exact (complete_steady s _).releasing
  · split
    · exact (complete_steady s _).releasing
    · rename_i hk
      exact releasing_of_remove (readState_steady _ s) (by omega) (complete_steady _ _)

theorem transferOffered_releasing (k : Key) (w : Sweep) (s : State) : Releasing s (transferOffered k w s).1 := by
  have next : ∀ (b : Bool) (u : State), Steady u (if w.most ≤ (w.after b).retired + (w.after b).kept then
      endSweep .ok (w.after b) u else chooseNext (w.after b) u) := fun b u =>
    .ite (complete_steady u _) (chooseNext_steady _ u)
  unfold transferOffered
  dsimp only
  cases hk : decide (0 < s.refCount k) with
  | true => exact ((readState_steady k s).trans (next true _)).releasing
  | false => exact releasing_of_remove (readState_steady k s) (by simpa using hk) (next false _)

theorem Releasing.trans_steady {s u t : State} (h : Releasing s u) (g : Steady u t) : Releasing s t where
  toLasting := h.toLasting.trans g.toLasting
  places r := (g.places r).trans (h.places r)
  joins k hk := h.joins k ((g.holds k) ▸ hk)
  leaves k hs ht := h.leaves k hs ((g.holds k) ▸ ht)

theorem takeFetch_releasing (sent after : Nat) (s : State) : Releasing s (takeFetch sent after s) := by
  have reply : ∀ (t : State) (b : List Byte), Steady t (t.reply sent after b) := fun t b => .of_same rfl rfl
  unfold takeFetch
  split
  · split
    · exact (reply s _).releasing
    · exact (reply s _).releasing
  · split
    · exact (transferOffered_releasing _ _ s).trans_steady (reply _ _)
    · exact (reply s _).releasing
  · exact (reply s _).releasing

/-! ## DATA frames (R139 to R143) -/

/-- A step that may let a record join. -/
structure Loading (s t : State) : Prop extends Sound s t where
  places : ∀ r, (t.row r).map Row.places = (s.row r).map Row.places
  stays : ∀ k, s.cst.holds k = true → t.cst.holds k = true
  tallies : s.cst.wf → ∀ k p q, s.cst.payload k = some p → t.cst.payload k = some q → p.talliesLe q

theorem Steady.loading {s t : State} (h : Steady s t) : Loading s t where
  toSound := h.toSound
  places := h.places
  stays k hk := (h.holds k).trans hk
  tallies hw k p q hp hq := by
    obtain ⟨p', hp', hle⟩ := h.lasts hw k q hq
    rw [hp] at hp'
    cases hp'
    exact hle

theorem Loading.trans_steady {s u t : State} (h : Loading s u) (g : Steady u t) : Loading s t where
  toSound := h.toSound.trans g.toSound
  places r := (g.places r).trans (h.places r)
  stays k hk := (g.holds k).trans (h.stays k hk)
  tallies hw k p q hp hq := by
    obtain ⟨q', hq', hle⟩ := g.lasts (h.store hw) k q hq
    exact Payload.talliesLe_trans (h.tallies hw k p q' hp hq') hle

theorem loadedPayload_wf (p : List Byte) : (loadedPayload p).wf = true := by
  rw [Payload.wf_iff]
  simp [loadedPayload, Coverage.wf]

/-- A poisoned record is counted (R162). -/
theorem poisonedCount_pos {c : Store} (h : c.wf) {x : Record} (hx : x ∈ c.records) (hp : x.payload = none) :
    0 < c.poisonedCount := by
  obtain ⟨-, -, -, hcnt, -⟩ := h
  rw [hcnt, List.countP_pos_iff]
  exact ⟨x, hx, by simp [hp]⟩

/-- A poisoned record replaced (R142). -/
theorem replaceRecord_loading {s : State} {k : Key} {y : Payload} (hy : y.wf = true) (hk : s.cst.holds k = true)
    (hs : s.cst.payload k = none) :
    Loading s (s.setCst { s.cst.put k (some y) with poisonedCount := s.cst.poisonedCount - 1 }) where
  store h := by
    obtain ⟨x, hx⟩ := Option.isSome_iff_exists.mp hk
    have hp : x.payload = none := by simpa [Store.payload, hx] using hs
    have := poisonedCount_pos h (Store.find_mem hx) hp
    exact Store.put_wf h hx (some y) (by simpa using hy) _ (by simp [hp]; omega)
  rows _ h := rowsWf_of_ren rfl h
  places _ := rfl
  stays j hj := (Store.holds_put s.cst k j (some y)).trans hj
  tallies _ j p q hp hq := by
    have e : (s.cst.put k (some y)).payload j = some q := hq
    rw [Store.payload_put] at e
    split at e
    · rename_i ej
      rw [ej, hs] at hp
      cases hp
    · rw [hp] at e
      cases e
      exact p.talliesLe_refl

/-- A new record joined (R142). -/
theorem newRecord_loading {s : State} {k : Key} {y : Payload} (hy : y.wf = true) (hk : s.cst.holds k = false)
    (room : s.cst.records.length < 1024) :
    Loading s (s.setCst
      { s.cst.insert ⟨k, some y⟩ with misses := s.cst.misses.filter fun m => decide (m ≠ k) }) where
  store h := Store.insert_wf h hk room hy
  rows _ h := rowsWf_of_ren rfl h
  places _ := rfl
  stays j hj := by
    obtain ⟨x, hx, e⟩ := Store.holds_iff.mp hj
    exact Store.holds_iff.mpr ⟨x, (mem_insertRecord _ x _).mpr (.inr hx), e⟩
  tallies _ j p q hp hq := by
    have e : (s.cst.insert ⟨k, some y⟩).payload j = some q := hq
    unfold Store.payload at e
    rw [Store.find_insert hk] at e
    split at e
    · rename_i ej
      have := Store.holds_of_payload hp
      rw [← ej] at this
      exact absurd this (by simp [hk])
    · have hp : (s.cst.find j).bind (·.payload) = some p := hp
      rw [hp] at e
      cases e
      exact p.talliesLe_refl

theorem deliverRecord_loading (p : List Byte) (n loaded : Nat) (clamped : Bool) (s : State) :
    Loading s (deliverRecord p n loaded clamped s) := by
  unfold deliverRecord
  split
  · exact (complete_steady s _).loading
  · dsimp only
    split
    · exact (complete_steady s _).loading
    · rename_i hsound
      have hnone : s.cst.payload (keyAt p 0) = none := by simpa [Store.sound] using hsound
      split
      · exact (complete_steady s _).loading
      · rename_i hroom
        have load : Loading s (loadRecord (keyAt p 0) (loadedPayload p) s) := by
          unfold loadRecord
          dsimp only
          split
          · rename_i hk
            exact (replaceRecord_loading (loadedPayload_wf p) hk hnone).trans_steady (reviewBound_steady _ _)
          · rename_i hk
            have hk : s.cst.holds (keyAt p 0) = false := by simpa using hk
            exact (newRecord_loading (loadedPayload_wf p) hk (Nat.lt_of_not_le fun h => hroom ⟨hk, h⟩)).trans_steady
              (reviewBound_steady _ _)
        split
        · exact load.trans_steady (setCmu_steady _ _)
        · exact load.trans_steady (complete_steady _ _)

theorem dataFrame_loading {f : Frame} {s t : State} (h : exec (.dataFrame f) s = .next t) : Loading s t := by
  cases h
  refine arrive_keeps (fun _ => Steady.loading) fun n => ?_
  have taken : Loading (s.shifted n) (takeData f.payload (s.shifted n)) := by
    unfold takeData
    split
    · exact deliverRecord_loading _ _ _ _ _
    · exact (Steady.refl _).loading
  exact ⟨⟨taken.store, fun hc hr => taken.rows hc (rowsWf_of_ren rfl hr)⟩, taken.places, taken.stays, taken.tallies⟩

theorem fetchFrame_releasing {f : Frame} {after : Nat} {s t : State} (h : exec (.fetchFrame f after) s = .next t) :
    Releasing s t := by
  cases h
  refine arrive_keeps (fun _ => Steady.releasing) fun n => ?_
  have taken := takeFetch_releasing (3 + f.payload.length) after (s.shifted n)
  exact ⟨(shifted_steady s n).toLasting.trans taken.toLasting, taken.places, taken.joins, taken.leaves⟩

theorem rtc_releasing {c : Cmd} {s t : State} (h : exec (.rtc c) s = .next t) : Releasing s t := by
  cases h
  refine takeCommand_keeps (fun _ => Steady.releasing) ?_
  have taken : Releasing (s.begun c) (withLength 4 retireCell c.payload (s.begun c)) := by
    unfold withLength
    split
    · exact retireCell_releasing _ _
    · exact (complete_steady _ _).releasing
  exact ⟨(begun_steady s c).toLasting.trans taken.toLasting, taken.places, taken.joins, taken.leaves⟩

theorem rstr_holding {c : Cmd} {s t : State} (h : exec (.rstr c) s = .next t) : Holding s t := by
  cases h
  refine takeAlways_keeps (fun _ => Steady.toHolding) ((begun_steady s c).toHolding.trans ?_)
  unfold withLength
  split
  · exact restart_holding _
  · exact (complete_steady _ _).toHolding

theorem setr_holding {i : Instr} {c : Cmd} {s t : State} (hi : i = .setrConfigure c ∨ i = .setrRemove c)
    (h : exec i s = .next t) : Holding s t := by
  rcases hi with rfl | rfl <;> cases h <;>
    exact takeCommand_keeps (fun _ => Steady.toHolding) ((begun_steady s c).toHolding.trans (setRowCommand_holding _ _))

/-! ## Power-on (R178) -/

theorem releaseReset_row (s : State) (r : RowId) : (releaseReset s).row r = none := by
  unfold State.row
  exact Vector.getElem_replicate r.isLt

theorem releaseReset_lasting (s : State) : Lasting s (releaseReset s) where
  store _ := Store.empty_wf
  rows _ _ := by
    refine ⟨fun r w hw => ?_, fun q r v w _ hv => ?_, Nat.zero_le _, Nat.zero_le _⟩
    · rw [releaseReset_row] at hw
      cases hw
    · rw [releaseReset_row] at hv
      cases hv
  lasts _ _ _ h := by cases h

/-! ## Every command and every step -/

/-- Every command but a DATA frame lets no tally fall and no payload come to be held. -/
theorem exec_lasting {i : Instr} {s t : State} (hd : ∀ f, i ≠ .dataFrame f) (h : exec i s = .next t) : Lasting s t := by
  cases hm : i.moving with
  | false => exact (exec_steady hm h).toLasting
  | true =>
    cases i with
    | powerOnResetRelease => cases h; exact releaseReset_lasting s
    | fixFrame f => exact (fixFrame_holding h).toLasting
    | dataFrame f => exact absurd rfl (hd f)
    | fetchFrame f after => exact (fetchFrame_releasing h).toLasting
    | rstr c => exact (rstr_holding h).toLasting
    | setrConfigure c => exact (setr_holding (.inl rfl) h).toLasting
    | setrRemove c => exact (setr_holding (.inr rfl) h).toLasting
    | rtc c => exact (rtc_releasing h).toLasting
    | _ => cases hm

/-- Whether a command is a DATA frame. -/
theorem dataFrame_or_not (i : Instr) : (∃ f, i = .dataFrame f) ∨ ∀ f, i ≠ .dataFrame f := by
  by_cases h : ∃ f, i = .dataFrame f
  · exact .inl h
  · exact .inr fun f e => h ⟨f, e⟩

/-- Every command keeps the form of the store and the ranges of the rows. -/
theorem exec_sound {i : Instr} {s t : State} (h : exec i s = .next t) : Sound s t := by
  rcases dataFrame_or_not i with ⟨f, rfl⟩ | hd
  · exact (dataFrame_loading h).toSound
  · exact (exec_lasting hd h).toSound

/-- What holds of the passing of time and of every command on the queue's rest holds of every step. -/
theorem step_keeps {R : State → Prop} {s t : State} (h : step s = .next t) (h0 : R (tick s))
    (h1 : ∀ i rest, exec i { s with pending := rest } = .next t → R t) : R t := by
  unfold step at h
  split at h
  · cases h
    exact h0
  · exact h1 _ _ h

/-- Every step keeps the form of the store and the ranges of the rows. -/
theorem step_sound {s t : State} (h : step s = .next t) : Sound s t :=
  step_keeps (R := Sound s) h (tick_steady s).toSound fun _ _ e =>
    ⟨(exec_sound e).store, (exec_sound e).rows⟩

end Sys2Proof.Machine
end

section
/-! The settlements of the invariants: O11, O12, O13, O17, O18 and O19. -/

namespace Sys2Proof.Machine

/-! ## O12 -/

/-- Settles O12: every shared operation keeps the form of the store, and so every step does. -/
theorem storeFormIsKept : Obligations.StoreFormIsKept := fun _ _ hw h => (step_sound h).store hw

/-! ## O13 -/

/-- A row makes at most one reference for each point and each entry in flight (R10, R14). -/
theorem refs_le (w : Row) (side : CellSide) (k : Key) : w.refs side k ≤ 3 + w.sfm.queue.length := by
  have points : w.points.length ≤ 3 := by
    have one : ∀ p : Option Point, p.toList.length ≤ 1 := fun p => by cases p <;> simp
    have hs := one (w.point .seed)
    have hf := one (w.point .fert)
    have hd := one w.drop
    simp only [Row.points, List.length_append]
    omega
  exact Nat.add_le_add ((List.countP_le_length).trans points) List.countP_le_length

/-- 32 rows with three points and eight entries each (R14). -/
theorem refCount_le {s : State} (h : s.rowsWf) (k : Key) : s.refCount k ≤ 352 := by
  unfold State.refCount
  refine (List.sum_le_card_nsmul _ 11 fun n hn => ?_).trans (by simp [rowIds])
  obtain ⟨r, -, rfl⟩ := List.mem_map.mp hn
  cases hw : s.row r with
  | none => exact Nat.zero_le _
  | some w =>
    have hq := queue_le_of_rowsWf h (r := r) (l := w.sfm.queue) (by simp [State.queueOf, hw])
    have := refs_le w s.settings.cellSide k
    simp only
    omega

/-- Settles O13: every shared operation keeps each row in its ranges, and a reference count is a sum over 32 rows. -/
theorem rowRangesAreKept : Obligations.RowRangesAreKept :=
  ⟨fun _ _ hc hr h => (step_sound h).rows hc hr, fun _ k h => refCount_le h k⟩

/-! ## O17 -/

/-- A payload held before and after has tallies no lower, where every payload held was. -/
theorem Store.lasts.tallies {c d : Store} (h : c.lasts d) {k : Key} {p q : Payload} (hp : c.payload k = some p)
    (hq : d.payload k = some q) : p.talliesLe q := by
  obtain ⟨p', hp', hle⟩ := h k q hq
  rw [hp] at hp'
  cases hp'
  exact hle

/-- Settles O17: only a DATA frame gives a key a payload, and only a key that has none. -/
theorem talliesNeverDecrease : Obligations.TalliesNeverDecrease := by
  intro s t k p q hw h hp hq
  refine step_keeps (R := fun t => t.cst.payload k = some q → p.talliesLe q) h
    (fun hq => ((tick_steady s).lasts hw).tallies hp hq) (fun i rest e hq => ?_) hq
  rcases dataFrame_or_not i with ⟨f, rfl⟩ | hd
  · exact (dataFrame_loading e).tallies hw k p q hp hq
  · exact ((exec_lasting hd e).lasts hw).tallies hp hq

/-! ## O18 -/

/-- A command that holds the same records, or lets go of some, or takes one in. -/
theorem exec_records {i : Instr} {s t : State} (h : exec i s = .next t) :
    i = .powerOnResetRelease ∨ Holding s t
      ∨ (((∃ x, i = .rtc x) ∨ ∃ f after, i = .fetchFrame f after) ∧ Releasing s t)
      ∨ ((∃ f, i = .dataFrame f) ∧ Loading s t) := by
  cases hm : i.moving with
  | false => exact .inr (.inl (exec_steady hm h).toHolding)
  | true =>
    cases i with
    | powerOnResetRelease => exact .inl rfl
    | fixFrame f => exact .inr (.inl (fixFrame_holding h))
    | dataFrame f => exact .inr (.inr (.inr ⟨⟨f, rfl⟩, dataFrame_loading h⟩))
    | fetchFrame f after => exact .inr (.inr (.inl ⟨.inr ⟨f, after, rfl⟩, fetchFrame_releasing h⟩))
    | rstr c => exact .inr (.inl (rstr_holding h))
    | setrConfigure c => exact .inr (.inl (setr_holding (.inl rfl) h))
    | setrRemove c => exact .inr (.inl (setr_holding (.inr rfl) h))
    | rtc c => exact .inr (.inr (.inl ⟨.inl ⟨c, rfl⟩, rtc_releasing h⟩))
    | _ => cases hm

/-- Settles O18, by the four things a command can do to the records held. -/
theorem recordsJoinByLoadAndLeaveUnreferenced : Obligations.RecordsJoinByLoadAndLeaveUnreferenced := by
  intro i s t k h
  rcases exec_records h with rfl | held | ⟨who, rel⟩ | ⟨who, load⟩
  · cases h
    exact ⟨fun _ e => (Bool.false_ne_true e).elim, fun _ _ => .inl rfl⟩
  · rw [held.holds]
    exact ⟨fun a b => absurd b (by simp [a]), fun a b => absurd a (by simp [b])⟩
  · exact ⟨fun a b => absurd (rel.joins k b) (by simp [a]), fun a b => .inr ⟨rel.leaves k a b, who⟩⟩
  · exact ⟨fun _ _ => who, fun a b => absurd (load.stays k a) (by simp [b])⟩

/-! ## O19 -/

/-- Where the three points are. -/
theorem Row.places_iff (v w : Row) :
    w.places = v.places ↔
      w.seed.point = v.seed.point ∧ w.fert.bind (·.look) = v.fert.bind (·.look) ∧ w.drop = v.drop := by
  simp [Row.places, Row.point]

theorem places_eq {s t : State} (h : ∀ r, (t.row r).map Row.places = (s.row r).map Row.places) {r : RowId} {v w : Row}
    (hv : s.row r = some v) (hw : t.row r = some w) : w.places = v.places := by
  have e := h r
  rw [hv, hw] at e
  exact Option.some.inj e

theorem setr_places {i : Instr} {c : Cmd} {s t : State} (hi : i = .setrConfigure c ∨ i = .setrRemove c)
    (h : exec i s = .next t) {r : RowId} {v w : Row} (hv : s.row r = some v) (hw : t.row r = some w) :
    v.keptOrLost w := by
  have taken : t = takeCommand Op.setr c setRowCommand s := by rcases hi with rfl | rfl <;> cases h <;> rfl
  subst taken
  revert hw
  exact takeCommand_keeps (R := fun t => t.row r = some w → v.keptOrLost w) (fun t ht hw => .inl (ht.places_eq hv hw))
    fun hw => setRowCommand_places (s := s.begun c) hv hw

theorem rstr_places {c : Cmd} {s t : State} (h : exec (.rstr c) s = .next t) {r : RowId} {v w : Row}
    (hv : s.row r = some v) (hw : t.row r = some w) : w.places = v.places ∨ w.places = (none, none, none) := by
  cases h
  revert hw
  refine takeAlways_keeps (R := fun t => t.row r = some w → w.places = v.places ∨ w.places = (none, none, none))
    (fun t ht hw => .inl (ht.places_eq hv hw)) fun hw => ?_
  unfold withLength at hw
  split at hw
  · exact .inr (restart_places hw)
  · exact .inl ((complete_steady (s.begun c) _).places_eq hv hw)

/-- Settles O19: only FIX frames, RSTR, SETR and power-on touch a point. -/
theorem pointsMoveAtFixesAlone : Obligations.PointsMoveAtFixesAlone := by
  intro i s t r v w h hv hw
  have kept : (∀ r, (t.row r).map Row.places = (s.row r).map Row.places) →
      w.seed.point = v.seed.point ∧ w.fert.bind (·.look) = v.fert.bind (·.look) ∧ w.drop = v.drop := fun hp =>
    (Row.places_iff v w).mp (places_eq hp hv hw)
  have setr : ∀ c, (i = .setrConfigure c ∨ i = .setrRemove c) →
      (w.seed.point = v.seed.point ∧ w.fert.bind (·.look) = v.fert.bind (·.look) ∧ w.drop = v.drop)
        ∨ (w.seed.point = v.seed.point ∧ w.fert.bind (·.look) = none ∧ w.drop = none) := fun c hi => by
    rcases setr_places hi h hv hw with e | e
    · exact .inl ((Row.places_iff v w).mp e)
    · simp only [Row.places, Row.point, Prod.mk.injEq] at e
      exact .inr e
  cases hm : i.moving with
  | false => exact .inl (kept (exec_steady hm h).places)
  | true =>
    cases i with
    | powerOnResetRelease =>
      cases h
      rw [releaseReset_row] at hw
      cases hw
    | fixFrame f => exact .inr (.inl ⟨f, rfl⟩)
    | dataFrame f => exact .inl (kept (dataFrame_loading h).places)
    | fetchFrame f after => exact .inl (kept (fetchFrame_releasing h).places)
    | rstr c =>
      rcases rstr_places h hv hw with e | e
      · exact .inl ((Row.places_iff v w).mp e)
      · exact .inr (.inr (.inl ⟨⟨c, rfl⟩, Row.points_of_places e⟩))
    | setrConfigure c => exact (setr c (.inl rfl)).imp_right fun e => .inr (.inr ⟨⟨c, .inl rfl⟩, e⟩)
    | setrRemove c => exact (setr c (.inr rfl)).imp_right fun e => .inr (.inr ⟨⟨c, .inr rfl⟩, e⟩)
    | rtc c => exact .inl (kept (rtc_releasing h).places)
    | _ => cases hm

/-! ## O11 -/

theorem reset_row (r : RowId) : State.reset.row r = none := by
  unfold State.row
  exact Vector.getElem_replicate r.isLt

/-- What is said of configured rows holds after power-on, when there is none (R47). -/
theorem reset_noRow {r : RowId} {w : Row} (h : State.reset.row r = some w) : False := by
  rw [reset_row] at h
  cases h

theorem reset_gated : State.reset.gated := fun r => by
  simp [State.meterPort, State.valvePort, reset_row]

/-- Settles O11: each value as the spec gives it, and every invariant with no row configured. -/
theorem powerOnValues : Obligations.PowerOnValues := by
  refine ⟨rfl, rfl, rfl, rfl, rfl, rfl, rfl, rfl, rfl, rfl, rfl, rfl, rfl, rfl, rfl, rfl, rfl, rfl, rfl, rfl, rfl, rfl, rfl,
    reset_row, rfl, rfl, rfl, rfl, by decide, Store.empty_wf, ?rows, ⟨reset_gated, ?outputs⟩, rfl, ⟨rfl, ?sweep⟩, ?current⟩
  case rows =>
    exact ⟨fun r w h => (reset_noRow h).elim, fun q r v w _ h => (reset_noRow h).elim, Nat.zero_le _, Nat.zero_le _⟩
  case outputs => exact fun r w h => (reset_noRow h).elim
  case sweep => exact fun w h => by cases h
  case current => exact fun r w h => (reset_noRow h).elim

end Sys2Proof.Machine
end

section
/-! The settlements of O21, O30 and O43: the grid and the points in rationals, the miss set, and MRG. -/

namespace Sys2Proof.Machine

/-! ## O21 -/

/-- Division that rounds toward minus infinity is the floor of the quotient. -/
theorem fdiv_eq_floor (a : Int) {b : Int} (hb : 0 < b) : Int.fdiv a b = ⌊(a : ℚ) / b⌋ := by
  lift b to ℕ using hb.le
  rw [Int.fdiv_eq_ediv_of_nonneg a hb.le, Int.cast_natCast, Rat.floor_intCast_div_natCast]

theorem CellSide.cm_pos (side : CellSide) : 0 < side.cm := by
  cases side <;> decide

/-- What is left of a coordinate over its cell lies within the cell (R3). -/
theorem leftOver_bounds (side : CellSide) (x : Int) :
    0 ≤ x - Int.fdiv x side.cm * side.cm ∧ x - Int.fdiv x side.cm * side.cm < side.cm := by
  have hb := side.cm_pos
  rw [Int.fdiv_eq_ediv_of_nonneg x hb.le]
  have hm := Int.emod_nonneg x hb.ne'
  have hl := Int.emod_lt_of_pos x hb
  have he := Int.mul_ediv_add_emod x side.cm
  rw [mul_comm] at he
  constructor <;> linarith

/-- A sub-square's column or row is the floor of four times what is left over, from 0 to 3 (R3). -/
theorem quarter_eq_floor (side : CellSide) (x : Int) :
    ((Int.fdiv ((x - Int.fdiv x side.cm * side.cm) * 4) side.cm).toNat : Int)
        = ⌊((x : ℚ) - Int.fdiv x side.cm * side.cm) * 4 / side.cm⌋
      ∧ (Int.fdiv ((x - Int.fdiv x side.cm * side.cm) * 4) side.cm).toNat ≤ 3 := by
  have hb := side.cm_pos
  obtain ⟨hlo, hhi⟩ := leftOver_bounds side x
  have floor : Int.fdiv ((x - Int.fdiv x side.cm * side.cm) * 4) side.cm
      = ⌊((x : ℚ) - Int.fdiv x side.cm * side.cm) * 4 / side.cm⌋ := by
    rw [fdiv_eq_floor _ hb]
    push_cast
    rfl
  rw [← floor]
  rw [Int.fdiv_eq_ediv_of_nonneg ((x - Int.fdiv x side.cm * side.cm) * 4) hb.le]
  have h0 : 0 ≤ (x - Int.fdiv x side.cm * side.cm) * 4 / side.cm := Int.ediv_nonneg (by omega) hb.le
  have h4 : (x - Int.fdiv x side.cm * side.cm) * 4 / side.cm < 4 := Int.ediv_lt_of_lt_mul hb (by omega)
  omega

/-- A quotient of natural numbers is that of the rationals, truncated. -/
theorem truncated_natDiv (a b : Nat) : truncated ((a : ℚ) / b) = (a / b : Nat) := by
  unfold truncated
  rw [if_pos (by positivity), Rat.floor_natCast_div_natCast]
  rfl

theorem cellOf_eq_floor (side : CellSide) (p : Point) :
    cellOf side p = ⟨⌊(p.e : ℚ) / side.cm⌋, ⌊(p.n : ℚ) / side.cm⌋⟩ := by
  rw [← fdiv_eq_floor p.e side.cm_pos, ← fdiv_eq_floor p.n side.cm_pos]
  rfl

theorem placed_eq_floor (f : Fix) (lat : Int) (fa d : Nat) :
    placed f lat fa d =
      ⟨f.e + ⌊((lat : ℚ) * f.hN - ((fa : ℚ) - d) * f.hE) / 16384⌋,
        f.n + ⌊(-(lat : ℚ) * f.hE - ((fa : ℚ) - d) * f.hN) / 16384⌋⟩ := by
  unfold placed
  rw [fdiv_eq_floor _ (by decide), fdiv_eq_floor _ (by decide)]
  push_cast
  rfl

/-- Settles O21: each division of the model is the floor or the truncation of a rational quotient. -/
theorem positionsAndPointsAreFloored : Obligations.PositionsAndPointsAreFloored := by
  refine ⟨fun side p => ?_, fun f lat fa d vr latency => ⟨placed_eq_floor f lat fa d, ?_⟩⟩
  · obtain ⟨hi, hi3⟩ := quarter_eq_floor side p.e
    obtain ⟨hj, hj3⟩ := quarter_eq_floor side p.n
    exact ⟨cellOf_eq_floor side p, hi, hj, hi3, hj3⟩
  · have h := truncated_natDiv (vr * latency) 10000
    push_cast at h
    exact h.symm

/-! ## O30 -/

/-- The keys offered that the miss set does not hold yet, each once (R16). -/
def newKeys (keys : List Key) (s : State) : List Key :=
  (distinct keys).filter fun k => decide (k ∉ s.cst.misses)

theorem mem_newKeys {keys : List Key} {s : State} {k : Key} : k ∈ newKeys keys s ↔ k ∈ keys ∧ k ∉ s.cst.misses := by
  simp [newKeys, (distinct_spec keys).2]

theorem newKeys_nodup (keys : List Key) (s : State) : (newKeys keys s).Nodup := (distinct_spec keys).1.filter _

/-- The new keys that find room, in their free order (R16, R17). -/
def keysAdded (keys : List Key) (s : State) : List Key :=
  (arranged s.choices (newKeys keys s)).take (16 - s.cst.misses.length)

theorem offerMisses_none {keys : List Key} {s : State} (h : newKeys keys s = []) : offerMisses keys s = s := by
  unfold offerMisses
  unfold newKeys at h
  rw [h]

theorem offerMisses_some {keys : List Key} {s : State} (h : newKeys keys s ≠ []) :
    offerMisses keys s = { s with
      cst := { s.cst with
        misses := s.cst.misses ++ keysAdded keys s
        incomplete := s.cst.incomplete || decide (16 - s.cst.misses.length < (newKeys keys s).length) }
      evu := s.evu.raised .miss
      choices := s.choices + 1 } := by
  unfold offerMisses
  split
  · rename_i e
    exact absurd e h
  · rename_i x xs e
    unfold keysAdded newKeys
    rw [e]
    rfl

/-- A key that is offered is left out exactly where the new keys pass the room (R17). -/
theorem leftOut_iff (keys : List Key) (s : State) :
    (∃ k ∈ keys, k ∉ s.cst.misses ++ keysAdded keys s) ↔ 16 - s.cst.misses.length < (newKeys keys s).length := by
  have len := arranged_length s.choices (newKeys keys s)
  constructor
  · rintro ⟨k, hk, hn⟩
    rw [List.mem_append, not_or] at hn
    refine Nat.lt_of_not_le fun hle => hn.2 ?_
    rw [keysAdded, List.take_of_length_le (by omega)]
    exact (mem_arranged _ _ _).mpr (mem_newKeys.mpr ⟨hk, hn.1⟩)
  · intro hlt
    have nd := arranged_nodup s.choices (newKeys_nodup keys s)
    have hm := List.getElem_mem (l := arranged s.choices (newKeys keys s)) (by omega : 16 - s.cst.misses.length < _)
    obtain ⟨hk, hn⟩ := mem_newKeys.mp ((mem_arranged _ _ _).mp hm)
    refine ⟨_, hk, fun h => ?_⟩
    rcases List.mem_append.mp h with h | h
    · exact hn h
    · obtain ⟨i, hi, e⟩ := List.mem_take_iff_getElem.mp h
      have := (List.Nodup.getElem_inj_iff nd).mp e
      omega

/-- Settles O30, by the number of the new keys. -/
theorem offeredKeysJoinTheMissSet : Obligations.OfferedKeysJoinTheMissSet := by
  intro keys s
  refine ⟨fun h => offerMisses_none ?_, fun ⟨k, hk, hn⟩ => ?_⟩
  · exact List.eq_nil_iff_forall_not_mem.mpr fun k hk => (mem_newKeys.mp hk).2 (h k (mem_newKeys.mp hk).1)
  · have added : ∀ k ∈ keysAdded keys s, k ∈ keys ∧ k ∉ s.cst.misses := fun k hk =>
      mem_newKeys.mp ((mem_arranged _ _ _).mp (List.mem_of_mem_take hk))
    refine ⟨keysAdded keys s, ?_, (arranged_nodup _ (newKeys_nodup keys s)).sublist (List.take_sublist _ _), added,
      List.length_take_le _ _, fun h => ?_⟩
    · rw [offerMisses_some (List.ne_nil_of_mem (mem_newKeys.mpr ⟨hk, hn⟩))]
      simp only [leftOut_iff]
    · have hlt := (leftOut_iff keys s).mp h
      rw [keysAdded, List.length_take, arranged_length]
      omega

/-! ## O43 -/

/-- The sub-squares are the bits of a set, in order (R179). -/
theorem allSubs_eq : allSubs = (List.range 16).map fun x => (⟨x % 4, x / 4⟩ : Sub) := by decide

/-- A set meets that of one sub-square where it has its bit. -/
theorem and_bit_ne_zero (m : SubSet) {x : Nat} (hx : x < 16) :
    m &&& (⟨x % 4, x / 4⟩ : Sub).bit ≠ 0 ↔ m.getLsbD x = true := by
  have hbit : (⟨x % 4, x / 4⟩ : Sub).bit = BitVec.twoPow 16 x := by
    have e : 4 * (x / 4) + x % 4 = x := by omega
    simp only [Sub.bit, e, BitVec.twoPow_eq]
  rw [hbit, BitVec.and_twoPow]
  cases m.getLsbD x with
  | false => simp
  | true =>
    simp only [if_true, iff_true]
    intro e
    have := congrArg (·.getLsbD x) e
    simp [hx] at this

/-- The state of a sub-square as its two bits say it (R5). -/
theorem at_eq (c : Coverage) {x : Nat} (hx : x < 16) :
    c.at ⟨x % 4, x / 4⟩ =
      if c.settled.getLsbD x = true then .settled else if c.fresh.getLsbD x = true then .fresh else .uncovered := by
  unfold Coverage.at
  simp only [and_bit_ne_zero _ hx]

/-- In a coverage with no sub-square both fresh and settled, not both bits are set. -/
theorem not_both {c : Coverage} (h : c.wf = true) (x : Nat) : ¬ (c.fresh.getLsbD x = true ∧ c.settled.getLsbD x = true) := by
  rw [Coverage.wf_iff] at h
  have := congrArg (·.getLsbD x) h
  simpa using this

/-- The number of sub-squares whose state differs is the number of places where a bit differs. -/
theorem changes_eq {a b : Coverage} (ha : a.wf = true) (hb : b.wf = true) :
    a.changes b = (List.range 16).countP fun x =>
      decide (a.fresh.getLsbD x ≠ b.fresh.getLsbD x ∨ a.settled.getLsbD x ≠ b.settled.getLsbD x) := by
  unfold Coverage.changes
  rw [allSubs_eq, List.countP_map]
  refine List.countP_congr fun x hx => ?_
  have hx : x < 16 := List.mem_range.mp hx
  have na := not_both ha x
  have nb := not_both hb x
  simp only [Function.comp_apply, decide_eq_true_eq, at_eq _ hx]
  generalize a.fresh.getLsbD x = af at *
  generalize a.settled.getLsbD x = as at *
  generalize b.fresh.getLsbD x = bf at *
  generalize b.settled.getLsbD x = bs at *
  revert na nb
  revert af as bf bs
  decide

/-- MRG, taken with its length right, is a merge of its payload. -/
theorem exec_mrg {i : Instr} {c : Cmd} {s : State} (hi : i = .mrgAdd c ∨ i = .mrgRemove c) (ht : s.takes Op.mrg c)
    (hl : c.payload.length = 9) : exec i s = .next (mergeCell c.payload (s.begun c)) := by
  rcases hi with rfl | rfl <;>
    exact congrArg Host.Outcome.next ((takeCommand_taken ht).trans (withLength_right hl))

/-- A merge with a form in range, at the record of a key. -/
theorem mergeCell_eq {p : List Byte} {s : State} (hf : natAt p 4 1 ≤ 1) :
    mergeCell p s = mergeRecord (keyAt p 0) (decide (natAt p 4 1 = 0)) (subSetAt p 5) (subSetAt p 7) s := by
  unfold mergeCell
  rw [if_neg (by omega)]

theorem mergeRecord_missing {k : Key} {add : Bool} {a b : SubSet} {s : State} (h : s.cst.holds k = false) :
    mergeRecord k add a b s = s.complete (.plain .notFound) := by
  unfold mergeRecord
  rw [if_pos h]

theorem mergeRecord_poisoned {k : Key} {add : Bool} {a b : SubSet} {s : State} (h : s.cst.holds k = true)
    (hp : (readState k s).cst.payload k = none) :
    mergeRecord k add a b s = (readState k s).complete (.keyed .poisoned k) := by
  unfold mergeRecord
  rw [if_neg (by simp [h])]
  simp only [hp]

theorem mergeRecord_found {k : Key} {add : Bool} {a b : SubSet} {s : State} {y : Payload}
    (hp : (readState k s).cst.payload k = some y) :
    mergeRecord k add a b s =
      (refreshMoved (readState k s).cst
          (writePayload k { y with seedCov := y.seedCov.merged add a, fertCov := y.fertCov.merged add b }
            (readState k s))).complete
        { Completion.counts .ok (y.seedCov.changes (y.seedCov.merged add a))
            (y.fertCov.changes (y.fertCov.merged add b)) with
          key := some k
          payload := leBytes 2 y.seedCov.settled.toNat ++ leBytes 2 y.fertCov.settled.toNat } := by
  have h : s.cst.holds k = true := ((readState_steady k s).toHolding.holds k) ▸ Store.holds_of_payload hp
  unfold mergeRecord
  rw [if_neg (by simp [h])]
  simp only [hp]

/-- Settles O43, by what the read of the record finds. -/
theorem mergesSetCoverage : Obligations.MergesSetCoverage := by
  rintro i c s k form hi ht hl rfl rfl
  rw [exec_mrg hi ht hl]
  refine ⟨fun hf => ?_, fun hf hk => ?_, fun hf hk hp => ?_, fun hf y hy => ?_⟩
  · unfold mergeCell
    rw [if_pos hf]
  · rw [mergeCell_eq hf, mergeRecord_missing (s := s.begun c) hk]
  · rw [mergeCell_eq hf, mergeRecord_poisoned (s := s.begun c) hk hp]
    rfl
  · intro after moved seed fert hw
    have merged : ∀ (v : Coverage) (m : SubSet), v.merged (decide (natAt c.payload 4 1 = 0)) m = after v m := fun v m => by
      unfold Coverage.merged
      simp only [decide_eq_true_eq, after, Coverage.add, Coverage.remove]
    obtain ⟨-, -, hs, hfc, -⟩ := (Payload.wf_iff y).mp hw
    have count : ∀ (v : Coverage) (m : SubSet), v.wf = true → v.changes (after v m) = moved v (after v m) := fun v m hv =>
      changes_eq hv (merged v m ▸ merged_wf hv _ m)
    refine ⟨_, refreshMoved_follows (readState (keyAt c.payload 0) (s.begun c)).cst _, ?_⟩
    rw [mergeCell_eq hf, mergeRecord_found hy, merged, merged, count _ _ hs, count _ _ hfc]
    rfl

end Sys2Proof.Machine
end

section
/-! The settlements of O49, O51 and O46: the work switch, sensed seeds and deadlines, and accepted fixes. -/

namespace Sys2Proof.Machine

/-! ## O49 -/

/-- Settles O49, by whether the input has been timed for 50 ms, and by the level taken. -/
theorem workSwitchChangesAreQualified : Obligations.WorkSwitchChangesAreQualified := by
  intro s hr
  have exec_eq : exec .workSwitchChange s
      = .next (if s.mot.switchSince.any (fun t => decide (t + 50 ≤ s.now)) = true then takeSwitch s else s) :=
    congrArg Host.Outcome.next (whenReleased_released hr)
  refine ⟨fun level => ?_, fun h => ?_, fun t0 ht hle hw => ?_⟩
  · have level_eq : exec (.workSwitchLevelChange level) s = .next
        (if s.inReset = true then s.setPins { s.pins with switch := level }
          else (s.setPins { s.pins with switch := level }).setMot (s.mot.levelAt s.pins.switch level s.now)) := rfl
    rw [level_eq, if_neg (by simp [hr])]
    rfl
  · rw [exec_eq, if_neg]
    rw [Option.any_eq_true]
    rintro ⟨t, ht, hle⟩
    have := h t ht
    have := of_decide_eq_true hle
    omega
  · rw [exec_eq, if_pos (by simp [ht, hle])]
    unfold takeSwitch
    dsimp only
    by_cases hl : s.pins.switch = .lifted
    · rw [if_pos hl, if_pos hl]
      exact ⟨_, (settleAndDecide_follows
        (s := (s.setMot { s.mot with switch := s.pins.switch, switchSince := none }).raise .switched) hw.1).1, rfl⟩
    · rw [if_neg hl, if_neg hl]
      exact ⟨_, decideAll_follows _, rfl⟩

/-! ## O51 -/

theorem oldest_cons {s : State} {r : RowId} {w : Row} {e : Entry} {rest : List Entry} (hw : s.row r = some w)
    (hq : w.sfm.queue = e :: rest) : s.oldest r = some e := by
  simp [State.oldest, hw, hq]

theorem oldest_nil {s : State} {r : RowId} (h : ∀ w, s.row r = some w → w.sfm.queue = []) : s.oldest r = none := by
  unfold State.oldest
  cases hw : s.row r with
  | none => rfl
  | some w => simp [h w hw]

/-- A row's flight state changed is the row written. -/
theorem modFlight_eq {s : State} {r : RowId} {w : Row} (hw : s.row r = some w) (f : Flight → Flight) :
    modFlight r f s = s.setRow r (some { w with sfm := f w.sfm }) := by
  simp [modFlight, State.modRow_eq_setRow, hw]

/-- What a credit leaves of a row, and of the settings. -/
theorem creditEntry_row {s : State} {r : RowId} {w : Row} (hw : s.row r = some w) (e : Entry) (c : Sub → SeedCredit) :
    ∃ w', (creditEntry e c s).row r = some w' ∧ w'.sfm.queue = w.sfm.queue
      ∧ (creditEntry e c s).settings = s.settings := by
  unfold creditEntry
  split
  · exact ⟨w, hw, rfl, rfl⟩
  · rename_i t _
    obtain ⟨base, core⟩ := deliver_base t.1 (·.seedCredited (c t.2)) s
    have hc := core r
    rw [hw] at hc
    obtain ⟨w', hw', e'⟩ := Option.map_eq_some_iff.mp hc
    refine ⟨w', hw', Row.queue_of_core e', ?_⟩
    unfold creditSeed
    rw [base]

/-- A matched outcome at a flight state: the row leaves BLOCKED where its window holds enough matches (R112, R114). -/
theorem Flight.noted_matched (f : Flight) (c : Settings) :
    f.noted c .matched =
      if f.blocked = true ∧ c.recovery ≤ matchedCount f.matched.window then { f.matched with blocked := false }
      else f.matched := by
  have blocked : (f.blocked && decide (matchedCount f.matched.window < c.recovery))
      = if f.blocked = true ∧ c.recovery ≤ matchedCount f.matched.window then false else f.blocked := by
    split
    · rename_i h
      rw [decide_eq_false (by omega), Bool.and_false]
    · rename_i h
      cases hb : f.blocked with
      | false => rfl
      | true =>
        have : ¬ c.recovery ≤ matchedCount f.matched.window := fun hc => h ⟨hb, hc⟩
        rw [Bool.true_and]
        exact decide_eq_true (by omega)
  have e : f.noted c .matched
      = { f.matched with blocked := f.blocked && decide (matchedCount f.matched.window < c.recovery) } := rfl
  rw [e, blocked]
  split <;> rfl

/-- A skip outcome at a flight state: the row enters BLOCKED where its skips run long enough (R112, R113). -/
theorem Flight.noted_skip (f : Flight) (c : Settings) :
    f.noted c .skip =
      if f.blocked = false ∧ c.blockageRun ≤ f.skipped.skipRun then { f.skipped with blocked := true, window := [] }
      else f.skipped := rfl

/-- A row written with a flight state, and HEALTH where it enters or leaves BLOCKED (R117). -/
def State.flightNoted (s : State) (r : RowId) (w : Row) (f g : Flight) : State :=
  let t := s.setRow r (some { w with sfm := g })
  if f.blocked = w.sfm.blocked then t else t.raiseHealth r

theorem noteMatched_eq {s : State} {r : RowId} {w : Row} (hw : s.row r = some w) :
    noteMatched r s = s.flightNoted r w (w.sfm.noted s.settings .matched) (w.sfm.noted s.settings .matched) := by
  have def_eq : noteMatched r s =
      if w.sfm.blocked = true ∧ s.settings.recovery ≤ matchedCount w.sfm.matched.window then
        (modFlight r (fun _ => { w.sfm.matched with blocked := false }) s).raiseHealth r
      else modFlight r (fun _ => w.sfm.matched) s := by
    unfold noteMatched
    rw [hw]
    rfl
  rw [def_eq, modFlight_eq hw, modFlight_eq hw, Flight.noted_matched, State.flightNoted]
  split
  · rename_i h
    exact (if_neg (by simp [h.1])).symm
  · exact (if_pos rfl).symm

theorem noteSkip_eq {s : State} {r : RowId} {w : Row} (hw : s.row r = some w) :
    noteSkip r s = s.flightNoted r w (w.sfm.noted s.settings .skip) (w.sfm.noted s.settings .skip) := by
  have def_eq : noteSkip r s =
      if w.sfm.blocked = false ∧ s.settings.blockageRun ≤ w.sfm.skipped.skipRun then
        (modFlight r (fun _ => { w.sfm.skipped with blocked := true, window := [] }) s).raiseHealth r
      else modFlight r (fun _ => w.sfm.skipped) s := by
    unfold noteSkip
    rw [hw]
    rfl
  rw [def_eq, modFlight_eq hw, modFlight_eq hw, Flight.noted_skip, State.flightNoted]
  split
  · rename_i h
    exact (if_neg (by simp [h.1])).symm
  · exact (if_pos rfl).symm

/-- The oldest entry leaves after an outcome is noted. -/
theorem dropOldest_flightNoted (s : State) (r : RowId) (w : Row) (f : Flight) :
    dropOldest r (s.flightNoted r w f f) = s.flightNoted r w f { f with queue := f.queue.tail } := by
  have drop : ∀ t : State, t.row r = some { w with sfm := f } →
      dropOldest r t = t.setRow r (some { w with sfm := { f with queue := f.queue.tail } }) := fun t ht =>
    modFlight_eq ht _
  unfold State.flightNoted
  dsimp only
  split
  · rw [drop _ (State.row_setRow_self _ _ _), State.setRow_setRow]
  · exact (drop ((s.setRow r _).raiseHealth r) (State.row_setRow_self _ _ _)).trans
      (congrArg (·.raiseHealth r) (State.setRow_setRow s r _ _))

theorem noted_queue (f : Flight) (c : Settings) (x : Seen) : (f.noted c x).queue = f.queue := by
  cases x
  · rw [Flight.noted_matched]
    split <;> rfl
  · rw [Flight.noted_skip]
    split <;> rfl

/-- The oldest entry resolved as matched is what the statements call resolved (R107, R110). -/
theorem resolveMatched_resolved {s : State} {r : RowId} {w : Row} {e : Entry} {rest : List Entry}
    (hw : s.row r = some w) (hq : w.sfm.queue = e :: rest) : s.resolved r (some .matched) (resolveMatched r s) := by
  obtain ⟨w', hw', hq', hs'⟩ := creditEntry_row hw e .matched
  refine ⟨w, e, rest, creditEntry e .matched s, w', hw, hq, ?_, hw', ?_⟩
  · unfold creditEntry
    cases e.target with
    | none => rfl
    | some t => exact deliver_credited t.1 _ s
  · have def_eq : resolveMatched r s = dropOldest r (noteMatched r (creditEntry e .matched s)) := by
      unfold resolveMatched
      rw [oldest_cons hw hq]
    rw [def_eq, noteMatched_eq hw', dropOldest_flightNoted, noted_queue, hq', hq, hs']
    rfl

/-- The oldest entry resolved as a skip is what the statements call resolved (R106, R109, R110). -/
theorem resolveSkip_resolved {s : State} {r : RowId} {w : Row} {e : Entry} {rest : List Entry}
    (hw : s.row r = some w) (hq : w.sfm.queue = e :: rest) : s.resolved r (some .skip) (resolveSkip r s) := by
  obtain ⟨w', hw', hq', hs'⟩ := creditEntry_row hw e fun _ => .skip
  refine ⟨w, e, rest, creditEntry e (fun _ => .skip) s, w', hw, hq, ?_, hw', ?_⟩
  · unfold creditEntry
    cases e.target with
    | none => rfl
    | some t => exact deliver_credited t.1 _ s
  · have def_eq : resolveSkip r s = dropOldest r (noteSkip r (creditEntry e (fun _ => .skip) s)) := by
      unfold resolveSkip
      rw [oldest_cons hw hq]
    rw [def_eq, noteSkip_eq hw', dropOldest_flightNoted, noted_queue, hq', hq, hs']
    rfl

/-- The oldest entry resolved with no seed seen: a skip, or unknown under SENSOR STUCK (R106, R109). -/
theorem resolveUnseen_resolved {s : State} {r : RowId} {w : Row} {e : Entry} {rest : List Entry}
    (hw : s.row r = some w) (hq : w.sfm.queue = e :: rest) :
    s.resolved r (if w.sfm.stuck then none else some .skip) (resolveUnseen r s) := by
  have stuck : s.sensorStuck r = w.sfm.stuck := by simp [State.sensorStuck, hw]
  unfold resolveUnseen
  rw [stuck]
  cases w.sfm.stuck with
  | true =>
    refine ⟨w, e, rest, s, w, hw, hq, rfl, hw, ?_⟩
    rw [if_pos rfl, dropOldest, modFlight_eq hw, hq]
    exact (if_pos rfl).symm
  | false => exact resolveSkip_resolved hw hq

/-- A sensed seed outside reset, on a configured row with a CLEAR line (R107, R115). -/
theorem exec_sensedSeed {s : State} {r : RowId} (hr : s.inReset = false) (hrow : (s.row r).isSome = true)
    (hl : s.lineOf r = .clear) : exec (.sensedSeed r) s = .next (occlusionStarts r (s.lineAt r .occluded)) :=
  congrArg Host.Outcome.next (if_neg (by simp [hr, hrow, hl]))

theorem exec_sensedSeed_passed {s : State} {r : RowId} (h : s.row r = none ∨ s.lineOf r = .occluded) :
    exec (.sensedSeed r) s = .next (s.lineAt r .occluded) :=
  congrArg Host.Outcome.next (if_pos (by rcases h with h | h <;> simp [h]))

/-- An occlusion that starts on a configured row (R107, R115). -/
theorem occlusionStarts_eq {s : State} {r : RowId} {w : Row} (hw : s.row r = some w) :
    occlusionStarts r s =
      (let a := s.setRow r
        (some { w with sfm := { w.sfm with line := .occluded, occlusionDue := some (s.now + stuckTime) } })
      if s.cmu.mode = .field then seedSensed r a else a) := by
  unfold occlusionStarts
  rw [modFlight_eq hw]
  rfl

/-- An extra on a configured row (R108). -/
theorem extraSeed_eq {s : State} {r : RowId} {w : Row} (hw : s.row r = some w) :
    (∀ k, w.seed.view.outcome = .found → w.seed.view.key = some k →
        extraSeed r s = creditSeed .extra k (s.setRow r (some { w with sfm := { w.sfm with underflowSeen := true } })))
      ∧ (w.seed.view.outcome ≠ .found →
        extraSeed r s = s.setRow r (some { w with sfm := { w.sfm with underflowSeen := true } })) := by
  unfold extraSeed
  rw [modFlight_eq hw, hw]
  refine ⟨fun k ho hk => ?_, fun ho => ?_⟩
  · simp only [ho, hk]
  · dsimp only
    split
    · rename_i h _
      exact absurd h ho
    · rfl

/-- The deadline of the oldest entry, as the event takes it (R109). -/
theorem exec_entryExpiry {s : State} (r : RowId) (hr : s.inReset = false) :
    exec (.entryExpiry r) s
      = .next (if s.cmu.mode = .field ∧ s.entryDue r = true then resolveUnseen r s else s) :=
  congrArg Host.Outcome.next (whenReleased_released hr)

/-- Settles O51, by the mode and the row's queue. -/
theorem sensedSeedsAndDeadlinesResolveEntries : Obligations.SensedSeedsAndDeadlinesResolveEntries := by
  intro s r hr
  refine ⟨fun h => exec_sensedSeed_passed h, fun w hw hl => ?_, fun w e rest hw hq => ?_, fun h => ?_⟩
  · rw [exec_sensedSeed hr (by simp [hw]) hl, occlusionStarts_eq (s := s.lineAt r .occluded) hw]
    intro occluded a extra
    have ha : a.row r = some occluded := State.row_setRow_self _ _ _
    have start : ∀ u, (if s.cmu.mode = .field then seedSensed r a else a) = u →
        (Host.Outcome.next (if s.cmu.mode = .field then seedSensed r a else a)
          : Host.Outcome State Fault Refusal) = .next u := fun u e => congrArg _ e
    refine ⟨fun hm => start _ (if_neg hm), fun hm hq => ?_, fun hm hq => ?_⟩
    · obtain ⟨e, rest, hq⟩ := List.exists_cons_of_ne_nil hq
      refine ⟨_, resolveMatched_resolved ha hq, start _ ?_⟩
      rw [if_pos hm, seedSensed, oldest_cons ha hq]
      rfl
    · have sensed : seedSensed r a = extraSeed r a := by
        unfold seedSensed
        rw [oldest_nil fun x hx => by rw [ha] at hx; cases hx; exact hq]
        rfl
      have twice : a.setRow r (some { occluded with sfm := { occluded.sfm with underflowSeen := true } }) = extra :=
        State.setRow_setRow _ _ _ _
      obtain ⟨credited, lost⟩ := extraSeed_eq ha
      rw [twice] at credited lost
      refine ⟨fun k ho hk => ⟨_, deliver_credited k (·.seedCredited .extra) extra, start _ ?_⟩, fun ho => start _ ?_⟩
      · rw [if_pos hm, sensed]
        exact credited k ho hk
      · rw [if_pos hm, sensed]
        exact lost ho
  · have due : s.entryDue r = decide (e.deadline ≤ s.now) := by simp [State.entryDue, oldest_cons hw hq]
    rw [exec_entryExpiry r hr, due]
    refine ⟨fun hm hd => ⟨_, resolveUnseen_resolved hw hq, ?_⟩, fun h => ?_⟩
    · rw [if_pos ⟨hm, decide_eq_true hd⟩]
    · rw [if_neg]
      rintro ⟨hm, hd⟩
      have := of_decide_eq_true hd
      rcases h with h | h
      · exact h hm
      · omega
  · have due : s.entryDue r = false := by simp [State.entryDue, oldest_nil h]
    rw [exec_entryExpiry r hr, due, if_neg (by simp)]

end Sys2Proof.Machine
end

section
/-! The settlement of O46: accepted fixes. -/

namespace Sys2Proof.Machine

/-! ## The tests for SPEED SILENT and fallback (R37, R38) -/

/-- SPEED SILENT is to be raised (R37). -/
def State.silenceDue (s : State) : Bool :=
  decide (s.settings.speedSource = .pulse ∧ s.mot.pulseState = .silent ∧ s.mot.silenceReported = false)
    && s.mot.fixMoving

theorem testSilence_eq (s : State) :
    testSilence s = { s with
      mot := { s.mot with silenceReported := s.mot.silenceReported || s.silenceDue }
      evu := s.evu.raisedIf s.silenceDue .speedSilent } := by
  have cond : (s.settings.speedSource = .pulse ∧ s.mot.pulseState = .silent ∧ s.mot.silenceReported = false
      ∧ s.mot.fixMoving = true) ↔ s.silenceDue = true := by
    simp [State.silenceDue, and_assoc]
  unfold testSilence
  simp only [cond]
  cases s.silenceDue
  · simp [Events.raisedIf]
  · simp only [Bool.or_true]
    rfl

theorem testFallback_eq (s : State) :
    testFallback s = { s with
      mot := { s.mot with
        source := if s.fallbackDue then .fix else s.mot.source
        vRef := if s.fallbackDue then s.mot.fixSpeed else s.mot.vRef }
      evu := s.evu.raisedIf s.fallbackDue .speedFallback } := by
  unfold testFallback
  cases s.fallbackDue <;> rfl

/-! ## Clamps and rejections (R28, R29) -/

theorem clampInt_eq {lo hi : Int} (h : lo ≤ hi) (v : Int) : clampInt lo hi v = max lo (min hi v) := by
  unfold clampInt
  split
  · omega
  · split <;> omega

/-- A fix is rejected for its quality, its position or its heading (R28). -/
theorem rejected_iff (x : Fix) :
    x.rejected = true ↔ (x.quality = .none ∨ x.e < -3000000 ∨ 3000000 < x.e ∨ x.n < -3000000 ∨ 3000000 < x.n
      ∨ max (-16384) (min 16384 x.hE) * max (-16384) (min 16384 x.hE)
          + max (-16384) (min 16384 x.hN) * max (-16384) (min 16384 x.hN) < 251658240
      ∨ 285212672 < max (-16384) (min 16384 x.hE) * max (-16384) (min 16384 x.hE)
          + max (-16384) (min 16384 x.hN) * max (-16384) (min 16384 x.hN)) := by
  have clamp : ∀ v, clampInt (-16384) 16384 v = max (-16384) (min 16384 v) := clampInt_eq (by decide)
  simp only [Fix.rejected, Fix.headingClamped, clamp, Bool.or_eq_true, decide_eq_true_eq, or_assoc]

theorem clamped_eq (x : Fix) :
    x.clamped = { x with
      hE := max (-16384) (min 16384 x.hE)
      hN := max (-16384) (min 16384 x.hN)
      omega := max (-3000) (min 3000 x.omega)
      speed := min 10000 x.speed } := by
  unfold Fix.clamped Fix.headingClamped
  rw [clampInt_eq (by decide), clampInt_eq (by decide), clampInt_eq (by decide)]

/-! ## The motion state (R30, R33, R37, R38) -/

/-- The Motion Unit and the events after an accepted fix and its tests. -/
theorem acceptedMotion_eq (u : State) (g : Fix) :
    let quiet := u.settings.speedSource = .pulse ∧ u.mot.pulseState = .silent ∧ 300 ≤ g.speed
    let silent := quiet ∧ u.mot.silenceReported = false
    let fall := quiet ∧ u.mot.source = .pulse ∧ u.settings.fallback = true
    testFallback (testSilence (u.setMot (u.mot.accepted g u.now))) = { u with
      mot := { u.mot with
        fix := some g
        fixState := .current
        fixTimers := some u.now
        yawRef := g.omega
        vRef := if fall ∨ u.mot.source = .fix then g.speed else u.mot.vRef
        source := if fall then .fix else u.mot.source
        silenceReported := u.mot.silenceReported || decide silent }
      evu := (u.evu.raisedIf (decide silent) .speedSilent).raisedIf (decide fall) .speedFallback } := by
  intro quiet silent fall
  have hs : (u.setMot (u.mot.accepted g u.now)).silenceDue = decide silent := by
    have due : (u.setMot (u.mot.accepted g u.now)).silenceDue =
        (decide (u.settings.speedSource = .pulse ∧ u.mot.pulseState = .silent ∧ u.mot.silenceReported = false)
          && (decide (FixState.current = .current) && decide (300 ≤ g.speed))) := rfl
    rw [due, Bool.eq_iff_iff]
    simp only [Bool.and_eq_true, decide_eq_true_eq, true_and, quiet, silent]
    tauto
  rw [testSilence_eq, hs, testFallback_eq]
  have hf : ∀ (e : Events) (b : Bool), ({ u.setMot (u.mot.accepted g u.now) with
      mot := { (u.setMot (u.mot.accepted g u.now)).mot with silenceReported := b }, evu := e } : State).fallbackDue
      = decide fall := fun e b => by
    have due : ({ u.setMot (u.mot.accepted g u.now) with
        mot := { (u.setMot (u.mot.accepted g u.now)).mot with silenceReported := b }, evu := e } : State).fallbackDue =
        (decide (u.mot.source = .pulse) && decide (u.settings.speedSource = .pulse) && u.settings.fallback
          && decide (u.mot.pulseState = .silent) && (decide (FixState.current = .current) && decide (300 ≤ g.speed))) := rfl
    rw [due, Bool.eq_iff_iff]
    simp only [Bool.and_eq_true, decide_eq_true_eq, true_and, quiet, fall]
    tauto
  simp only [hf]
  by_cases h : fall
  · simp only [h, decide_true, true_or, if_true]
    rfl
  · simp only [h, decide_false, false_or, if_false, Bool.false_eq_true]
    rfl

/-! ## The offers and the reads (R16, R58) -/

@[simp] theorem State.mapRows_settings (s : State) (g : RowId → Row → Row) : (s.mapRows g).settings = s.settings := by
  rw [State.mapRows_rest]

/-- A look-ahead point offers its cell's key where it came to lie there and no record is held (R16). -/
theorem mem_offered {s : State} {prev : Option Key} {pt : Option Point} {k : Key} :
    k ∈ s.offered prev pt ↔
      pt.map (cellOf s.settings.cellSide) = some k ∧ prev ≠ some k ∧ s.cst.holds k = false := by
  unfold State.offered
  cases pt with
  | none => simp
  | some q =>
    simp only [Option.map_some, Option.some.injEq]
    constructor
    · intro h
      split at h
      · rename_i hc
        rw [List.mem_singleton] at h
        subst h
        exact ⟨rfl, hc⟩
      · cases h
    · rintro ⟨rfl, hc⟩
      rw [if_pos hc]
      exact List.mem_singleton_self _

theorem mem_rowOffers {s : State} {r : RowId} {k : Key} :
    k ∈ s.rowOffers r ↔ ∃ w, s.row r = some w
      ∧ (k ∈ s.offered w.seed.prevCell w.seed.point ∨ ∃ l, w.fert = some l ∧ k ∈ s.offered l.prevCell l.look) := by
  unfold State.rowOffers
  cases s.row r with
  | none => simp
  | some w => cases hf : w.fert <;> simp [hf]

/-- The Row Engine's update at a fix, from the rows placed on (R58). -/
theorem rowFixUpdate_reads {f : Fix} {s : State} (h : s.cst.wf) :
    let b := s.mapRows fun _ => s.placedRow f
    let d := (offerMisses (rowIds.flatMap b.rowOffers) b).mapRows fun _ w => w.notedCells s.settings.cellSide
    d.reads (d.looksInto fun _ => true) (rowFixUpdate f s) := by
  intro b d
  have offer : (offerMisses (rowIds.flatMap b.rowOffers) b).cst.wf :=
      offerMisses_wf (by rwa [State.mapRows_cst]) fun k hk => by
    obtain ⟨r, -, hr⟩ := List.mem_flatMap.mp hk
    exact rowOffers_missing hr
  have ordered : d.cst.ordered := by
    rw [State.mapRows_cst]
    exact offer.1
  have reads := refreshRows_reads ordered fun _ => some Pass.everything
  unfold rowFixUpdate
  exact reads

/-- A FIX frame taken (R168). -/
theorem exec_fixFrame {f : Frame} {s : State} (h : s.takesFrame .fix f) :
    exec (.fixFrame f) s = .next (takeFix (fixAt f.payload) (s.shifted 20)) := by
  obtain ⟨hr, hl, hx⟩ := h
  have hlen : f.payload.length = 17 := by
    simp only [badLengthFor, decide_true, Bool.true_and, Bool.or_eq_false_iff, decide_eq_false_iff_not, not_not] at hl
    exact hl.2
  have taken : arrive .fix f.low f.payload f.check 0 (takeFix (fixAt f.payload)) s
      = takeFix (fixAt f.payload) (s.shifted (3 + f.payload.length + 0)) := arrive_taken hr hl hx
  rw [hlen] at taken
  exact congrArg Host.Outcome.next taken

/-- Settles O46: the motion state by the two tests, the keys by the rows placed, and then the reads of every lane. -/
theorem acceptedFixesMoveThePart : Obligations.AcceptedFixesMoveThePart := by
  intro f s ht hw x hE hN hrej g quiet silent fall vRef place a b arrives
  have taken : takeFix x (s.shifted 20) = rowFixUpdate g a := by
    have motion := acceptedMotion_eq (s.shifted 20) g
    unfold takeFix acceptFix
    rw [if_neg (fun h => hrej ((rejected_iff x).mp h)), clamped_eq]
    exact congrArg (rowFixUpdate g) motion
  refine ⟨rowIds.flatMap b.rowOffers, rowFixUpdate g a, fun k => ?_, rowFixUpdate_reads (s := a) hw, ?_⟩
  · have cst : b.cst = s.cst := State.mapRows_cst _ _
    have settings : b.settings = s.settings := State.mapRows_settings _ _
    simp only [List.mem_flatMap, rowIds_mem, true_and, mem_rowOffers, mem_offered, cst, settings]
    exact Iff.rfl
  · rw [exec_fixFrame ht]
    exact congrArg Host.Outcome.next taken

end Sys2Proof.Machine
end

section
/-! The settlement of O58: the modes of operation. -/

namespace Sys2Proof.Machine

/-! ## Rows changed in nothing that is counted -/

/-- A change of the rows that keeps which of them are scanned keeps the scan list (R123). -/
theorem scanList_mapRows {s : State} {g : RowId → Row → Row} (h : ∀ (r : RowId) (w : Row), (g r w).scanned = w.scanned) :
    (s.mapRows g).scanList = s.scanList := by
  unfold State.scanList
  refine List.filter_congr fun r _ => ?_
  rw [State.row_mapRows]
  cases s.row r with
  | none => rfl
  | some w => exact h r w

theorem configuredCount_mapRows (s : State) (g : RowId → Row → Row) : (s.mapRows g).configuredCount = s.configuredCount := by
  unfold State.configuredCount
  exact List.countP_congr fun r _ => by rw [State.row_mapRows, Option.isSome_map]

theorem enabledCount_mapRows {s : State} {g : RowId → Row → Row}
    (h : ∀ (r : RowId) (w : Row), (g r w).ctx.enabled = w.ctx.enabled) : (s.mapRows g).enabledCount = s.enabledCount := by
  unfold State.enabledCount
  refine List.countP_congr fun r _ => ?_
  rw [State.row_mapRows]
  cases s.row r with
  | none => rfl
  | some w => simp [h]

/-- Some row is configured (R169). -/
theorem configuredCount_pos (s : State) : 0 < s.configuredCount ↔ ∃ r, s.row r ≠ none := by
  simp [State.configuredCount, List.countP_pos_iff, rowIds_mem, Option.isSome_iff_ne_none]

/-! ## Runs of the scan (R124, R125) -/

theorem startConversion_eq (r : Option RowId) (s : State) :
    startConversion r s = s.setFsc
      { s.fsc with inFlight := r.map fun x => ⟨x, s.now⟩, position := r.bind (rowAfter s.scanList) } := by
  cases r <;> rfl

@[simp] theorem State.mapRows_fsc (s : State) (g : RowId → Row → Row) : (s.mapRows g).fsc = s.fsc := by
  rw [State.mapRows_rest]

@[simp] theorem State.mapRows_now (s : State) (g : RowId → Row → Row) : (s.mapRows g).now = s.now := by
  rw [State.mapRows_rest]

/-- The scanner and the rows are changed in either order. -/
theorem setFsc_mapRows (s : State) (g : RowId → Row → Row) (f : Scanner) :
    (s.mapRows g).setFsc f = (s.setFsc f).mapRows g := by
  simp only [State.mapRows, State.setRen, State.setFsc]
  rfl

/-- A run begins with the rows' times forgotten and the first row's conversion started. -/
theorem startRun_eq (s : State) :
    startRun s = ({ s with fsc :=
      { scanning := true
        inFlight := s.scanList.head?.map fun r => ⟨r, s.now⟩
        position := s.scanList.head?.bind (rowAfter s.scanList) } } : State).mapRows fun _ => Row.timeForgotten := by
  have list (f : Scanner) : ((s.setFsc f).mapRows fun _ => Row.timeForgotten).scanList = s.scanList :=
    scanList_mapRows (s := s.setFsc f) fun _ _ => by simp [Row.timeForgotten, Row.scanned]
  unfold startRun restartScan
  dsimp only
  rw [setFsc_mapRows, startConversion_eq, list, State.mapRows_now, State.mapRows_fsc, State.mapRows_fsc, setFsc_mapRows]
  rfl

/-! ## Settles after a change of the rows (R23) -/

theorem settled_mapRows (s : State) (g : RowId → Row → Row) : (s.mapRows g).settled = s.settled.mapRows g := by
  simp only [State.mapRows, State.setRen, State.settled]
  rfl

/-! ## O58 -/

/-- STRT, taken with its length right, is a start of its payload. -/
theorem exec_strt {i : Instr} {c : Cmd} {s : State} (hi : i = .strtField c ∨ i = .strtShadow c)
    (ht : s.takes Op.strt c) : exec i s = .next (start c.payload (s.begun c)) := by
  rcases hi with rfl | rfl <;> exact congrArg Host.Outcome.next (takeCommand_taken ht)

/-- What a start does past its length check, with the checks in their order (R81). -/
theorem start_eq {p : List Byte} {s : State} (hl : p.length = 1) :
    start p s =
      if natAt p 0 1 ≠ 1 ∧ natAt p 0 1 ≠ 2 then s.complete (.badField 1)
      else if s.cmu.mode ≠ .idle then s.complete (.plain .wrongMode)
      else if s.ready = false then s.complete (.plain .notReady)
      else
        let t := if natAt p 0 1 = 1 then startField s else startShadow s
        t.complete (.counts .ok t.configuredCount t.enabledCount) := by
  unfold start
  exact if_neg (by simp [hl])

theorem ready_iff (s : State) : s.ready = true ↔ s.cmu.settingsValid = true ∧ ∃ r, s.row r ≠ none := by
  simp only [State.ready, Bool.and_eq_true, decide_eq_true_eq, configuredCount_pos]

/-- The state of a start before its decisions (R82). -/
theorem start_follows (s : State) :
    (({ s with
        cmu := { s.cmu with mode := .field }
        fsc :=
          { scanning := true
            inFlight := s.scanList.head?.map fun r => ⟨r, s.now⟩
            position := s.scanList.head?.bind (rowAfter s.scanList) } } : State).mapRows
          fun _ => Row.timeForgotten).follows (startField s)
      ∧ (({ s with cmu := { s.cmu with mode := .shadow } } : State).mapRows fun _ => Row.synthCleared).follows
        (startShadow s) := by
  have field := decideAll_follows (startRun (s.setMode .field))
  have shadow := decideAll_follows ((s.setMode .shadow).mapRows fun _ => Row.synthCleared)
  rw [startRun_eq] at field
  unfold startField startShadow
  rw [startRun_eq]
  exact ⟨field, shadow⟩

/-- A start that succeeds returns the numbers of rows configured and enabled (R81). -/
theorem started_complete {s b t : State} {g : RowId → Row → Row} (h : (b.mapRows g).follows t) (hb : b.row = s.row)
    (hg : ∀ (r : RowId) (w : Row), (g r w).ctx.enabled = w.ctx.enabled) :
    t.complete (.counts .ok t.configuredCount t.enabledCount)
      = t.complete (.counts .ok s.configuredCount s.enabledCount) := by
  have hc : b.configuredCount = s.configuredCount := by
    unfold State.configuredCount
    rw [hb]
  have he : b.enabledCount = s.enabledCount := by
    unfold State.enabledCount
    rw [hb]
  rw [h.configuredCount, h.enabledCount, configuredCount_mapRows, enabledCount_mapRows hg, hc, he]

/-- The state of a stop before its decisions (R83, R111, R125). -/
theorem stopRun_follows {s : State} (h : s.cst.wf) :
    (({ s.settled with
        cmu := { s.cmu with mode := .idle }
        fsc := ⟨false, none, none⟩ } : State).mapRows fun _ w =>
          { w with
            fert := w.fert.map fun l => { l with flow := { l.flow with prevTime := none } }
            sfm := { w.sfm with queue := [], synth := 0 } }).follows (stopRun s).1
      ∧ (stopRun s).2 = s.cst.records.countP Record.settles := by
  have ended : endRun ((s.setMode .idle).mapRows fun _ => Row.flightEmptied)
      = (({ s with cmu := { s.cmu with mode := .idle }, fsc := ⟨false, none, none⟩ } : State).mapRows fun _ w =>
          { w with
            fert := w.fert.map fun l => { l with flow := { l.flow with prevTime := none } }
            sfm := { w.sfm with queue := [], synth := 0 } }) := by
    unfold endRun
    rw [State.mapRows_mapRows]
    simp only [State.mapRows, State.setRen, State.setFsc]
    rfl
  have cst := State.mapRows_cst ({ s with cmu := { s.cmu with mode := .idle }, fsc := ⟨false, none, none⟩ } : State)
    fun _ w =>
      { w with
        fert := w.fert.map fun l => { l with flow := { l.flow with prevTime := none } }
        sfm := { w.sfm with queue := [], synth := 0 } }
  unfold stopRun
  rw [ended]
  obtain ⟨follows, count⟩ := settleAndDecide_follows (s := ({ s with
      cmu := { s.cmu with mode := .idle }, fsc := ⟨false, none, none⟩ } : State).mapRows fun _ w =>
        { w with
          fert := w.fert.map fun l => { l with flow := { l.flow with prevTime := none } }
          sfm := { w.sfm with queue := [], synth := 0 } }) (by rw [cst]; exact h.1)
  rw [settled_mapRows] at follows
  rw [cst] at count
  exact ⟨follows, count⟩

/-- Settles O58, by the checks of STRT in their order and by the mode a STOP meets. -/
theorem startAndStopChangeTheMode : Obligations.StartAndStopChangeTheMode := by
  intro c s b settles
  refine ⟨?start, fun ht hp => ⟨fun hm => ?idle, fun hm hw => ?run⟩, fun ht hp hw => ?settle⟩
  case start =>
    rintro i target hi ht hl rfl
    rw [exec_strt hi ht, start_eq hl]
    have named : natAt c.payload 0 1 = 1 ∨ natAt c.payload 0 1 = 2 →
        ¬ (natAt c.payload 0 1 ≠ 1 ∧ natAt c.payload 0 1 ≠ 2) := by omega
    have ready : b.ready = s.ready := rfl
    refine ⟨fun h1 h2 => ?_, fun h hm => ?_, fun h hm hr => ?_, fun h hm hv hrow => ?_⟩
    · rw [if_pos ⟨h1, h2⟩]
    · rw [if_neg (named h), if_pos (show b.cmu.mode ≠ .idle from hm)]
    · have not_ready : b.ready = false := by
        rw [ready, Bool.eq_false_iff, Ne, ready_iff]
        rintro ⟨hv, r, hrow⟩
        rcases hr with hr | hr
        · rw [hr] at hv
          cases hv
        · exact hrow (hr r)
      rw [if_neg (named h), if_neg (not_not.mpr (show b.cmu.mode = .idle from hm)), if_pos not_ready]
    · have is_ready : ¬ b.ready = false := by
        rw [ready, (ready_iff s).mpr ⟨hv, hrow⟩]
        decide
      obtain ⟨field, shadow⟩ := start_follows b
      rw [if_neg (named h), if_neg (not_not.mpr (show b.cmu.mode = .idle from hm)), if_neg is_ready]
      by_cases h1 : natAt c.payload 0 1 = 1
      · simp only [if_pos h1]
        exact ⟨_, field, congrArg Host.Outcome.next (started_complete field rfl fun _ _ => rfl)⟩
      · simp only [if_neg h1]
        exact ⟨_, shadow, congrArg Host.Outcome.next (started_complete shadow rfl fun _ _ => rfl)⟩
  all_goals have hl : c.payload.length = 0 := by rw [hp]; rfl
  case idle =>
    have stop : exec (.stop c) s = .next (stopCommand c.payload b) :=
      congrArg Host.Outcome.next ((takeCommand_taken ht).trans (withLength_right hl))
    rw [stop]
    exact congrArg Host.Outcome.next (if_pos hm)
  case run =>
    have stop : exec (.stop c) s = .next (stopCommand c.payload b) :=
      congrArg Host.Outcome.next ((takeCommand_taken ht).trans (withLength_right hl))
    obtain ⟨follows, count⟩ := stopRun_follows (s := b) hw
    refine ⟨(stopRun b).1, follows, ?_⟩
    rw [stop, stopCommand, if_neg (show ¬ b.cmu.mode = .idle from hm)]
    exact congrArg (fun n => Host.Outcome.next ((stopRun b).1.complete (.counts .ok n 0))) count
  case settle =>
    have setl : exec (.setl c) s = .next (settleCommand c.payload b) :=
      congrArg Host.Outcome.next ((takeCommand_taken ht).trans (withLength_right hl))
    obtain ⟨follows, count⟩ := settle_follows (s := b) hw.1
    refine ⟨(settle b).1, follows, ?_⟩
    rw [setl, settleCommand, count]
    rfl

end Sys2Proof.Machine
end

section
/-! The settlement of O60: the restart of every block. -/

namespace Sys2Proof.Machine

/-! ## A row after a restart (R63, R79, R100, R121, R136) -/

/-- A configured row as a restart leaves it: PARKED and pointless, with no results and with no flight. -/
def State.restedRow (s : State) (r : RowId) (w : Row) : Row where
  ctx := w.ctx
  vr := 0
  seed :=
    { point := none, prevCell := none, view := fallbackView .noPoint s.ren.seedFallback none
      state := .lane .parked, q := 0, s := 0, limited := false, drive := 0 }
  fert := w.fert.map fun _ =>
    { look := none, prevCell := none, drop := none, view := fallbackView .noPoint s.ren.fertFallback none
      state := .parked, f := 0, ff := 0, duty := 0, limited := false, valve := 0
      flow := ⟨0, none, 0, 0, 0, 0, false, false, false⟩ }
  sfm :=
    { queue := [], skipRun := 0, window := [], blocked := false, stuck := false, stalled := false
      overflowSeen := false, underflowSeen := false, line := s.lineOf r
      occlusionDue := if s.lineOf r = .occluded then some (s.now + 500) else none
      stallDue := none, synth := 0 }

theorem rowSpeed_zero (lat : Int) : rowSpeed 0 0 lat = 0 := by
  simp [rowSpeed, clampInt]

theorem seedComputed_zero (l : SeedLane) (c : RowContext) :
    l.computed c 0 = { l with q := 0, s := 0, limited := false } := by
  simp [SeedLane.computed, seedRate, shaftWanted]

theorem fertComputed_zero (l : FertLane) (c : RowContext) :
    l.computed c 0 = { l with f := 0, ff := 0, duty := 0, limited := false } := by
  simp [FertLane.computed, flowWanted, targetFlow, dutyWanted, feedForward, valveDutyOf]

/-- A computation at a reference speed and yaw rate of 0 leaves a restarted row without results (R79). -/
theorem remade_restartedRow {s t : State} (hv : t.mot.vRef = 0) (hy : t.mot.yawRef = 0) (r : RowId) (w : Row) :
    t.remade .results (s.restartedRow r w) = s.restedRow r w := by
  have computed : t.remade .results (s.restartedRow r w) = t.driven ((s.restartedRow r w).computed 0 0) := by
    simp [State.remade, Pass.results, hv, hy]
  rw [computed]
  simp [Row.computed, rowSpeed_zero, seedComputed_zero, State.driven, State.meterDrive, stallAfter, State.restartedRow,
    State.restedRow, SeedLane.fresh, FertLane.fresh, Flight.fresh, stuckTime, FlowState.fresh]
  cases w.fert <;> simp [fertComputed_zero, State.valveOut]

/-! ## The restart of every block (R177) -/

/-- The state a restart leaves before its own completion, with the rows it leaves. -/
def State.restedWith (s : State) (rows : Vector (Option Row) 32) : State :=
  { s with
    cmu := { s.cmu with progress := .idle, dataDue := none, mode := .idle }
    cst := { s.cst.afterSettle with misses := [], incomplete := false }
    mot :=
      { fix := none, fixState := .noFix, fixTimers := none, pulses := 0, windowStart := s.now, filtered := 0
        pulseState := .silent, zeroRun := 0, pulseRun := 0, silenceReported := false
        source := s.settings.speedSource, vRef := 0, yawRef := 0, switch := s.pins.switch, switchSince := none }
    ren := { s.ren with rows := rows }
    fsc := ⟨false, none, none⟩
    evu := { pending := 0, enabled := s.evu.enabled, changed := 0, attention := false } }

theorem raisedIf_enabled (e : Events) (b : Bool) (k : Kind) : (e.raisedIf b k).enabled = e.enabled := by
  cases b <;> rfl

/-- The Event Unit after a restart keeps its enabled set alone (R189). -/
theorem restarted_eq (e : Events) :
    e.restarted = { pending := 0, enabled := e.enabled, changed := 0, attention := false } := by
  simp [Events.restarted, Events.recomputed]

/-- The state of a restart whose Motion Unit has its values, before the rows take theirs. -/
def State.restartingMotion (s : State) : State :=
  let a := (s.setCmu s.cmu.restarted).settled
  a.setMot (Motion.restarted a.pins.switch a.settings.speedSource a.now)

/-- The state of a restart whose rows `d` have their values, before they are computed. -/
def State.restartingStore (d : State) : State :=
  (d.setCst { d.cst with misses := [], incomplete := false }).setFsc Scanner.stopped

theorem restart_computed {s : State} (h : s.cst.wf) :
    restart s =
      let f := computeAll (s.restartingMotion.mapRows s.restartingMotion.restartedRow).restartingStore
      f.setEvu f.evu.restarted := by
  have settled : (settleRecords (s.setCmu s.cmu.restarted)).1 = (s.setCmu s.cmu.restarted).settled :=
    congrArg Prod.fst (settleRecords_eq (s := s.setCmu s.cmu.restarted) h.1)
  unfold restart
  dsimp only
  rw [settled]
  rfl

/-- The blocks other than the rows, for rows `d` that are put to rest and computed as `f`. -/
theorem restedWith_of_computed {s d f : State}
    (hd : d = { s.restartingMotion with ren := { s.restartingMotion.ren with rows := d.ren.rows } })
    (hf : f = { d.restartingStore with ren := { d.restartingStore.ren with rows := f.ren.rows }, evu := f.evu })
    (he : f.evu.enabled = d.restartingStore.evu.enabled) :
    f.setEvu f.evu.restarted = s.restedWith f.ren.rows := by
  have enabled : d.restartingStore.evu.enabled = s.evu.enabled := by
    rw [hd]
    exact (raisedIf_enabled _ _ _).trans (raisedIf_enabled _ _ _)
  rw [restarted_eq, he, enabled]
  conv_lhs => rw [hf, hd]
  rfl

/-- A restart: every row is put to rest, and no other block keeps a value. -/
theorem restart_eq {s : State} (h : s.cst.wf) : restart s = s.restedWith (s.mapRows s.restedRow).ren.rows := by
  rw [restart_computed h]
  have d_row := s.restartingMotion.row_mapRows s.restartingMotion.restartedRow
  have d_rest := s.restartingMotion.mapRows_rest s.restartingMotion.restartedRow
  generalize s.restartingMotion.mapRows s.restartingMotion.restartedRow = d at d_row d_rest
  have f_row (r : RowId) : (computeAll d.restartingStore).row r = (s.mapRows s.restedRow).row r := by
    have motion : d.restartingStore.mot = s.restartingMotion.mot := by
      rw [d_rest]
      rfl
    have row : d.restartingStore.row r = d.row r := rfl
    unfold computeAll
    rw [State.row_pass, row, d_row, Option.map_map, State.row_mapRows]
    refine congrArg (fun g => (s.row r).map g) (funext fun w => ?_)
    exact remade_restartedRow (s := s.restartingMotion) (by rw [motion]; rfl) (by rw [motion]; rfl) r w
  have follows := computeAll_follows d.restartingStore
  refine (restedWith_of_computed d_rest follows.1 follows.enabled).trans (congrArg s.restedWith ?_)
  exact Vector.ext fun i hi => f_row ⟨i, hi⟩

/-- Settles O60, by the restart of the blocks and by that of each row. -/
theorem restartRestartsEveryBlock : Obligations.RestartRestartsEveryBlock := by
  intro c s hr hc hp hw b
  have rstr : exec (.rstr c) s = .next (restartCommand c.payload b) :=
    congrArg Host.Outcome.next
      ((takeAlways_taken hr hc (.inr hp)).trans (withLength_right (by rw [hp]; rfl)))
  rw [rstr, restartCommand, restart_eq (s := b) hw]
  rfl

end Sys2Proof.Machine
end

section
/-! The settlement of O33: the 74 bytes of a row's status. -/

namespace Sys2Proof.Machine

/-! ## Bytes laid one part after another (R179) -/

@[simp] theorem length_leBytes (w n : Nat) : (leBytes w n).length = w := by
  induction w generalizing n with
  | zero => rfl
  | succ w ih => simp [leBytes, ih]

@[simp] theorem length_leIntBytes (w : Nat) (i : Int) : (leIntBytes w i).length = w := length_leBytes _ _

@[simp] theorem length_optKeyBytes (k : Option Key) : (optKeyBytes k).length = 5 := by
  cases k <;> simp [optKeyBytes, keyBytes]

/-- The bytes from an offset on begin with a part of known length: that part stands there, and the rest after it. -/
theorem slice_part {b x rest : List Byte} {off n : Nat} (h : b.drop off = x ++ rest) (hn : x.length = n) :
    slice b off n = x ∧ b.drop (off + n) = rest := by
  subst hn
  refine ⟨by rw [slice, h, List.take_left], ?_⟩
  rw [← List.drop_drop, h, List.drop_left]

/-- Two parts side by side are one. -/
theorem slice_add (b : List Byte) (off m n : Nat) : slice b off (m + n) = slice b off m ++ slice b (off + m) n := by
  simp [slice, List.take_add, List.drop_drop]

/-! ## The parts of a row's status (R187) -/

@[simp] theorem length_laneBytes (l : LaneState) : l.bytes.length = 2 := by cases l <;> rfl

@[simp] theorem length_seedBytes (x : SeedState) : x.bytes.length = 2 := by cases x <;> simp [SeedState.bytes]

@[simp] theorem length_fertBytes (l : Option FertLane) : (fertBytes l).length = 5 := by cases l <;> simp [fertBytes]

/-- A row's status in its parts, one after another. -/
theorem rowStatus_parts (s : State) (w : Row) :
    s.rowStatus w =
      [flagByte w.ctx.enabled] ++ (w.seed.state.bytes ++ ([flagByte w.seed.view.fallback, flagByte w.seed.limited]
        ++ (fertBytes w.fert
        ++ ((leBytes 4 w.vr ++ leBytes 4 w.seed.q ++ leBytes 4 w.seed.s)
        ++ ((leBytes 4 (w.fert.elim 0 (·.f)) ++ leBytes 4 (w.fert.elim 0 (·.ff))
              ++ leIntBytes 4 (w.fert.elim 0 (·.flow.trim)) ++ leBytes 4 (w.fert.elim 0 (·.duty)))
        ++ (leBytes 4 w.seed.drive ++ (leBytes 4 (w.fert.elim 0 (·.valve))
        ++ (optKeyBytes (s.boundKey w.seed.point)
        ++ ((optKeyBytes (s.boundKey (w.point .fert)) ++ optKeyBytes (s.boundKey w.drop))
        ++ ([BitVec.ofNat 8 w.sfm.queue.length, flagByte w.sfm.blocked, flagByte w.sfm.stuck, flagByte w.sfm.stalled]
        ++ (([flagByte (w.fert.any (·.flow.sensorFault)), flagByte (w.fert.any (·.flow.noFlow))]
              ++ leBytes 4 (w.fert.elim 0 (·.flow.lastFlow)) ++ [flagByte (w.fert.any (·.flow.estimated))])
        ++ [flagByte w.sfm.overflowSeen, flagByte w.sfm.underflowSeen]))))))))))) := by
  unfold State.rowStatus
  simp only [List.append_assoc, List.cons_append, List.nil_append]

/-- Where each part of a row's status stands. -/
theorem rowStatus_slices {s : State} {w : Row} {b : List Byte} (h : s.rowStatus w = b) :
    b.length = 74
      ∧ slice b 0 1 = [flagByte w.ctx.enabled]
      ∧ slice b 1 2 = w.seed.state.bytes
      ∧ slice b 3 2 = [flagByte w.seed.view.fallback, flagByte w.seed.limited]
      ∧ slice b 5 5 = fertBytes w.fert
      ∧ slice b 10 12 = leBytes 4 w.vr ++ leBytes 4 w.seed.q ++ leBytes 4 w.seed.s
      ∧ slice b 22 16 = leBytes 4 (w.fert.elim 0 (·.f)) ++ leBytes 4 (w.fert.elim 0 (·.ff))
          ++ leIntBytes 4 (w.fert.elim 0 (·.flow.trim)) ++ leBytes 4 (w.fert.elim 0 (·.duty))
      ∧ slice b 38 4 = leBytes 4 w.seed.drive
      ∧ slice b 42 4 = leBytes 4 (w.fert.elim 0 (·.valve))
      ∧ slice b 46 5 = optKeyBytes (s.boundKey w.seed.point)
      ∧ slice b 51 10 = optKeyBytes (s.boundKey (w.point .fert)) ++ optKeyBytes (s.boundKey w.drop)
      ∧ slice b 61 4 =
          [BitVec.ofNat 8 w.sfm.queue.length, flagByte w.sfm.blocked, flagByte w.sfm.stuck, flagByte w.sfm.stalled]
      ∧ slice b 65 7 = [flagByte (w.fert.any (·.flow.sensorFault)), flagByte (w.fert.any (·.flow.noFlow))]
          ++ leBytes 4 (w.fert.elim 0 (·.flow.lastFlow)) ++ [flagByte (w.fert.any (·.flow.estimated))]
      ∧ slice b 72 2 = [flagByte w.sfm.overflowSeen, flagByte w.sfm.underflowSeen] := by
  rw [rowStatus_parts] at h
  have length : b.length = 74 := by simp [← h]
  obtain ⟨enabled, rest⟩ := slice_part (off := 0) (n := 1) h.symm rfl
  obtain ⟨seedState, rest⟩ := slice_part (n := 2) rest (by simp)
  obtain ⟨seedFlags, rest⟩ := slice_part (n := 2) rest rfl
  obtain ⟨fert, rest⟩ := slice_part (n := 5) rest (by simp)
  obtain ⟨seedResults, rest⟩ := slice_part (n := 12) rest (by simp)
  obtain ⟨fertResults, rest⟩ := slice_part (n := 16) rest (by simp)
  obtain ⟨drive, rest⟩ := slice_part (n := 4) rest (by simp)
  obtain ⟨valve, rest⟩ := slice_part (n := 4) rest (by simp)
  obtain ⟨seedKey, rest⟩ := slice_part (n := 5) rest (by simp)
  obtain ⟨fertKeys, rest⟩ := slice_part (n := 10) rest (by simp)
  obtain ⟨flight, rest⟩ := slice_part (n := 4) rest rfl
  obtain ⟨flow, rest⟩ := slice_part (n := 7) rest (by simp)
  obtain ⟨sticky, -⟩ := slice_part (n := 2) (rest.trans (List.append_nil _).symm) rfl
  exact ⟨length, enabled, seedState, seedFlags, fert, seedResults, fertResults, drive, valve, seedKey, fertKeys, flight,
    flow, sticky⟩

/-! ## RRW (R187) -/

/-- The key of the record a point is bound to, or no key (R10). -/
theorem boundKey_eq (s : State) (p : Option Point) :
    s.boundKey p =
      if (p.map (cellOf s.settings.cellSide)).any s.cst.holds = true then p.map (cellOf s.settings.cellSide) else none := by
  cases p <;> rfl

theorem namedRow_none {s : State} {n : Nat} (h : n = 0 ∨ 32 < n) : s.namedRow n = none := by
  unfold State.namedRow
  rw [if_neg]
  rw [inRange_iff]
  omega

theorem namedRow_succ (s : State) (r : RowId) : s.namedRow (r.val + 1) = (s.row r).map fun w => (r, w) := by
  have range : inRange 1 32 (r.val + 1) = true := by
    rw [inRange_iff]
    omega
  have row : rowOf (r.val + 1) = r := Fin.ext (by simp [rowOf])
  unfold State.namedRow
  rw [if_pos range, row]

/-- RRW of a row that is not configured, or of no row. -/
theorem readRow_unnamed {p : List Byte} {s : State} (h : s.namedRow (natAt p 0 1) = none) :
    readRow p s = s.complete (.badField 1) := by
  unfold readRow
  rw [h]

/-- RRW of a configured row: its status is taken, and then its sticky flags are cleared. -/
theorem readRow_named {p : List Byte} {s : State} {r : RowId} {w : Row} (h : natAt p 0 1 = r.val + 1)
    (hw : s.row r = some w) :
    readRow p s =
      (s.setRow r (some w.flagsRead)).complete
        { Completion.counts .ok (r.val + 1) 0 with payload := s.rowStatus w } := by
  unfold readRow
  rw [h, namedRow_succ, hw]
  dsimp only [Option.map_some]
  rw [State.modRow_eq_setRow, hw]
  rfl

/-- Settles O33, by the parts of a row's status and the place of each. -/
theorem readRowStatusClearsTheStickyFlags : Obligations.ReadRowStatusClearsTheStickyFlags := by
  intro c s n ht hl hn
  have rrw : exec (.rrw c) s = .next (readRow c.payload (s.begun c)) :=
    congrArg Host.Outcome.next ((takeCommand_taken ht).trans (withLength_right hl))
  have unnamed (h : (s.begun c).namedRow n = none) :
      exec (.rrw c) s = .next ((s.begun c).complete (.badField 1)) := by
    rw [rrw, readRow_unnamed (by rw [hn, h])]
  refine ⟨fun h => unnamed (namedRow_none h), fun r hr => ⟨fun hrow => unnamed ?_, fun w hw => ?_⟩⟩
  · subst hr
    rw [namedRow_succ]
    exact congrArg (Option.map fun w => (r, w)) hrow
  intro flag code key
  have code_eq (x : LaneState) : x.bytes = code x := by
    cases x with
    | parked => rfl
    | running => rfl
    | held reason => cases reason <;> rfl
  have key_eq (p : Option Point) : optKeyBytes (s.boundKey p) = key p := by
    rw [boundKey_eq, apply_ite optKeyBytes]
    rfl
  obtain ⟨length, enabled, seedState, seedFlags, fert, seedResults, fertResults, drive, valve, seedKey, fertKeys, flight,
    flow, sticky⟩ := rowStatus_slices (s := s) (w := w) rfl
  have meter : s.meterPort r = w.seed.drive := by simp [State.meterPort, hw]
  have port : s.valvePort r = w.fert.elim 0 (·.valve) := by simp [State.valvePort, hw]
  refine ⟨s.rowStatus w, ?_, length, enabled, ?_, seedFlags, seedResults, ?_, ?_, flight, sticky, fun hf => ?_,
    fun l hf => ?_⟩
  · rw [rrw, readRow_named (s := s.begun c) (hn.trans hr.symm) hw, hr]
    rfl
  · rw [seedState]
    cases w.seed.state with
    | priming n => rfl
    | lane x => exact code_eq x
  · rw [slice_add _ 38 4 4, drive, valve, meter, port]
  · rw [seedKey, key_eq]
  · rw [hf] at fert fertResults valve flow
    rw [Row.point, Row.drop, hf] at fertKeys
    exact ⟨fert, fertResults, valve, fertKeys, flow⟩
  · rw [hf] at fert fertResults flow
    rw [Row.point, Row.drop, hf, key_eq, key_eq] at fertKeys
    refine ⟨?_, fertResults, fertKeys, flow⟩
    rw [fert, fertBytes, code_eq]
    simp [flag, flagByte]

end Sys2Proof.Machine
end

section
/-! The settlement of O55: the settings of the implement. -/

namespace Sys2Proof.Machine

/-! ## The fields of a SETI payload (R174, R180) -/

theorem fieldsOf_drop (w : Nat) (ws : List Nat) (p : List Byte) (off : Nat) :
    fieldsOf (w :: ws) (p.drop off) = natAt p off w :: fieldsOf ws (p.drop (off + w)) := by
  simp [fieldsOf, natAt, slice, List.drop_drop]

/-- The seventeen field values, each at its place. -/
theorem fieldsOf_setiWidths (p : List Byte) :
    fieldsOf setiWidths p =
      [natAt p 0 2, natAt p 2 1, natAt p 3 1, natAt p 4 2, natAt p 6 1, natAt p 7 2, natAt p 9 2, natAt p 11 1, natAt p 12 2,
        natAt p 14 2, natAt p 16 1, natAt p 17 1, natAt p 18 2, natAt p 20 2, natAt p 22 1, natAt p 23 1, natAt p 24 2] := by
  have start : fieldsOf setiWidths p = fieldsOf setiWidths (p.drop 0) := rfl
  rw [start]
  unfold setiWidths
  simp only [fieldsOf_drop, Nat.reduceAdd]
  rfl

/-- Of each value, whether it lies in its range. -/
def insides (rs : List (Nat × Nat)) (vs : List Nat) : List Bool :=
  List.zipWith (fun r v => inRange r.1 r.2 v) rs vs

/-- The first value outside its range is found by its number. -/
theorem firstOutside_of_first {rs : List (Nat × Nat)} {vs : List Nat} {x : Nat} (n : Nat)
    (hx : (insides rs vs)[x]? = some false) (hy : ∀ y < x, (insides rs vs)[y]? = some true) :
    firstOutside n rs vs = some (n + x) := by
  induction rs generalizing vs x n with
  | nil => simp [insides] at hx
  | cons r rs ih =>
    cases vs with
    | nil => simp [insides] at hx
    | cons v vs =>
      cases x with
      | zero =>
        have outside : inRange r.1 r.2 v = false := by simpa [insides] using hx
        simp [firstOutside, outside]
      | succ x =>
        have inside : inRange r.1 r.2 v = true := by simpa [insides] using hy 0 (Nat.succ_pos x)
        have rest := ih (vs := vs) (x := x) (n + 1) (by simpa [insides] using hx)
          fun y h => by simpa [insides] using hy (y + 1) (Nat.succ_lt_succ h)
        simp only [firstOutside, inside, if_true, rest]
        congr 1
        omega

theorem firstOutside_of_all {rs : List (Nat × Nat)} {vs : List Nat} (n : Nat) (h : (insides rs vs).all id = true) :
    firstOutside n rs vs = none := by
  induction rs generalizing vs n with
  | nil => rfl
  | cons r rs ih =>
    cases vs with
    | nil => rfl
    | cons v vs =>
      obtain ⟨inside, rest⟩ : inRange r.1 r.2 v = true ∧ (insides rs vs).all id = true := by simpa [insides] using h
      simp only [firstOutside, inside, if_true]
      exact ih (n + 1) rest

theorem within_eq (p : List Byte) (off width lo hi : Nat) :
    within p off width lo hi = inRange lo hi (natAt p off width) := by
  simp [within, inRange]

/-- The seventeen checks are that of the cell side, and the range of each field after it. -/
theorem setiFits_eq (p : List Byte) :
    setiFits p = decide (natAt p 0 2 = 100 ∨ natAt p 0 2 = 200 ∨ natAt p 0 2 = 400)
      :: insides setiRanges (fieldsOf setiWidths p).tail := by
  rw [fieldsOf_setiWidths]
  unfold setiFits
  simp only [within_eq]
  rfl

theorem setiBadField_eq (p : List Byte) :
    setiBadField (fieldsOf setiWidths p) =
      if natAt p 0 2 = 100 ∨ natAt p 0 2 = 200 ∨ natAt p 0 2 = 400 then
        firstOutside 2 setiRanges (fieldsOf setiWidths p).tail
      else some 1 := by
  rw [fieldsOf_setiWidths]
  rfl

theorem setiBadField_of_first {p : List Byte} {x : Nat} (hx : (setiFits p)[x]? = some false)
    (hy : ∀ y < x, (setiFits p)[y]? = some true) : setiBadField (fieldsOf setiWidths p) = some (x + 1) := by
  rw [setiFits_eq] at hx hy
  rw [setiBadField_eq]
  cases x with
  | zero =>
    rw [if_neg]
    simpa only [List.getElem?_cons_zero, Option.some.injEq, decide_eq_false_iff_not] using hx
  | succ x =>
    rw [if_pos, firstOutside_of_first (x := x) 2 hx fun y h => hy (y + 1) (Nat.succ_lt_succ h)]
    · congr 1
      omega
    · simpa only [List.getElem?_cons_zero, Option.some.injEq, decide_eq_true_eq] using hy 0 (Nat.succ_pos x)

theorem setiBadField_of_all {p : List Byte} (h : (setiFits p).all id = true) :
    setiBadField (fieldsOf setiWidths p) = none := by
  rw [setiFits_eq] at h
  simp only [List.all_cons, id_eq, Bool.and_eq_true, decide_eq_true_eq] at h
  rw [setiBadField_eq, if_pos h.1, firstOutside_of_all 2 h.2]

/-- The settings taken are those at the fields' places: the cell side is one of the three. -/
theorem settingsOf_fields {p : List Byte} (h : (setiFits p).all id = true) :
    settingsOf (fieldsOf setiWidths p) = setiSettings p := by
  have side : natAt p 0 2 = 100 ∨ natAt p 0 2 = 200 ∨ natAt p 0 2 = 400 := by
    rw [setiFits_eq] at h
    simp only [List.all_cons, id_eq, Bool.and_eq_true, decide_eq_true_eq] at h
    exact h.1
  have cells : cellSideOf (natAt p 0 2) = (setiSettings p).cellSide := by
    rcases side with e | e | e <;> simp [cellSideOf, setiSettings, e]
  rw [fieldsOf_setiWidths]
  have others : settingsOf
      [natAt p 0 2, natAt p 2 1, natAt p 3 1, natAt p 4 2, natAt p 6 1, natAt p 7 2, natAt p 9 2, natAt p 11 1, natAt p 12 2,
        natAt p 14 2, natAt p 16 1, natAt p 17 1, natAt p 18 2, natAt p 20 2, natAt p 22 1, natAt p 23 1, natAt p 24 2]
      = { setiSettings p with cellSide := cellSideOf (natAt p 0 2) } := rfl
  rw [others, cells]

/-! ## The motion a setting acts on (R37, R38, R46) -/

/-- What SETI reads of the motion and does not change until its lost limit acts. -/
def Motion.seen (m : Motion) : Option Fix × FixState × Option Nat × PulseState × Nat :=
  (m.fix, m.fixState, m.fixTimers, m.pulseState, m.filtered)

theorem fixSpeed_eq (m : Motion) :
    m.fixSpeed = if m.fixState = .current ∨ m.fixState = .stale then (m.fix.map (·.speed)).getD 0 else 0 := by
  unfold Motion.fixSpeed
  cases m.fixState <;> cases m.fix <;> rfl

theorem pulseSpeed_eq (m : Motion) : m.pulseSpeed = if m.pulseState = .silent then 0 else m.filtered := by
  unfold Motion.pulseSpeed
  cases m.pulseState <;> rfl

/-- Under settings and a motion, SPEED SILENT and a fallback are to be looked at (R37, R38). -/
def quietUnder (c : Settings) (m : Motion) : Bool :=
  decide (c.speedSource = .pulse) && decide (m.pulseState = .silent) && m.fixMoving

theorem seen_facts {m n : Motion} (h : m.seen = n.seen) (c : Settings) :
    quietUnder c m = quietUnder c n ∧ m.fixSpeed = n.fixSpeed ∧ m.pulseSpeed = n.pulseSpeed
      ∧ m.fixState = n.fixState ∧ m.fixTimers = n.fixTimers := by
  simp only [Motion.seen, Prod.mk.injEq] at h
  obtain ⟨fix, state, timers, pulse, filtered⟩ := h
  simp [quietUnder, Motion.fixMoving, fixSpeed_eq, pulseSpeed_eq, fix, state, timers, pulse, filtered]

theorem silenceDue_eq (s : State) : s.silenceDue = (quietUnder s.settings s.mot && !s.mot.silenceReported) := by
  rw [Bool.eq_iff_iff]
  simp only [State.silenceDue, quietUnder, Bool.and_eq_true, decide_eq_true_eq, Bool.not_eq_true']
  tauto

theorem fallbackDue_eq (s : State) :
    s.fallbackDue = (decide (s.mot.source = .pulse) && s.settings.fallback && quietUnder s.settings s.mot) := by
  rw [Bool.eq_iff_iff]
  simp only [State.fallbackDue, quietUnder, Bool.and_eq_true, decide_eq_true_eq]
  tauto

/-- The fallback test and its speed sample (R38, R41). -/
theorem fallbackSample_follows (s : State) : (testFallback s).follows (fallbackSample s) := by
  unfold fallbackSample
  split
  case isTrue => exact computeAll_follows _
  case isFalse h =>
    rw [testFallback, if_neg h]
    exact .refl s

/-- The tests for SPEED SILENT and fallback, one after the other (R37, R38). -/
theorem tests_eq (s : State) :
    testFallback (testSilence s) = { s with
      mot := { s.mot with
        source := if s.fallbackDue then .fix else s.mot.source
        vRef := if s.fallbackDue then s.mot.fixSpeed else s.mot.vRef
        silenceReported := s.mot.silenceReported || s.silenceDue }
      evu := (s.evu.raisedIf s.silenceDue .speedSilent).raisedIf s.fallbackDue .speedFallback } := by
  rw [testSilence_eq, testFallback_eq]
  rfl

/-- The tests, made where the pulse speed is SILENT, do nothing elsewhere. -/
theorem tests_follows (s : State) :
    (testFallback (testSilence s)).follows (if s.mot.pulseState = .silent then fallbackSample (testSilence s) else s) := by
  split
  case isTrue => exact fallbackSample_follows _
  case isFalse h =>
    have loud : quietUnder s.settings s.mot = false := by simp [quietUnder, h]
    rw [tests_eq, silenceDue_eq, fallbackDue_eq, loud]
    simp only [Bool.false_and, Bool.and_false, Bool.or_false, Bool.false_eq_true, if_false, Events.raisedIf]
    exact .refl s

/-- A state with the motion and the events it has. -/
theorem follows_unmoved {u : State} {m : Motion} {e : Events} (hm : u.mot = m) (he : u.evu = e) :
    ({ u with mot := m, evu := e } : State).follows u := by
  subst hm he
  exact .refl u

/-! ## Each changed setting acts (R46) -/

/-- The Motion Unit when the configured source becomes that of the settings, before the tests (R46). -/
def Motion.sourced (m : Motion) (c : Settings) : Motion :=
  { m with
    source := c.speedSource
    vRef := if c.speedSource = .fix then m.fixSpeed else m.pulseSpeed
    silenceReported := m.silenceReported && decide (c.speedSource = .pulse) }

/-- The Motion Unit after the tests for SPEED SILENT and fallback, as each is due (R37, R38). -/
def Motion.tested (m : Motion) (silent fell : Bool) : Motion :=
  { m with
    source := if fell then .fix else m.source
    vRef := if fell then m.fixSpeed else m.vRef
    silenceReported := m.silenceReported || silent }

/-- A new configured source takes effect with its speed sample, and then the tests are made (R37, R38, R46). -/
theorem speedSourceChanged_follows (s : State) :
    let quiet := quietUnder s.settings s.mot
    let silent := quiet && !s.mot.silenceReported
    let fell := quiet && s.settings.fallback
    ∃ u : State, ({ s with mot := s.mot.sourced s.settings } : State).follows u
      ∧ ({ u with
          mot := (s.mot.sourced s.settings).tested silent fell
          evu := (u.evu.raisedIf silent .speedSilent).raisedIf fell .speedFallback } : State).follows
        (speedSourceChanged s) := by
  intro quiet silent fell
  cases source : s.settings.speedSource with
  | fix =>
    have sourced : s.mot.sourced s.settings =
        { s.mot with source := .fix, vRef := s.mot.fixSpeed, silenceReported := false } := by
      simp [Motion.sourced, source]
    have loud : quiet = false := by simp [quiet, quietUnder, source]
    have sample : ({ s with mot := s.mot.sourced s.settings } : State).follows (speedSourceChanged s) := by
      rw [sourced, speedSourceChanged, source]
      exact computeAll_follows _
    refine ⟨speedSourceChanged s, sample, ?_⟩
    simp only [silent, fell, loud, Bool.false_and, Motion.tested, Bool.or_false, Bool.false_eq_true, if_false,
      Events.raisedIf]
    exact follows_unmoved sample.mot rfl
  | pulse =>
    have sourced : s.mot.sourced s.settings = { s.mot with source := .pulse, vRef := s.mot.pulseSpeed } := by
      simp [Motion.sourced, source]
    have sample : ({ s with mot := s.mot.sourced s.settings } : State).follows
        (speedSample s.mot.pulseSpeed (s.setMot { s.mot with source := .pulse })) := by
      rw [sourced]
      exact computeAll_follows _
    have tests := tests_follows (speedSample s.mot.pulseSpeed (s.setMot { s.mot with source := .pulse }))
    have eq : speedSourceChanged s =
        if (speedSample s.mot.pulseSpeed (s.setMot { s.mot with source := .pulse })).mot.pulseState = .silent then
          fallbackSample (testSilence (speedSample s.mot.pulseSpeed (s.setMot { s.mot with source := .pulse })))
        else speedSample s.mot.pulseSpeed (s.setMot { s.mot with source := .pulse }) := by
      rw [speedSourceChanged, source]
    rw [← eq, tests_eq] at tests
    generalize speedSample s.mot.pulseSpeed (s.setMot { s.mot with source := .pulse }) = u at sample tests
    refine ⟨u, sample, ?_⟩
    have mot : u.mot = s.mot.sourced s.settings := sample.mot
    have settings : u.settings = s.settings := sample.settings
    have seen : (s.mot.sourced s.settings).seen = s.mot.seen := rfl
    have due : u.silenceDue = silent := by
      rw [silenceDue_eq, mot, settings, (seen_facts seen _).1, sourced]
    have fall : u.fallbackDue = fell := by
      rw [fallbackDue_eq, mot, settings, (seen_facts seen _).1, sourced]
      simp [fell, quiet, Bool.and_comm]
    rw [due, fall, mot] at tests
    exact tests

/-- A changed fallback setting: turned on it makes the test of R38, and turned off it leaves a fallen-back source (R46). -/
theorem fallbackChanged_follows (s : State) :
    let falls := decide (s.settings.fallback = true ∧ s.mot.source = .pulse) && quietUnder s.settings s.mot
    let back := decide (s.settings.fallback = false ∧ s.mot.source = .fix ∧ s.settings.speedSource = .pulse)
    ({ s with
      mot := { s.mot with
        source := if falls then .fix else if back then .pulse else s.mot.source
        vRef := if falls then s.mot.fixSpeed else if back then s.mot.pulseSpeed else s.mot.vRef }
      evu := s.evu.raisedIf falls .speedFallback } : State).follows (fallbackChanged s) := by
  intro falls back
  unfold fallbackChanged
  cases on : s.settings.fallback with
  | true =>
    have due : s.fallbackDue = falls := by simp [fallbackDue_eq, falls, on]
    have stays : back = false := by simp [back, on]
    have test := fallbackSample_follows s
    rw [testFallback_eq, due] at test
    simp only [stays, Bool.false_eq_true, if_false, if_true]
    exact test
  | false =>
    have quiet : falls = false := by simp [falls, on]
    simp only [quiet, Bool.false_eq_true, if_false, Events.raisedIf]
    by_cases h : s.mot.source = .fix ∧ s.settings.speedSource = .pulse
    · have leaves : back = true := by simp [back, on, h]
      simp only [leaves, if_true, if_pos h]
      exact computeAll_follows _
    · have stays : back = false := by simp [back, on, h]
      simp only [stays, Bool.false_eq_true, if_false, if_neg h]
      exact .refl s

/-- A changed lost limit makes a STALE fix that is already that old LOST (R46). -/
theorem lostLimitChanged_follows (s : State) :
    let lost := decide (s.mot.fixState = .stale) && s.fixAged s.settings.lostLimit
    ({ s with
      mot := if lost then
          { s.mot with
            fixState := .lost, fixTimers := none, yawRef := 0, vRef := if s.mot.source = .fix then 0 else s.mot.vRef }
        else s.mot
      evu := s.evu.raisedIf lost .fixLost } : State).follows (lostLimitChanged s) := by
  intro lost
  unfold lostLimitChanged
  by_cases h : s.mot.fixState = .stale ∧ s.fixAged s.settings.lostLimit = true
  · have enters : lost = true := by simp [lost, h]
    simp only [enters, if_true, if_pos h]
    exact State.pass_follows _ _
  · have stays : lost = false := by simpa [lost] using h
    simp only [stays, Bool.false_eq_true, if_false, if_neg h]
    exact .refl s

/-! ## The settings written, one change after another (R174) -/

theorem onChange_eq {α : Type} [DecidableEq α] (old new : α) (f : State → State) (s : State) :
    onChange old new f s = if decide (old ≠ new) = true then f s else s := by
  unfold onChange
  by_cases h : old = new
  · simp [h]
  · simp [h]

@[simp] theorem State.mapRows_mot (s : State) (g : RowId → Row → Row) : (s.mapRows g).mot = s.mot := by
  rw [State.mapRows_rest]

theorem mapRows_self (s : State) : (s.mapRows fun _ w => w) = s :=
  State.ext_rows (s.mapRows_rest _) fun r => by simp

/-- The cell side's change, or none: the miss set is emptied and the previous cells are forgotten (R1). -/
theorem cellSide_step (s : State) (side : Bool) :
    (if side then cellSideChanged s else s) =
      ({ s with cst := if side then { s.cst with misses := [], incomplete := false } else s.cst } : State).mapRows
        fun _ w => if side then w.forgotCells else w := by
  cases side with
  | true => rfl
  | false => exact (mapRows_self s).symm

/-- The speed source's change with its tests, or none. -/
theorem speedSource_step {s : State} {m : Motion} {c : Settings} (hm : s.mot = m) (hc : s.settings = c) (changed : Bool) :
    let quiet := quietUnder c m
    let silent := changed && quiet && !m.silenceReported
    let fell := changed && quiet && c.fallback
    let m1 := if changed then m.sourced c else m
    ∃ u : State, ({ s with mot := m1 } : State).follows u
      ∧ ({ u with
          mot := m1.tested silent fell
          evu := (u.evu.raisedIf silent .speedSilent).raisedIf fell .speedFallback } : State).follows
        (if changed then speedSourceChanged s else s) := by
  subst hm hc
  cases changed with
  | true => simpa only [Bool.true_and, if_true] using speedSourceChanged_follows s
  | false =>
    refine ⟨s, .refl s, ?_⟩
    simp only [Bool.false_and, Bool.false_eq_true, if_false, Motion.tested, Bool.or_false, Events.raisedIf]
    exact .refl s

/-- The fallback's change, or none. -/
theorem fallback_step {s : State} {m : Motion} {c : Settings} (hm : s.mot = m) (hc : s.settings = c) (old : Bool) :
    let falls := decide (old = false ∧ c.fallback = true ∧ m.source = .pulse) && quietUnder c m
    let back := decide (old = true ∧ c.fallback = false ∧ m.source = .fix ∧ c.speedSource = .pulse)
    ({ s with
      mot := { m with
        source := if falls then .fix else if back then .pulse else m.source
        vRef := if falls then m.fixSpeed else if back then m.pulseSpeed else m.vRef }
      evu := s.evu.raisedIf falls .speedFallback } : State).follows (onChange old c.fallback fallbackChanged s) := by
  subst hm hc
  intro falls back
  have change := fallbackChanged_follows s
  unfold onChange
  by_cases h : old = s.settings.fallback
  · have no_fall : ¬ (old = false ∧ s.settings.fallback = true ∧ s.mot.source = .pulse) := by
      rintro ⟨off, on, -⟩
      simp [h, on] at off
    have no_back : ¬ (old = true ∧ s.settings.fallback = false ∧ s.mot.source = .fix
        ∧ s.settings.speedSource = .pulse) := by
      rintro ⟨on, off, -⟩
      simp [h, off] at on
    have quiet : falls = false := by simp only [falls, no_fall, decide_false, Bool.false_and]
    have stays : back = false := by simp only [back, no_back, decide_false]
    simp only [quiet, stays, Bool.false_eq_true, if_false, if_pos h, Events.raisedIf]
    exact .refl s
  · have old_eq : old = !s.settings.fallback := by simpa using Bool.eq_not_of_ne h
    have falls_eq : falls = (decide (s.settings.fallback = true ∧ s.mot.source = .pulse)
        && quietUnder s.settings s.mot) := by simp [falls, old_eq]
    have back_eq : back = decide (s.settings.fallback = false ∧ s.mot.source = .fix ∧ s.settings.speedSource = .pulse) := by
      simp [back, old_eq]
    rw [if_neg h, falls_eq, back_eq]
    exact change

/-- The lost limit's change, or none. -/
theorem lostLimit_step {s : State} {m : Motion} {c : Settings} {now : Nat} (hm : s.mot = m) (hc : s.settings = c)
    (hn : s.now = now) (old : Nat) :
    let lost := decide (old ≠ c.lostLimit ∧ m.fixState = .stale)
      && m.fixTimers.any fun t => decide (t + c.lostLimit ≤ now)
    ({ s with
      mot := if lost then
          { m with fixState := .lost, fixTimers := none, yawRef := 0, vRef := if m.source = .fix then 0 else m.vRef }
        else m
      evu := s.evu.raisedIf lost .fixLost } : State).follows (onChange old c.lostLimit lostLimitChanged s) := by
  subst hm hc hn
  intro lost
  have change := lostLimitChanged_follows s
  unfold onChange
  by_cases h : old = s.settings.lostLimit
  · have stays : lost = false := by simp [lost, h]
    simp only [stays, Bool.false_eq_true, if_false, if_pos h]
    exact .refl s
  · have lost_eq : lost = (decide (s.mot.fixState = .stale) && s.fixAged s.settings.lostLimit) := by
      simp [lost, h, State.fixAged]
    rw [if_neg h, lost_eq]
    exact change

theorem decisions_step {α : Type} [DecidableEq α] (old new : α) (s : State) : s.follows (onChange old new decideAll s) := by
  unfold onChange
  split
  · exact .refl s
  · exact decideAll_follows s

/-! ## O55 -/

/-- SETI past its length and its mode, with a field outside its range (R174). -/
theorem setImplement_badField {p : List Byte} {s : State} {x : Nat} (hl : p.length = 26) (hm : s.cmu.mode = .idle)
    (hb : setiBadField (fieldsOf setiWidths p) = some x) : setImplement p s = s.complete (.badField x) := by
  unfold setImplement
  rw [if_neg (not_not.mpr hl), if_neg (not_not.mpr hm)]
  dsimp only
  rw [hb]

/-- SETI past its length, its mode and its fields: another cell side is for an empty store (R1, R174). -/
theorem setImplement_inRange {p : List Byte} {s : State} (hl : p.length = 26) (hm : s.cmu.mode = .idle)
    (hf : (setiFits p).all id = true) :
    setImplement p s =
      if (setiSettings p).cellSide ≠ s.settings.cellSide ∧ s.cst.records ≠ [] then s.complete (.plain .storeNotEmpty)
      else (applySettings (setiSettings p) s).complete (.plain .ok) := by
  unfold setImplement
  rw [if_neg (not_not.mpr hl), if_neg (not_not.mpr hm)]
  dsimp only
  rw [setiBadField_of_all hf, settingsOf_fields hf]

/-- Settles O55, by the settings' changes one after another. -/
theorem setImplementAppliesItsSettings : Obligations.SetImplementAppliesItsSettings := by
  intro c s ht hl b p fits o n
  have seti : exec (.seti c) s = .next (setImplement p b) := congrArg Host.Outcome.next (takeCommand_taken ht)
  refine ⟨fun hm => ?_, fun hm x hx hy => ?_, fun hm hf => ⟨fun hs hr => ?_, fun hs => ?_⟩⟩
  · rw [seti, setImplement, if_neg (not_not.mpr hl), if_pos (show b.cmu.mode ≠ .idle from hm)]
  · rw [seti, setImplement_badField (s := b) hl hm (setiBadField_of_first hx hy)]
  · rw [seti, setImplement_inRange (s := b) hl hm hf]
    exact congrArg Host.Outcome.next (if_pos ⟨hs, hr⟩)
  · have taken : exec (.seti c) s = .next
        ((onChange (o.lossPolicy, o.seedOverlap, o.fertOverlap) (n.lossPolicy, n.seedOverlap, n.fertOverlap) decideAll
          (onChange o.lostLimit n.lostLimit lostLimitChanged
            (onChange o.fallback n.fallback fallbackChanged
              (onChange o.speedSource n.speedSource speedSourceChanged
                (onChange o.cellSide n.cellSide cellSideChanged
                  ((b.setSettings n).setCmu { b.cmu with settingsValid := true })))))).complete (.plain .ok)) := by
      rw [seti, setImplement_inRange (s := b) hl hm hf]
      exact congrArg Host.Outcome.next (if_neg (by rintro ⟨g, r⟩; exact hs.elim g r))
    intro m side moving quiet pulseSpeed fixSpeed changed silent fell m1 m2 falls back m3 lost m4 a
    have fixSpeed_def : m.fixSpeed = fixSpeed := fixSpeed_eq m
    have pulseSpeed_def : m.pulseSpeed = pulseSpeed := pulseSpeed_eq m
    have quiet_def : quietUnder n m = quiet := rfl
    have cells : onChange o.cellSide n.cellSide cellSideChanged
        ((b.setSettings n).setCmu { b.cmu with settingsValid := true }) = a := by
      rw [onChange_eq]
      exact cellSide_step _ side
    have a_mot : a.mot = m := State.mapRows_mot _ _
    have a_settings : a.settings = n := State.mapRows_settings _ _
    have a_now : a.now = s.now := State.mapRows_now _ _
    clear_value a
    have m1_def : (if changed then m.sourced n else m) = m1 := by
      rw [Motion.sourced, fixSpeed_def, pulseSpeed_def]
    have seen1 : m1.seen = m.seen := by
      rw [← m1_def]
      split <;> rfl
    have seen2 : m2.seen = m.seen := seen1
    obtain ⟨quiet2, fixSpeed2, pulseSpeed2, same2⟩ := seen_facts seen2 n
    have m2_def : m1.tested (changed && quiet && !m.silenceReported) (changed && quiet && n.fallback) = m2 := by
      rw [Motion.tested, (seen_facts seen1 n).2.1, fixSpeed_def]
    obtain ⟨u1, f1, f2⟩ := speedSource_step a_mot a_settings changed
    rw [m1_def] at f1 f2
    rw [quiet_def, m2_def, ← onChange_eq] at f2
    rw [cells] at taken
    generalize onChange o.speedSource n.speedSource speedSourceChanged a = u2 at f2 taken
    have u2_settings : u2.settings = n := f2.settings.trans (f1.settings.trans a_settings)
    have u2_now : u2.now = s.now := f2.now.trans (f1.now.trans a_now)
    have f3 := fallback_step f2.mot u2_settings o.fallback
    rw [quiet2, quiet_def, fixSpeed2, fixSpeed_def, pulseSpeed2, pulseSpeed_def] at f3
    generalize onChange o.fallback n.fallback fallbackChanged u2 = u3 at f3 taken
    have lost_def : (decide (o.lostLimit ≠ n.lostLimit ∧ m3.fixState = .stale)
        && m3.fixTimers.any fun t => decide (t + n.lostLimit ≤ s.now)) = lost := by
      obtain ⟨state3, timers3⟩ : m3.fixState = m.fixState ∧ m3.fixTimers = m.fixTimers := same2
      rw [state3, timers3]
    have f4 := lostLimit_step (m := m3) f3.mot (f3.settings.trans u2_settings) (f3.now.trans u2_now) o.lostLimit
    rw [lost_def] at f4
    generalize onChange o.lostLimit n.lostLimit lostLimitChanged u3 = u4 at f4 taken
    exact ⟨u1, u2, u3, u4, _, f1, f2, f3, f4, decisions_step _ _ u4, taken⟩

end Sys2Proof.Machine
end

section
/-! The settlement of O24: the speed filter. -/

namespace Sys2Proof.Machine

/-! ## O24 -/

/-- A quotient of an integer by a natural number, truncated, is that of the rationals. -/
theorem truncated_intDiv (a : Int) (b : Nat) : truncated ((a : ℚ) / b) = a.tdiv b := by
  unfold truncated
  rcases Nat.eq_zero_or_pos b with rfl | hb
  · simp
  have hq : (0 : ℚ) < b := Nat.cast_pos.mpr hb
  by_cases ha : 0 ≤ a
  · rw [if_pos (by positivity), Rat.floor_intCast_div_natCast, Int.tdiv_eq_ediv_of_nonneg ha]
  · have neg : ¬ (0 : ℚ) ≤ (a : ℚ) / b := by
      rw [le_div_iff₀ hq, zero_mul, Int.cast_nonneg_iff]
      exact ha
    have opposite : 0 ≤ -a := by omega
    rw [if_neg neg, Rat.ceil_intCast_div_natCast, ← Int.tdiv_eq_ediv_of_nonneg opposite, Int.neg_tdiv, neg_neg]

theorem rawSpeed_eq (pulses k : Nat) :
    (rawSpeed pulses k : Int) = min 10000 (truncated ((pulses : ℚ) * 1000000 / k)) := by
  have quotient := truncated_natDiv (pulses * 1000000) k
  push_cast at quotient
  rw [quotient]
  simp [rawSpeed]

theorem SpeedFilter.divisor_pos (flt : SpeedFilter) : 0 < flt.divisor := by
  cases flt <;> decide

/-- The filter's step goes from the filtered speed toward the raw speed, by at least one and not past it (R35). -/
theorem filterStep_bounds (flt : SpeedFilter) (raw old : Nat) :
    let step := filterStep flt raw old
    (old < raw → 1 ≤ step ∧ step ≤ (raw : Int) - old)
      ∧ (raw < old → (raw : Int) - old ≤ step ∧ step ≤ -1)
      ∧ (raw = old → step = 0) := by
  unfold filterStep
  dsimp only
  generalize hd : (raw : Int) - old = d
  have le_d : 0 ≤ d → 0 ≤ d.tdiv flt.divisor ∧ d.tdiv flt.divisor ≤ d := fun h =>
    ⟨Int.tdiv_nonneg h flt.divisor_pos.le, Int.tdiv_le_self _ h⟩
  have d_le : d ≤ 0 → d ≤ d.tdiv flt.divisor ∧ d.tdiv flt.divisor ≤ 0 := fun h => by
    have low := Int.tdiv_nonneg (a := -d) (by omega) flt.divisor_pos.le
    have high := Int.tdiv_le_self flt.divisor (a := -d) (by omega)
    rw [Int.neg_tdiv] at low high
    omega
  split <;> omega

/-- The step is the truncated quotient, wherever that is not 0 (R35). -/
theorem filterStep_of_ne {flt : SpeedFilter} {raw old : Nat} (h : ((raw : Int) - old).tdiv flt.divisor ≠ 0) :
    filterStep flt raw old = ((raw : Int) - old).tdiv flt.divisor := if_neg h

/-- The step is one toward the raw speed, where the truncated quotient is 0 (R35). -/
theorem filterStep_of_eq_zero {flt : SpeedFilter} {raw old : Nat} (h : ((raw : Int) - old).tdiv flt.divisor = 0) :
    filterStep flt raw old = if old < raw then 1 else if raw < old then -1 else 0 := by
  unfold filterStep
  simp only [if_pos h, sub_pos, sub_neg, Nat.cast_lt]

/-- With the filter off the step is the whole difference. -/
theorem filterStep_off (raw old : Nat) : filterStep .off raw old = (raw : Int) - old := by
  have whole : ((raw : Int) - old).tdiv SpeedFilter.off.divisor = (raw : Int) - old := Int.tdiv_one _
  by_cases h : (raw : Int) - old = 0
  · obtain ⟨-, -, same⟩ := filterStep_bounds .off raw old
    rw [h]
    exact same (by omega)
  · rw [filterStep_of_ne (whole.symm ▸ h), whole]

/-- The filtered speed never falls below 0: the step does not pass the raw speed. -/
theorem filteredAfter_eq (flt : SpeedFilter) (raw old : Nat) :
    (filteredAfter flt raw old : Int) = old + filterStep flt raw old := by
  obtain ⟨up, down, same⟩ := filterStep_bounds flt raw old
  unfold filteredAfter
  omega

theorem truncated_step {flt : SpeedFilter} (h : flt ≠ .off) (raw old : Nat) :
    truncated (((raw : ℚ) - old) / (if flt = .light then 2 else 8)) = ((raw : Int) - old).tdiv flt.divisor := by
  have quotient (n : Nat) := truncated_intDiv ((raw : Int) - old) n
  push_cast at quotient
  cases flt with
  | off => exact absurd rfl h
  | light => exact quotient 2
  | heavy => exact quotient 8

/-- Settles O24: the new speed is the old one with the filter's step, which the raw speed bounds. -/
theorem speedFilterMovesTowardTheRawSpeed : Obligations.SpeedFilterMovesTowardTheRawSpeed := by
  intro pulses k old flt _ raw new
  have moved : (new : Int) = old + filterStep flt raw old := filteredAfter_eq flt raw old
  obtain ⟨up, down, same⟩ := filterStep_bounds flt raw old
  refine ⟨rawSpeed_eq pulses k, fun off => ?_, fun on => ?_, fun h => by omega, fun h => by omega⟩
  · rw [off, filterStep_off] at moved
    omega
  · intro step
    have step_eq : step = ((raw : Int) - old).tdiv flt.divisor := truncated_step on raw old
    rw [step_eq]
    refine ⟨fun h => ?_, fun h lt => ?_, fun h lt => ?_, fun eq => by omega⟩
    · rw [moved, filterStep_of_ne h]
    · rw [filterStep_of_eq_zero h, if_pos lt] at moved
      omega
    · rw [filterStep_of_eq_zero h, if_neg (by omega), if_pos lt] at moved
      omega

end Sys2Proof.Machine
end

section
/-! The settlement of O10: the reset pin. -/

namespace Sys2Proof.Machine

/-! ## O10 -/

theorem takeCommand_inReset {code : BitVec 5} {c : Cmd} {run : List Byte → State → State} {s : State}
    (h : s.inReset = true) : takeCommand code c run s = s :=
  arrive_inReset h

theorem takeAlways_inReset {code : BitVec 5} {c : Cmd} {run : List Byte → State → State} {s : State}
    (h : s.inReset = true) : takeAlways code c run s = s :=
  arrive_inReset h

/-- While the reset pin is asserted, a command that neither moves it nor is an event of an input pin does nothing (R178). -/
theorem exec_inReset {i : Instr} {s : State} (h : s.inReset = true) (assert : i ≠ .powerOnResetAssert)
    (release : i ≠ .powerOnResetRelease) (level : ∀ l, i ≠ .workSwitchLevelChange l) (seed : ∀ r, i ≠ .sensedSeed r)
    (clear : ∀ r, i ≠ .occlusionEnd r) : exec i s = .next s := by
  cases i with
  | powerOnResetAssert => exact absurd rfl assert
  | powerOnResetRelease => exact absurd rfl release
  | workSwitchLevelChange l => exact absurd rfl (level l)
  | sensedSeed r => exact absurd rfl (seed r)
  | occlusionEnd r => exact absurd rfl (clear r)
  | statusFrame _ | fixFrame _ | dataFrame _ | fetchFrame _ _ => exact congrArg Host.Outcome.next (arrive_inReset h)
  | malformedFrame _ | staleTimerExpiry | lostTimerExpiry | groundSpeedPulse | speedWindowEnd | workSwitchChange
  | holeEvent _ | occlusionTimerExpiry _ | entryExpiry _ | stallTimerExpiry _ | syntheticHoleEvent _
  | syntheticSensedSeed _ | conversionComplete _ | dataTimeout | scbReadStep =>
    exact congrArg Host.Outcome.next (whenReleased_inReset h)
  | abrt _ | rstr _ => exact congrArg Host.Outcome.next (takeAlways_inReset h)
  | _ => exact congrArg Host.Outcome.next (takeCommand_inReset h)

/-- Asserting the pin silences the rows, the link and the attention line, and leaves the rest (R178). -/
theorem assertReset_eq (s : State) :
    assertReset s = { s.mapRows fun _ => Row.silenced with
      inReset := true
      lnk := { s.lnk with assembly := [], dataOut := [] }
      evu := { s.evu with attention := false } } := by
  unfold assertReset
  rw [State.mapRows_rest]
  rfl

/-- Settles O10: an event of an input pin sets its level, and every other command is held (R178). -/
theorem resetPinHoldsThePart : Obligations.ResetPinHoldsThePart := by
  refine ⟨fun s => ⟨congrArg Host.Outcome.next (assertReset_eq s), rfl⟩, fun i s h assert release => ?_⟩
  cases i with
  | workSwitchLevelChange level => exact congrArg Host.Outcome.next (if_pos h)
  | sensedSeed r => exact congrArg Host.Outcome.next (if_pos (.inl h))
  | occlusionEnd r => exact congrArg Host.Outcome.next (if_pos (.inl h))
  | _ => exact exec_inReset h assert release (by simp) (by simp) (by simp)

end Sys2Proof.Machine
end

section
/-! The settlements of O45, O47 and O48: rejected fixes, the fix timers and the speed windows. -/

namespace Sys2Proof.Machine

/-! ## O45 -/

/-- Settles O45: a fix that is rejected raises the event alone. -/
theorem badFixesAreRejected : Obligations.BadFixesAreRejected := by
  intro f s ht x hE hN bad
  have rejected : x.rejected = true := (rejected_iff x).mpr bad
  rw [exec_fixFrame ht]
  exact congrArg Host.Outcome.next (if_pos rejected)

/-! ## O47 -/

theorem fixAged_iff (s : State) (ms : Nat) :
    s.fixAged ms = true ↔ ∃ t0, s.mot.fixTimers = some t0 ∧ t0 + ms ≤ s.now := by
  simp [State.fixAged, Option.any_eq_true]

/-- The stale timer acts on a CURRENT fix of its age, and else does nothing (R31). -/
theorem exec_staleTimerExpiry {s : State} (h : s.inReset = false) :
    exec .staleTimerExpiry s = .next (if s.mot.fixState = .current ∧ s.fixAged 1000 = true then enterStale s else s) :=
  congrArg Host.Outcome.next (whenReleased_released h)

/-- The lost timer acts on a STALE fix of the lost limit's age, and else does nothing (R31). -/
theorem exec_lostTimerExpiry {s : State} (h : s.inReset = false) :
    exec .lostTimerExpiry s = .next
      (if s.mot.fixState = .stale ∧ s.fixAged s.settings.lostLimit = true then enterLost s else s) :=
  congrArg Host.Outcome.next (whenReleased_released h)

/-- Settles O47, by whether each timer finds the fix in its state and old enough. -/
theorem fixTimersAgeTheFix : Obligations.FixTimersAgeTheFix := by
  intro s hr aged
  rw [exec_staleTimerExpiry hr, exec_lostTimerExpiry hr]
  simp only [fixAged_iff]
  refine ⟨fun current old => ?_, fun early => ?_, fun stale old => ?_, fun early => ?_⟩
  · rw [if_pos (And.intro current old)]
    rfl
  · rw [if_neg (not_and_or.mpr early)]
  · rw [if_pos (And.intro stale old)]
    exact ⟨_, State.pass_follows _ _, rfl⟩
  · rw [if_neg (not_and_or.mpr early)]

/-! ## O48 -/

/-- A speed window's end before its moment does nothing; at its moment the window closes (R34). -/
theorem exec_speedWindowEnd {s : State} (h : s.inReset = false) :
    exec .speedWindowEnd s = .next (if s.mot.windowStart + 100 ≤ s.now then closeWindow s else s) :=
  congrArg Host.Outcome.next (whenReleased_released h)

/-- The Motion Unit after the return test: a fallen-back source goes back to PULSE (R39). -/
def Motion.returned (m : Motion) (c : Settings) : Motion :=
  { m with source := if m.source = .fix ∧ c.speedSource = .pulse ∧ 2 ≤ m.pulseRun then .pulse else m.source }

/-- The Motion Unit after the sample at a window's end: a source of PULSE gives the reference speed (R40, R41). -/
def Motion.sampled (m : Motion) : Motion :=
  { m with vRef := if m.source = .pulse then m.pulseSpeed else m.vRef }

theorem returnTest_eq (s : State) : returnTest s = s.setMot (s.mot.returned s.settings) := by
  unfold returnTest Motion.returned
  split <;> rfl

/-- The sample sets the reference speed, and beyond it computes the rows or does nothing (R41). -/
theorem windowSample_follows (was : SpeedSource) (s : State) : (s.setMot s.mot.sampled).follows (windowSample was s) := by
  unfold windowSample Motion.sampled
  by_cases pulse : s.mot.source = .pulse
  · simp only [if_pos pulse]
    exact computeAll_follows _
  · simp only [if_neg pulse]
    split
    · exact computeAll_follows s
    · exact .refl s

/-- A window that closes with pulses: the filter's step, the return test and the sample (R34 to R36, R39). -/
theorem closeWindow_pulses {s : State} (h : 0 < s.mot.pulses) :
    (s.setMot ((s.mot.windowWithPulses s.settings).returned s.settings).sampled).follows (closeWindow s) := by
  have close : closeWindow s =
      windowSample s.mot.source (returnTest (s.setMot (s.mot.windowWithPulses s.settings))) := if_pos h
  rw [close, returnTest_eq]
  exact windowSample_follows _ _

/-- The motion that a window with pulses leaves (R34 to R36, R39, R40). -/
theorem motion_pulses (m : Motion) (c : Settings) :
    let filtered :=
      filteredAfter c.filter (rawSpeed m.pulses c.pulsesPer100m) (if m.pulseState = .silent then 0 else m.filtered)
    let run := min 65535 (m.pulseRun + 1)
    let source := if m.source = .fix ∧ c.speedSource = .pulse ∧ 2 ≤ run then .pulse else m.source
    ((m.windowWithPulses c).returned c).sampled = { m with
      pulses := 0
      windowStart := m.windowStart + 100
      filtered := filtered
      pulseState := .active
      zeroRun := 0
      pulseRun := run
      silenceReported := m.silenceReported && decide (m.pulseState ≠ .silent)
      source := source
      vRef := if source = .pulse then filtered else m.vRef } := by
  intro filtered run source
  have reported : (if m.pulseState = .silent then false else m.silenceReported)
      = (m.silenceReported && decide (m.pulseState ≠ .silent)) := by
    by_cases silent : m.pulseState = .silent <;> simp [silent]
  rw [← reported]
  rfl

/-- A window without pulses brings SILENT once the zero-pulse run reaches the hold time (R37). -/
theorem entersSilent_eq (m : Motion) (c : Settings) :
    m.entersSilent c = decide (m.pulseState ≠ .silent ∧ c.holdTime ≤ m.zeroRunAfter * 100) :=
  (Bool.decide_and _ _).symm

theorem fixMoving_iff (m : Motion) :
    m.fixMoving = true ↔ m.fixState = .current ∧ ∃ f, m.fix = some f ∧ 300 ≤ f.speed := by
  simp [Motion.fixMoving, Option.any_eq_true]

/-- A window without pulses brings SILENT on a moving machine, where SPEED SILENT and a fallback are to be looked at (R37,
R38). -/
def Motion.quietAtEnd (m : Motion) (c : Settings) : Bool :=
  m.entersSilent c && decide (c.speedSource = .pulse) && m.fixMoving

/-- The tests at the end of a window without pulses, made at entry to SILENT alone (R37, R38). -/
theorem entryTests_eq (s : State) :
    let t := s.setMot (s.mot.windowWithoutPulses s.settings)
    let quiet := s.mot.quietAtEnd s.settings
    let silent := quiet && !s.mot.silenceReported
    let fall := decide (s.mot.source = .pulse) && s.settings.fallback && quiet
    (if s.mot.entersSilent s.settings then testFallback (testSilence t) else t) = { s with
      mot := (s.mot.windowWithoutPulses s.settings).tested silent fall
      evu := (s.evu.raisedIf silent .speedSilent).raisedIf fall .speedFallback } := by
  intro t quiet silent fall
  cases enters : s.mot.entersSilent s.settings with
  | false =>
    have loud : quiet = false := by simp [quiet, Motion.quietAtEnd, enters]
    simp only [silent, fall, loud, Bool.false_and, Bool.and_false, Bool.false_eq_true, if_false, Motion.tested,
      Bool.or_false, Events.raisedIf]
    rfl
  | true =>
    have state : t.mot.pulseState = .silent := by simp [t, Motion.windowWithoutPulses, enters]
    have under : quietUnder t.settings t.mot = quiet := by
      simp only [quietUnder, state, decide_true, Bool.and_true, quiet, Motion.quietAtEnd, enters, Bool.true_and]
      rfl
    have silence : t.silenceDue = silent := by
      rw [silenceDue_eq, under]
      rfl
    have falls : t.fallbackDue = fall := by
      rw [fallbackDue_eq, under]
      rfl
    rw [if_pos rfl, tests_eq, silence, falls]
    rfl

/-- A window that closes without pulses: the tests at entry to SILENT, and the sample (R36 to R38). -/
theorem closeWindow_noPulses {s : State} (h : s.mot.pulses = 0) :
    let quiet := s.mot.quietAtEnd s.settings
    let silent := quiet && !s.mot.silenceReported
    let fall := decide (s.mot.source = .pulse) && s.settings.fallback && quiet
    ({ s with
      mot := ((s.mot.windowWithoutPulses s.settings).tested silent fall).sampled
      evu := (s.evu.raisedIf silent .speedSilent).raisedIf fall .speedFallback } : State).follows (closeWindow s) := by
  intro quiet silent fall
  have close : closeWindow s = windowSample s.mot.source
      (if s.mot.entersSilent s.settings then testFallback (testSilence (s.setMot (s.mot.windowWithoutPulses s.settings)))
        else s.setMot (s.mot.windowWithoutPulses s.settings)) := if_neg (by omega)
  rw [close, entryTests_eq]
  exact windowSample_follows _ _

/-- The pulse speed state after a window without pulses (R36, R37). -/
theorem pulseState_noPulses (m : Motion) (c : Settings) :
    (m.windowWithoutPulses c).pulseState =
      if m.pulseState = .silent ∨ m.entersSilent c = true then .silent else .holding :=
  (ite_or ..).symm

/-- The pulse speed after a window without pulses: the held speed, or 0 in SILENT (R36). -/
theorem pulseSpeed_noPulses (m : Motion) (c : Settings) :
    (m.windowWithoutPulses c).pulseSpeed =
      if m.pulseState = .silent ∨ m.entersSilent c = true then 0 else m.filtered := by
  rw [pulseSpeed_eq, pulseState_noPulses]
  by_cases h : m.pulseState = .silent ∨ m.entersSilent c = true
  · rw [if_pos h, if_pos h, if_pos rfl]
  · rw [if_neg h, if_neg h, if_neg (by decide)]
    exact if_neg fun enters => h (.inr enters)

/-- The reference speed after a window without pulses: the fix speed at a fallback, and else under a source of PULSE the
pulse speed (R38, R40). -/
theorem vRef_noPulses (m : Motion) (c : Settings) (silent : Bool) {fall : Bool}
    (current : fall = true → m.fixState = .current) :
    ((m.windowWithoutPulses c).tested silent fall).sampled.vRef =
      if fall then (m.fix.map (·.speed)).getD 0
      else if m.source = .fix then m.vRef
      else (m.windowWithoutPulses c).pulseSpeed := by
  cases fall with
  | true => exact (fixSpeed_eq (m.windowWithoutPulses c)).trans (if_pos (.inl (current rfl)))
  | false =>
    have sample : ((m.windowWithoutPulses c).tested silent false).sampled.vRef =
        if m.source = .pulse then (m.windowWithoutPulses c).pulseSpeed else m.vRef := rfl
    rw [sample]
    cases m.source with
    | fix => rfl
    | pulse => rfl

/-- The motion that a window without pulses leaves (R36 to R38, R40). -/
theorem motion_noPulses (m : Motion) (c : Settings) (silent : Bool) {fall : Bool}
    (current : fall = true → m.fixState = .current) :
    ((m.windowWithoutPulses c).tested silent fall).sampled = { m with
      pulses := 0
      windowStart := m.windowStart + 100
      filtered := if m.entersSilent c = true then 0 else m.filtered
      pulseState := if m.pulseState = .silent ∨ m.entersSilent c = true then .silent else .holding
      zeroRun := m.zeroRunAfter
      pulseRun := 0
      silenceReported := m.silenceReported || silent
      source := if fall then .fix else m.source
      vRef :=
        if fall then (m.fix.map (·.speed)).getD 0
        else if m.source = .fix then m.vRef
        else if m.pulseState = .silent ∨ m.entersSilent c = true then 0 else m.filtered } := by
  rw [← pulseSpeed_noPulses, ← vRef_noPulses m c silent current, ← pulseState_noPulses]
  rfl

/-- Settles O48, by whether the window has pulses, and then by whether it brings SILENT. -/
theorem speedWindowsStepOrHoldTheSpeed : Obligations.SpeedWindowsStepOrHoldTheSpeed := by
  refine ⟨fun s hr => ?_, fun s hr ended empty => ?_⟩
  · intro m c
    refine ⟨congrArg Host.Outcome.next (whenReleased_released hr), fun early => ?_, fun ended pulses => ?_⟩
    · rw [exec_speedWindowEnd hr, if_neg (Nat.not_le.mpr early)]
    · intro filtered run source
      rw [exec_speedWindowEnd hr, if_pos ended]
      have closes := closeWindow_pulses pulses
      rw [motion_pulses] at closes
      exact ⟨_, closes, rfl⟩
  · intro m c zeroRun enters moving silent fall silentB fallB hs hf
    rw [exec_speedWindowEnd hr, if_pos ended]
    have closes := closeWindow_noPulses empty
    have enters_iff : m.entersSilent c = true ↔ enters := by
      rw [entersSilent_eq, decide_eq_true_eq]
      exact Iff.rfl
    have silent_eq : (m.quietAtEnd c && !m.silenceReported) = silentB := by
      rw [Bool.eq_iff_iff, hs]
      simp only [Motion.quietAtEnd, Bool.and_eq_true, Bool.not_eq_true', decide_eq_true_eq, fixMoving_iff, enters_iff]
      exact ⟨fun ⟨⟨⟨e, p⟩, f⟩, r⟩ => ⟨e, f, p, r⟩, fun ⟨e, f, p, r⟩ => ⟨⟨⟨e, p⟩, f⟩, r⟩⟩
    have fall_eq : (decide (m.source = .pulse) && c.fallback && m.quietAtEnd c) = fallB := by
      rw [Bool.eq_iff_iff, hf]
      simp only [Motion.quietAtEnd, Bool.and_eq_true, decide_eq_true_eq, fixMoving_iff, enters_iff]
      exact ⟨fun ⟨⟨x, on⟩, ⟨e, p⟩, f⟩ => ⟨e, f, p, x, on⟩, fun ⟨e, f, p, x, on⟩ => ⟨⟨x, on⟩, ⟨e, p⟩, f⟩⟩
    have current (h : fallB = true) : m.fixState = .current := by
      obtain ⟨-, ⟨state, -⟩, -⟩ := hf.mp h
      exact state
    have motion := motion_noPulses m c silentB current
    simp only [enters_iff] at motion
    refine ⟨closeWindow s, ?_, rfl⟩
    dsimp only at closes
    rw [silent_eq, fall_eq, motion] at closes
    exact closes

end Sys2Proof.Machine
end

section
/-! A row in agreement with its inputs, part by part: what a pass makes anew, and what it leaves as it was. -/

namespace Sys2Proof.Machine

/-! ## The parts of a row (R59, R64, R85) -/

/-- The parts of a row that a pass names agree with their inputs: the lane views with what the store holds, the results
with a computation, the lanes' states with a decision. -/
structure State.agrees (s : State) (x : Pass) (w : Row) : Prop where
  seedView : x.seedView = true → w.seed.view = s.viewAt .seed w.seed.point
  fertView : x.fertView = true → ∀ l, w.fert = some l → l.view = s.viewAt .fert l.look
  compute : x.compute = true → w.computed s.mot.vRef s.mot.yawRef = w
  seedDecide : x.seedDecide = true → ∀ y, w.seed.state = .lane y → y = s.decided w.ctx.enabled .seed w.seed.view
  fertDecide : x.fertDecide = true → ∀ l, w.fert = some l → l.state = s.decided w.ctx.enabled .fert l.view

/-- The views and the results, and the decisions too where `d` says so. -/
def Pass.upTo (d : Bool) : Pass :=
  ⟨true, true, true, d, d⟩

/-- Every row's views and results agree with their inputs, and where `d` says so its decisions. -/
def State.upToDate (s : State) (d : Bool) : Prop :=
  ∀ r w, s.row r = some w → s.agrees (.upTo d) w

/-- Every row agrees with its inputs where each of its five parts does. -/
theorem current_iff (s : State) : s.current ↔ s.upToDate true := by
  constructor
  · intro h r w hw
    obtain ⟨results, view, state, fert⟩ := h r w hw
    exact ⟨fun _ => view, fun _ l hl => (fert l hl).1, fun _ => results, fun _ => state, fun _ l hl => (fert l hl).2⟩
  · intro h r w hw
    have a := h r w hw
    exact ⟨a.compute rfl, a.seedView rfl, a.seedDecide rfl, fun l hl => ⟨a.fertView rfl l hl, a.fertDecide rfl l hl⟩⟩

/-- The parts named by one pass are among those named by another. -/
def Pass.within (x y : Pass) : Bool :=
  (!x.seedView || y.seedView) && (!x.fertView || y.fertView) && (!x.compute || y.compute)
    && (!x.seedDecide || y.seedDecide) && (!x.fertDecide || y.fertDecide)

theorem State.agrees.mono {s : State} {x y : Pass} {w : Row} (h : s.agrees y w) (hx : x.within y = true) :
    s.agrees x w := by
  simp only [Pass.within, Bool.and_eq_true, Bool.or_eq_true, Bool.not_eq_true'] at hx
  obtain ⟨⟨⟨⟨sv, fv⟩, c⟩, sd⟩, fd⟩ := hx
  have named {a b : Bool} (hab : a = false ∨ b = true) (ha : a = true) : b = true := by
    rcases hab with hab | hab
    · rw [hab] at ha; cases ha
    · exact hab
  exact ⟨h.seedView ∘ named sv, h.fertView ∘ named fv, h.compute ∘ named c, h.seedDecide ∘ named sd,
    h.fertDecide ∘ named fd⟩

/-- A row's results are those of a computation where the row speed and each lane's results are. -/
theorem computed_iff (w : Row) (v : Nat) (yaw : Int) :
    w.computed v yaw = w ↔ w.vr = rowSpeed v yaw w.ctx.lat ∧ w.seed.computed w.ctx w.vr = w.seed
      ∧ ∀ l, w.fert = some l → l.computed w.ctx w.vr = l := by
  constructor
  · intro h
    have speed : rowSpeed v yaw w.ctx.lat = w.vr := congrArg (·.vr) h
    have seed : w.seed.computed w.ctx (rowSpeed v yaw w.ctx.lat) = w.seed := congrArg (·.seed) h
    have fert : w.fert.map (·.computed w.ctx (rowSpeed v yaw w.ctx.lat)) = w.fert := congrArg (·.fert) h
    rw [speed] at seed fert
    refine ⟨speed.symm, seed, fun l hl => ?_⟩
    rw [hl] at fert
    exact Option.some.inj fert
  · rintro ⟨speed, seed, fert⟩
    have lanes : w.fert.map (·.computed w.ctx w.vr) = w.fert := by
      cases hf : w.fert with
      | none => rfl
      | some l => exact congrArg some (fert l hf)
    show { w with vr := _, seed := _, fert := _ } = w
    rw [← speed, seed, lanes]

/-! ## What each part of a pass leaves (R58, R60, R65, R89) -/

section
variable {s : State} {x : Pass} {w : Row} (h : s.agrees x w)
include h

theorem agrees_viewed_seed :
    s.agrees { x with seedView := true, compute := false, seedDecide := false } (s.viewed .seed w) :=
  ⟨fun _ => rfl, h.fertView, nofun, nofun, h.fertDecide⟩

theorem agrees_viewed_fert :
    s.agrees { x with fertView := true, compute := false, fertDecide := false } (s.viewed .fert w) := by
  refine ⟨h.seedView, fun _ l hl => ?_, nofun, h.seedDecide, nofun⟩
  obtain ⟨m, hm, rfl⟩ := Option.map_eq_some_iff.mp hl
  have point : w.point .fert = m.look := by rw [Row.point, hm]; rfl
  exact congrArg (s.viewAt .fert) point

theorem agrees_computed : s.agrees { x with compute := true } (w.computed s.mot.vRef s.mot.yawRef) := by
  refine ⟨h.seedView, fun a l hl => ?_, fun _ => ?_, h.seedDecide, fun a l hl => ?_⟩
  · obtain ⟨m, hm, rfl⟩ := Option.map_eq_some_iff.mp hl
    exact h.fertView a m hm
  · refine (computed_iff _ _ _).mpr ⟨rfl, rfl, fun l hl => ?_⟩
    obtain ⟨m, -, rfl⟩ := Option.map_eq_some_iff.mp hl
    rfl
  · obtain ⟨m, hm, rfl⟩ := Option.map_eq_some_iff.mp hl
    exact h.fertDecide a m hm

/-- A change of the seed lane's state alone, where the decision is the one to be made. -/
theorem agrees_seedState {y : SeedState}
    (hy : ∀ z, y = .lane z → z = s.decided w.ctx.enabled .seed w.seed.view) :
    s.agrees { x with seedDecide := true } { w with seed := { w.seed with state := y } } := by
  refine ⟨h.seedView, h.fertView, fun a => ?_, fun _ => hy, h.fertDecide⟩
  obtain ⟨speed, seed, fert⟩ := (computed_iff _ _ _).mp (h.compute a)
  exact (computed_iff _ _ _).mpr ⟨speed, congrArg (fun l => { l with state := y }) seed, fert⟩

theorem agrees_redecided_seed : s.agrees { x with seedDecide := true } (s.redecided .seed w) := by
  unfold State.redecided
  dsimp only
  split
  · rename_i n hn
    exact ⟨h.seedView, h.fertView, h.compute, fun _ y hy => (by rw [hn] at hy; cases hy), h.fertDecide⟩
  · exact agrees_seedState h fun z hz => (SeedState.lane.inj hz).symm

theorem agrees_redecided_fert : s.agrees { x with fertDecide := true } (s.redecided .fert w) := by
  refine ⟨h.seedView, fun a l hl => ?_, fun a => ?_, h.seedDecide, fun _ l hl => ?_⟩
  · obtain ⟨m, hm, rfl⟩ := Option.map_eq_some_iff.mp hl
    exact h.fertView a m hm
  · obtain ⟨speed, seed, fert⟩ := (computed_iff _ _ _).mp (h.compute a)
    refine (computed_iff _ _ _).mpr ⟨speed, seed, fun l hl => ?_⟩
    obtain ⟨m, hm, rfl⟩ := Option.map_eq_some_iff.mp hl
    exact congrArg (fun l : FertLane => { l with state := s.decided w.ctx.enabled .fert m.view }) (fert m hm)
  · obtain ⟨m, -, rfl⟩ := Option.map_eq_some_iff.mp hl
    rfl

theorem agrees_driven : s.agrees x (s.driven w) := by
  refine ⟨h.seedView, fun a l hl => ?_, fun a => ?_, h.seedDecide, fun a l hl => ?_⟩
  · obtain ⟨m, hm, rfl⟩ := Option.map_eq_some_iff.mp hl
    exact h.fertView a m hm
  · obtain ⟨speed, seed, fert⟩ := (computed_iff _ _ _).mp (h.compute a)
    refine (computed_iff _ _ _).mpr ⟨speed, congrArg (fun l => { l with drive := s.meterDrive w }) seed, fun l hl => ?_⟩
    obtain ⟨m, hm, rfl⟩ := Option.map_eq_some_iff.mp hl
    exact congrArg (fun l : FertLane => { l with valve := s.valveOut m }) (fert m hm)
  · obtain ⟨m, hm, rfl⟩ := Option.map_eq_some_iff.mp hl
    exact h.fertDecide a m hm

end

/-- A part made anew on a condition. -/
theorem agrees_ite {s : State} {x y : Pass} {v w : Row} (b : Bool) (hx : s.agrees x v) (hy : s.agrees y w) :
    s.agrees (if b then x else y) (if b then v else w) := by
  cases b
  · exact hy
  · exact hx

/-- A pass that makes a view anew makes anew what follows from it: the results and the lane's decision. -/
def Pass.closed (x : Pass) : Bool :=
  (!x.seedView || (x.compute && x.seedDecide)) && (!x.fertView || (x.compute && x.fertDecide))

/-- The parts that a pass leaves as they are, of those that are to agree. -/
def Pass.rest (x : Pass) (d : Bool) : Pass :=
  ⟨!x.seedView, !x.fertView, !x.compute, !x.seedDecide && d, !x.fertDecide && d⟩

theorem rest_within (x : Pass) (d : Bool) : (x.rest d).within (.upTo d) = true := by
  obtain ⟨a, b, c, e, f⟩ := x
  revert a b c d e f
  decide

/-- The parts that agree after a row is made anew, part after part. -/
def Pass.leaves (x y : Pass) : Pass :=
  let a := if x.seedView then { y with seedView := true, compute := false, seedDecide := false } else y
  let b := if x.fertView then { a with fertView := true, compute := false, fertDecide := false } else a
  let c := if x.compute then { b with compute := true } else b
  let d := if x.seedDecide then { c with seedDecide := true } else c
  if x.fertDecide then { d with fertDecide := true } else d

theorem remade_leaves {s : State} {x y : Pass} {w : Row} (h : s.agrees y w) : s.agrees (x.leaves y) (s.remade x w) := by
  have a := agrees_ite x.seedView (agrees_viewed_seed h) h
  have b := agrees_ite x.fertView (agrees_viewed_fert a) a
  have c := agrees_ite x.compute (agrees_computed b) b
  have d := agrees_ite x.seedDecide (agrees_redecided_seed c) c
  exact agrees_driven (agrees_ite x.fertDecide (agrees_redecided_fert d) d)

theorem closed_leaves (x : Pass) (d : Bool) (hx : x.closed = true) :
    (Pass.upTo d).within (x.leaves (x.rest d)) = true := by
  obtain ⟨a, b, c, e, f⟩ := x
  revert a b c d e f
  decide

/-- A row whose other parts agreed agrees throughout once it is made anew. -/
theorem remade_agrees {s : State} {x : Pass} {d : Bool} {w : Row} (hx : x.closed = true) (h : s.agrees (x.rest d) w) :
    s.agrees (.upTo d) (s.remade x w) :=
  (remade_leaves h).mono (closed_leaves x d hx)

/-! ## The outputs of a row (R90, R91, R116) -/

/-- A row's ports carry what the gating passes, and its stall timer follows them. -/
structure State.ported (s : State) (w : Row) : Prop where
  meter : w.seed.drive = s.meterDrive w
  valve : ∀ l, w.fert = some l → l.valve = s.valveOut l
  stall : w.stallWf

theorem driven_ported {s : State} {w : Row} (h : w.stallWf) : s.ported (s.driven w) := by
  obtain ⟨stops, runs⟩ := h
  refine ⟨rfl, fun l hl => ?_, fun low => ?_, fun high calm => ?_⟩
  · obtain ⟨m, -, rfl⟩ := Option.map_eq_some_iff.mp hl
    rfl
  · change s.meterDrive w < 50 at low
    simp only [State.driven, stallAfter]
    split
    · omega
    · split
      · rfl
      · exact stops (by omega)
  · change 50 ≤ s.meterDrive w at high
    simp only [State.driven, stallAfter]
    split
    · rfl
    · rw [if_neg (by omega)]
      exact runs (by omega) calm

/-- A row made anew has its outputs at what the gating passes. -/
theorem remade_ported {s : State} {x : Pass} {w : Row} (h : w.stallWf) : s.ported (s.remade x w) := by
  obtain ⟨v, e, -, flight, drive⟩ := remade_eq s x w
  rw [e]
  refine driven_ported ?_
  unfold Row.stallWf
  rw [flight, drive]
  exact h

end Sys2Proof.Machine
end

section
/-! What an event keeps of the outputs and the lanes: the two relations of states, and the ways to have them. -/

namespace Sys2Proof.Machine

/-! ## Rows that differ in nothing the lanes and the outputs follow from -/

/-- A change of a row that reaches neither a lane view, a result, a decision nor an output, and leaves the stall timer
as it has to stand. -/
structure Row.Alike (v w : Row) : Prop where
  ctx : w.ctx = v.ctx
  vr : w.vr = v.vr
  seed : w.seed = { v.seed with prevCell := w.seed.prevCell }
  fert : ∀ l, w.fert = some l → ∃ m, v.fert = some m
    ∧ l = { m with prevCell := l.prevCell, drop := l.drop, flow := { l.flow with trim := m.flow.trim } }
  stall : v.stallWf → w.stallWf

theorem Row.Alike.refl (w : Row) : w.Alike w :=
  ⟨rfl, rfl, rfl, fun l hl => ⟨l, hl, rfl⟩, id⟩

/-- A change of the flight state that leaves the stall timer as it has to stand. -/
theorem Row.Alike.flight (w : Row) (f : Flight) (h : w.stallWf → ({ w with sfm := f } : Row).stallWf) :
    w.Alike { w with sfm := f } :=
  ⟨rfl, rfl, rfl, fun l hl => ⟨l, hl, rfl⟩, h⟩

/-- A change of the flow state that keeps the trim. -/
theorem Row.Alike.flow (w : Row) (g : FlowState → FlowState)
    (h : ∀ l, w.fert = some l → (g l.flow).trim = l.flow.trim) :
    w.Alike { w with fert := w.fert.map fun l => { l with flow := g l.flow } } := by
  refine ⟨rfl, rfl, rfl, fun l hl => ?_, id⟩
  obtain ⟨m, hm, rfl⟩ := Option.map_eq_some_iff.mp hl
  exact ⟨m, hm, by rw [← h m hm]⟩

section
variable {v w : Row} (h : v.Alike w)
include h

theorem Row.Alike.seedState : w.seed.state = v.seed.state := by rw [h.seed]
theorem Row.Alike.seedView : w.seed.view = v.seed.view := by rw [h.seed]
theorem Row.Alike.seedPoint : w.seed.point = v.seed.point := by rw [h.seed]

theorem Row.Alike.priming : w.priming = v.priming := by
  unfold Row.priming
  rw [h.seedState]

theorem Row.Alike.agrees {s : State} {x : Pass} (a : s.agrees x v) : s.agrees x w := by
  refine ⟨fun hx => ?_, fun hx l hl => ?_, fun hx => ?_, fun hx y hy => ?_, fun hx l hl => ?_⟩
  · rw [h.seedView, h.seedPoint]
    exact a.seedView hx
  · obtain ⟨m, hm, e⟩ := h.fert l hl
    rw [e]
    exact a.fertView hx m hm
  · obtain ⟨speed, seed, fert⟩ := (computed_iff _ _ _).mp (a.compute hx)
    refine (computed_iff _ _ _).mpr ⟨?_, ?_, fun l hl => ?_⟩
    · rw [h.vr, h.ctx]
      exact speed
    · rw [h.seed, h.ctx, h.vr]
      exact congrArg (fun l => { l with prevCell := w.seed.prevCell }) seed
    · obtain ⟨m, hm, e⟩ := h.fert l hl
      rw [e, h.ctx, h.vr]
      exact congrArg (fun k : FertLane =>
        { k with prevCell := l.prevCell, drop := l.drop, flow := { l.flow with trim := m.flow.trim } }) (fert m hm)
  · rw [h.seedState] at hy
    rw [h.ctx, h.seedView]
    exact a.seedDecide hx y hy
  · obtain ⟨m, hm, e⟩ := h.fert l hl
    rw [e, h.ctx]
    exact a.fertDecide hx m hm

theorem Row.Alike.ported {s : State} (a : s.ported v) : s.ported w := by
  refine ⟨?_, fun l hl => ?_, h.stall a.stall⟩
  · have drive : w.seed.drive = v.seed.drive := by rw [h.seed]
    have speed : w.seed.s = v.seed.s := by rw [h.seed]
    rw [drive, a.meter, State.meterDrive, State.meterDrive, h.seedState, speed, h.ctx]
  · obtain ⟨m, hm, e⟩ := h.fert l hl
    rw [e]
    exact a.valve m hm

end

/-! ## States in which every row has the same inputs -/

/-- Two states give a row the same views, results, decisions and outputs. -/
structure State.sameSetup (s t : State) : Prop where
  view : t.viewAt = s.viewAt
  speed : t.mot.vRef = s.mot.vRef
  yaw : t.mot.yawRef = s.mot.yawRef
  decision : t.decided = s.decided
  meter : t.meterDrive = s.meterDrive
  valve : t.valveOut = s.valveOut

theorem viewAt_congr {s t : State} (hc : ∀ k, t.cst.find k = s.cst.find k)
    (side : t.settings.cellSide = s.settings.cellSide) (fallback : t.ren.fallback = s.ren.fallback) :
    t.viewAt = s.viewAt := by
  funext p q
  unfold State.viewAt
  simp only [hc, side, fallback]

/-- A decision follows from the mode, the work switch, the position and the overlap settings (R85 to R88). -/
theorem decided_of_position {s t : State} (mode : t.cmu.mode = s.cmu.mode) (level : t.mot.switch = s.mot.switch)
    (position : t.noPosition = s.noPosition) (overlap : t.settings.overlap = s.settings.overlap) :
    t.decided = s.decided := by
  funext b p v
  unfold State.decided State.heldReason
  rw [mode, level, position, overlap]

theorem decided_congr {s t : State} (mode : t.cmu.mode = s.cmu.mode) (level : t.mot.switch = s.mot.switch)
    (state : t.mot.fixState = s.mot.fixState) (settings : t.settings = s.settings) : t.decided = s.decided :=
  decided_of_position mode level (by funext v; rw [State.noPosition, State.noPosition, state, settings])
    (by rw [settings])

theorem meterDrive_congr {s t : State} (mode : t.cmu.mode = s.cmu.mode)
    (prime : t.settings.primeSpeed = s.settings.primeSpeed) : t.meterDrive = s.meterDrive := by
  funext w
  unfold State.meterDrive
  rw [mode, prime]

theorem valveOut_congr {s t : State} (mode : t.cmu.mode = s.cmu.mode) : t.valveOut = s.valveOut := by
  funext l
  unfold State.valveOut
  rw [mode]

/-- The blocks from which a row's views, results, decisions and outputs follow, but for the store. -/
def State.setup (s : State) : Settings × Mode × Nat × Int × FixState × SwitchLevel × (Product → Nat) :=
  (s.settings, s.cmu.mode, s.mot.vRef, s.mot.yawRef, s.mot.fixState, s.mot.switch, s.ren.fallback)

theorem State.sameSetup.of_eq {s t : State} (hc : ∀ k, t.cst.find k = s.cst.find k) (h : t.setup = s.setup) :
    s.sameSetup t := by
  simp only [State.setup, Prod.mk.injEq] at h
  obtain ⟨hs, mode, speed, yaw, state, level, fallback⟩ := h
  exact ⟨viewAt_congr hc (by rw [hs]) fallback, speed, yaw, decided_congr mode level state hs,
    meterDrive_congr mode (by rw [hs]), valveOut_congr mode⟩

theorem State.sameSetup.agrees {s t : State} (h : s.sameSetup t) {x : Pass} {w : Row} (a : s.agrees x w) :
    t.agrees x w := by
  obtain ⟨sv, fv, c, sd, fd⟩ := a
  refine ⟨?_, ?_, ?_, ?_, ?_⟩ <;> simpa only [h.view, h.speed, h.yaw, h.decision]

theorem State.sameSetup.ported {s t : State} (h : s.sameSetup t) {w : Row} (a : s.ported w) : t.ported w :=
  ⟨h.meter ▸ a.meter, h.valve ▸ a.valve, a.stall⟩

theorem sameSetup_pass (s : State) (x : RowId → Option Pass) : s.sameSetup (s.pass x) := by
  have f := s.pass_follows x
  refine .of_eq (fun k => by rw [f.cst]) ?_
  unfold State.setup
  rw [f.settings, f.cmu, f.mot, funext f.fallback]

/-! ## The outputs and the priming rows of a state -/

/-- Every row's ports carry what the gating passes. -/
def State.allPorted (s : State) : Prop :=
  ∀ r w, s.row r = some w → s.ported w

/-- A row's seed lane is in PRIMING. -/
def State.primes (s : State) (r : RowId) : Bool :=
  (s.row r).any (·.priming)

/-- Every priming row is one that the command in progress has still to prime. -/
def State.primesNamed (s : State) : Prop :=
  ∀ r, s.primes r = true → rowIn r s.cmu.progress.still = true

/-- Outside reset the outputs and the priming rows are what O14 speaks of. -/
theorem outputsWf_iff {s : State} (h : s.inReset = false) : s.outputsWf ↔ s.allPorted ∧ s.primesNamed := by
  unfold State.outputsWf State.gated State.meterPort State.valvePort
  simp only [h, Bool.false_eq_true, if_false]
  constructor
  · rintro ⟨gated, rows⟩
    refine ⟨fun r w hw => ?_, fun r hp => ?_⟩
    · obtain ⟨meter, valve⟩ := gated r
      rw [hw] at meter valve
      refine ⟨meter, fun l hl => ?_, (rows r w hw).1 trivial⟩
      rw [Option.bind_some, hl] at valve
      exact valve
    · obtain ⟨w, hw, priming⟩ := Option.any_eq_true _ _ |>.mp hp
      exact (rows r w hw).2 priming
  · rintro ⟨ported, named⟩
    refine ⟨fun r => ?_, fun r w hw => ⟨fun _ => (ported r w hw).stall, fun hp => named r ?_⟩⟩
    · cases hw : s.row r with
      | none => exact ⟨rfl, rfl⟩
      | some w =>
        obtain ⟨meter, valve, -⟩ := ported r w hw
        refine ⟨meter, ?_⟩
        cases hl : w.fert with
        | none => simp [hl]
        | some l => simpa [hl] using valve l hl
    · rw [State.primes, hw]
      exact hp

/-! ## What a pass leaves -/

/-- After a pass every row agrees with its inputs, if before it the parts not made anew did. -/
theorem pass_upToDate {s : State} {x : RowId → Option Pass} {d : Bool}
    (h : ∀ r w, s.row r = some w →
      ((x r).getD .outputs).closed = true ∧ s.agrees (((x r).getD .outputs).rest d) w) : (s.pass x).upToDate d := by
  intro r w hw
  rw [State.row_pass] at hw
  obtain ⟨v, hv, rfl⟩ := Option.map_eq_some_iff.mp hw
  obtain ⟨closed, rest⟩ := h r v hv
  cases hx : x r with
  | none =>
    rw [hx] at rest
    exact (sameSetup_pass s x).agrees rest
  | some p =>
    rw [hx] at closed rest
    exact (sameSetup_pass s x).agrees (remade_agrees closed rest)

/-- After a pass every output is at what the gating passes, if before it those of the rows not made anew were. -/
theorem pass_ported {s : State} {x : RowId → Option Pass}
    (h : ∀ r w, s.row r = some w → w.stallWf ∧ (x r = none → s.ported w)) : (s.pass x).allPorted := by
  intro r w hw
  rw [State.row_pass] at hw
  obtain ⟨v, hv, rfl⟩ := Option.map_eq_some_iff.mp hw
  obtain ⟨stall, rest⟩ := h r v hv
  cases hx : x r with
  | none => exact (sameSetup_pass s x).ported (rest hx)
  | some p => exact (sameSetup_pass s x).ported (remade_ported stall)

theorem pass_primes (s : State) (x : RowId → Option Pass) (r : RowId) : (s.pass x).primes r = s.primes r := by
  unfold State.primes
  cases hw : s.row r with
  | none => rw [(s.pass_follows x).row_none hw]
  | some w =>
    obtain ⟨v, hv, core⟩ := (s.pass_follows x).row_some hw
    rw [hv]
    exact Row.priming_of_core core

/-! ## The relations -/

/-- A step from one state to another, within or outside reset, keeps the outputs gated and the lanes current, and brings
no row to prime. -/
structure Agreeing (s t : State) : Prop where
  reset : t.inReset = s.inReset
  store : s.cst.wf → t.cst.wf
  ports : s.allPorted → t.allPorted
  lanes : s.cst.wf → ∀ d, s.upToDate d → t.upToDate d
  primes : ∀ r, t.primes r = true → s.primes r = true

/-- And it keeps the priming rows to those that the command in progress has still to prime. -/
structure Quiet (s t : State) : Prop extends Agreeing s t where
  named : s.primesNamed → t.primesNamed

section
variable {s t u : State}

theorem Agreeing.trans (h : Agreeing s t) (g : Agreeing t u) : Agreeing s u :=
  ⟨g.reset.trans h.reset, g.store ∘ h.store, g.ports ∘ h.ports, fun wf d hd => g.lanes (h.store wf) d (h.lanes wf d hd),
    fun r => h.primes r ∘ g.primes r⟩

theorem Quiet.trans (h : Quiet s t) (g : Quiet t u) : Quiet s u :=
  ⟨h.toAgreeing.trans g.toAgreeing, g.named ∘ h.named⟩

theorem Quiet.refl (s : State) : Quiet s s :=
  ⟨⟨rfl, id, id, fun _ _ => id, fun _ => id⟩, id⟩

/-- A step made on a condition. -/
theorem Quiet.ite {p : Prop} [Decidable p] (h : Quiet s t) (g : Quiet s u) : Quiet s (if p then t else u) := by
  split
  · exact h
  · exact g

theorem Agreeing.ite {p : Prop} [Decidable p] (h : Agreeing s t) (g : Agreeing s u) :
    Agreeing s (if p then t else u) := by
  split
  · exact h
  · exact g

theorem named_of_primes (progress : t.cmu.progress = s.cmu.progress)
    (h : ∀ r, t.primes r = true → s.primes r = true) (named : s.primesNamed) : t.primesNamed := fun r hr => by
  rw [progress]
  exact named r (h r hr)

/-- A change of the rows, each for itself, in nothing the lanes and the outputs follow from. -/
theorem Agreeing.of_rows (reset : t.inReset = s.inReset) (store : s.cst.wf → t.cst.wf) (setup : s.sameSetup t)
    (h : ∀ r w, t.row r = some w → ∃ v, s.row r = some v ∧ v.Alike w) : Agreeing s t where
  reset := reset
  store := store
  ports ported r w hw := by
    obtain ⟨v, hv, alike⟩ := h r w hw
    exact setup.ported (alike.ported (ported r v hv))
  lanes _ d agree r w hw := by
    obtain ⟨v, hv, alike⟩ := h r w hw
    exact setup.agrees (alike.agrees (agree r v hv))
  primes r hr := by
    obtain ⟨w, hw, priming⟩ := Option.any_eq_true _ _ |>.mp hr
    obtain ⟨v, hv, alike⟩ := h r w hw
    rw [State.primes, hv, ← priming]
    exact alike.priming.symm

theorem Quiet.of_rows (reset : t.inReset = s.inReset) (store : s.cst.wf → t.cst.wf) (setup : s.sameSetup t)
    (progress : t.cmu.progress = s.cmu.progress)
    (h : ∀ r w, t.row r = some w → ∃ v, s.row r = some v ∧ v.Alike w) : Quiet s t :=
  have agreeing := Agreeing.of_rows reset store setup h
  ⟨agreeing, named_of_primes progress agreeing.primes⟩

/-- A change that reaches neither the store, the rows nor what a row follows from. -/
theorem Agreeing.of_same (reset : t.inReset = s.inReset) (hc : t.cst = s.cst) (setup : t.setup = s.setup)
    (rows : t.ren = s.ren) : Agreeing s t :=
  .of_rows reset (hc ▸ id) (.of_eq (fun k => by rw [hc]) setup) fun r w hw =>
    ⟨w, by rwa [State.row, ← rows], .refl w⟩

theorem Quiet.of_same (reset : t.inReset = s.inReset) (hc : t.cst = s.cst) (setup : t.setup = s.setup)
    (rows : t.ren = s.ren) (progress : t.cmu.progress = s.cmu.progress) : Quiet s t :=
  have agreeing := Agreeing.of_same reset hc setup rows
  ⟨agreeing, named_of_primes progress agreeing.primes⟩

/-- A row before a pass, and the row it was before the event: what the event changed of it, the pass makes anew. -/
structure Row.Remakes (s a : State) (x : Option Pass) (v w : Row) : Prop where
  closed : (x.getD .outputs).closed = true
  priming : w.priming = true → v.priming = true
  stall : v.stallWf → w.stallWf
  ports : x = none → s.ported v → a.ported w
  lanes : s.cst.wf → ∀ d, s.agrees (.upTo d) v → a.agrees ((x.getD .outputs).rest d) w

/-- A row that an event puts in its place afresh, before the pass that makes it anew. -/
structure Row.Enters (a : State) (x : Option Pass) (w : Row) : Prop where
  closed : (x.getD .outputs).closed = true
  calm : w.priming = false
  stall : w.stallWf
  remade : x ≠ none
  lanes : ∀ d, a.agrees ((x.getD .outputs).rest d) w

/-- An event's change of a state, with rows changed and rows put in their places, and the pass that makes anew what it
reached. -/
theorem Quiet.of_pass_or {x : RowId → Option Pass} (reset : t.inReset = s.inReset) (store : s.cst.wf → t.cst.wf)
    (progress : t.cmu.progress = s.cmu.progress)
    (rows : ∀ r w, t.row r = some w → (∃ v, s.row r = some v ∧ Row.Remakes s t (x r) v w) ∨ Row.Enters t (x r) w) :
    Quiet s (t.pass x) := by
  have follows := t.pass_follows x
  have primes : ∀ r, (t.pass x).primes r = true → s.primes r = true := fun r hr => by
    rw [pass_primes] at hr
    obtain ⟨w, hw, priming⟩ := Option.any_eq_true _ _ |>.mp hr
    rcases rows r w hw with ⟨v, hv, remakes⟩ | enters
    · rw [State.primes, hv]
      exact remakes.priming priming
    · rw [enters.calm] at priming
      cases priming
  refine ⟨⟨follows.inReset.trans reset, fun h => follows.cst.symm ▸ store h, fun ported => ?_, fun wf d agree => ?_, primes⟩,
    named_of_primes (by rw [follows.cmu, progress]) primes⟩
  · refine pass_ported fun r w hw => ?_
    rcases rows r w hw with ⟨v, hv, remakes⟩ | enters
    · exact ⟨remakes.stall (ported r v hv).stall, fun hx => remakes.ports hx (ported r v hv)⟩
    · exact ⟨enters.stall, fun hx => absurd hx enters.remade⟩
  · refine pass_upToDate fun r w hw => ?_
    rcases rows r w hw with ⟨v, hv, remakes⟩ | enters
    · exact ⟨remakes.closed, remakes.lanes wf d (agree r v hv)⟩
    · exact ⟨enters.closed, enters.lanes d⟩

theorem Quiet.of_pass {x : RowId → Option Pass} (reset : t.inReset = s.inReset) (store : s.cst.wf → t.cst.wf)
    (progress : t.cmu.progress = s.cmu.progress)
    (rows : ∀ r w, t.row r = some w → ∃ v, s.row r = some v ∧ Row.Remakes s t (x r) v w) : Quiet s (t.pass x) :=
  .of_pass_or reset store progress fun r w hw => .inl (rows r w hw)

end

end Sys2Proof.Machine
end

section
/-! What changes of the Cell Store show to the lanes, and the refreshes that follow them. -/

namespace Sys2Proof.Machine

/-! ## What a lane sees of a record (R59) -/

theorem viewAt_some (s : State) (p : Product) (q : Point) :
    s.viewAt p (some q) =
      let k := cellOf s.settings.cellSide q
      if s.cst.holds k then
        (s.cst.payload k).elim (fallbackView .poisoned (s.ren.fallback p) (some k)) fun y =>
          { outcome := .found, target := y.target p, fallback := false, noApply := some y.noApply
            cover := some ((y.cov p).at (subOf s.settings.cellSide q)), key := some k }
      else fallbackView .missing (s.ren.fallback p) none := by
  unfold State.viewAt Store.holds Store.payload
  dsimp only
  cases s.cst.find (cellOf s.settings.cellSide q) with
  | none => rfl
  | some x => cases hx : x.payload <;> simp [hx]

/-- What the lanes see of a payload: its prescription and its coverage. -/
def Payload.shown (y : Payload) : Nat × Nat × Bool × Coverage × Coverage :=
  (y.seedTarget, y.fertTarget, y.noApply, y.seedCov, y.fertCov)

theorem shown_inj {y z : Payload} (h : y.shown = z.shown) (p : Product) :
    y.target p = z.target p ∧ y.noApply = z.noApply ∧ y.cov p = z.cov p := by
  simp only [Payload.shown, Prod.mk.injEq] at h
  obtain ⟨seed, fert, noApply, seedCov, fertCov⟩ := h
  cases p
  · exact ⟨seed, noApply, seedCov⟩
  · exact ⟨fert, noApply, fertCov⟩

/-- The settings and the fallback targets by which a lane sees the store. -/
def State.seesLike (s t : State) : Prop :=
  t.settings.cellSide = s.settings.cellSide ∧ t.ren.fallback = s.ren.fallback

/-- The view at a point is the same where the record of its cell shows the same. -/
theorem viewAt_of_shown {s t : State} (h : s.seesLike t) (p : Product) {q : Point}
    (holds : t.cst.holds (cellOf s.settings.cellSide q) = s.cst.holds (cellOf s.settings.cellSide q))
    (shown : (t.cst.payload (cellOf s.settings.cellSide q)).map Payload.shown
      = (s.cst.payload (cellOf s.settings.cellSide q)).map Payload.shown) :
    t.viewAt p (some q) = s.viewAt p (some q) := by
  obtain ⟨side, fallback⟩ := h
  rw [viewAt_some, viewAt_some]
  dsimp only
  rw [side, fallback, holds]
  congr 1
  revert shown
  cases t.cst.payload (cellOf s.settings.cellSide q) <;> cases s.cst.payload (cellOf s.settings.cellSide q)
  case none.none => exact fun _ => rfl
  case none.some => nofun
  case some.none => nofun
  case some.some y z =>
    intro shown
    obtain ⟨target, noApply, cov⟩ := shown_inj (Option.some.inj shown) p
    simp only [Option.elim_some, target, noApply, cov]

theorem viewAt_none {s t : State} (h : s.seesLike t) (p : Product) : t.viewAt p none = s.viewAt p none := by
  unfold State.viewAt
  rw [h.2]

/-- The same records shown give every lane the same view. -/
theorem viewAt_of_allShown {s t : State} (h : s.seesLike t) (holds : ∀ k, t.cst.holds k = s.cst.holds k)
    (shown : ∀ k, (t.cst.payload k).map Payload.shown = (s.cst.payload k).map Payload.shown) :
    t.viewAt = s.viewAt := by
  funext p q
  cases q with
  | none => exact viewAt_none h p
  | some q => exact viewAt_of_shown h p (holds _) (shown _)

/-! ## Prescriptions kept (R157 to R159, R19 to R23) -/

/-- The prescription of a payload. -/
def Payload.plan (y : Payload) : Nat × Nat × Bool :=
  (y.seedTarget, y.fertTarget, y.noApply)

/-- The same records are held, and each payload still held keeps its prescription: what reads, credits and settles do. -/
structure Store.keepsPlan (c d : Store) : Prop where
  holds : ∀ k, d.holds k = c.holds k
  plan : ∀ k z, d.payload k = some z → ∃ y, c.payload k = some y ∧ z.plan = y.plan

theorem Store.keepsPlan.refl (c : Store) : c.keepsPlan c :=
  ⟨fun _ => rfl, fun _ z hz => ⟨z, hz, rfl⟩⟩

theorem Store.keepsPlan.trans {c d e : Store} (h : c.keepsPlan d) (g : d.keepsPlan e) : c.keepsPlan e := by
  refine ⟨fun k => (g.holds k).trans (h.holds k), fun k z hz => ?_⟩
  obtain ⟨y, hy, same⟩ := g.plan k z hz
  obtain ⟨x, hx, kept⟩ := h.plan k y hy
  exact ⟨x, hx, same.trans kept⟩

/-- A record poisoned, or its payload written with the prescription it had. -/
theorem Store.keepsPlan_put {c : Store} {k : Key} {y : Payload} {p : Option Payload} (hy : c.payload k = some y)
    (h : ∀ z, p = some z → z.plan = y.plan) : c.keepsPlan (c.put k p) := by
  refine ⟨fun j => c.holds_put k j p, fun j z hz => ?_⟩
  rw [Store.payload_put] at hz
  split at hz
  · rename_i e
    rw [if_pos (Store.holds_of_payload hy)] at hz
    exact ⟨y, by rw [e]; exact hy, h z hz⟩
  · exact ⟨z, hz, rfl⟩

/-- The same records are held, and each payload still held shows the lanes what it showed: what reads do. -/
structure Store.keepsShown (c d : Store) : Prop where
  holds : ∀ k, d.holds k = c.holds k
  shown : ∀ k z, d.payload k = some z → ∃ y, c.payload k = some y ∧ z.shown = y.shown

theorem Store.keepsShown.refl (c : Store) : c.keepsShown c :=
  ⟨fun _ => rfl, fun _ z hz => ⟨z, hz, rfl⟩⟩

theorem Store.keepsShown.trans {c d e : Store} (h : c.keepsShown d) (g : d.keepsShown e) : c.keepsShown e := by
  refine ⟨fun k => (g.holds k).trans (h.holds k), fun k z hz => ?_⟩
  obtain ⟨y, hy, same⟩ := g.shown k z hz
  obtain ⟨x, hx, kept⟩ := h.shown k y hy
  exact ⟨x, hx, same.trans kept⟩

theorem Store.keepsShown.plan {c d : Store} (h : c.keepsShown d) : c.keepsPlan d := by
  refine ⟨h.holds, fun k z hz => ?_⟩
  obtain ⟨y, hy, same⟩ := h.shown k z hz
  exact ⟨y, hy, congrArg (fun x : Nat × Nat × Bool × Coverage × Coverage => (x.1, x.2.1, x.2.2.1)) same⟩

theorem readRecord_keepsShown (k : Key) (s : State) : s.cst.keepsShown (readRecord k s).cst := by
  refine ⟨fun j => ?_, fun j z hz => ?_⟩
  · have keys := readRecord_keys k s
    rw [Bool.eq_iff_iff, holds_iff_keys, holds_iff_keys, keys]
  · by_cases e : j = k
    · rw [e] at hz ⊢
      obtain ⟨-, y, hy, -, rfl⟩ := readRecord_payload_self hz
      exact ⟨y, hy, rfl⟩
    · rw [readRecord_payload_ne s e] at hz
      exact ⟨z, hz, rfl⟩

theorem readRecord_keepsPlan (k : Key) (s : State) : s.cst.keepsPlan (readRecord k s).cst :=
  (readRecord_keepsShown k s).plan

theorem settleOne_keepsPlan (x : State × Nat) (k : Key) : x.1.cst.keepsPlan (settleOne x k).1.cst := by
  have read := readRecord_keepsPlan k x.1
  unfold settleOne
  dsimp only
  split
  · exact read
  · rename_i y hy
    split
    · exact read.trans
        (Store.keepsPlan_put (p := some { y.settled with bits := .clean }) hy fun z hz => by cases hz; rfl)
    · exact read

theorem settleRecords_keepsPlan (s : State) : s.cst.keepsPlan (settleRecords s).1.cst := by
  have fold : ∀ (l : List Key) (x : State × Nat), x.1.cst.keepsPlan (l.foldl settleOne x).1.cst := by
    intro l
    induction l with
    | nil => exact fun x => .refl _
    | cons k ks ih => exact fun x => (settleOne_keepsPlan x k).trans (ih _)
  exact fold _ (s, 0)

theorem readForRow_keepsShown (r : RowId) (s : State) : s.cst.keepsShown (readForRow r s).cst :=
  readForRow_induct (P := fun t => s.cst.keepsShown t.cst) (fun k t h => h.trans (readRecord_keepsShown k t)) r (.refl _)

/-- A record that was whole and is so no more is one that the step poisoned. -/
theorem mem_newlyPoisoned {c d : Store} (h : c.keepsPlan d) {k : Key} {y : Payload} (hy : c.payload k = some y)
    (hd : d.payload k = none) : k ∈ newlyPoisoned c d := by
  have held : d.holds k = true := (h.holds k).trans (Store.holds_of_payload hy)
  obtain ⟨x, hx⟩ := Option.isSome_iff_exists.mp held
  have lost : x.payload = none := by
    rw [Store.payload, hx] at hd
    exact hd
  exact List.mem_map.mpr ⟨⟨k, some y⟩, List.mem_filter.mpr ⟨Store.mem_of_payload hy, by simp [hx, lost]⟩, rfl⟩

/-- The coverage under a lane's look-ahead point, from a store. -/
theorem laneCover_of_point {s : State} {r : RowId} {w : Row} (hw : s.row r = some w) {p : Product} {q : Point}
    (hq : w.point p = some q) (c : Store) :
    s.laneCover c p r
      = (c.payload (cellOf s.settings.cellSide q)).map fun y => (y.cov p).at (subOf s.settings.cellSide q) := by
  unfold State.laneCover
  rw [hw]
  dsimp only
  rw [hq]

/-- A lane whose coverage did not move and whose record was not poisoned sees what it saw, where the prescriptions are
kept. -/
theorem viewAt_of_plan {s t : State} (h : s.seesLike t) (rows : t.row = s.row) (plan : s.cst.keepsPlan t.cst)
    {p : Product} {r : RowId} {w : Row} (hw : s.row r = some w) (moved : t.coverMoved s.cst p r = false)
    (whole : ∀ q y, w.point p = some q → s.cst.payload (cellOf s.settings.cellSide q) = some y →
      t.cst.payload (cellOf s.settings.cellSide q) ≠ none) :
    t.viewAt p (w.point p) = s.viewAt p (w.point p) := by
  obtain ⟨side, fallback⟩ := id h
  cases hq : w.point p with
  | none => exact viewAt_none h p
  | some q =>
    have whole := whole q
    rw [viewAt_some, viewAt_some]
    dsimp only
    rw [side, fallback, plan.holds]
    congr 1
    have covers := laneCover_of_point (s := t) (rows ▸ hw) hq
    rw [State.coverMoved, covers, covers, side] at moved
    cases hz : t.cst.payload (cellOf s.settings.cellSide q) with
    | none =>
      cases hy : s.cst.payload (cellOf s.settings.cellSide q) with
      | none => rfl
      | some y => exact absurd hz (whole y hq hy)
    | some z =>
      obtain ⟨y, hy, same⟩ := plan.plan _ z hz
      rw [hz, hy] at moved
      simp only [Option.map_some, decide_eq_false_iff_not, ne_eq, Decidable.not_not] at moved
      rw [hy]
      simp only [Payload.plan, Prod.mk.injEq] at same
      obtain ⟨seed, fert, noApply⟩ := same
      have target : z.target p = y.target p := by
        cases p
        · exact seed
        · exact fert
      simp only [Option.elim_some, target, noApply, moved]

/-- The same of a lane that is not among those whose records the step poisoned. -/
theorem viewAt_of_lanes {s t : State} (h : s.seesLike t) (rows : t.row = s.row) (plan : s.cst.keepsPlan t.cst)
    {p : Product} {r : RowId} {w : Row} (hw : s.row r = some w) (moved : t.coverMoved s.cst p r = false)
    (poisoned : t.lanesPoisoned s.cst p r = false) : t.viewAt p (w.point p) = s.viewAt p (w.point p) := by
  refine viewAt_of_plan h rows plan hw moved fun q y hq hy lost => ?_
  have cell : t.laneCell p r = some (cellOf s.settings.cellSide q) := by
    unfold State.laneCell
    rw [rows, hw]
    dsimp only
    rw [hq, h.1]
    rfl
  rw [State.lanesPoisoned, cell] at poisoned
  exact of_decide_eq_false poisoned (mem_newlyPoisoned plan hy lost)

/-- Where each payload still held shows what it showed, no lane's coverage moved. -/
theorem coverMoved_of_shown {s : State} {c : Store} (h : c.keepsShown s.cst) (p : Product) (r : RowId) :
    s.coverMoved c p r = false := by
  unfold State.coverMoved
  split
  · rename_i a b ha hb
    unfold State.laneCover at ha hb
    cases hw : s.row r with
    | none => rw [hw] at ha; cases ha
    | some w =>
      rw [hw] at ha hb
      dsimp only at ha hb
      cases hq : w.point p with
      | none => rw [hq] at ha; cases ha
      | some q =>
        rw [hq] at ha hb
        dsimp only at ha
        obtain ⟨z, hz, rfl⟩ := Option.map_eq_some_iff.mp hb
        obtain ⟨y, hy, shown⟩ := h.shown _ z hz
        rw [hy] at ha
        obtain ⟨-, -, cov⟩ := shown_inj shown p
        rw [← Option.some.inj ha, cov]
        simp
  · rfl

/-- A lane whose look-ahead point lies in no cell of a key sees what it saw, where no other record changed. -/
theorem viewAt_of_ne {s t : State} (h : s.seesLike t) {k : Key}
    (holds : ∀ j, j ≠ k → t.cst.holds j = s.cst.holds j) (payload : ∀ j, j ≠ k → t.cst.payload j = s.cst.payload j)
    {p : Product} {r : RowId} {w : Row} (hw : s.row r = some w) (cell : s.laneCell p r ≠ some k) :
    t.viewAt p (w.point p) = s.viewAt p (w.point p) := by
  rw [State.laneCell, hw] at cell
  dsimp only at cell
  cases hq : w.point p with
  | none => exact viewAt_none h p
  | some q =>
    have other : cellOf s.settings.cellSide q ≠ k := fun e => cell (by rw [hq, ← e]; rfl)
    exact viewAt_of_shown h p (holds _ other) (by rw [payload _ other])

/-! ## Refreshes after a change of the store (R60) -/

theorem lanesPass_getD (b : Lanes) (r : RowId) :
    (b.pass r).getD .outputs = .refresh (b .seed r) (b .fert r) := by
  unfold Lanes.pass
  cases b .seed r <;> cases b .fert r <;> rfl

theorem refresh_closed (a b : Bool) : (Pass.refresh a b).closed = true := by
  revert a b
  decide

/-- Parts that agreed still do under other views, for the parts where those are the same. -/
theorem agrees_of_view {s t : State} {w : Row} {x y : Pass} (hy : s.agrees y w) (hx : x.within y = true)
    (motion : t.mot = s.mot) (decision : t.decided = s.decided)
    (view : ∀ p, (p = .seed → x.seedView = true) → (p = .fert → x.fertView = true ∧ ∃ l, w.fert = some l) →
      t.viewAt p (w.point p) = s.viewAt p (w.point p)) : t.agrees x w := by
  obtain ⟨seed, fert, compute, seedDecide, fertDecide⟩ := hy.mono hx
  refine ⟨fun hx => ?_, fun hx l hl => ?_, ?_, ?_, ?_⟩
  · exact (seed hx).trans (view .seed (fun _ => hx) nofun).symm
  · have look : w.point .fert = l.look := by rw [Row.point, hl]; rfl
    have same := view .fert nofun fun _ => ⟨hx, l, hl⟩
    rw [look] at same
    exact (fert hx l hl).trans same.symm
  · rwa [motion]
  · rwa [decision]
  · rwa [decision]

/-- A change of the store, the events and the choices alone. -/
def State.storeOnly (s t : State) : Prop :=
  t = { s with cst := t.cst, evu := t.evu, choices := t.choices }

section
variable {s t : State} (h : s.storeOnly t)
include h

theorem State.storeOnly.setup : t.setup = s.setup := by rw [h]; rfl
theorem State.storeOnly.mot : t.mot = s.mot := by rw [h]
theorem State.storeOnly.ren : t.ren = s.ren := by rw [h]
theorem State.storeOnly.row : t.row = s.row := by rw [h]; rfl
theorem State.storeOnly.cmu : t.cmu = s.cmu := by rw [h]
theorem State.storeOnly.inReset : t.inReset = s.inReset := by rw [h]
theorem State.storeOnly.settings : t.settings = s.settings := by rw [h]
theorem State.storeOnly.seesLike : s.seesLike t := ⟨by rw [h], by rw [h]⟩

theorem State.storeOnly.decided : t.decided = s.decided :=
  decided_congr (by rw [h]) (by rw [h]) (by rw [h]) (by rw [h])

theorem State.storeOnly.meter : t.meterDrive = s.meterDrive := meterDrive_congr (by rw [h]) (by rw [h])
theorem State.storeOnly.valve : t.valveOut = s.valveOut := valveOut_congr (by rw [h])

theorem State.storeOnly.laneCell (p : Product) (r : RowId) : t.laneCell p r = s.laneCell p r := by
  unfold State.laneCell
  rw [h.row, h.settings]

/-- A change of the store that shows the lanes nothing new. -/
theorem State.storeOnly.of_shown (store : s.cst.wf → t.cst.wf) (holds : ∀ k, t.cst.holds k = s.cst.holds k)
    (shown : ∀ k, (t.cst.payload k).map Payload.shown = (s.cst.payload k).map Payload.shown) : Quiet s t :=
  .of_rows h.inReset store
    ⟨viewAt_of_allShown h.seesLike holds shown, by rw [h.mot], by rw [h.mot], h.decided, h.meter, h.valve⟩
    (by rw [h.cmu]) fun r w hw => ⟨w, by rwa [h.row] at hw, .refl w⟩

/-- A change of the store, and the refresh of every lane that sees it. -/
theorem State.storeOnly.of_review {b : Lanes} (store : s.cst.wf → t.cst.wf)
    (view : s.cst.wf → ∀ p r w, s.row r = some w → b p r = false → t.viewAt p (w.point p) = s.viewAt p (w.point p)) :
    Quiet s (reviewLanes b t) := by
  refine .of_pass h.inReset store (by rw [h.cmu]) fun r w hw => ⟨w, by rwa [h.row] at hw, ?_, id, id, fun _ ported => ?_,
    fun wf d agree => ?_⟩
  · rw [lanesPass_getD]
    exact refresh_closed _ _
  · exact ⟨h.meter ▸ ported.meter, h.valve ▸ ported.valve, ported.stall⟩
  rw [h.row] at hw
  rw [lanesPass_getD]
  refine agrees_of_view agree (rest_within _ d) h.mot h.decided fun p hs hf => view wf p r w hw ?_
  cases p
  · simpa [Pass.rest, Pass.refresh] using hs rfl
  · simpa [Pass.rest, Pass.refresh] using (hf rfl).1

end

end Sys2Proof.Machine
end

section
/-! What the shared operations keep of the outputs and the lanes: events, passes, reads, credits, settles. -/

namespace Sys2Proof.Machine

/-! ## Events, blocks without lanes, and single rows -/

theorem raise_quiet (s : State) (k : Kind) : Quiet s (s.raise k) := .of_same rfl rfl rfl rfl rfl
theorem raiseHealth_quiet (s : State) (r : RowId) : Quiet s (s.raiseHealth r) := .of_same rfl rfl rfl rfl rfl
theorem setFsc_quiet (s : State) (x : Scanner) : Quiet s (s.setFsc x) := .of_same rfl rfl rfl rfl rfl
theorem setLnk_quiet (s : State) (x : Link) : Quiet s (s.setLnk x) := .of_same rfl rfl rfl rfl rfl
theorem setPins_quiet (s : State) (x : Pins) : Quiet s (s.setPins x) := .of_same rfl rfl rfl rfl rfl
theorem complete_agreeing (s : State) (k : Completion) : Agreeing s (s.complete k) := .of_same rfl rfl rfl rfl

theorem mapRows_setup (s : State) (g : RowId → Row → Row) : (s.mapRows g).setup = s.setup := by
  have rest := State.mapRows_rest s g
  generalize (s.mapRows g).ren.rows = rows at rest
  rw [rest]
  rfl

theorem mapRows_quiet {s : State} {g : RowId → Row → Row} (h : ∀ r (w : Row), s.row r = some w → w.Alike (g r w)) :
    Quiet s (s.mapRows g) := by
  have rest := State.mapRows_rest s g
  refine .of_rows (by rw [rest]) (by rw [rest]; exact id) (.of_eq (fun _ => by rw [rest]) (mapRows_setup s g)) (by rw [rest])
    fun r w hw => ?_
  rw [State.row_mapRows] at hw
  obtain ⟨v, hv, rfl⟩ := Option.map_eq_some_iff.mp hw
  exact ⟨v, hv, h r v hv⟩

theorem modRow_quiet {s : State} {r : RowId} {g : Row → Row} (h : ∀ w, s.row r = some w → w.Alike (g w)) :
    Quiet s (s.modRow r g) := by
  rw [State.modRow_eq_mapRows]
  refine mapRows_quiet fun q w hw => ?_
  split
  · rename_i e
    exact h w (e ▸ hw)
  · exact .refl w

/-- A change of the flight state that reaches neither the stall timer nor METER STALL. -/
theorem modFlight_quiet {r : RowId} {s : State} {f : Flight → Flight} (due : ∀ x : Flight, (f x).stallDue = x.stallDue)
    (stalled : ∀ x : Flight, (f x).stalled = x.stalled) : Quiet s (modFlight r f s) :=
  modRow_quiet fun w _ => .flight w _ (by unfold Row.stallWf; rw [due, stalled]; exact id)

/-- A change of the flow state that keeps the trim. -/
theorem modFlow_quiet {r : RowId} {s : State} {f : FlowState → FlowState} (trim : ∀ x : FlowState, (f x).trim = x.trim) :
    Quiet s (modFlow r f s) :=
  modRow_quiet fun w _ => .flow w f fun l _ => trim l.flow

/-! ## Passes -/

/-- A pass of rows that agreed leaves them in agreement. -/
theorem pass_quiet {s : State} {x : RowId → Option Pass} (closed : ∀ r, ((x r).getD .outputs).closed = true) :
    Quiet s (s.pass x) :=
  .of_pass rfl id rfl fun r w hw =>
    ⟨w, hw, closed r, id, id, fun _ => id, fun _ d agree => agree.mono (rest_within _ d)⟩

/-- A state in which an event has changed what some parts of every row follow from, before the pass that makes those parts
anew. -/
structure Rebased (x : Pass) (s a : State) : Prop where
  reset : a.inReset = s.inReset
  store : s.cst.wf → a.cst.wf
  progress : a.cmu.progress = s.cmu.progress
  rows : ∀ r w, a.row r = some w → ∃ v, s.row r = some v ∧ v.Alike w
  agrees : ∀ d w, s.agrees (.upTo d) w → a.agrees (x.rest d) w

/-- The parts whose inputs changed are made anew on every row. -/
theorem Rebased.quiet {x : Pass} {s a : State} (h : Rebased x s a) (closed : x.closed = true) :
    Quiet s (a.pass fun _ => some x) := by
  refine .of_pass h.reset h.store h.progress fun r w hw => ?_
  obtain ⟨v, hv, alike⟩ := h.rows r w hw
  exact ⟨v, hv, closed, fun hp => alike.priming.symm.trans hp, alike.stall, nofun,
    fun wf d agree => h.agrees d w (alike.agrees agree)⟩

/-! ## Payload reads (R157 to R159) -/

theorem readRecord_storeOnly (k : Key) (s : State) : s.storeOnly (readRecord k s) := by
  unfold State.storeOnly
  rw [readRecord_rest]

/-- A read that poisons nothing shows the lanes nothing new. -/
theorem readRecord_shown {k : Key} {s : State} (h : ∀ y, s.cst.payload k = some y → y.bits ≠ .twoFlipped) (j : Key) :
    ((readRecord k s).cst.payload j).map Payload.shown = (s.cst.payload j).map Payload.shown := by
  by_cases e : j = k
  · subst e
    unfold readRecord
    split
    · rfl
    · rename_i y hy
      split
      · rfl
      · have put := Store.payload_put_self s.cst (some { y with bits := .clean }) (Store.holds_of_payload hy)
        exact (congrArg (Option.map Payload.shown) put).trans (congrArg (Option.map Payload.shown) hy).symm
      · rename_i lost
        exact absurd lost (h y hy)
  · rw [readRecord_payload_ne s e]

theorem readState_of_lost {k : Key} {s : State} {y : Payload} (hy : s.cst.payload k = some y)
    (lost : y.bits = .twoFlipped) : readState k s = reviewBound k (readRecord k s) := by
  unfold readState readRecord
  simp only [hy, lost]

/-- The refresh of the lanes bound to a record, where no other record changed. -/
theorem reviewBound_quiet {s t : State} {k : Key} (h : s.storeOnly t) (store : s.cst.wf → t.cst.wf)
    (holds : s.cst.wf → ∀ j, j ≠ k → t.cst.holds j = s.cst.holds j)
    (payload : s.cst.wf → ∀ j, j ≠ k → t.cst.payload j = s.cst.payload j) : Quiet s (reviewBound k t) :=
  h.of_review store fun wf p r w hw hb =>
    viewAt_of_ne h.seesLike (holds wf) (payload wf) hw
      (by rw [← h.laneCell p r]; exact of_decide_eq_false hb)

theorem readState_quiet (k : Key) (s : State) : Quiet s (readState k s) := by
  by_cases lost : ∃ y, s.cst.payload k = some y ∧ y.bits = .twoFlipped
  · obtain ⟨y, hy, lost⟩ := lost
    rw [readState_of_lost hy lost]
    exact reviewBound_quiet (readRecord_storeOnly k s) readRecord_wf
      (fun _ j _ => (readRecord_keepsPlan k s).holds j) fun _ j hj => readRecord_payload_ne s hj
  · have whole : ∀ y, s.cst.payload k = some y → y.bits ≠ .twoFlipped := fun y hy e => lost ⟨y, hy, e⟩
    rw [readState_eq whole]
    exact (readRecord_storeOnly k s).of_shown readRecord_wf (readRecord_keepsPlan k s).holds (readRecord_shown whole)

/-! ## Payloads written (R19 to R22) -/

theorem writePayload_storeOnly (k : Key) (y : Payload) (s : State) : s.storeOnly (writePayload k y s) := rfl

theorem writePayload_wf {k : Key} {y z : Payload} {s : State} (hy : s.cst.payload k = some y)
    (hz : y.wf = true → z.wf = true) (wf : s.cst.wf) : (writePayload k z s).cst.wf :=
  Store.put_some_wf wf hy (by simpa using hz (Store.payload_wf wf hy))

/-- A payload written with the prescription it had, and the refresh of the lanes under changed coverage. -/
theorem writeMoved_quiet {k : Key} {y z : Payload} {s : State} (hy : s.cst.payload k = some y)
    (hz : y.wf = true → z.wf = true) (plan : z.plan = y.plan) :
    Quiet s (refreshMoved s.cst (writePayload k z s)) := by
  refine State.storeOnly.of_review (writePayload_storeOnly k z s) (writePayload_wf hy hz) fun _ p r w hw moved => ?_
  refine viewAt_of_plan (s := s) (t := writePayload k z s) ⟨rfl, rfl⟩ rfl
    (Store.keepsPlan_put (p := some { z with bits := .clean }) hy fun x hx => by cases hx; exact plan) hw moved
    fun q x _ hx lost => ?_
  have put := Store.payload_put s.cst k (cellOf s.settings.cellSide q) (some { z with bits := .clean })
  rw [show (s.cst.put k (some { z with bits := .clean })).payload _ = none from lost, Store.holds_of_payload hy] at put
  split at put
  · cases put
  · rw [hx] at put
    cases put

/-- A change of payloads that keeps their form and their prescription. -/
def Marking (f : Payload → Payload) : Prop :=
  ∀ y : Payload, (y.wf = true → (f y).wf = true) ∧ (f y).plan = y.plan

theorem deliver_quiet {k : Key} {f : Payload → Payload} (hf : Marking f) (s : State) : Quiet s (deliver k f s) := by
  have read := readState_quiet k s
  unfold deliver readPayload
  split
  · exact read
  · rename_i y hy
    exact read.trans (writeMoved_quiet hy (hf y).1 (hf y).2)

theorem creditSeed_quiet (c : SeedCredit) (k : Key) (s : State) : Quiet s (creditSeed c k s) :=
  deliver_quiet (fun y => ⟨fun hy => (seedCredited_crediting c y hy).1, by cases c <;> rfl⟩) s

theorem creditFert_quiet (v : Nat) (q : Point) (s : State) : Quiet s (creditFert v q s) :=
  deliver_quiet (fun y => ⟨fun hy => (fertCredited_crediting v _ y hy).1, rfl⟩) s

/-! ## Settles (R23) -/

theorem settleRecords_storeOnly (s : State) : s.storeOnly (settleRecords s).1 := by
  have fold : ∀ (l : List Key) (x : State × Nat), s.storeOnly x.1 → s.storeOnly (l.foldl settleOne x).1 := by
    intro l
    induction l with
    | nil => exact fun _ h => h
    | cons k ks ih =>
      refine fun x h => ih _ ?_
      rw [settleOne_eq]
      unfold State.storeOnly at *
      rw [h]
  exact fold _ (s, 0) rfl

theorem settleRecords_wf {s : State} (h : s.cst.wf) : (settleRecords s).1.cst.wf :=
  (settleRecords_steady s).store h

/-- A lane that a settle does not reach sees what it saw. -/
theorem viewAt_settled {s : State} {p : Product} {r : RowId} {w : Row} (hw : s.row r = some w)
    (h : (settleRecords s).1.lanesSettled s.cst p r = false) :
    (settleRecords s).1.viewAt p (w.point p) = s.viewAt p (w.point p) := by
  have only := settleRecords_storeOnly s
  obtain ⟨moved, poisoned⟩ := Bool.or_eq_false_iff.mp h
  exact viewAt_of_lanes only.seesLike only.row (settleRecords_keepsPlan s) hw moved poisoned

theorem settle_quiet (s : State) : Quiet s (settle s).1 :=
  (settleRecords_storeOnly s).of_review settleRecords_wf fun _ _ _ _ hw hb => viewAt_settled hw hb

end Sys2Proof.Machine
end

section
/-! What the events of the field lines and the timers keep of the outputs and the lanes. -/

namespace Sys2Proof.Machine

/-! ## Reception (R166, R171, R178) -/

theorem shifted_quiet (s : State) (n : Nat) : Quiet s (s.shifted n) := .of_same rfl rfl rfl rfl rfl
theorem begun_quiet (s : State) (c : Cmd) : Quiet s (s.begun c) := .of_same rfl rfl rfl rfl rfl
theorem discard_quiet (s : State) (b : Bool) : Quiet s (s.discard b) := .of_same rfl rfl rfl rfl rfl
theorem refuse_quiet (s : State) : Quiet s s.refuse := .of_same rfl rfl rfl rfl rfl

/-! ## Time (R119, R157) -/

theorem upset_shown (c : Store) (u : Upset) :
    (∀ k, (c.upset u).holds k = c.holds k)
      ∧ ∀ k, ((c.upset u).payload k).map Payload.shown = (c.payload k).map Payload.shown := by
  unfold Store.upset
  split
  · exact ⟨fun _ => rfl, fun _ => rfl⟩
  · rename_i y hy
    refine ⟨fun k => c.holds_put _ k _, fun k => ?_⟩
    rw [Store.payload_put]
    split
    · rename_i e
      rw [if_pos (Store.holds_of_payload hy), e, hy]
      rfl
    · rfl

theorem takeUpsets_quiet (s : State) : Quiet s (takeUpsets s) := by
  have fold : ∀ (us : List Upset) (c : Store), (∀ k, (us.foldl Store.upset c).holds k = c.holds k)
      ∧ ∀ k, ((us.foldl Store.upset c).payload k).map Payload.shown = (c.payload k).map Payload.shown := by
    intro us
    induction us with
    | nil => exact fun c => ⟨fun _ => rfl, fun _ => rfl⟩
    | cons u us ih =>
      intro c
      obtain ⟨holds, shown⟩ := ih (c.upset u)
      obtain ⟨holds', shown'⟩ := upset_shown c u
      exact ⟨fun k => (holds k).trans (holds' k), fun k => (shown k).trans (shown' k)⟩
  have store := (takeUpsets_steady s).store
  unfold takeUpsets at *
  split
  · exact .refl s
  · rename_i us rest hs
    rw [hs] at store
    obtain ⟨holds, shown⟩ := fold us s.cst
    have hit : Quiet s (s.setCst (us.foldl Store.upset s.cst)) :=
      State.storeOnly.of_shown (t := s.setCst (us.foldl Store.upset s.cst)) rfl store holds shown
    exact hit.trans (.of_same rfl rfl rfl rfl rfl)

theorem synthesised_alike (w : Row) : w.Alike w.synthesised := by
  unfold Row.synthesised
  split
  · exact .flight w _ id
  · exact .refl w

theorem tick_quiet (s : State) : Quiet s (tick s) := by
  have now : Quiet s { s with now := s.now + 1 } := .of_same rfl rfl rfl rfl rfl
  have rise (t : State) : Quiet t (riseAll t) := .ite (mapRows_quiet fun _ w _ => synthesised_alike w) (.refl t)
  exact (Quiet.ite now (now.trans (rise _))).trans (takeUpsets_quiet _)

/-! ## Priming (R94 to R99) -/

theorem rowIn_rowBit (q r : RowId) : rowIn q (rowBit r) = decide (q = r) := by
  revert q r
  decide

theorem rowIn_without (q r : RowId) (t : RowSet) : rowIn q (t &&& ~~~rowBit r) = (rowIn q t && decide (q ≠ r)) := by
  have bit := rowIn_rowBit q r
  unfold rowIn at *
  rw [BitVec.getLsbD_and, BitVec.getLsbD_not, bit]
  simp

/-- A row whose seed lane is put into another state keeps the agreement of every other part. -/
theorem seedState_agrees {s : State} {w : Row} {d : Bool} (h : s.agrees (.upTo d) w) (y : SeedState) :
    s.agrees ⟨true, true, true, false, d⟩ { w with seed := { w.seed with state := y } } := by
  refine ⟨h.seedView, h.fertView, fun a => ?_, nofun, h.fertDecide⟩
  obtain ⟨speed, seed, fert⟩ := (computed_iff _ _ _).mp (h.compute a)
  exact (computed_iff _ _ _).mpr ⟨speed, congrArg (fun l => { l with state := y }) seed, fert⟩

/-- A seed lane in PRIMING has no decision to agree with. -/
theorem primed_agrees {s : State} {w : Row} {d : Bool} (h : s.agrees (.upTo d) w) (n : Nat) :
    s.agrees (.upTo d) (w.primed n) :=
  have rest := seedState_agrees h (.priming n)
  ⟨rest.seedView, rest.fertView, rest.compute, nofun, rest.fertDecide⟩

/-- The rows of a set leave PRIMING and are decided. -/
theorem endPriming_quiet (rows : RowSet) (s : State) : Quiet s (endPriming rows s) := by
  have rest := State.mapRows_rest s fun r w => if rowIn r rows then w.unprimed else w
  have same : s.sameSetup (s.mapRows fun r w => if rowIn r rows then w.unprimed else w) :=
    .of_eq (fun _ => by rw [rest]) (mapRows_setup s _)
  refine .of_pass (by rw [rest]) (by rw [rest]; exact id) (by rw [rest]) fun r w hw => ?_
  rw [State.row_mapRows] at hw
  obtain ⟨v, hv, rfl⟩ := Option.map_eq_some_iff.mp hw
  refine ⟨v, hv, ?_⟩
  by_cases hr : rowIn r rows = true
  · simp only [hr, if_true]
    exact ⟨rfl, nofun, id, nofun, fun _ d agree => same.agrees (seedState_agrees agree _)⟩
  · simp only [hr]
    exact ⟨rfl, id, id, fun _ ported => same.ported ported, fun _ d agree => same.agrees agree⟩

theorem endPriming_primes (rows : RowSet) (s : State) (r : RowId) :
    (endPriming rows s).primes r = (s.primes r && !rowIn r rows) := by
  unfold endPriming
  rw [pass_primes]
  unfold State.primes
  rw [State.row_mapRows]
  cases s.row r with
  | none => rfl
  | some w => cases rowIn r rows <;> simp [Row.priming, Row.unprimed]

/-- A row that does not prime leaves the rows still to prime (R96 to R98). -/
theorem leavePriming_quiet {r : RowId} (b : Bool) {s : State} (hr : s.primes r = false) :
    Quiet s (leavePriming r b s) := by
  have agreeing : Agreeing s (leavePriming r b s) := by
    unfold leavePriming
    split
    · exact .ite (complete_agreeing s _) (.of_same rfl rfl rfl rfl)
    · exact (Quiet.refl s).toAgreeing
  refine ⟨agreeing, fun named q hq => ?_⟩
  have old := named q (agreeing.primes q hq)
  have other : q ≠ r := fun e => by
    rw [← e, agreeing.primes q hq] at hr
    cases hr
  unfold leavePriming
  split
  · rename_i named' still stalled hp
    rw [hp] at old
    have left : rowIn q (still &&& ~~~rowBit r) = true := by
      rw [rowIn_without, decide_eq_true other, Bool.and_true]
      exact old
    dsimp only
    split
    · rename_i e
      rw [e] at left
      simp [rowIn] at left
    · exact left
  · exact old

/-- A row's priming ends, and it leaves the rows still to prime (R96, R97). -/
theorem primingEnds_quiet (r : RowId) (b : Bool) (s : State) :
    Quiet s (leavePriming r b (endPriming (rowBit r) s)) :=
  (endPriming_quiet _ s).trans (leavePriming_quiet b (by simp [endPriming_primes, rowIn_rowBit]))

/-- A priming row with another hole count (R96). -/
theorem primed_quiet {s : State} {r : RowId} {w : Row} (hw : s.row r = some w) {m : Nat}
    (hm : w.seed.state = .priming m) (n : Nat) : Quiet s (s.modRow r (·.primed n)) := by
  rw [State.modRow_eq_setRow, hw]
  have same : s.sameSetup (s.setRow r (some (w.primed n))) := .of_eq (fun _ => rfl) rfl
  have rows : ∀ q v, (s.setRow r (some (w.primed n))).row q = some v → s.row q = some v ∨ q = r ∧ v = w.primed n :=
    fun q v hv => by
      rw [State.row_setRow] at hv
      split at hv
      · exact .inr ⟨‹_›, (Option.some.inj hv).symm⟩
      · exact .inl hv
  have primes : ∀ q, (s.setRow r (some (w.primed n))).primes q = true → s.primes q = true := fun q hq => by
    obtain ⟨v, hv, priming⟩ := Option.any_eq_true _ _ |>.mp hq
    rcases rows q v hv with old | ⟨rfl, rfl⟩
    · rw [State.primes, old]
      exact priming
    · simp [State.primes, hw, Row.priming, hm]
  refine ⟨⟨rfl, id, fun ported q v hv => ?_, fun _ d agree q v hv => ?_, primes⟩, named_of_primes rfl primes⟩
  · rcases rows q v hv with old | ⟨rfl, rfl⟩
    · exact same.ported (ported q v old)
    · obtain ⟨meter, valve, stall⟩ := ported q w hw
      refine same.ported ⟨?_, valve, stall⟩
      have drive : (w.primed n).seed.drive = w.seed.drive := rfl
      rw [drive, meter]
      unfold State.meterDrive
      rw [hm]
      rfl
  · rcases rows q v hv with old | ⟨rfl, rfl⟩
    · exact same.agrees (agree q v old)
    · exact same.agrees (primed_agrees (agree q w hw) n)

theorem primingHole_quiet (r : RowId) (s : State) : Quiet s (primingHole r s) := by
  unfold primingHole
  split
  · exact .refl s
  · rename_i w hw
    split
    · rename_i n hn
      exact .ite (primingEnds_quiet r false s) (primed_quiet hw hn _)
    · exact .refl s

theorem primingStall_quiet (r : RowId) (s : State) : Quiet s (primingStall r s) := by
  unfold primingStall
  split
  · exact .refl s
  · exact .ite (primingEnds_quiet r true s) (.refl s)

/-! ## Seed flight (R103 to R120) -/

/-- A row's flight state replaced by one with its stall timer and METER STALL. -/
theorem setFlight_quiet {r : RowId} {s : State} {w : Row} (hw : s.row r = some w) {f : Flight}
    (due : f.stallDue = w.sfm.stallDue) (stalled : f.stalled = w.sfm.stalled) :
    Quiet s (modFlight r (fun _ => f) s) :=
  modRow_quiet fun v hv => .flight v f <| by
    rw [hw] at hv
    cases hv
    unfold Row.stallWf
    rw [due, stalled]
    exact id

theorem noteMatched_quiet (r : RowId) (s : State) : Quiet s (noteMatched r s) := by
  unfold noteMatched
  split
  · exact .refl s
  · rename_i w hw
    exact .ite ((setFlight_quiet (f := { w.sfm.matched with blocked := false }) hw rfl rfl).trans (raiseHealth_quiet _ r))
      (setFlight_quiet hw rfl rfl)

theorem noteSkip_quiet (r : RowId) (s : State) : Quiet s (noteSkip r s) := by
  unfold noteSkip
  split
  · exact .refl s
  · rename_i w hw
    exact .ite ((setFlight_quiet (f := { w.sfm.skipped with blocked := true, window := [] }) hw rfl rfl).trans
      (raiseHealth_quiet _ r)) (setFlight_quiet hw rfl rfl)

theorem dropOldest_quiet (r : RowId) (s : State) : Quiet s (dropOldest r s) :=
  modFlight_quiet (fun _ => rfl) fun _ => rfl

theorem creditEntry_quiet (e : Entry) (c : Sub → SeedCredit) (s : State) : Quiet s (creditEntry e c s) := by
  unfold creditEntry
  split
  · exact .refl s
  · exact creditSeed_quiet _ _ s

theorem resolveMatched_quiet (r : RowId) (s : State) : Quiet s (resolveMatched r s) := by
  unfold resolveMatched
  split
  · exact .refl s
  · exact ((creditEntry_quiet _ _ s).trans (noteMatched_quiet r _)).trans (dropOldest_quiet r _)

theorem resolveUnseen_quiet (r : RowId) (s : State) : Quiet s (resolveUnseen r s) := by
  refine .ite (dropOldest_quiet r s) ?_
  unfold resolveSkip
  split
  · exact .refl s
  · exact ((creditEntry_quiet _ _ s).trans (noteSkip_quiet r _)).trans (dropOldest_quiet r _)

theorem overflow_quiet {resolve : State → State} (h : ∀ s, Quiet s (resolve s)) (r : RowId) (s : State) :
    Quiet s (overflow resolve r s) := by
  unfold overflow
  split
  · exact .refl s
  · exact .ite ((h s).trans (modFlight_quiet (fun _ => rfl) fun _ => rfl)) (.refl s)

theorem joinEntry_quiet (r : RowId) (target : State → Row → Option (Key × Sub)) (s : State) :
    Quiet s (joinEntry r target s) :=
  modRow_quiet fun w _ => .flight w _ id

/-- A hole event starts the stall timer afresh where the port carries 50 or more (R116). -/
theorem holed_alike (w : Row) (now stallTime : Nat) : w.Alike (w.holed now stallTime) := by
  refine .flight w _ fun _ => ⟨fun low => ?_, fun high _ => ?_⟩
  · exact if_neg (Nat.not_le.mpr low)
  · exact congrArg Option.isSome (if_pos high)

theorem holeSeen_quiet (r : RowId) (s : State) : Quiet s (holeSeen r s) := by
  have holed : Quiet s (s.modRow r (·.holed s.now s.settings.stallTime)) := modRow_quiet fun w _ => holed_alike w _ _
  unfold holeSeen
  split
  · exact .refl s
  · exact .ite (holed.trans (raiseHealth_quiet _ r)) holed

theorem holePassed_quiet (r : RowId) (s : State) : Quiet s (holePassed r s) := by
  have seen := holeSeen_quiet r s
  unfold holePassed
  dsimp only
  split
  · exact (seen.trans (overflow_quiet (resolveUnseen_quiet r) r _)).trans (joinEntry_quiet r _ _)
  · exact seen.trans (primingHole_quiet r _)
  · exact seen

theorem occlusionStarts_quiet (r : RowId) (s : State) : Quiet s (occlusionStarts r s) := by
  have started : Quiet s (modFlight r (fun f => { f with line := .occluded, occlusionDue := some (s.now + stuckTime) }) s) :=
    modFlight_quiet (fun _ => rfl) fun _ => rfl
  refine .ite (started.trans (.ite (resolveMatched_quiet r _) ?_)) started
  unfold extraSeed
  dsimp only
  have marked (t : State) : Quiet t (modFlight r (fun f => { f with underflowSeen := true }) t) :=
    modFlight_quiet (fun _ => rfl) fun _ => rfl
  split
  · exact marked _
  · split
    · exact (marked _).trans (creditSeed_quiet _ _ _)
    · exact marked _

theorem occlusionEnds_quiet (r : RowId) (s : State) : Quiet s (occlusionEnds r s) := by
  have ended : Quiet s (modFlight r (fun f => { f with line := .clear, occlusionDue := none, stuck := false }) s) :=
    modFlight_quiet (fun _ => rfl) fun _ => rfl
  exact .ite (ended.trans (raiseHealth_quiet _ r)) ended

theorem enterStuck_quiet (r : RowId) (s : State) : Quiet s (enterStuck r s) := by
  have entered : Quiet s (modFlight r (fun f => { f with occlusionDue := none, stuck := true }) s) :=
    modFlight_quiet (fun _ => rfl) fun _ => rfl
  exact .ite entered (entered.trans (raiseHealth_quiet _ r))

theorem enterStall_quiet (r : RowId) (s : State) : Quiet s (enterStall r s) := by
  have entered : Quiet s (modFlight r (fun f => { f with stallDue := none, stalled := true }) s) :=
    modRow_quiet fun w _ => .flight w _ fun _ => ⟨fun _ => rfl, nofun⟩
  exact (Quiet.ite entered (entered.trans (raiseHealth_quiet _ r))).trans (primingStall_quiet r _)

theorem synthHole_quiet (r : RowId) (s : State) : Quiet s (synthHole r s) := by
  have taken : Quiet s (modFlight r (fun f => { f with synth := f.synth - holeMicros }) s) :=
    modFlight_quiet (fun _ => rfl) fun _ => rfl
  exact (taken.trans (overflow_quiet (dropOldest_quiet r) r _)).trans (joinEntry_quiet r (fun _ _ => none) _)

/-! ## Flow (R122 to R135) -/

theorem startConversion_quiet (r : Option RowId) (s : State) : Quiet s (startConversion r s) := by
  unfold startConversion
  split
  · exact setFsc_quiet s _
  · exact setFsc_quiet s _

theorem flowStep_quiet (r : RowId) (code : AdcCode) (s : State) : Quiet s (flowStep r code s) :=
  .ite (.refl s) (modFlow_quiet fun _ => rfl)

theorem counted_trim (f : FlowState) (b : Bool) : (f.counted b).trim = f.trim := by
  unfold FlowState.counted
  split <;> rfl

theorem faultStep_quiet (r : RowId) (code : AdcCode) (s : State) : Quiet s (faultStep r code s) := by
  unfold faultStep
  split
  · exact .refl s
  · rename_i f hf
    have counted (b : Bool) : Quiet s (modFlow r (fun _ => { f.counted (isRail code) with sensorFault := b }) s) :=
      modRow_quiet fun w hw => .flow w (fun _ => { f.counted (isRail code) with sensorFault := b }) fun l hl => by
        have e : l.flow = f := by simpa [State.flowOf, State.fertOf, hw, hl] using hf
        rw [e]
        exact counted_trim f _
    exact .ite (counted _) ((counted _).trans (raiseHealth_quiet _ r))

theorem creditStep_quiet (r : RowId) (code : AdcCode) (s : State) : Quiet s (creditStep r code s) := by
  have time (t u : State) (h : Quiet s t) : Quiet s (modFlow r (fun f => { f with prevTime := some u.now }) t) :=
    h.trans (modFlow_quiet fun _ => rfl)
  refine time _ s (.ite ?_ (.refl s))
  split
  · exact .refl s
  · refine (modFlow_quiet (r := r) (f := fun f => { f with estimated := f.sensorFault }) fun _ => rfl).trans ?_
    unfold deliverVolume
    split
    · exact .refl _
    · exact creditFert_quiet _ _ _

theorem noFlowStep_quiet (r : RowId) (code : AdcCode) (s : State) : Quiet s (noFlowStep r code s) := by
  unfold noFlowStep
  split
  · exact .refl s
  · split
    · exact .ite ((modFlow_quiet (f := fun f => { f with noFlow := false }) fun _ => rfl).trans (raiseHealth_quiet _ r))
        (.refl s)
    · exact .ite ((modFlow_quiet (f := fun f => { f with noFlow := true, lowRun := 0 }) fun _ => rfl).trans
        (raiseHealth_quiet _ r)) (modFlow_quiet fun _ => rfl)

/-- A row with another flow state keeps the agreement of every part but its results. -/
theorem flow_agrees {s : State} {w : Row} {d : Bool} (h : s.agrees (.upTo d) w) (g : FlowState → FlowState) :
    s.agrees ⟨true, true, false, d, d⟩ { w with fert := w.fert.map fun l => { l with flow := g l.flow } } := by
  refine ⟨h.seedView, fun a l hl => ?_, nofun, h.seedDecide, fun a l hl => ?_⟩
  · obtain ⟨m, hm, rfl⟩ := Option.map_eq_some_iff.mp hl
    exact h.fertView a m hm
  · obtain ⟨m, hm, rfl⟩ := Option.map_eq_some_iff.mp hl
    exact h.fertDecide a m hm

/-- A row's flow state, its trim too, changed and the row computed anew (R74, R131). -/
theorem trim_quiet (r : RowId) (g : FlowState → FlowState) (s : State) :
    Quiet s (passRow .results r (modFlow r g s)) := by
  unfold passRow modFlow
  rw [State.modRow_eq_mapRows]
  have rest := State.mapRows_rest s fun q w =>
    if q = r then { w with fert := w.fert.map fun l => { l with flow := g l.flow } } else w
  have same := State.sameSetup.of_eq (s := s) (fun _ => by rw [rest]) (mapRows_setup s fun q w =>
    if q = r then { w with fert := w.fert.map fun l => { l with flow := g l.flow } } else w)
  refine .of_pass (by rw [rest]) (by rw [rest]; exact id) (by rw [rest]) fun q w hw => ?_
  rw [State.row_mapRows] at hw
  obtain ⟨v, hv, rfl⟩ := Option.map_eq_some_iff.mp hw
  refine ⟨v, hv, ?_⟩
  by_cases hq : q = r
  · simp only [hq, if_true]
    exact ⟨rfl, id, id, nofun, fun _ d agree => same.agrees (flow_agrees agree g)⟩
  · simp only [hq, if_false]
    exact ⟨rfl, id, id, fun _ ported => same.ported ported, fun _ d agree => same.agrees agree⟩

theorem trimStep_quiet (r : RowId) (code : AdcCode) (s : State) : Quiet s (trimStep r code s) := by
  unfold trimStep
  split
  · exact .refl s
  · split
    · exact .refl s
    · exact .ite (trim_quiet r _ s) (.refl s)

theorem takeCode_quiet (r : RowId) (code : AdcCode) (s : State) : Quiet s (takeCode r code s) :=
  ((((flowStep_quiet r code s).trans (faultStep_quiet r code _)).trans (creditStep_quiet r code _)).trans
    (noFlowStep_quiet r code _)).trans (trimStep_quiet r code _)

end Sys2Proof.Machine
end

section
/-! What the motion, the settings and the modes keep of the outputs and the lanes. -/

namespace Sys2Proof.Machine

/-! ## Computations after a change of the speed (R41, R53, R65) -/

/-- A change of the Motion Unit and the events, before the rows are computed anew, that leaves the fix state and the work
switch. -/
def State.speedOnly (s a : State) : Prop :=
  a = { s with mot := a.mot, evu := a.evu } ∧ a.mot.fixState = s.mot.fixState ∧ a.mot.switch = s.mot.switch

theorem computeAll_quiet {s a : State} (h : s.speedOnly a) : Quiet s (computeAll a) := by
  obtain ⟨rest, state, level⟩ := h
  refine Rebased.quiet (x := .results) ⟨by rw [rest], by rw [rest]; exact id, by rw [rest], fun r w hw => ?_,
    fun d w agree => ?_⟩ rfl
  · rw [rest] at hw
    exact ⟨w, hw, .refl w⟩
  · obtain ⟨seed, fert, -, seedDecide, fertDecide⟩ := agree.mono (rest_within .results d)
    have view : a.viewAt = s.viewAt := viewAt_congr (fun _ => by rw [rest]) (by rw [rest]) (by rw [rest])
    have decision : a.decided = s.decided := decided_congr (by rw [rest]) level state (by rw [rest])
    exact ⟨by rwa [view], by rwa [view], nofun, by rwa [decision], by rwa [decision]⟩

theorem computeAll_self (s : State) : Quiet s (computeAll s) := computeAll_quiet ⟨rfl, rfl, rfl⟩

theorem speedSample_quiet (v : Nat) (s : State) : Quiet s (speedSample v s) := computeAll_quiet ⟨rfl, rfl, rfl⟩

/-- A speed sample after a change of the speed source. -/
theorem sourceSample_quiet (v : Nat) (m : Motion) {s : State} (state : m.fixState = s.mot.fixState)
    (level : m.switch = s.mot.switch) : Quiet s (speedSample v (s.setMot m)) := computeAll_quiet ⟨rfl, state, level⟩

theorem testSilence_quiet (s : State) : Quiet s (testSilence s) :=
  .ite (.of_same rfl rfl rfl rfl rfl) (.refl s)

theorem testFallback_speedOnly (s : State) : s.speedOnly (testFallback s) := by
  unfold testFallback
  split
  · exact ⟨rfl, rfl, rfl⟩
  · exact ⟨rfl, rfl, rfl⟩

theorem fallbackSample_quiet (s : State) : Quiet s (fallbackSample s) :=
  .ite (computeAll_quiet (testFallback_speedOnly s)) (.refl s)

theorem returnTest_quiet (s : State) : Quiet s (returnTest s) :=
  .ite (.of_same rfl rfl rfl rfl rfl) (.refl s)

theorem windowSample_quiet (was : SpeedSource) (s : State) : Quiet s (windowSample was s) :=
  .ite (speedSample_quiet _ s) (.ite (computeAll_self s) (.refl s))

/-- The sample after the fallback test computes the rows where the test set the reference speed (R38, R41). -/
theorem windowSample_testFallback (s : State) : Quiet s (windowSample s.mot.source (testFallback s)) := by
  by_cases due : s.fallbackDue = true
  · have fallen : testFallback s = (s.setMot { s.mot with source := .fix, vRef := s.mot.fixSpeed }).raise .speedFallback :=
      if_pos due
    have source : s.mot.source = .pulse := by
      simp only [State.fallbackDue, Bool.and_eq_true, decide_eq_true_eq] at due
      exact due.1.1.1.1
    have sampled : windowSample .pulse (testFallback s) = computeAll (testFallback s) := by
      rw [fallen]
      rfl
    rw [source, sampled]
    exact computeAll_quiet (testFallback_speedOnly s)
  · have same : testFallback s = s := if_neg due
    rw [same]
    exact windowSample_quiet _ s

theorem testSilence_source (s : State) : (testSilence s).mot.source = s.mot.source := by
  unfold testSilence
  split <;> rfl

theorem closeWindow_quiet (s : State) : Quiet s (closeWindow s) := by
  have pulses : Quiet s (s.setMot (s.mot.windowWithPulses s.settings)) := .of_same rfl rfl rfl rfl rfl
  have empty : Quiet s (s.setMot (s.mot.windowWithoutPulses s.settings)) := .of_same rfl rfl rfl rfl rfl
  unfold closeWindow
  dsimp only
  split
  · exact (pulses.trans (returnTest_quiet _)).trans (windowSample_quiet _ _)
  · split
    · have tested := windowSample_testFallback (testSilence (s.setMot (s.mot.windowWithoutPulses s.settings)))
      rw [testSilence_source] at tested
      exact (empty.trans (testSilence_quiet _)).trans tested
    · exact empty.trans (windowSample_quiet _ _)

/-! ## The fix state (R31) -/

/-- CURRENT and STALE give the same decisions (R86). -/
theorem enterStale_quiet {s : State} (h : s.mot.fixState = .current) : Quiet s (enterStale s) := by
  refine .of_rows rfl id ⟨viewAt_congr (fun _ => rfl) rfl rfl, rfl, rfl, ?_, rfl, rfl⟩ rfl fun r w hw => ⟨w, hw, .refl w⟩
  refine decided_of_position rfl rfl ?_ rfl
  funext v
  simp [State.noPosition, enterStale, h]

theorem enterLost_quiet (s : State) : Quiet s (enterLost s) := by
  refine Rebased.quiet (s := s) (x := .also .results .decisions) ⟨rfl, id, rfl, fun r w hw => ⟨w, hw, .refl w⟩,
    fun d w agree => ?_⟩ rfl
  obtain ⟨seed, fert, -, -, -⟩ := agree.mono (rest_within (.also .results .decisions) d)
  exact ⟨seed, fert, nofun, nofun, nofun⟩

/-! ## Decisions after a change of the mode or the work switch (R43, R82, R83) -/

/-- A change that reaches decisions alone, before every lane is re-decided. -/
structure State.undecided (s a : State) : Prop where
  reset : a.inReset = s.inReset
  store : a.cst = s.cst
  progress : a.cmu.progress = s.cmu.progress
  settings : a.settings = s.settings
  fallback : a.ren.fallback = s.ren.fallback
  speed : a.mot.vRef = s.mot.vRef
  yaw : a.mot.yawRef = s.mot.yawRef
  rows : ∀ r w, a.row r = some w → ∃ v, s.row r = some v ∧ v.Alike w

theorem decideAll_quiet {s a : State} (h : s.undecided a) : Quiet s (decideAll a) := by
  obtain ⟨reset, store, progress, settings, fallback, speed, yaw, rows⟩ := h
  refine Rebased.quiet (x := .decisions) ⟨reset, store ▸ id, progress, rows, fun d w agree => ?_⟩ rfl
  obtain ⟨seed, fert, compute, -, -⟩ := agree.mono (rest_within .decisions d)
  have view : a.viewAt = s.viewAt := viewAt_congr (fun _ => by rw [store]) (by rw [settings]) fallback
  exact ⟨by rwa [view], by rwa [view], by rwa [speed, yaw], nofun, nofun⟩

theorem settledPass_closed (x y : Bool) : (Pass.also .decisions (.refresh x y)).closed = true := by
  revert x y
  decide

theorem settledPass_rest (x y d : Bool) :
    ((Pass.also .decisions (.refresh x y)).rest d).within ⟨true, true, true, false, false⟩ = true := by
  revert x y d
  decide

/-- A settle at such a change, with every lane re-decided (R23, R83). -/
theorem settleAndDecide_quiet {s a : State} (h : s.undecided a) : Quiet s (settleAndDecide a).1 := by
  obtain ⟨reset, store, progress, settings, fallback, speed, yaw, rows⟩ := h
  have only := settleRecords_storeOnly a
  unfold settleAndDecide
  refine .of_pass (by rw [only.inReset, reset]) (fun wf => settleRecords_wf (store ▸ wf)) (by rw [only.cmu, progress])
    fun r w hw => ?_
  rw [only.row] at hw
  obtain ⟨v, hv, alike⟩ := rows r w hw
  refine ⟨v, hv, settledPass_closed _ _, fun hp => alike.priming.symm.trans hp, alike.stall, nofun, fun _ d agree => ?_⟩
  have base : a.agrees ⟨true, true, true, false, false⟩ w := by
    obtain ⟨seed, fert, compute, -, -⟩ := alike.agrees agree
    have view : a.viewAt = s.viewAt := viewAt_congr (fun _ => by rw [store]) (by rw [settings]) fallback
    exact ⟨by rwa [view], by rwa [view], by rwa [speed, yaw], nofun, nofun⟩
  refine agrees_of_view base (settledPass_rest _ _ d) only.mot only.decided fun p hs hf => viewAt_settled hw ?_
  cases p
  · simpa [Pass.rest, Pass.refresh, Pass.also, Pass.decisions] using hs rfl
  · simpa [Pass.rest, Pass.refresh, Pass.also, Pass.decisions] using (hf rfl).1

end Sys2Proof.Machine
end

section
/-! What fixes and the commands that configure the rows keep of the outputs and the lanes. -/

namespace Sys2Proof.Machine

/-! ## FIX frames (R55 to R58) -/

/-- A change that keeps every row's flight state, its port and its seed lane's state, and the command in progress. -/
structure Placing (s t : State) : Prop where
  reset : t.inReset = s.inReset
  progress : t.cmu.progress = s.cmu.progress
  rows : ∀ r w, t.row r = some w → ∃ v, s.row r = some v ∧ w.sfm = v.sfm ∧ w.seed.drive = v.seed.drive
    ∧ w.seed.state = v.seed.state

theorem Placing.trans {s t u : State} (h : Placing s t) (g : Placing t u) : Placing s u := by
  refine ⟨g.reset.trans h.reset, g.progress.trans h.progress, fun r w hw => ?_⟩
  obtain ⟨v, hv, flight, drive, state⟩ := g.rows r w hw
  obtain ⟨x, hx, flight', drive', state'⟩ := h.rows r v hv
  exact ⟨x, hx, flight.trans flight', drive.trans drive', state.trans state'⟩

theorem Placing.of_ren {s t : State} (reset : t.inReset = s.inReset) (progress : t.cmu.progress = s.cmu.progress)
    (ren : t.ren = s.ren) : Placing s t :=
  ⟨reset, progress, fun r w hw => ⟨w, by rwa [State.row, ← ren], rfl, rfl, rfl⟩⟩

theorem Placing.mapRows (s : State) {g : RowId → Row → Row}
    (h : ∀ r w, (g r w).sfm = w.sfm ∧ (g r w).seed.drive = w.seed.drive ∧ (g r w).seed.state = w.seed.state) :
    Placing s (s.mapRows g) := by
  have rest := State.mapRows_rest s g
  refine ⟨by rw [rest], by rw [rest], fun r w hw => ?_⟩
  rw [State.row_mapRows] at hw
  obtain ⟨v, hv, rfl⟩ := Option.map_eq_some_iff.mp hw
  exact ⟨v, hv, h r v⟩

theorem offerMisses_placing (keys : List Key) (s : State) : Placing s (offerMisses keys s) := by
  obtain ⟨m, i, e, n, h⟩ := offerMisses_eq keys s
  rw [h]
  exact .of_ren rfl rfl rfl

theorem readAll_placing (s : State) : Placing s (freeFirst (forRows readForRow) s) := by
  obtain ⟨k, n, h⟩ := freeFirst_eq (forRows readForRow) s
  have rest := readForRows_rest s
  rw [h]
  exact .of_ren (by rw [rest]) (by rw [rest]) (by rw [rest])

/-- A pass that makes every part of every row anew. -/
theorem everything_quiet {s t : State} (store : s.cst.wf → t.cst.wf) (h : Placing s t) :
    Quiet s (t.pass fun _ => some .everything) := by
  refine .of_pass h.reset store h.progress fun r w hw => ?_
  obtain ⟨v, hv, flight, drive, state⟩ := h.rows r w hw
  refine ⟨v, hv, rfl, fun hp => ?_, ?_, nofun, fun _ d _ => ⟨nofun, nofun, nofun, nofun, nofun⟩⟩
  · unfold Row.priming at *
    rwa [state] at hp
  · unfold Row.stallWf
    rw [flight, drive]
    exact id

/-- The Row Engine's update at a fix makes every row anew, whatever the tests left of the speed (R58). -/
theorem rowFixUpdate_quiet {s u : State} (f : Fix) (cst : u.cst = s.cst) (h : Placing s u) :
    Quiet s (rowFixUpdate f u) := by
  have store := (rowFixUpdate_holding f u).store
  unfold rowFixUpdate at *
  dsimp only at *
  refine everything_quiet (fun wf => ?_) ?_
  · rw [← (State.pass_follows _ fun _ => some .everything).cst]
    exact store (cst ▸ wf)
  · refine Placing.trans ?_ (readAll_placing _)
    refine Placing.trans ?_ (.mapRows _ fun _ _ => ⟨rfl, rfl, rfl⟩)
    refine Placing.trans ?_ (offerMisses_placing _ _)
    exact h.trans (.mapRows u fun _ _ => ⟨rfl, rfl, rfl⟩)

theorem testSilence_placing (s : State) : Placing s (testSilence s) ∧ (testSilence s).cst = s.cst := by
  unfold testSilence
  split
  · exact ⟨.of_ren rfl rfl rfl, rfl⟩
  · exact ⟨.of_ren rfl rfl rfl, rfl⟩

theorem testFallback_placing (s : State) : Placing s (testFallback s) ∧ (testFallback s).cst = s.cst := by
  unfold testFallback
  split
  · exact ⟨.of_ren rfl rfl rfl, rfl⟩
  · exact ⟨.of_ren rfl rfl rfl, rfl⟩

theorem takeFix_quiet (f : Fix) (s : State) : Quiet s (takeFix f s) := by
  refine .ite (raise_quiet s _) ?_
  have accepted : Placing s (s.setMot (s.mot.accepted f.clamped s.now)) := .of_ren rfl rfl rfl
  obtain ⟨silence, same⟩ := testSilence_placing (s.setMot (s.mot.accepted f.clamped s.now))
  obtain ⟨fallback, same'⟩ := testFallback_placing (testSilence (s.setMot (s.mot.accepted f.clamped s.now)))
  exact rowFixUpdate_quiet f.clamped (same'.trans same) ((accepted.trans silence).trans fallback)

/-! ## SETI (R46, R174) -/

theorem cellSideChanged_quiet (s : State) : Quiet s (cellSideChanged s) := by
  have emptied : Quiet s (s.setCst { s.cst with misses := [], incomplete := false }) :=
    State.storeOnly.of_shown rfl (fun wf => Store.noMisses_wf wf false) (fun _ => rfl) fun _ => rfl
  refine emptied.trans (mapRows_quiet fun _ w _ => ⟨rfl, rfl, rfl, fun l hl => ?_, id⟩)
  obtain ⟨m, hm, rfl⟩ := Option.map_eq_some_iff.mp hl
  exact ⟨m, hm, rfl⟩

theorem speedSourceChanged_quiet (s : State) : Quiet s (speedSourceChanged s) := by
  unfold speedSourceChanged
  split
  · exact sourceSample_quiet _ _ rfl rfl
  · have sampled := sourceSample_quiet s.mot.pulseSpeed { s.mot with source := .pulse } (s := s) rfl rfl
    exact .ite ((sampled.trans (testSilence_quiet _)).trans (fallbackSample_quiet _)) sampled

theorem fallbackChanged_quiet (s : State) : Quiet s (fallbackChanged s) :=
  .ite (fallbackSample_quiet s) (.ite (sourceSample_quiet _ _ rfl rfl) (.refl s))

theorem lostLimitChanged_quiet (s : State) : Quiet s (lostLimitChanged s) :=
  .ite (enterLost_quiet s) (.refl s)

theorem onChange_quiet {α : Type} [DecidableEq α] (old new : α) {f : State → State} (h : ∀ s, Quiet s (f s)) (s : State) :
    Quiet s (onChange old new f s) :=
  .ite (.refl s) (h s)

/-- With no record held, every view is that of a cell without a record or of no point (R1, R59). -/
theorem viewAt_of_noRecords {s t : State} (hs : s.cst.records = []) (ht : t.cst.records = [])
    (fallback : t.ren.fallback = s.ren.fallback) : t.viewAt = s.viewAt := by
  funext p q
  unfold State.viewAt Store.find
  rw [hs, ht, fallback]
  rfl

/-- The settings that decisions follow from (R85 to R88). -/
def Settings.policies (c : Settings) : LossPolicy × Bool × Bool :=
  (c.lossPolicy, c.seedOverlap, c.fertOverlap)

theorem decided_of_policies {s t : State} (mode : t.cmu.mode = s.cmu.mode) (mot : t.mot = s.mot)
    (h : t.settings.policies = s.settings.policies) : t.decided = s.decided := by
  simp only [Settings.policies, Prod.mk.injEq] at h
  obtain ⟨loss, seed, fert⟩ := h
  refine decided_of_position mode (by rw [mot]) ?_ ?_
  · funext v
    rw [State.noPosition, State.noPosition, mot, loss]
  · funext p
    cases p
    · exact seed
    · exact fert

/-- The settings written, before each changed one acts. -/
def State.written (s : State) (new : Settings) : State :=
  (s.setSettings new).setCmu { s.cmu with settingsValid := true }

/-- The settings written leave views and results in agreement, and the decisions too where no policy changes. -/
theorem written_upToDate {s : State} {new : Settings} (side : new.cellSide ≠ s.settings.cellSide → s.cst.records = [])
    (h : s.upToDate true) : (s.written new).upToDate (decide (s.settings.policies = new.policies)) := by
  have view : (s.written new).viewAt = s.viewAt := by
    by_cases same : new.cellSide = s.settings.cellSide
    · exact viewAt_congr (fun _ => rfl) same rfl
    · exact viewAt_of_noRecords (side same) (side same) rfl
  intro r w hw
  obtain ⟨seed, fert, compute, seedDecide, fertDecide⟩ := h r w hw
  refine ⟨by rwa [view], by rwa [view], compute, fun hp => ?_, fun hp => ?_⟩
  · rw [decided_of_policies (s := s) (t := s.written new) rfl rfl (of_decide_eq_true hp).symm]
    exact seedDecide rfl
  · rw [decided_of_policies (s := s) (t := s.written new) rfl rfl (of_decide_eq_true hp).symm]
    exact fertDecide rfl

/-- With no row priming, the settings written leave the outputs as they have to stand. -/
theorem written_ported {s : State} {new : Settings} (calm : ∀ r, s.primes r = false) (h : s.allPorted) :
    (s.written new).allPorted := by
  intro r w hw
  obtain ⟨meter, valve, stall⟩ := h r w hw
  refine ⟨meter.trans ?_, valve, stall⟩
  have rest : w.priming = false := by
    have c := calm r
    rw [State.primes, show s.row r = some w from hw] at c
    exact c
  unfold Row.priming at rest
  unfold State.meterDrive
  split at rest
  · cases rest
  · rename_i x hx
    rw [hx]
    cases x <;> rfl

/-- The changed settings act one after another, but for the policies of the decisions (R46). -/
def settingsActed (old new : Settings) (t : State) : State :=
  onChange old.lostLimit new.lostLimit lostLimitChanged
    (onChange old.fallback new.fallback fallbackChanged
      (onChange old.speedSource new.speedSource speedSourceChanged
        (onChange old.cellSide new.cellSide cellSideChanged t)))

theorem settingsActed_quiet (old new : Settings) (t : State) : Quiet t (settingsActed old new t) :=
  (((onChange_quiet _ _ cellSideChanged_quiet t).trans (onChange_quiet _ _ speedSourceChanged_quiet _)).trans
    (onChange_quiet _ _ fallbackChanged_quiet _)).trans (onChange_quiet _ _ lostLimitChanged_quiet _)

theorem applySettings_eq (new : Settings) (s : State) :
    applySettings new s
      = onChange s.settings.policies new.policies decideAll (settingsActed s.settings new (s.written new)) := rfl

theorem decideAll_upToDate {s : State} (h : s.upToDate false) : (decideAll s).upToDate true :=
  pass_upToDate fun r w hw => ⟨rfl, h r w hw⟩

/-- SETI past its checks: what the changed settings leave out of agreement is decided anew, and with no row priming the
outputs stand as they have to. -/
theorem applySettings_agreeing {s : State} {new : Settings} (side : new.cellSide ≠ s.settings.cellSide → s.cst.records = []) :
    ((∀ r, s.primes r = false) → s.allPorted → (applySettings new s).allPorted)
      ∧ (s.cst.wf → s.current → (applySettings new s).current)
      ∧ (∀ r, (applySettings new s).primes r = true → s.primes r = true) ∧ (applySettings new s).inReset = s.inReset := by
  have acts := settingsActed_quiet s.settings new (s.written new)
  have decides := onChange_quiet s.settings.policies new.policies (fun t => pass_quiet (x := fun _ => some .decisions) fun _ => rfl)
    (settingsActed s.settings new (s.written new))
  have whole := acts.trans decides
  rw [applySettings_eq]
  refine ⟨fun calm ported => whole.ports (written_ported calm ported), fun wf current => ?_, whole.primes, whole.reset⟩
  rw [current_iff] at *
  have agree := acts.lanes wf _ (written_upToDate side current)
  by_cases same : s.settings.policies = new.policies
  · rw [decide_eq_true same] at agree
    exact decides.lanes (acts.store wf) true agree
  · rw [decide_eq_false same] at agree
    rw [onChange, if_neg same]
    exact decideAll_upToDate agree

end Sys2Proof.Machine
end

section
/-! What SETR, SETE, SETF and the modes keep of the outputs and the lanes. -/

namespace Sys2Proof.Machine

/-! ## SETR (R48 to R50) -/

theorem removeRow_quiet (r : RowId) (s : State) : Quiet s (removeRow r s) := by
  refine .of_rows rfl id (.of_eq (fun _ => rfl) rfl) rfl fun q w hw => ⟨w, ?_, .refl w⟩
  have written : (s.setRow r none).row q = some w := hw
  rw [State.row_setRow] at written
  split at written
  · cases written
  · exact written

/-- The reads of a SETR CONFIGURE change the store, the events and the choices alone. -/
theorem readRow_storeOnly (r : RowId) (s : State) : s.storeOnly (freeFirst (readForRow r) s) := by
  obtain ⟨k, n, h⟩ := freeFirst_eq (readForRow r) s
  have rest := readForRow_rest r s
  unfold State.storeOnly
  rw [h, rest]

theorem readRow_keepsShown (r : RowId) (s : State) : s.cst.keepsShown (freeFirst (readForRow r) s).cst := by
  obtain ⟨k, n, h⟩ := freeFirst_eq (readForRow r) s
  have read := readForRow_keepsShown r s
  rw [h]
  exact ⟨read.holds, read.shown⟩

/-- A row configured anew holds nothing that a pass of both its lanes does not make anew. -/
theorem configuredRow_calm (s : State) (r : RowId) (c : RowContext) (old : Option Row) :
    (s.configuredRow r c old).priming = false ∧ (s.configuredRow r c old).stallWf :=
  ⟨rfl, fun _ => rfl, fun high => absurd (show 50 ≤ 0 from high) (by decide)⟩

theorem configureRow_quiet (r : RowId) (c : RowContext) (s : State) : Quiet s (configureRow r c s) := by
  have store (h : s.cst.wf) : (configureRow r c s).cst.wf := (configureRow_steady r c s).store h
  unfold configureRow at *
  dsimp only at *
  generalize ht : (if (s.row r).any (·.unhealthy) then (s.setRow r (some (s.configuredRow r c (s.row r)))).raiseHealth r
    else s.setRow r (some (s.configuredRow r c (s.row r)))) = t at *
  have written : t = { s.setRow r (some (s.configuredRow r c (s.row r))) with evu := t.evu } := by
    rw [← ht]
    split <;> rfl
  have rows (q : RowId) : t.row q = if q = r then some (s.configuredRow r c (s.row r)) else s.row q := by
    rw [written]
    exact State.row_setRow s r q _
  have reads := readRow_storeOnly r t
  have shown := readRow_keepsShown r t
  have reset : t.inReset = s.inReset := by rw [written]; rfl
  have progress : t.cmu.progress = s.cmu.progress := by rw [written]; rfl
  have same : s.sameSetup t := .of_eq (fun _ => by rw [written]; rfl) (by rw [written]; rfl)
  have cst : t.cst = s.cst := by rw [written]; rfl
  unfold reviewLanes at *
  refine .of_pass_or (reads.inReset.trans reset) (fun wf => ?_) (by rw [reads.cmu, progress]) fun q w hw => ?_
  · rw [← (State.pass_follows _ _).cst]
    exact store wf
  · rw [reads.row, rows] at hw
    split at hw
    · rename_i e
      obtain ⟨calm, stall⟩ := configuredRow_calm s r c (s.row r)
      cases hw
      have named : ((freeFirst (readForRow r) t).lanesConfigured r s.cst).pass q = some .everything := by
        simp [Lanes.pass, State.lanesConfigured, e, Pass.refresh, Pass.everything]
      rw [named]
      exact .inr ⟨rfl, calm, stall, nofun, fun d => ⟨nofun, nofun, nofun, nofun, nofun⟩⟩
    · rename_i other
      refine .inl ⟨w, hw, ?_, id, id, fun _ ported => ?_, fun _ d agree => ?_⟩
      · rw [lanesPass_getD]
        exact refresh_closed _ _
      · obtain ⟨meter, valve, stall⟩ := same.ported ported
        exact ⟨reads.meter ▸ meter, reads.valve ▸ valve, stall⟩
      · rw [lanesPass_getD]
        refine agrees_of_view (same.agrees agree) (rest_within _ d) reads.mot reads.decided fun p hs hf => ?_
        have out : (freeFirst (readForRow r) t).lanesConfigured r s.cst p q = false := by
          cases p
          · simpa [Pass.rest, Pass.refresh] using hs rfl
          · simpa [Pass.rest, Pass.refresh] using (hf rfl).1
        have whole := (Bool.or_eq_false_iff.mp out).2
        rw [← cst] at whole
        have hw' : t.row q = some w := by rw [rows, if_neg other, hw]
        exact viewAt_of_lanes reads.seesLike reads.row shown.plan hw' (coverMoved_of_shown shown p q) whole

theorem setRowCommand_agreeing (p : List Byte) (s : State) : Agreeing s (setRowCommand p s) := by
  unfold setRowCommand
  refine .ite (complete_agreeing s _) (.ite (complete_agreeing s _) ?_)
  split
  · exact complete_agreeing s _
  · refine .ite ?_ (.ite (complete_agreeing s _) ?_)
    · exact (removeRow_quiet _ s).toAgreeing.trans (complete_agreeing _ _)
    · exact (configureRow_quiet _ _ s).toAgreeing.trans (complete_agreeing _ _)

/-! ## SETE (R51, R123, R125) -/

theorem timeForgotten_alike (w : Row) : w.Alike w.timeForgotten :=
  .flow w (fun f => { f with prevTime := none }) fun _ _ => rfl

/-- A row with its enabled field written keeps the agreement of every part but its decisions. -/
theorem enabledTo_agrees {s : State} {w : Row} {d : Bool} (h : s.agrees (.upTo d) w) (on : Bool) :
    s.agrees (Pass.decisions.rest d) { w.timeForgotten with ctx := { w.ctx with enabled := on } } := by
  obtain ⟨seed, fert, compute, -, -⟩ := (timeForgotten_alike w).agrees h
  refine ⟨seed, fert, fun _ => ?_, nofun, nofun⟩
  obtain ⟨speed, seedResults, fertResults⟩ := (computed_iff _ _ _).mp (compute rfl)
  exact (computed_iff _ _ _).mpr ⟨speed, seedResults, fertResults⟩

theorem setFsc_setup (s : State) (f : Scanner) : (s.setFsc f).setup = s.setup := rfl

/-- The rows whose enabled field changes are re-decided, whatever becomes of the scan. -/
theorem enabled_quiet (on : RowId → Bool) (f : Scanner) (s : State) :
    Quiet s (((s.mapRows fun r w => w.enabledTo (on r)).setFsc f).pass
      fun r => if (s.row r).any (·.switched (on r)) then some .decisions else none) := by
  have rest := State.mapRows_rest s fun r w => w.enabledTo (on r)
  have same : s.sameSetup ((s.mapRows fun r w => w.enabledTo (on r)).setFsc f) :=
    .of_eq (fun _ => by rw [State.setFsc_cst, State.mapRows_cst]) ((setFsc_setup _ f).trans (mapRows_setup s _))
  refine .of_pass (by rw [State.setFsc_inReset, rest]) (by rw [State.setFsc_cst, State.mapRows_cst]; exact id)
    (by rw [State.setFsc_cmu, rest]) fun r w hw => ?_
  rw [State.row_setFsc, State.row_mapRows] at hw
  obtain ⟨v, hv, rfl⟩ := Option.map_eq_some_iff.mp hw
  refine ⟨v, hv, ?_⟩
  rw [hv, Option.any_some]
  unfold Row.enabledTo
  by_cases switched : v.switched (on r) = true
  · rw [if_pos switched, if_pos switched]
    exact ⟨rfl, id, id, nofun, fun _ d agree => same.agrees (enabledTo_agrees agree _)⟩
  · rw [if_neg switched, if_neg switched]
    exact ⟨rfl, id, id, fun _ ported => same.ported ported, fun _ d agree => same.agrees agree⟩

theorem setEnables_agreeing (p : List Byte) (s : State) : Agreeing s (setEnables p s) := by
  unfold setEnables
  dsimp only
  generalize ht : (s.mapRows fun r w => w.enabledTo (rowIn r (rowSetAt p 0))) = t
  obtain ⟨f, hf⟩ : ∃ f, (if t.fsc.scanning = true ∧ t.scanList ≠ s.scanList then restartScan t else t) = t.setFsc f := by
    split
    · exact ⟨_, startConversion_eq _ t⟩
    · exact ⟨t.fsc, (State.setFsc_self t).symm⟩
  rw [hf, ← ht]
  exact (enabled_quiet (fun r => rowIn r (rowSetAt p 0)) f s).toAgreeing.trans (complete_agreeing _ _)

/-! ## SETF (R60 to R62) -/

/-- A view that does not use the fallback target does not follow it (R59, R60). -/
theorem viewAt_of_found {s t : State} (hc : t.cst = s.cst) (hs : t.settings = s.settings) {p : Product} {q : Option Point}
    (h : (s.viewAt p q).fallback = false) : t.viewAt p q = s.viewAt p q := by
  cases q with
  | none => cases h
  | some q =>
    rw [viewAt_some] at h ⊢
    rw [viewAt_some, hc, hs]
    dsimp only at h ⊢
    split at h
    · rename_i holds
      rw [if_pos holds, if_pos holds]
      cases hy : s.cst.payload (cellOf s.settings.cellSide q) with
      | none => rw [hy] at h; cases h
      | some y => rfl
    · cases h

/-- The fallback targets written, and the lanes on fallback refreshed (R62). -/
theorem fallback_quiet (seed fert : Nat) (s : State) :
    Quiet s (reviewLanes s.lanesOnFallback (s.setRen { s.ren with seedFallback := seed, fertFallback := fert })) := by
  unfold reviewLanes
  refine .of_pass rfl id rfl fun r w hw => ⟨w, hw, ?_, id, id, fun _ ⟨meter, valve, stall⟩ => ⟨meter, valve, stall⟩, ?_⟩
  · rw [lanesPass_getD]
    exact refresh_closed _ _
  · intro _ d agree
    have row : s.row r = some w := hw
    rw [lanesPass_getD]
    refine agrees_of_view agree (rest_within _ d) rfl rfl fun p hs hf => viewAt_of_found (s := s)
      (t := s.setRen { s.ren with seedFallback := seed, fertFallback := fert }) rfl rfl ?_
    cases p
    · rw [Row.point, ← agree.seedView rfl]
      simpa [Pass.rest, Pass.refresh, State.lanesOnFallback, row] using hs rfl
    · obtain ⟨unflagged, l, hl⟩ := hf rfl
      rw [Row.point, hl, Option.bind_some, ← agree.fertView rfl l hl]
      simpa [Pass.rest, Pass.refresh, State.lanesOnFallback, State.fertOf, row, hl] using unflagged

theorem setFallback_agreeing (p : List Byte) (s : State) : Agreeing s (setFallback p s) :=
  (fallback_quiet _ _ s).toAgreeing.trans (complete_agreeing _ _)

end Sys2Proof.Machine
end

section
/-! What the modes, the record commands, the restart and the reset pin keep of the outputs and the lanes. -/

namespace Sys2Proof.Machine

/-! ## The modes (R43, R82, R83) -/

theorem Row.Alike.trans {u v w : Row} (h : u.Alike v) (g : v.Alike w) : u.Alike w := by
  refine ⟨g.ctx.trans h.ctx, g.vr.trans h.vr, ?_, fun l hl => ?_, g.stall ∘ h.stall⟩
  · rw [g.seed, h.seed]
  · obtain ⟨m, hm, e⟩ := g.fert l hl
    obtain ⟨k, hk, e'⟩ := h.fert m hm
    exact ⟨k, hk, by rw [e, e']⟩

theorem undecided_setMode (s : State) (m : Mode) : s.undecided (s.setMode m) :=
  ⟨rfl, rfl, rfl, rfl, rfl, rfl, rfl, fun _ w hw => ⟨w, hw, .refl w⟩⟩

theorem State.undecided.mapRows {s a : State} (h : s.undecided a) {g : RowId → Row → Row} (hg : ∀ r w, Row.Alike w (g r w)) :
    s.undecided (a.mapRows g) := by
  have rest := State.mapRows_rest a g
  have fallback : (a.mapRows g).ren.fallback = a.ren.fallback := by
    funext p
    cases p
    · exact State.mapRows_seedFallback a g
    · exact State.mapRows_fertFallback a g
  refine ⟨(by rw [rest] : (a.mapRows g).inReset = a.inReset).trans h.reset, (State.mapRows_cst a g).trans h.store,
    (by rw [rest] : (a.mapRows g).cmu.progress = a.cmu.progress).trans h.progress,
    (State.mapRows_settings a g).trans h.settings, fallback.trans h.fallback,
    (by rw [State.mapRows_mot] : (a.mapRows g).mot.vRef = a.mot.vRef).trans h.speed,
    (by rw [State.mapRows_mot] : (a.mapRows g).mot.yawRef = a.mot.yawRef).trans h.yaw, fun r w hw => ?_⟩
  rw [State.row_mapRows] at hw
  obtain ⟨v, hv, rfl⟩ := Option.map_eq_some_iff.mp hw
  obtain ⟨u, hu, alike⟩ := h.rows r v hv
  exact ⟨u, hu, alike.trans (hg r v)⟩

theorem State.undecided.setFsc {s a : State} (h : s.undecided a) (f : Scanner) : s.undecided (a.setFsc f) :=
  ⟨h.reset, h.store, h.progress, h.settings, h.fallback, h.speed, h.yaw, h.rows⟩

theorem takeSwitch_quiet (s : State) : Quiet s (takeSwitch s) := by
  have taken : s.undecided
      ((s.setMot { s.mot with switch := s.pins.switch, switchSince := none }).raise .switched) :=
    ⟨rfl, rfl, rfl, rfl, rfl, rfl, rfl, fun _ w hw => ⟨w, hw, .refl w⟩⟩
  exact .ite (settleAndDecide_quiet taken) (decideAll_quiet taken)

theorem startField_quiet (s : State) : Quiet s (startField s) := by
  unfold startField startRun restartScan
  dsimp only
  rw [startConversion_eq]
  exact decideAll_quiet ((((undecided_setMode s .field).mapRows fun _ w => timeForgotten_alike w).setFsc _).setFsc _)

theorem startShadow_quiet (s : State) : Quiet s (startShadow s) :=
  decideAll_quiet ((undecided_setMode s .shadow).mapRows fun _ w => .flight w _ id)

theorem start_agreeing (p : List Byte) (s : State) : Agreeing s (start p s) := by
  unfold start
  refine .ite (complete_agreeing s _) (.ite (complete_agreeing s _) (.ite (complete_agreeing s _)
    (.ite (complete_agreeing s _) ?_)))
  exact (Quiet.ite (startField_quiet s) (startShadow_quiet s)).toAgreeing.trans (complete_agreeing _ _)

theorem stopRun_quiet (s : State) : Quiet s (stopRun s).1 := by
  have emptied (w : Row) : w.Alike w.flightEmptied := .flight w _ id
  unfold stopRun endRun
  exact settleAndDecide_quiet ((((undecided_setMode s .idle).mapRows fun _ w => emptied w).mapRows
    fun _ w => timeForgotten_alike w).setFsc _)

theorem stopCommand_agreeing (p : List Byte) (s : State) : Agreeing s (stopCommand p s) :=
  .ite (complete_agreeing s _) ((stopRun_quiet s).toAgreeing.trans (complete_agreeing _ _))

theorem settleCommand_agreeing (p : List Byte) (s : State) : Agreeing s (settleCommand p s) :=
  (settle_quiet s).toAgreeing.trans (complete_agreeing _ _)

/-! ## Records written and returned (R138 to R150) -/

theorem await_agreeing (s : State) (p : Progress) : Agreeing s (s.await p) := .of_same rfl rfl rfl rfl

theorem loadCells_agreeing (p : List Byte) (s : State) : Agreeing s (loadCells p s) :=
  .ite (complete_agreeing s _) (.ite (complete_agreeing s _) (await_agreeing s _))

theorem returnRecord_agreeing (k : Key) (s : State) : Agreeing s (returnRecord k s) :=
  (readState_quiet k s).toAgreeing.trans (complete_agreeing _ _)

theorem queryCell_agreeing (p : List Byte) (s : State) : Agreeing s (queryCell p s) := by
  refine .ite (.ite (returnRecord_agreeing _ s) (complete_agreeing s _)) (.ite ?_ (complete_agreeing s _))
  unfold queryNext
  split
  · exact returnRecord_agreeing _ s
  · exact complete_agreeing s _

theorem patchRecord_agreeing (k : Key) (f : PatchField) (v : Nat) (s : State) : Agreeing s (patchRecord k f v s) := by
  have read := (readState_quiet k s).toAgreeing
  unfold patchRecord
  refine .ite (complete_agreeing s _) ?_
  dsimp only
  split
  · exact read.trans (complete_agreeing _ _)
  · rename_i y hy
    have written : Quiet (readState k s) (reviewBound k (writePayload k (f.put (min f.most v) y) (readState k s))) :=
      reviewBound_quiet (writePayload_storeOnly _ _ _)
        (writePayload_wf hy fun wf => patchField_wf wf f (Nat.min_le_left _ _)) (fun _ j _ => Store.holds_put _ _ _ _)
        fun _ j hj => Store.payload_put_ne _ _ hj
    exact (read.trans written.toAgreeing).trans (complete_agreeing _ _)

theorem patchCell_agreeing (p : List Byte) (s : State) : Agreeing s (patchCell p s) := by
  unfold patchCell
  split
  · exact complete_agreeing s _
  · exact .ite (complete_agreeing s _) (patchRecord_agreeing _ _ _ s)

theorem mergeRecord_agreeing (k : Key) (add : Bool) (a b : SubSet) (s : State) :
    Agreeing s (mergeRecord k add a b s) := by
  have read := (readState_quiet k s).toAgreeing
  unfold mergeRecord
  refine .ite (complete_agreeing s _) ?_
  dsimp only
  split
  · exact read.trans (complete_agreeing _ _)
  · rename_i y hy
    have merged : y.wf = true →
        ({ y with seedCov := y.seedCov.merged add a, fertCov := y.fertCov.merged add b } : Payload).wf = true := by
      intro wf
      rw [Payload.wf_iff] at *
      obtain ⟨seed, fert, seedCov, fertCov, tallies⟩ := wf
      exact ⟨seed, fert, merged_wf seedCov add a, merged_wf fertCov add b, tallies⟩
    exact (read.trans (writeMoved_quiet hy merged rfl).toAgreeing).trans (complete_agreeing _ _)

theorem mergeCell_agreeing (p : List Byte) (s : State) : Agreeing s (mergeCell p s) :=
  .ite (complete_agreeing s _) (mergeRecord_agreeing _ _ _ _ s)

/-- A record without references lies under no look-ahead point (R14). -/
theorem laneCell_of_unreferenced {s : State} {k : Key} (h : s.refCount k = 0) (p : Product) (r : RowId) :
    s.laneCell p r ≠ some k := by
  intro cell
  unfold State.laneCell at cell
  cases hw : s.row r with
  | none => rw [hw] at cell; cases cell
  | some w =>
    rw [hw] at cell
    obtain ⟨q, hq, e⟩ := Option.map_eq_some_iff.mp cell
    have refs : w.refs s.settings.cellSide k = 0 := by
      have all := List.sum_eq_zero_iff_forall_eq_nat.mp h _ (List.mem_map.mpr ⟨r, rowIds_mem r, rfl⟩)
      rwa [hw] at all
    have mem : q ∈ w.points := by
      unfold Row.points
      cases p <;> simp [hq]
    have none_in := (Nat.add_eq_zero_iff.mp refs).1
    rw [List.countP_eq_zero] at none_in
    exact none_in q mem (decide_eq_true e)

theorem removeRecord_quiet {k : Key} {s : State} (h : s.refCount k = 0) : Quiet s (removeRecord k s) := by
  have only : s.storeOnly (removeRecord k s) := rfl
  have agreeing : Agreeing s (removeRecord k s) := by
    refine ⟨rfl, fun wf => Store.remove_wf wf k, fun ported r w hw => ?_, fun _ d agree r w hw => ?_, fun _ => id⟩
    · obtain ⟨meter, valve, stall⟩ := ported r w hw
      exact ⟨meter, valve, stall⟩
    · refine agrees_of_view (agree r w hw) (by cases d <;> rfl) rfl only.decided fun p _ _ => ?_
      refine viewAt_of_ne (s := s) only.seesLike (k := k) (fun j hj => ?_) (fun j hj => ?_) hw
        (laneCell_of_unreferenced h p r)
      · exact (holds_remove s.cst k j).trans (if_neg hj)
      · exact congrArg (Option.bind · Record.payload) ((Store.find_remove s.cst k j).trans (if_neg hj))
  exact ⟨agreeing, named_of_primes rfl agreeing.primes⟩

theorem refCount_readState (j k : Key) (s : State) : (readState j s).refCount k = s.refCount k := by
  have only := readRecord_storeOnly j s
  rw [(readState_follows j s).refCount]
  unfold State.refCount
  rw [only.row, only.settings]

theorem retireCell_agreeing (p : List Byte) (s : State) : Agreeing s (retireCell p s) := by
  unfold retireCell
  dsimp only
  refine .ite (complete_agreeing s _) ?_
  split
  · exact complete_agreeing s _
  · rename_i free
    have removed := removeRecord_quiet (k := keyAt p 0) (s := readState (keyAt p 0) s)
      (by rw [refCount_readState]; omega)
    exact ((readState_quiet _ s).trans removed).toAgreeing.trans (complete_agreeing _ _)

/-! ## Sweeps, loads and scrubs (R139 to R165) -/

theorem chooseNext_agreeing (w : Sweep) (s : State) : Agreeing s (chooseNext w s) := by
  unfold chooseNext
  split
  · exact await_agreeing s _
  · exact complete_agreeing s _

theorem sweep_agreeing (p : List Byte) (s : State) : Agreeing s (sweep p s) :=
  .ite (complete_agreeing s _) (.ite (complete_agreeing s _) (.ite (complete_agreeing s _) (chooseNext_agreeing _ s)))

theorem transferOffered_agreeing (k : Key) (w : Sweep) (s : State) : Agreeing s (transferOffered k w s).1 := by
  have read := readState_quiet k s
  have taken : Quiet s (if decide (0 < s.refCount k) then readState k s else removeRecord k (readState k s)) := by
    split
    · exact read
    · rename_i free
      exact read.trans (removeRecord_quiet (by rw [refCount_readState]; simpa using free))
  exact taken.toAgreeing.trans (.ite (complete_agreeing _ _) (chooseNext_agreeing _ _))

theorem loadRecord_quiet {k : Key} {y : Payload} {s : State}
    (store : s.cst.wf → (loadRecord k y s).cst.wf) : Quiet s (loadRecord k y s) := by
  unfold loadRecord at *
  dsimp only at *
  have after (t : State) (h : (reviewBound k t).cst.wf) : t.cst.wf := (reviewBound_follows k t).cst ▸ h
  split
  · rename_i held
    rw [if_pos held] at store
    exact reviewBound_quiet rfl (fun wf => after _ (store wf)) (fun _ j _ => Store.holds_put s.cst k j _)
      fun _ j hj => Store.payload_put_ne s.cst _ hj
  · rename_i missing
    rw [if_neg missing] at store
    have find (j : Key) (hj : j ≠ k) : (s.cst.insert ⟨k, some y⟩).find j = s.cst.find j :=
      (Store.find_insert (x := ⟨k, some y⟩) (Bool.eq_false_iff.mpr missing) j).trans (if_neg (Ne.symm hj))
    exact reviewBound_quiet rfl (fun wf => after _ (store wf)) (fun _ j hj => congrArg Option.isSome (find j hj))
      fun _ j hj => congrArg (Option.bind · Record.payload) (find j hj)

theorem deliverRecord_agreeing (p : List Byte) (n loaded : Nat) (clamped : Bool) (s : State) :
    Agreeing s (deliverRecord p n loaded clamped s) := by
  have store := (deliverRecord_loading p n loaded clamped s).store
  unfold deliverRecord at *
  dsimp only at *
  split
  · exact complete_agreeing s _
  · split
    · exact complete_agreeing s _
    · split
      · exact complete_agreeing s _
      · rename_i length sound room
        rw [if_neg length, if_neg sound, if_neg room] at store
        have loads : Quiet s (loadRecord (keyAt p 0) (loadedPayload p) s) := loadRecord_quiet fun wf => by
          have whole := store wf
          split at whole <;> exact whole
        exact loads.toAgreeing.trans (.ite (await_agreeing _ _) (complete_agreeing _ _))

theorem readMisses_agreeing (p : List Byte) (s : State) : Agreeing s (readMisses p s) := by
  have emptied : Quiet s (s.setCst { s.cst with misses := [], incomplete := false }) :=
    State.storeOnly.of_shown rfl (fun wf => Store.noMisses_wf wf false) (fun _ => rfl) fun _ => rfl
  exact emptied.toAgreeing.trans (complete_agreeing _ _)

theorem readStatus_agreeing (p : List Byte) (s : State) : Agreeing s (readStatus p s) := by
  have cleared : Quiet s (s.setCst { s.cst with correctedSeen := false, firstKey := none }) :=
    State.storeOnly.of_shown rfl id (fun _ => rfl) fun _ => rfl
  exact cleared.toAgreeing.trans (complete_agreeing _ _)

theorem scrubStep_agreeing (position : Option Key) (verified : Nat) (s : State) :
    Agreeing s (scrubStep position verified s) := by
  unfold scrubStep
  split
  · exact complete_agreeing s _
  · dsimp only
    split
    · exact (readState_quiet _ s).toAgreeing.trans (.of_same rfl rfl rfl rfl)
    · exact (readState_quiet _ s).toAgreeing.trans (complete_agreeing _ _)

/-! ## Event sets and row status (R184 to R187) -/

theorem setEventEnables_agreeing (p : List Byte) (s : State) : Agreeing s (setEventEnables p s) := .of_same rfl rfl rfl rfl
theorem acknowledge_agreeing (p : List Byte) (s : State) : Agreeing s (acknowledge p s) := .of_same rfl rfl rfl rfl
theorem readChanged_agreeing (p : List Byte) (s : State) : Agreeing s (readChanged p s) := .of_same rfl rfl rfl rfl

theorem readRow_agreeing (p : List Byte) (s : State) : Agreeing s (readRow p s) := by
  unfold readRow
  split
  · exact complete_agreeing s _
  · have read (r : RowId) : Quiet s (s.modRow r Row.flagsRead) := modRow_quiet fun w _ => .flight w _ id
    exact (read _).toAgreeing.trans (complete_agreeing _ _)

end Sys2Proof.Machine
end

section
/-! What every command keeps of the outputs and the lanes, and the settlements of O14 and O16. -/

namespace Sys2Proof.Machine

/-! ## Commands in progress (R92, R95) -/

/-- A step keeps what O14 and O16 speak of. -/
structure Keeps (s t : State) : Prop where
  outputs : s.outputsWf → t.outputsWf
  lanes : s.cst.wf → s.current → t.current

theorem Keeps.refl (s : State) : Keeps s s := ⟨id, fun _ => id⟩

theorem Agreeing.current {s t : State} (h : Agreeing s t) (wf : s.cst.wf) (c : s.current) : t.current :=
  (current_iff t).mpr (h.lanes wf true ((current_iff s).mp c))

theorem Quiet.keeps {s t : State} (h : Quiet s t) (reset : s.inReset = false) : Keeps s t := by
  refine ⟨fun outputs => ?_, h.current⟩
  rw [outputsWf_iff reset] at outputs
  rw [outputsWf_iff (h.reset.trans reset)]
  exact ⟨h.ports outputs.1, h.named outputs.2⟩

/-- No row primes while no command has a row still to prime. -/
theorem calm_of_still {s : State} (named : s.primesNamed) (still : s.cmu.progress.still = 0) (r : RowId) :
    s.primes r = false := by
  rw [Bool.eq_false_iff]
  intro hp
  have member := named r hp
  rw [still] at member
  simp [rowIn] at member

/-- A step to which no row primes keeps the priming rows to those still to prime. -/
theorem named_of_calm {s : State} (h : ∀ r, s.primes r = false) : s.primesNamed := fun r hr => by
  rw [h r] at hr
  cases hr

theorem Agreeing.keeps {s t : State} (h : Agreeing s t) (reset : s.inReset = false)
    (still : s.cmu.progress.still = 0) : Keeps s t := by
  refine ⟨fun outputs => ?_, h.current⟩
  rw [outputsWf_iff reset] at outputs
  rw [outputsWf_iff (h.reset.trans reset)]
  refine ⟨h.ports outputs.1, named_of_calm fun r => ?_⟩
  rw [Bool.eq_false_iff]
  exact fun hp => Bool.false_ne_true ((calm_of_still outputs.2 still r).symm.trans (h.primes r hp))

section
variable {s : State} {code : BitVec 5} {c : Cmd} {run : List Byte → State → State}

theorem takeCommand_agrees (h : ∀ p t, t.inReset = false → t.cmu.progress = .idle → Keeps t (run p t)) :
    Keeps s (takeCommand code c run s) := by
  refine takeCommand_induct (P := Keeps s) (.refl s) (fun reset => ?_) (fun reset _ => ?_) fun reset idle => ?_
  · exact ((shifted_quiet s _).trans (discard_quiet _ true)).keeps reset
  · exact ((shifted_quiet s _).trans (refuse_quiet _)).keeps reset
  · have begun := (begun_quiet s c).keeps reset
    have runs := h c.payload (s.begun c) reset idle
    exact ⟨runs.outputs ∘ begun.outputs, fun wf current => runs.lanes wf (begun.lanes wf current)⟩

/-- A command of which every part keeps the outputs gated and the lanes current. -/
theorem takeCommand_agreeing (h : ∀ p t, Agreeing t (run p t)) : Keeps s (takeCommand code c run s) :=
  takeCommand_agrees fun p t reset idle => (h p t).keeps reset (by rw [idle]; rfl)

theorem withLength_agreeing {n : Nat} (h : ∀ p t, Agreeing t (run p t)) (p : List Byte) (t : State) :
    Agreeing t (withLength n run p t) :=
  .ite (h p t) (complete_agreeing t _)

theorem arrive_agrees {cls : FrameClass} {low : BitVec 5} {p : List Byte} {x : Byte} {after : Nat}
    {taken : State → State} (h : ∀ t, t.inReset = false → Keeps t (taken t)) :
    Keeps s (arrive cls low p x after taken s) := by
  refine arrive_induct (P := Keeps s) (.refl s) (fun reset => ?_) fun reset _ => ?_
  · exact ((shifted_quiet s _).trans (discard_quiet _ _)).keeps reset
  · have shifted := (shifted_quiet s (3 + p.length + after)).keeps reset
    have takes := h (s.shifted (3 + p.length + after)) reset
    exact ⟨takes.outputs ∘ shifted.outputs, fun wf current => takes.lanes wf (shifted.lanes wf current)⟩

theorem whenReleased_agrees {f : State → State} (h : s.inReset = false → Keeps s (f s)) : Keeps s (whenReleased f s) := by
  by_cases reset : s.inReset = true
  · rw [whenReleased_inReset reset]
    exact .refl s
  · have released := Bool.eq_false_iff.mpr reset
    rw [whenReleased_released released]
    exact h released

theorem whenReleased_quiet {f : State → State} (h : Quiet s (f s)) : Keeps s (whenReleased f s) :=
  whenReleased_agrees h.keeps

end

/-! ## PRIM (R94, R95) -/

/-- The rows of a set start priming, and no other row is touched (R95). -/
theorem startPriming_starts (n : Nat) (rows : RowSet) (s : State) :
    (s.allPorted → (startPriming n rows s).allPorted) ∧ (∀ d, s.upToDate d → (startPriming n rows s).upToDate d)
      ∧ ∀ r, (startPriming n rows s).primes r = true → s.primes r = true ∨ rowIn r rows = true := by
  have rest := State.mapRows_rest s fun r w => if rowIn r rows then w.primed n else w
  have same : s.sameSetup (s.mapRows fun r w => if rowIn r rows then w.primed n else w) :=
    .of_eq (fun _ => by rw [State.mapRows_cst]) (mapRows_setup s _)
  unfold startPriming
  refine ⟨fun ported => pass_ported fun r w hw => ?_, fun d agree => pass_upToDate fun r w hw => ?_, fun r hr => ?_⟩
  · rw [State.row_mapRows] at hw
    obtain ⟨v, hv, rfl⟩ := Option.map_eq_some_iff.mp hw
    have old := ported r v hv
    by_cases hr : rowIn r rows = true
    · simp only [hr, if_true]
      exact ⟨old.stall, nofun⟩
    · simp only [hr]
      exact ⟨old.stall, fun _ => same.ported old⟩
  · rw [State.row_mapRows] at hw
    obtain ⟨v, hv, rfl⟩ := Option.map_eq_some_iff.mp hw
    by_cases hr : rowIn r rows = true
    · simp only [hr, if_true]
      exact ⟨rfl, same.agrees (primed_agrees (agree r v hv) n)⟩
    · simp only [hr]
      exact ⟨rfl, same.agrees (agree r v hv)⟩
  · rw [pass_primes, State.primes, State.row_mapRows] at hr
    by_cases member : rowIn r rows = true
    · exact .inr member
    · simp only [member] at hr
      exact .inl (by simpa [State.primes] using hr)

theorem primeMeters_keeps (p : List Byte) {s : State} (reset : s.inReset = false) (idle : s.cmu.progress = .idle) :
    Keeps s (primeMeters p s) := by
  have still : s.cmu.progress.still = 0 := by rw [idle]; rfl
  have ends (k : Completion) : Keeps s (s.complete k) := (complete_agreeing s k).keeps reset still
  unfold primeMeters
  dsimp only
  split
  · exact ends _
  split
  · exact ends _
  split
  · exact ends _
  split
  · exact ends _
  generalize rowSetAt p 0 = rows
  have named : Agreeing s (s.setCmu { s.cmu with progress := .prim rows rows 0 }) := .of_same rfl rfl rfl rfl
  obtain ⟨ports, lanes, primes⟩ := startPriming_starts (natAt p 4 1) rows (s.setCmu { s.cmu with progress := .prim rows rows 0 })
  have follows : (startPriming (natAt p 4 1) rows (s.setCmu { s.cmu with progress := .prim rows rows 0 })).cmu.progress
      = .prim rows rows 0 ∧ (startPriming (natAt p 4 1) rows
        (s.setCmu { s.cmu with progress := .prim rows rows 0 })).inReset = s.inReset := by
    have rest := State.mapRows_rest (s.setCmu { s.cmu with progress := .prim rows rows 0 })
      fun r w => if rowIn r rows then w.primed (natAt p 4 1) else w
    unfold startPriming
    rw [(State.pass_follows _ _).cmu, (State.pass_follows _ _).inReset, rest]
    exact ⟨rfl, rfl⟩
  refine ⟨fun outputs => ?_, fun wf current => (current_iff _).mpr (lanes true ?_)⟩
  · rw [outputsWf_iff reset] at outputs
    rw [outputsWf_iff (follows.2.trans reset)]
    refine ⟨ports (named.ports outputs.1), fun r hr => ?_⟩
    rw [follows.1]
    rcases primes r hr with old | member
    · exact absurd (named.primes r old) (by rw [calm_of_still outputs.2 still r]; decide)
    · exact member
  · exact named.lanes wf true ((current_iff s).mp current)

end Sys2Proof.Machine
end

section
/-! What SETI, ABRT, RSTR, the frames of a command in progress and the reset pin keep of the outputs and the lanes. -/

namespace Sys2Proof.Machine

/-! ## SETI (R174) -/

/-- A step after which no row primes keeps what O14 and O16 speak of where its ports and lanes do. -/
theorem Keeps.of_calm {s t : State} (reset : s.inReset = false) (same : t.inReset = s.inReset)
    (ports : s.allPorted → s.primesNamed → t.allPorted) (primes : s.primesNamed → ∀ r, t.primes r = false)
    (lanes : s.cst.wf → s.current → t.current) : Keeps s t := by
  refine ⟨fun outputs => ?_, lanes⟩
  rw [outputsWf_iff reset] at outputs
  rw [outputsWf_iff (same.trans reset)]
  exact ⟨ports outputs.1 outputs.2, named_of_calm (primes outputs.2)⟩

theorem complete_calm {s : State} (k : Completion) (h : ∀ r, s.primes r = false) (r : RowId) :
    (s.complete k).primes r = false := by
  rw [Bool.eq_false_iff]
  exact fun hp => Bool.false_ne_true ((h r).symm.trans ((complete_agreeing s k).primes r hp))

theorem complete_current {s : State} (k : Completion) (h : s.current) : (s.complete k).current := by
  have same : s.sameSetup (s.complete k) := .of_eq (fun _ => rfl) rfl
  rw [current_iff] at *
  exact fun r w hw => same.agrees (h r w hw)

theorem setImplement_keeps (p : List Byte) {s : State} (reset : s.inReset = false) (idle : s.cmu.progress = .idle) :
    Keeps s (setImplement p s) := by
  have still : s.cmu.progress.still = 0 := by rw [idle]; rfl
  have ends (k : Completion) : Keeps s (s.complete k) := (complete_agreeing s k).keeps reset still
  unfold setImplement
  split
  · exact ends _
  split
  · exact ends _
  dsimp only
  split
  · exact ends _
  split
  · exact ends _
  rename_i empty
  generalize settingsOf (fieldsOf setiWidths p) = new at *
  have side : new.cellSide ≠ s.settings.cellSide → s.cst.records = [] := fun moved =>
    not_not.mp fun held => empty ⟨moved, held⟩
  obtain ⟨ports, lanes, primes, same⟩ := applySettings_agreeing side
  have calm (named : s.primesNamed) (r : RowId) : (applySettings new s).primes r = false :=
    Bool.eq_false_iff.mpr fun hp => Bool.false_ne_true ((calm_of_still named still r).symm.trans (primes r hp))
  exact .of_calm reset same
    (fun ported named => (complete_agreeing _ _).ports (ports (calm_of_still named still) ported))
    (fun named => complete_calm _ (calm named)) fun wf current => complete_current _ (lanes wf current)

/-! ## RSTR (R26, R45, R63, R177) -/

/-- A row at rest agrees with its inputs in every part but its results. -/
theorem restartedRow_agrees {s t : State} (mode : t.cmu.mode = .idle) (fallback : t.ren.fallback = s.ren.fallback)
    (r : RowId) (w : Row) : t.agrees (Pass.results.rest true) (s.restartedRow r w) := by
  have parked (b : Bool) (p : Product) (v : LaneView) : t.decided b p v = .parked := if_pos (.inl mode)
  have noPoint (p : Product) : t.viewAt p none = fallbackView .noPoint (s.ren.fallback p) none := by
    rw [← fallback]
    rfl
  refine ⟨fun _ => (noPoint .seed).symm, fun _ l hl => ?_, nofun, fun _ y hy => ?_, fun _ l hl => ?_⟩
  · obtain ⟨m, -, rfl⟩ := Option.map_eq_some_iff.mp hl
    exact (noPoint .fert).symm
  · rw [parked]
    exact (SeedState.lane.inj hy).symm
  · obtain ⟨m, -, rfl⟩ := Option.map_eq_some_iff.mp hl
    exact (parked _ _ _).symm

/-- Rows at rest, computed: every row agrees, its outputs are gated, and none primes. -/
theorem computeAll_rested {c f : State} (row : ∀ r, f.row r = (c.row r).map (c.restartedRow r))
    (mode : f.cmu.mode = .idle) (fallback : f.ren.fallback = c.ren.fallback) :
    (computeAll f).allPorted ∧ (computeAll f).current ∧ ∀ r, (computeAll f).primes r = false := by
  refine ⟨pass_ported fun r w hw => ?_, (current_iff _).mpr (pass_upToDate fun r w hw => ?_), fun r => ?_⟩
  · rw [row] at hw
    obtain ⟨v, -, rfl⟩ := Option.map_eq_some_iff.mp hw
    exact ⟨⟨fun _ => rfl, fun high => absurd (show 50 ≤ 0 from high) (by decide)⟩, nofun⟩
  · rw [row] at hw
    obtain ⟨v, -, rfl⟩ := Option.map_eq_some_iff.mp hw
    exact ⟨rfl, restartedRow_agrees mode fallback r v⟩
  · rw [computeAll, pass_primes, State.primes, row]
    cases c.row r with
    | none => rfl
    | some v => rfl

/-- A restart puts every row to rest and computes it, in the mode IDLE. -/
theorem restart_computes (s : State) : ∃ (c f : State) (e : Events), restart s = (computeAll f).setEvu e
    ∧ (∀ r, f.row r = (c.row r).map (c.restartedRow r)) ∧ f.cmu.mode = .idle ∧ f.ren.fallback = c.ren.fallback
    ∧ f.inReset = s.inReset := by
  have only := settleRecords_storeOnly (s.setCmu s.cmu.restarted)
  unfold restart
  dsimp only
  generalize (settleRecords (s.setCmu s.cmu.restarted)).1 = b at only ⊢
  have reset : (b.setMot (Motion.restarted b.pins.switch b.settings.speedSource b.now)).inReset = s.inReset := only.inReset
  have mode : (b.setMot (Motion.restarted b.pins.switch b.settings.speedSource b.now)).cmu.mode = .idle :=
    congrArg Commander.mode only.cmu
  generalize b.setMot (Motion.restarted b.pins.switch b.settings.speedSource b.now) = c at reset mode ⊢
  have rest := c.mapRows_rest c.restartedRow
  have fallback : (c.mapRows c.restartedRow).ren.fallback = c.ren.fallback := by
    funext p
    cases p
    · exact State.mapRows_seedFallback c _
    · exact State.mapRows_fertFallback c _
  have rows := c.row_mapRows c.restartedRow
  have pin : (c.mapRows c.restartedRow).inReset = s.inReset := by rw [rest, reset]
  have idle : (c.mapRows c.restartedRow).cmu.mode = .idle := by rw [rest, mode]
  clear rest
  generalize c.mapRows c.restartedRow = d at rows fallback pin idle ⊢
  exact ⟨c, _, _, rfl, rows, idle, fallback, pin⟩

/-- A restart leaves every row in agreement, with its outputs gated and no row priming, whatever it found. -/
theorem restart_rested (s : State) :
    (restart s).allPorted ∧ (restart s).current ∧ (∀ r, (restart s).primes r = false)
      ∧ (restart s).inReset = s.inReset := by
  obtain ⟨c, f, e, h, rows, idle, fallback, pin⟩ := restart_computes s
  obtain ⟨ports, lanes, primes⟩ := computeAll_rested rows idle fallback
  have same : (computeAll f).sameSetup ((computeAll f).setEvu e) := .of_eq (fun _ => rfl) rfl
  have reset : ((computeAll f).setEvu e).inReset = s.inReset := (f.pass_follows fun _ => some .results).inReset.trans pin
  rw [h]
  exact ⟨fun r w hw => same.ported (ports r w hw),
    (current_iff _).mpr fun r w hw => same.agrees ((current_iff _).mp lanes r w hw), primes, reset⟩

theorem restartCommand_keeps (p : List Byte) {s : State} (reset : s.inReset = false) : Keeps s (restartCommand p s) := by
  obtain ⟨ports, lanes, primes, same⟩ := restart_rested s
  unfold restartCommand
  generalize restart s = t at *
  exact .of_calm reset same (fun _ _ => (complete_agreeing _ _).ports ports) (fun _ => complete_calm _ primes)
    fun _ _ => complete_current _ lanes

/-! ## ABRT (R99, R176) -/

/-- An ABRT ends priming on every row that primes. -/
theorem abortCommand_keeps (p : List Byte) {s : State} (reset : s.inReset = false) : Keeps s (abortCommand p s) := by
  have ends (k : Completion) (still : s.cmu.progress.still = 0) : Keeps s (s.complete k) :=
    (complete_agreeing s k).keeps reset still
  unfold abortCommand
  split
  · rename_i h
    exact ends _ (by rw [h]; rfl)
  · rename_i h
    exact ends _ (by rw [h]; rfl)
  · rename_i h
    exact ends _ (by rw [h]; rfl)
  · rename_i h
    exact ends _ (by rw [h]; rfl)
  · rename_i named still stalled h
    have ended := (endPriming_quiet still s).toAgreeing.trans
      (complete_agreeing _ (primRecord .aborted named still stalled))
    refine .of_calm reset ended.reset (fun ported _ => ended.ports ported) (fun primes => complete_calm _ fun r => ?_)
      ended.current
    rw [endPriming_primes, Bool.and_eq_false_iff]
    cases hp : s.primes r with
    | false => exact .inl rfl
    | true =>
      have member := primes r hp
      rw [h] at member
      exact .inr (by rw [show rowIn r still = true from member]; rfl)

/-- ABRT and RSTR run in IDLE, or on an empty payload. -/
theorem takeAlways_agrees {s : State} {code : BitVec 5} {c : Cmd} {run : List Byte → State → State}
    (h : ∀ t, t.inReset = false → Keeps t (run [] t)) : Keeps s (takeAlways code c (withLength 0 run) s) := by
  unfold takeAlways
  refine arrive_agrees fun t reset => ?_
  split
  · exact (refuse_quiet t).keeps reset
  · rename_i taken
    have accepted : Quiet t t.accept := .of_same rfl rfl rfl rfl rfl
    have runs : Keeps t.accept (withLength 0 run c.payload t.accept) := by
      by_cases empty : c.payload = []
      · rw [empty, withLength_right (by rfl)]
        exact h _ reset
      · have idle : t.cmu.progress = .idle := by
          rw [State.busy_iff] at taken
          exact not_not.mp fun busy => taken ⟨busy, empty⟩
        rw [withLength_wrong (by simpa using empty)]
        exact (complete_agreeing _ _).keeps reset (show t.cmu.progress.still = 0 by rw [idle]; rfl)
    have first := accepted.keeps reset
    exact ⟨runs.outputs ∘ first.outputs, fun wf current => runs.lanes (accepted.store wf) (first.lanes wf current)⟩

/-! ## Frames and events of a command in progress (R164, R168, R172) -/

theorem takeData_keeps (p : List Byte) {s : State} (reset : s.inReset = false) : Keeps s (takeData p s) := by
  unfold takeData
  split
  · rename_i h
    exact (deliverRecord_agreeing _ _ _ _ s).keeps reset (by rw [h]; rfl)
  · exact .refl s

theorem reply_quiet (s : State) (sent after : Nat) (bytes : List Byte) : Quiet s (s.reply sent after bytes) :=
  setLnk_quiet s _

theorem takeFetch_keeps (sent after : Nat) {s : State} (reset : s.inReset = false) : Keeps s (takeFetch sent after s) := by
  have replies (bytes : List Byte) : Keeps s (s.reply sent after bytes) := (reply_quiet s _ _ _).keeps reset
  unfold takeFetch
  split
  · split
    · exact replies _
    · exact replies _
  · rename_i h
    split
    · exact ((transferOffered_agreeing _ _ s).trans (reply_quiet _ _ _ _).toAgreeing).keeps reset (by rw [h]; rfl)
    · exact replies _
  · exact replies _

theorem timeOut_keeps {s : State} (reset : s.inReset = false) : Keeps s (timeOut s) := by
  unfold timeOut
  split
  · rename_i h
    exact (complete_agreeing s _).keeps reset (by rw [h]; rfl)
  · rename_i h
    exact (complete_agreeing s _).keeps reset (by rw [h]; rfl)
  · exact .refl s

theorem stepScrub_keeps {s : State} (reset : s.inReset = false) : Keeps s (stepScrub s) := by
  unfold stepScrub
  split
  · rename_i h
    split
    · exact (scrubStep_agreeing _ _ s).keeps reset (by rw [h]; rfl)
    · exact .refl s
  · exact .refl s

/-! ## The reset pin (R178) -/

/-- Under reset the outputs follow from the rows and the command in progress. -/
theorem outputsWf_of_inReset {s t : State} (reset : s.inReset = true) (same : t.inReset = true) (rows : t.row = s.row)
    (progress : t.cmu.progress = s.cmu.progress) (h : s.outputsWf) : t.outputsWf := by
  unfold State.outputsWf State.gated State.meterPort State.valvePort at *
  rw [same, rows, progress]
  rw [reset] at h
  exact h

/-- An event that changes neither the rows nor what they follow from. -/
theorem Keeps.of_same {s t : State} (reset : t.inReset = s.inReset) (hc : t.cst = s.cst) (setup : t.setup = s.setup)
    (rows : t.ren = s.ren) (progress : t.cmu.progress = s.cmu.progress) : Keeps s t := by
  have quiet := Quiet.of_same reset hc setup rows progress
  cases h : s.inReset with
  | false => exact quiet.keeps h
  | true =>
    exact ⟨outputsWf_of_inReset h (reset.trans h) (by unfold State.row; rw [rows]) progress, quiet.current⟩

theorem silenced_agrees {s : State} {x : Pass} {w : Row} (h : s.agrees x w) : s.agrees x w.silenced := by
  obtain ⟨seed, fert, compute, seedDecide, fertDecide⟩ := h
  refine ⟨seed, fun hx l hl => ?_, fun hx => ?_, seedDecide, fun hx l hl => ?_⟩
  · obtain ⟨m, hm, rfl⟩ := Option.map_eq_some_iff.mp hl
    exact fert hx m hm
  · obtain ⟨speed, seedResults, fertResults⟩ := (computed_iff _ _ _).mp (compute hx)
    refine (computed_iff _ _ _).mpr ⟨speed, congrArg (fun l => { l with drive := 0 }) seedResults, fun l hl => ?_⟩
    obtain ⟨m, hm, rfl⟩ := Option.map_eq_some_iff.mp hl
    exact congrArg (fun l : FertLane => { l with valve := 0 }) (fertResults m hm)
  · obtain ⟨m, hm, rfl⟩ := Option.map_eq_some_iff.mp hl
    exact fertDecide hx m hm

/-- The pin's assertion silences the rows and reaches nothing else that the lanes follow from (R178). -/
theorem assertReset_parts (s : State) : (∀ r, (assertReset s).row r = (s.row r).map Row.silenced)
    ∧ (assertReset s).setup = s.setup ∧ (assertReset s).cst = s.cst
    ∧ (assertReset s).cmu.progress = s.cmu.progress ∧ (assertReset s).inReset = true := by
  have row := s.row_mapRows fun _ => Row.silenced
  have setup := mapRows_setup s fun _ => Row.silenced
  have cst := s.mapRows_cst fun _ => Row.silenced
  have progress : (s.mapRows fun _ => Row.silenced).cmu.progress = s.cmu.progress := by rw [State.mapRows_rest]
  unfold assertReset
  generalize (s.mapRows fun _ => Row.silenced) = d at *
  exact ⟨row, setup, cst, progress, rfl⟩

theorem assertReset_keeps (s : State) : Keeps s (assertReset s) := by
  obtain ⟨row, setup, cst, progress, pin⟩ := assertReset_parts s
  have same : s.sameSetup (assertReset s) := .of_eq (fun _ => by rw [cst]) setup
  refine ⟨fun ⟨_, rows⟩ => ⟨fun r => ?_, fun r w hw => ⟨fun released => ?_, fun priming => ?_⟩⟩, fun _ current => ?_⟩
  · unfold State.meterPort State.valvePort
    rw [pin, row]
    cases s.row r with
    | none => exact ⟨rfl, rfl⟩
    | some w => cases h : w.fert <;> simp [Row.silenced, h]
  · rw [pin] at released
    cases released
  · rw [row] at hw
    obtain ⟨v, hv, rfl⟩ := Option.map_eq_some_iff.mp hw
    rw [progress]
    exact (rows r v hv).2 priming
  · rw [current_iff] at *
    intro r w hw
    rw [row] at hw
    obtain ⟨v, hv, rfl⟩ := Option.map_eq_some_iff.mp hw
    exact same.agrees (silenced_agrees (current r v hv))

theorem releaseReset_keeps (s : State) : Keeps s (releaseReset s) := by
  refine ⟨fun _ => ⟨fun r => ?_, fun r w hw => ?_⟩, fun _ _ r w hw => ?_⟩
  · unfold State.meterPort State.valvePort
    rw [releaseReset_row]
    exact ⟨rfl, rfl⟩
  · rw [releaseReset_row] at hw
    cases hw
  · rw [releaseReset_row] at hw
    cases hw

/-- Under reset a millisecond passes without a change of a row. -/
theorem tick_inReset {s : State} (h : s.inReset = true) :
    (tick s).inReset = true ∧ (tick s).row = s.row ∧ (tick s).cmu.progress = s.cmu.progress := by
  unfold tick takeUpsets
  dsimp only
  rw [if_pos h]
  split
  · exact ⟨h, rfl, rfl⟩
  · exact ⟨h, rfl, rfl⟩

theorem tick_keeps (s : State) : Keeps s (tick s) := by
  have quiet := tick_quiet s
  cases h : s.inReset with
  | false => exact quiet.keeps h
  | true =>
    obtain ⟨pin, rows, progress⟩ := tick_inReset h
    exact ⟨outputsWf_of_inReset h pin rows progress, quiet.current⟩

end Sys2Proof.Machine
end

section
/-! What every command and every step keeps of the outputs and the lanes: the settlements of O14 and O16. -/

namespace Sys2Proof.Machine

theorem Keeps.ite {s t u : State} {p : Prop} [Decidable p] (h : Keeps s t) (g : Keeps s u) :
    Keeps s (if p then t else u) := by
  split
  · exact h
  · exact g

/-- An event of a timer that acts on a condition. -/
theorem timer_keeps {s : State} {p : State → Prop} [∀ t, Decidable (p t)] {f : State → State} (h : p s → Quiet s (f s)) :
    Keeps s (whenReleased (fun t => if p t then f t else t) s) := by
  refine whenReleased_quiet (f := fun t => if p t then f t else t) ?_
  split
  · rename_i due
    exact h due
  · exact .refl s

theorem pins_keeps (s : State) (x : Pins) : Keeps s (s.setPins x) := .of_same rfl rfl rfl rfl rfl

/-- An event of a sensor line sets its level, and outside reset acts on a configured row. -/
theorem line_keeps {s : State} {p : Prop} [Decidable p] (r : RowId) (l : Line) {f : State → State}
    (h : ∀ t, Quiet t (f t)) :
    Keeps s (if s.inReset = true ∨ p then s.lineAt r l else f (s.lineAt r l)) := by
  have level : Quiet s (s.lineAt r l) := setPins_quiet s _
  split
  · exact pins_keeps s _
  · rename_i acts
    exact (level.trans (h _)).keeps (Bool.eq_false_iff.mpr fun reset => acts (.inl reset))

theorem conversion_keeps {code : AdcCode} {s t : State} (h : execConversionComplete code s = .next t) : Keeps s t := by
  cases h
  refine whenReleased_agrees fun reset => ?_
  split
  · exact .refl s
  · exact ((takeCode_quiet _ code s).trans (startConversion_quiet _ _)).keeps reset

/-- A next state that keeps what O14 and O16 speak of, for an outcome that answers it. -/
theorem keeps_next {s t u : State} (h : Keeps s u)
    (e : (Host.Outcome.next u : Host.Outcome State Fault Refusal) = .next t) : Keeps s t := by
  cases e
  exact h

/-- Every command keeps the outputs gated and the lanes current. -/
theorem exec_keeps {i : Instr} {s t : State} (h : exec i s = .next t) : Keeps s t := by
  cases i with
  | powerOnResetAssert => exact keeps_next (assertReset_keeps s) h
  | powerOnResetRelease => exact keeps_next (releaseReset_keeps s) h
  | malformedFrame bytes =>
    exact keeps_next (whenReleased_quiet (f := discardMalformed bytes) (.of_same rfl rfl rfl rfl rfl)) h
  | statusFrame f => exact keeps_next (arrive_agrees fun u _ => .refl u) h
  | fixFrame f => exact keeps_next (arrive_agrees fun u reset => (takeFix_quiet _ u).keeps reset) h
  | dataFrame f => exact keeps_next (arrive_agrees fun _ => takeData_keeps _) h
  | fetchFrame f after => exact keeps_next (arrive_agrees fun _ => takeFetch_keeps _ _) h
  | staleTimerExpiry => exact keeps_next (timer_keeps fun due => enterStale_quiet due.1) h
  | lostTimerExpiry => exact keeps_next (timer_keeps fun _ => enterLost_quiet s) h
  | groundSpeedPulse =>
    exact keeps_next (whenReleased_quiet (f := fun s => s.setMot { s.mot with pulses := satAdd 65535 s.mot.pulses 1 })
      (.of_same rfl rfl rfl rfl rfl)) h
  | speedWindowEnd => exact keeps_next (timer_keeps fun _ => closeWindow_quiet s) h
  | workSwitchLevelChange level =>
    cases h
    exact .ite (pins_keeps s _) (.of_same rfl rfl rfl rfl rfl)
  | workSwitchChange => exact keeps_next (timer_keeps fun _ => takeSwitch_quiet s) h
  | holeEvent row => exact keeps_next (timer_keeps fun _ => holePassed_quiet row s) h
  | sensedSeed row => exact keeps_next (line_keeps row .occluded (occlusionStarts_quiet row)) h
  | occlusionEnd row => exact keeps_next (line_keeps row .clear (occlusionEnds_quiet row)) h
  | occlusionTimerExpiry row => exact keeps_next (timer_keeps fun _ => enterStuck_quiet row s) h
  | entryExpiry row => exact keeps_next (timer_keeps fun _ => resolveUnseen_quiet row s) h
  | stallTimerExpiry row => exact keeps_next (timer_keeps fun _ => enterStall_quiet row s) h
  | syntheticHoleEvent row => exact keeps_next (timer_keeps fun _ => synthHole_quiet row s) h
  | syntheticSensedSeed row => exact keeps_next (timer_keeps fun _ => dropOldest_quiet row s) h
  | conversionComplete code => exact conversion_keeps h
  | dataTimeout =>
    exact keeps_next (whenReleased_agrees (f := fun s => if s.dataTimedOut then timeOut s else s)
      fun reset => .ite (timeOut_keeps reset) (.refl s)) h
  | scbReadStep => exact keeps_next (whenReleased_agrees stepScrub_keeps) h
  | badCommand code c => exact keeps_next (takeCommand_agreeing fun _ u => complete_agreeing u _) h
  | idn c => exact keeps_next (takeCommand_agreeing (withLength_agreeing fun _ u => complete_agreeing u _)) h
  | abrt c => exact keeps_next (takeAlways_agrees fun _ => abortCommand_keeps []) h
  | rstr c => exact keeps_next (takeAlways_agrees fun _ => restartCommand_keeps []) h
  | seti c => exact keeps_next (takeCommand_agrees fun p _ => setImplement_keeps p) h
  | setrConfigure c | setrRemove c => exact keeps_next (takeCommand_agreeing setRowCommand_agreeing) h
  | sete c => exact keeps_next (takeCommand_agreeing (withLength_agreeing setEnables_agreeing)) h
  | setf c => exact keeps_next (takeCommand_agreeing (withLength_agreeing setFallback_agreeing)) h
  | strtField c | strtShadow c => exact keeps_next (takeCommand_agreeing start_agreeing) h
  | stop c => exact keeps_next (takeCommand_agreeing (withLength_agreeing stopCommand_agreeing)) h
  | prim c => exact keeps_next (takeCommand_agrees fun p _ => primeMeters_keeps p) h
  | setl c => exact keeps_next (takeCommand_agreeing (withLength_agreeing settleCommand_agreeing)) h
  | ldc c => exact keeps_next (takeCommand_agreeing loadCells_agreeing) h
  | pchSeedTarget c | pchFertTarget c | pchNoApply c =>
    exact keeps_next (takeCommand_agreeing (withLength_agreeing patchCell_agreeing)) h
  | mrgAdd c | mrgRemove c => exact keeps_next (takeCommand_agreeing (withLength_agreeing mergeCell_agreeing)) h
  | qryExact c | qryNext c => exact keeps_next (takeCommand_agreeing (withLength_agreeing queryCell_agreeing)) h
  | swp c => exact keeps_next (takeCommand_agreeing (withLength_agreeing sweep_agreeing)) h
  | rtc c => exact keeps_next (takeCommand_agreeing (withLength_agreeing retireCell_agreeing)) h
  | rms c => exact keeps_next (takeCommand_agreeing (withLength_agreeing readMisses_agreeing)) h
  | scb c => exact keeps_next (takeCommand_agreeing (withLength_agreeing (run := scrub) fun _ _ => .of_same rfl rfl rfl rfl)) h
  | rss c => exact keeps_next (takeCommand_agreeing (withLength_agreeing readStatus_agreeing)) h
  | eve c => exact keeps_next (takeCommand_agreeing (withLength_agreeing setEventEnables_agreeing)) h
  | ack c => exact keeps_next (takeCommand_agreeing (withLength_agreeing acknowledge_agreeing)) h
  | rhc c => exact keeps_next (takeCommand_agreeing (withLength_agreeing readChanged_agreeing)) h
  | rrw c => exact keeps_next (takeCommand_agreeing (withLength_agreeing readRow_agreeing)) h
  | rmo c => exact keeps_next (takeCommand_agreeing (withLength_agreeing fun _ u => complete_agreeing u _)) h

/-- Every step keeps the outputs gated and the lanes current. -/
theorem step_agrees {s t : State} (h : step s = .next t) : Keeps s t := by
  refine step_keeps (R := Keeps s) h (tick_keeps s) fun i rest e => ?_
  have queue : Keeps s { s with pending := rest } := .of_same rfl rfl rfl rfl rfl
  have taken := exec_keeps e
  exact ⟨taken.outputs ∘ queue.outputs, fun wf current => taken.lanes wf (queue.lanes wf current)⟩

/-- Settles O14: what every part of every command keeps of the ports, the stall timers and the priming rows. -/
theorem outputsStayGated : Obligations.OutputsStayGated := fun _ _ outputs h => (step_agrees h).outputs outputs

/-- Settles O16: what every part of every command makes anew, once what it follows from has changed. -/
theorem lanesStayCurrent : Obligations.LanesStayCurrent := fun _ _ wf current h => (step_agrees h).lanes wf current

end Sys2Proof.Machine
end

section
/-! The settlement of O22: the rate chain of a computation. -/

namespace Sys2Proof.Machine

/-- The row speed is the reference speed moved by the truncated share of the yaw rate, clamped (R53). -/
theorem rowSpeed_eq (vRef : Nat) (yaw lat : Int) :
    (rowSpeed vRef yaw lat : Int) = max 0 (min 10000 (vRef + truncated ((yaw : ℚ) * lat / 100))) := by
  have share : truncated ((yaw : ℚ) * lat / 100) = Int.tdiv (yaw * lat) 100 := by
    have h := truncated_intDiv (yaw * lat) 100
    push_cast at h
    exact h
  rw [share, rowSpeed, clampInt_eq (by decide)]
  omega

/-- A rate for a target over a width, at a row speed (R67, R69). -/
theorem rate_eq (target width vr : Nat) :
    truncated ((target : ℚ) * width * vr / 10000) = (target * width * vr / 10000 : Nat) := by
  have h := truncated_natDiv (target * width * vr) 10000
  push_cast at h ⊢
  exact h

/-- The shaft speed before its clamp (R68). -/
theorem shaftWanted_eq (q holes : Nat) : truncated (((q : Int) : ℚ) / holes) = shaftWanted q holes := by
  rw [Int.cast_natCast, truncated_natDiv]
  rfl

/-- The duty before its clamp (R70). -/
theorem dutyWanted_eq (f full : Nat) : truncated (((f : Int) : ℚ) * 1000 / full) = dutyWanted f full := by
  have h := truncated_natDiv (f * 1000) full
  push_cast at h ⊢
  exact h

/-- The seed lane's results (R67, R68, R72). -/
theorem seedComputed_eq (l : SeedLane) (c : RowContext) (vr : Nat) :
    let q := truncated ((l.view.target : ℚ) * c.width * vr / 10000)
    let s := truncated ((q : ℚ) / c.holes)
    ((l.computed c vr).q : Int) = q ∧ ((l.computed c vr).s : Int) = min s c.sMax
      ∧ ((l.computed c vr).limited = true ↔ s > c.sMax) := by
  intro q s
  have rate : q = (seedRate l.view.target c.width vr : Nat) := rate_eq _ _ _
  have shaft : s = shaftWanted (seedRate l.view.target c.width vr) c.holes := by
    rw [← shaftWanted_eq, ← rate]
  rw [shaft]
  refine ⟨rate.symm, ?_, ?_⟩
  · show ((min c.sMax (shaftWanted _ _) : Nat) : Int) = _
    omega
  · show decide (c.sMax < shaftWanted _ _) = true ↔ _
    rw [decide_eq_true_iff]
    omega

/-- The fertiliser lane's results (R69 to R72). -/
theorem fertComputed_eq (l : FertLane) (c : RowContext) (vr : Nat) :
    let f := truncated ((l.view.target : ℚ) * c.width * vr / 10000)
    let f' := min f 200000
    let ff := truncated ((f' : ℚ) * 1000 / c.valveFull)
    let ff' := min ff 1000
    ((l.computed c vr).f : Int) = f' ∧ ((l.computed c vr).ff : Int) = ff'
      ∧ ((l.computed c vr).duty : Int) = (if f' = 0 then 0 else max 0 (min 1000 (ff' + l.flow.trim)))
      ∧ ((l.computed c vr).limited = true ↔ f > 200000 ∨ ff > 1000) := by
  intro f f' ff ff'
  have wanted : f = (flowWanted l.view.target c.width vr : Nat) := rate_eq _ _ _
  have flow : f' = (targetFlow l.view.target c.width vr : Nat) := by
    show min f 200000 = ((min 200000 (flowWanted _ _ _) : Nat) : Int)
    omega
  have duty : ff = (dutyWanted (targetFlow l.view.target c.width vr) c.valveFull : Nat) := by
    rw [← dutyWanted_eq, ← flow]
  have forward : ff' = (feedForward (targetFlow l.view.target c.width vr) c.valveFull : Nat) := by
    show min ff 1000 = ((min 1000 (dutyWanted _ _) : Nat) : Int)
    omega
  refine ⟨flow.symm, forward.symm, ?_, ?_⟩
  · show ((valveDutyOf (targetFlow _ _ _) (feedForward _ _) l.flow.trim : Nat) : Int) = _
    rw [valveDutyOf, flow, forward, clampInt_eq (by decide)]
    split <;> split <;> omega
  · show (decide (200000 < flowWanted _ _ _) || decide (1000 < dutyWanted _ _)) = true ↔ _
    rw [Bool.or_eq_true, decide_eq_true_iff, decide_eq_true_iff, wanted, duty]
    omega

/-- Settles O22, by the chain of each lane at the row speed of the computation. -/
theorem computationsFollowTheRateChain : Obligations.ComputationsFollowTheRateChain := by
  intro w vRef yaw c v q s
  obtain ⟨rate, shaft, limited⟩ := seedComputed_eq w.seed c v.vr
  refine ⟨rowSpeed_eq vRef yaw c.lat, rate, shaft, limited, Option.isSome_map, fun l m hl hm => ?_⟩
  have computed : m = l.computed c v.vr := by
    have h : v.fert = w.fert.map (·.computed c v.vr) := rfl
    rw [hm, hl] at h
    exact Option.some.inj h
  rw [computed]
  exact fertComputed_eq l c v.vr

end Sys2Proof.Machine
end

section
/-! The settlements of O50 and O52: hole events, occlusions and stalls. -/

namespace Sys2Proof.Machine

/-! ## The end of a row's priming (R96 to R98) -/

/-- The priming of one row ends: its seed lane is decided from PARKED on. -/
theorem endPriming_follows {s : State} {r : RowId} {w : Row} (hw : s.row r = some w) :
    (s.setRow r (some { w with seed := { w.seed with state := .lane .parked } })).follows (endPriming (rowBit r) s) := by
  have ended : (s.mapRows fun q v => if rowIn q (rowBit r) = true then v.unprimed else v)
      = s.setRow r (some { w with seed := { w.seed with state := .lane .parked } }) := by
    have one : (fun (q : RowId) (v : Row) => if rowIn q (rowBit r) = true then v.unprimed else v)
        = fun q v => if q = r then v.unprimed else v := by
      funext q v
      simp only [rowIn_rowBit, decide_eq_true_eq]
    rw [one, ← State.modRow_eq_mapRows, State.modRow_eq_setRow, hw]
    rfl
  unfold endPriming
  rw [ended]
  exact State.pass_follows _ _

theorem leavePriming_eq (r : RowId) (byStall : Bool) (s : State) : leavePriming r byStall s = s.afterPriming r byStall := by
  cases h : s.cmu.progress with
  | prim named still stalled =>
    simp only [leavePriming, State.afterPriming, h]
    generalize (if byStall = true then stalled ||| rowBit r else stalled) = stalled'
    split
    · rename_i done
      have none_still (x : RowSet) : named &&& ~~~(0 : RowSet) &&& x = named &&& x := by
        rw [show ~~~(0 : RowSet) = BitVec.allOnes 32 by decide, BitVec.and_allOnes]
      unfold primRecord
      rw [done, none_still]
    · rfl
  | idle | ldc _ _ _ | swp _ | scb _ _ _ => simp only [leavePriming, State.afterPriming, h]

/-! ## What the resolution of an entry leaves (R106) -/

theorem credited_frame {s u : State} {k : Key} {f : Payload → Payload} (h : s.credited k f u) :
    u.now = s.now ∧ u.settings = s.settings := by
  have read := (readState_rest k s).1
  unfold State.credited at h
  split at h
  · rw [h]
    exact ⟨by rw [read], by rw [read]⟩
  · refine ⟨h.now.trans ?_, h.settings.trans ?_⟩
    · show (readState k s).now = s.now
      rw [read]
    · show (readState k s).settings = s.settings
      rw [read]

/-- A resolution keeps the clock, the settings and the row's place. -/
theorem resolved_frame {s u : State} {r : RowId} {x : Option Seen} (h : s.resolved r x u) :
    u.now = s.now ∧ u.settings = s.settings ∧ ∃ v, u.row r = some v := by
  obtain ⟨w, e, rest, v, w', -, -, credit, -, hu⟩ := h
  have frame : v.now = s.now ∧ v.settings = s.settings := by
    split at credit
    · exact credited_frame credit
    · exact credited_frame credit
    · rw [credit]
      exact ⟨rfl, rfl⟩
  rw [hu]
  split
  · exact ⟨frame.1, frame.2, _, State.row_setRow_self _ _ _⟩
  · exact ⟨frame.1, frame.2, _, State.row_setRow_self _ _ _⟩

/-! ## Hole events (R103 to R106, R116) -/

theorem holeSeen_eq {s : State} {r : RowId} {w : Row} (hw : s.row r = some w) :
    holeSeen r s =
      if w.sfm.stalled then (s.setRow r (some (w.holed s.now s.settings.stallTime))).raiseHealth r
      else s.setRow r (some (w.holed s.now s.settings.stallTime)) := by
  unfold holeSeen
  rw [hw]
  dsimp only
  rw [State.modRow_eq_setRow, hw]
  rfl

/-- A hole seen changes its row, and nothing else but HEALTH. -/
theorem holeSeen_frame {s : State} {r : RowId} {w : Row} (hw : s.row r = some w) :
    (holeSeen r s).row r = some (w.holed s.now s.settings.stallTime) ∧ (holeSeen r s).cmu = s.cmu
      ∧ (holeSeen r s).now = s.now ∧ (holeSeen r s).settings = s.settings := by
  rw [holeSeen_eq hw]
  split
  · exact ⟨State.row_setRow_self _ _ _, rfl, rfl, rfl⟩
  · exact ⟨State.row_setRow_self _ _ _, rfl, rfl, rfl⟩

/-- The target of a new entry: the cell and the sub-square of the look-ahead point, where the view found a record (R105). -/
theorem creditTarget_eq (s : State) (w : Row) :
    s.creditTarget w =
      if w.seed.view.outcome = .found then
        w.seed.view.key.bind fun k => w.seed.point.map fun q => (k, subOf s.settings.cellSide q)
      else none := by
  unfold State.creditTarget
  cases w.seed.view.outcome <;> cases w.seed.view.key <;> cases w.seed.point <;> rfl

/-- A row whose queue an entry joins (R103). -/
def State.entryJoined (s : State) (w : Row) : Row :=
  { w with sfm :=
    { w.sfm with queue := w.sfm.queue ++ [⟨s.now, s.now + s.settings.transitLimit, s.creditTarget w⟩] } }

theorem joinEntry_eq {s : State} {r : RowId} {w : Row} (hw : s.row r = some w) :
    joinEntry r State.creditTarget s = s.setRow r (some (s.entryJoined w)) := by
  unfold joinEntry
  rw [State.modRow_eq_setRow, hw]
  rfl

/-- A queue with room takes the entry as it is. -/
theorem overflow_of_room {resolve : State → State} {s : State} {r : RowId} {w : Row} (hw : s.row r = some w)
    (room : w.sfm.queue.length < 8) : overflow resolve r s = s := by
  unfold overflow
  rw [hw]
  exact if_neg (by omega)

/-- A full queue has its oldest entry resolved first, and the overflow is flagged (R106). -/
theorem joinEntry_of_full {resolve : State → State} {s : State} {r : RowId} {w v : Row} (hw : s.row r = some w)
    (full : 8 ≤ w.sfm.queue.length) (hv : (resolve s).row r = some v) :
    joinEntry r State.creditTarget (overflow resolve r s) =
      (resolve s).setRow r
        (some ((resolve s).entryJoined { v with sfm := { v.sfm with overflowSeen := true } })) := by
  have flagged : overflow resolve r s
      = (resolve s).setRow r (some { v with sfm := { v.sfm with overflowSeen := true } }) := by
    unfold overflow
    rw [hw]
    exact (if_pos full).trans (modFlight_eq hv _)
  rw [flagged, joinEntry_eq (State.row_setRow_self _ _ _), State.setRow_setRow]
  rfl

theorem exec_holeEvent {s : State} {r : RowId} {w : Row} (hr : s.inReset = false) (hw : s.row r = some w) :
    exec (.holeEvent r) s = .next (holePassed r s) := by
  refine congrArg Host.Outcome.next ((whenReleased_released hr).trans (if_pos ?_))
  rw [hw]
  rfl

section
variable {s : State} {r : RowId} {w : Row} (hw : s.row r = some w)
include hw

theorem holePassed_field (field : s.cmu.mode = .field) :
    holePassed r s = joinEntry r State.creditTarget (overflow (resolveUnseen r) r (holeSeen r s)) := by
  have mode : (holeSeen r s).cmu.mode = .field := by rw [(holeSeen_frame hw).2.1, field]
  simp only [holePassed, mode]

theorem holePassed_shadow (shadow : s.cmu.mode = .shadow) : holePassed r s = holeSeen r s := by
  have mode : (holeSeen r s).cmu.mode = .shadow := by rw [(holeSeen_frame hw).2.1, shadow]
  simp only [holePassed, mode]

theorem holePassed_idle (idle : s.cmu.mode = .idle) :
    (∀ x, w.seed.state = .lane x → holePassed r s = holeSeen r s)
      ∧ ∀ n, w.seed.state = .priming n → holePassed r s =
          if n ≤ 1 then leavePriming r false (endPriming (rowBit r) (holeSeen r s))
          else (holeSeen r s).modRow r (·.primed (n - 1)) := by
  obtain ⟨row, cmu, -⟩ := holeSeen_frame hw
  have primes : holePassed r s = primingHole r (holeSeen r s) := by
    have mode : (holeSeen r s).cmu.mode = .idle := by rw [cmu, idle]
    simp only [holePassed, mode]
  refine ⟨fun x hx => ?_, fun n hn => ?_⟩
  · have state : (w.holed s.now s.settings.stallTime).seed.state = .lane x := hx
    rw [primes]
    simp only [primingHole, row, state]
  · have state : (w.holed s.now s.settings.stallTime).seed.state = .priming n := hn
    rw [primes]
    simp only [primingHole, row, state]

end

/-- Settles O50, by the hole seen and then by the mode. -/
theorem holeEventsClearTheStallAndMakeEntries : Obligations.HoleEventsClearTheStallAndMakeEntries := by
  refine ⟨fun s r hr hw => congrArg Host.Outcome.next ((whenReleased_released hr).trans (if_neg ?_)), ?_⟩
  · rw [hw]
    decide
  intro s r w hr hw seen b joined
  have hb : holeSeen r s = b := holeSeen_eq hw
  obtain ⟨row, -, now, settings⟩ := holeSeen_frame hw
  rw [exec_holeEvent hr hw]
  refine ⟨fun quiet => congrArg Host.Outcome.next ?_, fun idle n hn => ?_, fun field room => congrArg Host.Outcome.next ?_,
    fun field full => ?_⟩
  · rcases quiet with shadow | ⟨idle, x, hx⟩
    · exact (holePassed_shadow hw shadow).trans hb
    · exact ((holePassed_idle hw idle).1 x hx).trans hb
  · rw [(holePassed_idle hw idle).2 n hn, hb]
    rw [hb] at row
    refine ⟨fun more => congrArg Host.Outcome.next ?_, fun last => ⟨endPriming (rowBit r) b, endPriming_follows row, ?_⟩⟩
    · rw [if_neg (by omega), State.modRow_eq_setRow, row]
      rfl
    · rw [if_pos last, leavePriming_eq]
  · rw [holePassed_field hw field, overflow_of_room row room, joinEntry_eq row, State.entryJoined, creditTarget_eq, now,
      settings, hb]
    simp only [joined, Bool.or_false]
    rfl
  · have long : 8 ≤ (w.holed s.now s.settings.stallTime).sfm.queue.length := full
    obtain ⟨e, rest, hq⟩ := List.exists_cons_of_length_pos (l := (w.holed s.now s.settings.stallTime).sfm.queue) (by omega)
    have resolves := resolveUnseen_resolved row hq
    obtain ⟨unow, usettings, v, hv⟩ := resolved_frame resolves
    refine ⟨resolveUnseen r (holeSeen r s), v, hb ▸ resolves, hv, congrArg Host.Outcome.next ?_⟩
    rw [holePassed_field hw field, joinEntry_of_full row long hv, State.entryJoined, creditTarget_eq, unow, usettings, now,
      settings]
    simp only [joined, Bool.or_true]

end Sys2Proof.Machine
end

section
/-! The settlement of O52: occlusions and stalls. -/

namespace Sys2Proof.Machine

/-! ## Occlusions (R115) -/

theorem sensorStuck_eq {s : State} {r : RowId} {w : Row} (hw : s.row r = some w) : s.sensorStuck r = w.sfm.stuck := by
  simp [State.sensorStuck, hw]

/-- A timer of a row's flight state that runs is due at its moment (R115, R116). -/
theorem flightDue_eq {s : State} {r : RowId} {w : Row} (hw : s.row r = some w) (timer : Flight → Option Nat) :
    s.flightDue r timer = (timer w.sfm).any fun t => decide (t ≤ s.now) := by
  simp [State.flightDue, hw]

/-- A timer event of a row that has not run out changes nothing. -/
theorem flightTimer_early {s : State} {r : RowId} {w : Row} {timer : Flight → Option Nat} {f : State → State}
    (hr : s.inReset = false) (hw : s.row r = some w) (early : ∀ d, timer w.sfm = some d → s.now < d) :
    whenReleased (fun s => if s.flightDue r timer then f s else s) s = s := by
  rw [whenReleased_released hr, flightDue_eq hw, if_neg]
  rw [Option.any_eq_true]
  rintro ⟨d, hd, due⟩
  have := early d hd
  have := of_decide_eq_true due
  omega

theorem flightTimer_due {s : State} {r : RowId} {w : Row} {timer : Flight → Option Nat} {f : State → State} {d : Nat}
    (hr : s.inReset = false) (hw : s.row r = some w) (hd : timer w.sfm = some d) (due : d ≤ s.now) :
    whenReleased (fun s => if s.flightDue r timer then f s else s) s = f s := by
  rw [whenReleased_released hr, flightDue_eq hw, hd]
  exact if_pos (decide_eq_true due)

theorem flightTimer_unconfigured {s : State} {r : RowId} {timer : Flight → Option Nat} {f : State → State}
    (hr : s.inReset = false) (hw : s.row r = none) :
    whenReleased (fun s => if s.flightDue r timer then f s else s) s = s := by
  rw [whenReleased_released hr, State.flightDue, hw]
  rfl

/-- The end of an occlusion stops its timer and clears SENSOR STUCK. -/
theorem occlusionEnds_eq {s : State} {r : RowId} {w : Row} (hw : s.row r = some w) :
    occlusionEnds r s =
      (let t := s.setRow r (some { w with sfm := { w.sfm with line := .clear, occlusionDue := none, stuck := false } })
      if w.sfm.stuck then t.raiseHealth r else t) := by
  unfold occlusionEnds
  rw [modFlight_eq hw, sensorStuck_eq hw]

theorem enterStuck_eq {s : State} {r : RowId} {w : Row} (hw : s.row r = some w) :
    enterStuck r s =
      (let t := s.setRow r (some { w with sfm := { w.sfm with occlusionDue := none, stuck := true } })
      if !w.sfm.stuck then t.raiseHealth r else t) := by
  unfold enterStuck
  rw [modFlight_eq hw, sensorStuck_eq hw]
  cases w.sfm.stuck <;> rfl

/-! ## Stalls (R97, R116) -/

/-- A row that enters METER STALL, before its priming is ended. -/
def State.stalledAt (s : State) (r : RowId) (w : Row) : State :=
  let t := s.setRow r (some { w with sfm := { w.sfm with stallDue := none, stalled := true } })
  if !w.sfm.stalled then t.raiseHealth r else t

theorem stalledAt_row (s : State) (r : RowId) (w : Row) :
    (s.stalledAt r w).row r = some { w with sfm := { w.sfm with stallDue := none, stalled := true } } := by
  unfold State.stalledAt
  dsimp only
  split
  · exact State.row_setRow_self _ _ _
  · exact State.row_setRow_self _ _ _

theorem enterStall_eq {s : State} {r : RowId} {w : Row} (hw : s.row r = some w) :
    enterStall r s = primingStall r (s.stalledAt r w) := by
  have held : s.meterStalled r = w.sfm.stalled := by simp [State.meterStalled, hw]
  unfold enterStall State.stalledAt
  rw [modFlight_eq hw, held]
  cases w.sfm.stalled <;> rfl

/-- METER STALL ends the priming of a priming row alone (R97). -/
theorem primingStall_eq {s : State} {r : RowId} {w : Row} (hw : s.row r = some w) :
    (∀ x, w.seed.state = .lane x → primingStall r s = s)
      ∧ ∀ n, w.seed.state = .priming n → primingStall r s = leavePriming r true (endPriming (rowBit r) s) := by
  refine ⟨fun x hx => ?_, fun n hn => ?_⟩
  · simp [primingStall, Row.priming, hw, hx]
  · simp [primingStall, Row.priming, hw, hn]

/-- Settles O52, by the three events, each on a configured row and on one that is not. -/
theorem occlusionAndStallTimersDriveSeedHealth : Obligations.OcclusionAndStallTimersDriveSeedHealth := by
  intro s r hr line
  refine ⟨fun hw => ⟨congrArg Host.Outcome.next (if_pos (.inr (.inr (by rw [hw]; rfl)))),
    congrArg Host.Outcome.next (flightTimer_unconfigured hr hw),
    congrArg Host.Outcome.next (flightTimer_unconfigured hr hw)⟩, ?_⟩
  intro w hw health
  have row : (s.lineAt r .clear).row r = some w := hw
  refine ⟨fun clear => congrArg Host.Outcome.next (if_pos (.inr (.inl clear))), fun occluded => ?_,
    fun early => congrArg Host.Outcome.next (flightTimer_early hr hw early), fun d hd due => ?_,
    fun early => congrArg Host.Outcome.next (flightTimer_early hr hw early), fun d hd due => ?_⟩
  · refine congrArg Host.Outcome.next ((if_neg ?_).trans (occlusionEnds_eq row))
    simp [hr, hw, occluded]
  · exact congrArg Host.Outcome.next ((flightTimer_due hr hw hd due).trans (enterStuck_eq hw))
  · intro stalled b
    have stalls : exec (.stallTimerExpiry r) s = .next (primingStall r b) :=
      congrArg Host.Outcome.next ((flightTimer_due hr hw hd due).trans (enterStall_eq hw))
    have written : b.row r = some stalled := stalledAt_row s r w
    rw [stalls]
    refine ⟨fun ⟨x, hx⟩ => congrArg Host.Outcome.next ((primingStall_eq written).1 x hx),
      fun n hn => ⟨endPriming (rowBit r) b, endPriming_follows written, congrArg Host.Outcome.next ?_⟩⟩
    rw [(primingStall_eq written).2 n hn, leavePriming_eq]

end Sys2Proof.Machine
end

section
/-! The settlement of O57: SETE and SETF. -/

namespace Sys2Proof.Machine

/-! ## SETE (R51, R123, R125) -/

/-- The enabled field written is what the statement writes out. -/
theorem enabledTo_eq (w : Row) (on : Bool) :
    w.enabledTo on =
      if w.ctx.enabled = on then w
      else
        { w with
          ctx := { w.ctx with enabled := on }
          fert := w.fert.map fun l => { l with flow := { l.flow with prevTime := none } } } := by
  unfold Row.enabledTo Row.switched
  by_cases same : w.ctx.enabled = on
  · rw [if_pos same, if_neg (by simp [same])]
  · rw [if_neg same, if_pos (by simp [same])]
    rfl

/-- The scan restarted where a run's list changed (R125). -/
theorem scanRestarted_eq (s a : State) (fsc : a.fsc = s.fsc) (now : a.now = s.now) :
    (if a.fsc.scanning = true ∧ a.scanList ≠ s.scanList then restartScan a else a)
      = { a with fsc :=
          if s.fsc.scanning = true ∧ a.scanList ≠ s.scanList then
            { s.fsc with
              inFlight := a.scanList.head?.map fun r => ⟨r, s.now⟩
              position := a.scanList.head?.bind (rowAfter a.scanList) }
          else s.fsc } := by
  rw [← fsc, ← now]
  by_cases restarts : a.fsc.scanning = true ∧ a.scanList ≠ s.scanList
  · rw [if_pos restarts, if_pos restarts, restartScan, startConversion_eq]
    rfl
  · rw [if_neg restarts, if_neg restarts]

/-- SETE writes the enabled fields, restarts a changed scan and decides the rows switched. -/
theorem setEnables_follows (p : List Byte) (s : State) :
    let a := s.mapRows fun r w => w.enabledTo (rowIn r (rowSetAt p 0))
    ∃ u, ({ a with fsc :=
        if s.fsc.scanning = true ∧ a.scanList ≠ s.scanList then
          { s.fsc with
            inFlight := a.scanList.head?.map fun r => ⟨r, s.now⟩
            position := a.scanList.head?.bind (rowAfter a.scanList) }
        else s.fsc } : State).follows u
      ∧ setEnables p s = u.complete (.counts .ok a.enabledCount (s.configuredCount - a.enabledCount)) := by
  have fsc := State.mapRows_fsc s fun r w => w.enabledTo (rowIn r (rowSetAt p 0))
  have now := State.mapRows_now s fun r w => w.enabledTo (rowIn r (rowSetAt p 0))
  have configured := configuredCount_mapRows s fun r w => w.enabledTo (rowIn r (rowSetAt p 0))
  unfold setEnables
  dsimp only
  generalize (s.mapRows fun r w => w.enabledTo (rowIn r (rowSetAt p 0))) = a at *
  rw [scanRestarted_eq s a fsc now]
  generalize hb : ({ a with fsc := _ } : State) = b
  have enabled : b.enabledCount = a.enabledCount := by rw [← hb]; rfl
  have rows : b.configuredCount = s.configuredCount := by rw [← configured, ← hb]; rfl
  have follows := b.pass_follows fun r => if (s.row r).any (·.switched (rowIn r (rowSetAt p 0))) then some .decisions else none
  refine ⟨_, follows, ?_⟩
  rw [follows.enabledCount, follows.configuredCount, enabled, rows]

/-! ## SETF (R60 to R62) -/

theorem setFallback_follows (p : List Byte) (s : State) :
    ∃ u, ({ s with ren :=
        { s.ren with seedFallback := min 6000 (natAt p 0 2), fertFallback := min 4000 (natAt p 2 2) } } : State).follows u
      ∧ setFallback p s =
        u.complete (.counts (if 6000 < natAt p 0 2 ∨ 4000 < natAt p 2 2 then .clamped else .ok) (min 6000 (natAt p 0 2))
          (min 4000 (natAt p 2 2))) :=
  ⟨_, State.pass_follows _ _, rfl⟩

/-- Settles O57, by the state of each command before its decisions and refreshes. -/
theorem setEnablesAndFallbackReachTheRows : Obligations.SetEnablesAndFallbackReachTheRows := by
  intro c s hl b p
  refine ⟨fun ht => ?_, fun ht => ?_⟩
  · obtain ⟨u, follows, done⟩ := setEnables_follows p b
    have taken : exec (.sete c) s = .next (setEnables p b) :=
      congrArg Host.Outcome.next ((takeCommand_taken ht).trans (withLength_right hl))
    rw [done] at taken
    simp only [enabledTo_eq] at follows taken
    exact ⟨u, follows, taken⟩
  · obtain ⟨u, follows, done⟩ := setFallback_follows p b
    have taken : exec (.setf c) s = .next (setFallback p b) :=
      congrArg Host.Outcome.next ((takeCommand_taken ht).trans (withLength_right hl))
    exact ⟨u, follows, taken.trans (congrArg Host.Outcome.next done)⟩

end Sys2Proof.Machine
end

section
/-! The settlement of O56: a row configured and removed. -/

namespace Sys2Proof.Machine

/-! ## The checks of SETR (R48) -/

/-- The number of the first field, from `n` upward, that does not fit. -/
def firstUnfit (n : Nat) : List Bool → Option Nat
  | [] => none
  | b :: bs => if b then firstUnfit (n + 1) bs else some n

theorem firstUnfit_of_first {l : List Bool} {x : Nat} (n : Nat) (hx : l[x]? = some false)
    (hy : ∀ y < x, l[y]? = some true) : firstUnfit n l = some (n + x) := by
  induction l generalizing n x with
  | nil => simp at hx
  | cons b bs ih =>
    cases x with
    | zero =>
      have unfit : b = false := by simpa using hx
      simp [firstUnfit, unfit]
    | succ x =>
      have fit : b = true := by simpa using hy 0 (Nat.succ_pos x)
      have rest := ih (n + 1) (by simpa using hx) fun y h => by simpa using hy (y + 1) (Nat.succ_lt_succ h)
      rw [firstUnfit, if_pos fit, rest]
      congr 1
      omega

theorem firstUnfit_of_all {l : List Bool} (n : Nat) (h : l.all id = true) : firstUnfit n l = none := by
  induction l generalizing n with
  | nil => rfl
  | cons b bs ih =>
    obtain ⟨fit, rest⟩ : b = true ∧ bs.all id = true := by simpa using h
    rw [firstUnfit, if_pos fit]
    exact ih (n + 1) rest

/-- One check, and those after it where it passes. -/
theorem check_eq {P : Prop} [Decidable P] {b : Bool} {n : Nat} {l : List Bool} {rest : Option Nat} (hb : b = true ↔ ¬ P)
    (h : ¬ P → rest = firstUnfit (n + 1) l) : (if P then some n else rest) = firstUnfit n (b :: l) := by
  rw [firstUnfit]
  by_cases unfit : P
  · rw [if_pos unfit, if_neg fun fit => hb.mp fit unfit]
  · rw [if_neg unfit, if_pos (hb.mpr unfit), h unfit]

theorem within_iff (p : List Byte) (off width lo hi : Nat) :
    within p off width lo hi = true ↔ ¬ ¬ inRange lo hi (natAt p off width) = true := by
  rw [within_eq, not_not]

/-- SETR finds the first field that does not fit, in field order. -/
theorem setrBadField_eq (p : List Byte) : setrBadField p = firstUnfit 1 (setrFits p) := by
  have action : within p 1 1 0 1 = true ↔ ¬ 1 < natAt p 1 1 := by
    rw [within_eq, inRange_iff]
    omega
  have lat : decide (-2400 ≤ intAt p 2 2 ∧ intAt p 2 2 ≤ 2400) = true ↔ ¬ ¬ (-2400 ≤ intAt p 2 2 ∧ intAt p 2 2 ≤ 2400) := by
    rw [decide_eq_true_iff, not_not]
  have channel : (within p 10 1 0 31 || decide (natAt p 10 1 = 255)) = true
      ↔ ¬ ¬ (natAt p 10 1 ≤ 31 ∨ natAt p 10 1 = 255) := by
    rw [Bool.or_eq_true, within_eq, inRange_iff, decide_eq_true_iff]
    omega
  unfold setrBadField setrFits
  dsimp only
  have ranged {off width lo hi n : Nat} {l : List Bool} {rest : Option Nat} (h : rest = firstUnfit (n + 1) l) :
      (if ¬ inRange lo hi (natAt p off width) = true then some n else rest)
        = firstUnfit n (within p off width lo hi :: l) :=
    check_eq (within_iff p off width lo hi) fun _ => h
  refine ranged (check_eq action fun named => ?_)
  by_cases configure : natAt p 1 1 = 0
  · rw [if_neg (by omega), if_pos configure]
    exact check_eq lat fun _ => ranged (ranged (ranged (ranged (check_eq channel fun _ => ranged (ranged (ranged rfl))))))
  · rw [if_pos (by omega), if_neg configure]
    rfl

theorem setrBadField_of_first {p : List Byte} {x : Nat} (hx : (setrFits p)[x]? = some false)
    (hy : ∀ y < x, (setrFits p)[y]? = some true) : setrBadField p = some (x + 1) := by
  rw [setrBadField_eq, firstUnfit_of_first 1 hx hy, Nat.add_comm]

theorem setrBadField_of_all {p : List Byte} (h : (setrFits p).all id = true) : setrBadField p = none :=
  (setrBadField_eq p).trans (firstUnfit_of_all 1 h)

/-- A payload of fewer than two bytes names no action but that of a missing byte, 0. -/
theorem natAt_missing {p : List Byte} (h : p.length < 2) : natAt p 1 1 = 0 := by
  simp [natAt, slice, List.drop_eq_nil_of_le (show p.length ≤ 1 by omega), leNat]

/-- The length of a payload fits its action (R48). -/
theorem setrBadLength_iff (p : List Byte) :
    setrBadLength p = true ↔ ¬ ((natAt p 1 1 = 1 ∧ p.length = 2) ∨ (natAt p 1 1 = 0 ∧ p.length = 21)
      ∨ (1 < natAt p 1 1 ∧ (p.length = 2 ∨ p.length = 21))) := by
  unfold setrBadLength
  split
  · rename_i short
    have missing := natAt_missing short
    simp only [true_iff]
    omega
  · split
    · rw [decide_eq_true_iff]
      omega
    · split
      · rw [decide_eq_true_iff]
        omega
      · rw [Bool.and_eq_true, decide_eq_true_iff, decide_eq_true_iff]
        omega

/-- Another row holds a channel (R48). -/
theorem channelTaken_iff (s : State) (r : RowId) (ch : Option Nat) :
    s.channelTaken r ch = true ↔ ch ≠ none ∧ ∃ q w, q ≠ r ∧ s.row q = some w ∧ w.ctx.channel = ch := by
  unfold State.channelTaken
  simp only [Bool.and_eq_true, List.any_eq_true, rowIds_mem, true_and, Option.isSome_iff_ne_none, decide_eq_true_eq,
    Option.any_eq_true]
  constructor
  · rintro ⟨some_ch, q, other, w, hw, same⟩
    exact ⟨some_ch, q, w, other, hw, same⟩
  · rintro ⟨some_ch, q, w, other, hw, same⟩
    exact ⟨some_ch, q, other, w, hw, same⟩

/-! ## Rows whose views are still to be made (R49) -/

/-- A row with its lane views blank. -/
def Row.blanked (w : Row) : Row :=
  { w with
    seed := { w.seed with view := blankView }
    fert := w.fert.map fun l => { l with view := blankView } }

theorem core_blanked (w : Row) : w.blanked.core = w.core := by
  unfold Row.blanked Row.core
  rw [Option.map_map]
  rfl

theorem entersLimit_blanked (v w : Row) : v.blanked.entersLimit w ↔ v.entersLimit w := by
  unfold Row.entersLimit Row.blanked
  cases v.fert <;> simp

theorem row_blanked (s : State) (q r : RowId) :
    (s.modRow q Row.blanked).row r = (s.row r).map fun w => if r = q then w.blanked else w := by
  rw [State.row_modRow]
  split
  · rfl
  · rw [Option.map_id']

/-- A row's look-ahead points are those it had. -/
theorem looksInto_blanked (s : State) (q : RowId) (rows : RowId → Bool) :
    (s.modRow q Row.blanked).looksInto rows = s.looksInto rows := by
  have settings : (s.modRow q Row.blanked).settings = s.settings := by rw [State.modRow_eq_setRow]; rfl
  funext k
  unfold State.looksInto
  refine congrArg (rowIds.any ·) (funext fun r => congrArg (rows r && ·) ?_)
  rw [row_blanked, settings]
  cases s.row r with
  | none => rfl
  | some w =>
    rw [Option.map_some, Option.any_some, Option.any_some]
    split
    · unfold Row.blanked
      cases w.fert <;> rfl
    · rfl

/-- What follows from the rows' setup follows whatever views a row had before. -/
theorem follows_blanked {s t : State} (h : s.follows t) (q : RowId) : (s.modRow q Row.blanked).follows t := by
  have rest : s.modRow q Row.blanked = { s with ren := { s.ren with rows := (s.modRow q Row.blanked).ren.rows } } := by
    rw [State.modRow_eq_setRow]
    rfl
  have rows (r : RowId) (v : Row) (hv : (s.modRow q Row.blanked).row r = some v) :
      ∃ w, s.row r = some w ∧ (v = w.blanked ∨ v = w) := by
    rw [row_blanked] at hv
    obtain ⟨w, hw, rfl⟩ := Option.map_eq_some_iff.mp hv
    refine ⟨w, hw, ?_⟩
    split
    · exact .inl rfl
    · exact .inr rfl
  have enters : (∃ r v w, (s.modRow q Row.blanked).row r = some v ∧ t.row r = some w ∧ v.entersLimit w)
      ↔ ∃ r v w, s.row r = some v ∧ t.row r = some w ∧ v.entersLimit w := by
    constructor
    · rintro ⟨r, v, w, hv, hw, limit⟩
      obtain ⟨x, hx, rfl | rfl⟩ := rows r v hv
      · exact ⟨r, x, w, hx, hw, (entersLimit_blanked x w).mp limit⟩
      · exact ⟨r, v, w, hx, hw, limit⟩
    · rintro ⟨r, v, w, hv, hw, limit⟩
      refine ⟨r, if r = q then v.blanked else v, w, by rw [row_blanked, hv]; rfl, hw, ?_⟩
      split
      · exact (entersLimit_blanked v w).mpr limit
      · exact limit
  obtain ⟨base, core, stall, raised, same⟩ := h
  have evu : (s.modRow q Row.blanked).evu = s.evu := by rw [rest]
  refine ⟨?_, fun r => ?_, fun r v w hv hw => ?_, fun limit => ?_, fun calm => ?_⟩
  · rw [rest]
    exact base
  · rw [core, row_blanked, Option.map_map]
    refine congrArg (fun g => (s.row r).map g) (funext fun w => ?_)
    show w.core = Row.core (if r = q then w.blanked else w)
    split
    · exact (core_blanked w).symm
    · rfl
  · obtain ⟨x, hx, rfl | rfl⟩ := rows r v hv
    · have timer := stall r x w hx hw
      rw [rest]
      exact timer
    · have timer := stall r v w hx hw
      rw [rest]
      exact timer
  · rw [evu]
    exact raised (enters.mp limit)
  · rw [evu]
    exact same fun limit => calm (enters.mpr limit)

theorem reads_blanked {s t : State} {looked : Key → Bool} (h : s.reads looked t) (q : RowId) :
    (s.modRow q Row.blanked).reads looked t := by
  obtain ⟨first, n, kept, taken, follows⟩ := h
  have blank := follows_blanked follows q
  rw [State.modRow_eq_setRow] at blank ⊢
  exact ⟨first, n, kept, taken, blank⟩

/-! ## The row configured afresh (R49) -/

/-- The row written by a SETR CONFIGURE, its views blank, is the one that the statement writes out. -/
theorem configuredRow_blanked (s : State) (r : RowId) (x : RowContext) (old : Option Row) :
    (s.configuredRow r x old).blanked =
      { ctx := x
        vr := 0
        seed :=
          { point := old.bind (·.seed.point), prevCell := old.bind (·.seed.prevCell)
            view := blankView, state := .lane .parked, q := 0, s := 0, limited := false, drive := 0 }
        fert := x.channel.map fun _ =>
          { look := (old.bind (·.fert)).bind (·.look), prevCell := (old.bind (·.fert)).bind (·.prevCell)
            drop := (old.bind (·.fert)).bind (·.drop)
            view := blankView, state := .parked, f := 0, ff := 0, duty := 0, limited := false, valve := 0
            flow := ⟨0, none, 0, 0, 0, 0, false, false, false⟩ }
        sfm :=
          { queue := [], skipRun := 0, window := [], blocked := false, stuck := false, stalled := false
            overflowSeen := false, underflowSeen := false, line := s.lineOf r
            occlusionDue := if s.lineOf r = .occluded then some (s.now + 500) else none
            stallDue := none, synth := 0 } } := by
  unfold Row.blanked State.configuredRow
  cases x.channel <;> rfl

/-- A SETR CONFIGURE carried out is a read of the records under the row's points, and what follows from it. -/
theorem configureRow_reads {s : State} (h : s.cst.wf) (r : RowId) (x : RowContext) :
    let a := s.setRow r (some (s.configuredRow r x (s.row r)).blanked)
    let a' := if (s.row r).any (·.unhealthy) then a.raiseHealth r else a
    a'.reads (a'.looksInto fun q => decide (q = r)) (configureRow r x s) := by
  intro a a'
  unfold configureRow
  dsimp only
  generalize hw : (if (s.row r).any (·.unhealthy) then (s.setRow r (some (s.configuredRow r x (s.row r)))).raiseHealth r
    else s.setRow r (some (s.configuredRow r x (s.row r)))) = w
  have ordered : w.cst.ordered := by
    rw [← hw]
    split
    · exact h.1
    · exact h.1
  have blank : w.modRow r Row.blanked = a' := by
    have written : (s.setRow r (some (s.configuredRow r x (s.row r)))).modRow r Row.blanked = a := by
      rw [State.modRow_eq_setRow, State.row_setRow_self, State.setRow_setRow]
      rfl
    have healthy (t : State) : (t.raiseHealth r).modRow r Row.blanked = (t.modRow r Row.blanked).raiseHealth r := by
      rw [State.modRow_eq_setRow, State.modRow_eq_setRow]
      rfl
    rw [← hw]
    simp only [a']
    split
    · rw [healthy, written]
    · exact written
  rw [← blank, looksInto_blanked]
  exact reads_blanked (refreshRow_reads ordered r (reviewLanes_follows _ _)) r

/-! ## O56 -/

theorem rowOf_eq {n : Nat} {r : RowId} (h : n = r.val + 1) : rowOf n = r := by
  rw [h]
  exact Fin.ext (Nat.mod_eq_of_lt r.isLt)

/-- SETR's checks of its length, its mode and its fields, each past those before it. -/
theorem setRowCommand_checked (p : List Byte) (s : State) :
    (setrBadLength p = true → setRowCommand p s = s.complete (.plain .badLength))
      ∧ (setrBadLength p = false → s.cmu.mode ≠ .idle → setRowCommand p s = s.complete (.plain .wrongMode))
      ∧ ∀ n, setrBadLength p = false → s.cmu.mode = .idle → setrBadField p = some n →
          setRowCommand p s = s.complete (.badField n) := by
  unfold setRowCommand
  refine ⟨fun bad => if_pos bad, fun good mode => ?_, fun n good idle unfit => ?_⟩
  · rw [if_neg (by rw [good]; decide), if_pos mode]
  · rw [if_neg (by rw [good]; decide), if_neg (not_not.mpr idle), unfit]

/-- SETR past those checks. -/
theorem setRowCommand_fitting {p : List Byte} {s : State} {r : RowId} (good : setrBadLength p = false)
    (idle : s.cmu.mode = .idle) (fields : (setrFits p).all id = true) (hr : natAt p 0 1 = r.val + 1) :
    setRowCommand p s =
      if natAt p 1 1 = 1 then
        (removeRow r s).complete (.counts .ok (removeRow r s).configuredCount 0)
      else if s.channelTaken r (setrContext p).channel then s.complete (.badField 8)
      else
        (configureRow r (setrContext p) s).complete (.counts .ok (configureRow r (setrContext p) s).configuredCount 0) := by
  unfold setRowCommand
  rw [if_neg (by rw [good]; decide), if_neg (not_not.mpr idle), setrBadField_of_all fields]
  dsimp only
  rw [rowOf_eq hr]
  rfl

theorem exec_setr {i : Instr} {c : Cmd} {s : State} (hi : i = .setrConfigure c ∨ i = .setrRemove c)
    (ht : s.takes Op.setr c) : exec i s = .next (setRowCommand c.payload (s.begun c)) := by
  rcases hi with rfl | rfl <;> exact congrArg Host.Outcome.next (takeCommand_taken ht)

/-- Settles O56: the checks in their order, and past them the row removed or configured. -/
theorem setRowConfiguresAndRemoves : Obligations.SetRowConfiguresAndRemoves := by
  intro i c s action hi ht ha b p ok fits
  have long : setrBadLength p = true ↔ ¬ fits := by
    simp only [fits, ← ha]
    exact setrBadLength_iff p
  have short (h : fits) : setrBadLength p = false := Bool.eq_false_iff.mpr fun bad => long.mp bad h
  have runs : exec i s = .next (setRowCommand p b) := exec_setr hi ht
  obtain ⟨badLength, wrongMode, badField⟩ := setRowCommand_checked p b
  rw [runs]
  refine ⟨fun unfit => congrArg Host.Outcome.next (badLength (long.mpr unfit)),
    fun fit mode => congrArg Host.Outcome.next (wrongMode (short fit) mode),
    fun fit idle x hx hy =>
      congrArg Host.Outcome.next (badField (x + 1) (short fit) idle (setrBadField_of_first hx hy)),
    fun fit idle fields r hr => ?_⟩
  have fitting := setRowCommand_fitting (s := b) (short fit) idle fields hr
  refine ⟨fun remove => ?_, fun configure => ?_⟩
  · intro t
    rw [fitting, if_pos (ha.trans remove)]
    rfl
  · rw [if_neg (by rw [ha, configure]; decide)] at fitting
    intro x taken
    refine ⟨fun other => ?_, fun free wf => ?_⟩
    · rw [fitting, if_pos ((channelTaken_iff b r x.channel).mpr other)]
    · intro old lane fresh sick a a'
      have reads := configureRow_reads (s := b) wf r x
      rw [configuredRow_blanked] at reads
      refine ⟨configureRow r x b, reads, ?_⟩
      rw [fitting, if_neg fun held => free ((channelTaken_iff b r x.channel).mp held)]

end Sys2Proof.Machine
end

section
/-! The settlement of O23: the measured flow and the trim. -/

namespace Sys2Proof.Machine

/-- The share of the full scale flow above the zero code, truncated (R73). -/
theorem measuredFlow_eq (code : AdcCode) {c : RowContext} (zero : c.zeroCode ≤ 4094) :
    (measuredFlow code c : Int) =
      if code.toNat ≤ c.zeroCode then 0
      else truncated (((code.toNat : ℚ) - c.zeroCode) * c.fullScale / (4095 - c.zeroCode)) := by
  unfold measuredFlow
  split
  · rfl
  · have share := truncated_natDiv ((code.toNat - c.zeroCode) * c.fullScale) (4095 - c.zeroCode)
    rw [← share]
    push_cast [show c.zeroCode ≤ code.toNat by omega, show c.zeroCode ≤ 4095 by omega]
    rfl

/-- The trim moves by an eighth of the error in per mille, truncated twice, and stays in its bounds (R74, R75). -/
theorem trimmed_eq (trim : Int) (f measured valveFull : Nat) :
    trimmed trim f measured valveFull =
      max (-250)
        (min 250 (trim + truncated ((truncated ((((f : Int) - measured : Int) : ℚ) * 1000 / valveFull) : ℚ) / 8))) := by
  have error := truncated_intDiv (((f : Int) - measured) * 1000) valveFull
  have eighth := truncated_intDiv ((((f : Int) - measured) * 1000).tdiv valveFull) 8
  push_cast at error eighth ⊢
  rw [error, eighth, trimmed, clampInt_eq (by decide)]

/-- Settles O23, by the truncated quotients of the flow and of the trim. -/
theorem measuredFlowAndTrim : Obligations.MeasuredFlowAndTrim :=
  ⟨fun code _ _ _ zero => measuredFlow_eq code zero,
    fun trim f measured valveFull _ => trimmed_eq trim f measured valveFull⟩

end Sys2Proof.Machine
end

section
/-! The settlement of O54: a completed conversion and its five steps. -/

namespace Sys2Proof.Machine

/-! ## A row's flow state written (R122) -/

/-- A row with a fertiliser lane and a flow state of it. -/
def Row.withFlow (w : Row) (l : FertLane) (f : FlowState) : Row :=
  { w with fert := some { l with flow := f } }

/-- A row written with a flow state, and HEALTH where a condition of it changes (R135). -/
def State.flowTaken (s : State) (r : RowId) (w : Row) (l : FertLane) (old new : Bool) (f : FlowState) : State :=
  let t := s.setRow r (some (w.withFlow l f))
  if new = old then t else t.raiseHealth r

theorem withFlow_self {w : Row} {l : FertLane} (hl : w.fert = some l) : w.withFlow l l.flow = w := by
  rw [Row.withFlow, ← hl]

theorem setRow_withFlow_self {s : State} {r : RowId} {w : Row} {l : FertLane} (hw : s.row r = some w)
    (hl : w.fert = some l) : s.setRow r (some (w.withFlow l l.flow)) = s := by
  rw [withFlow_self hl, ← hw, State.setRow_eq_self]

theorem modFlow_eq {s : State} {r : RowId} {w : Row} {l : FertLane} (hw : s.row r = some w) (hl : w.fert = some l)
    (f : FlowState → FlowState) : modFlow r f s = s.setRow r (some (w.withFlow l (f l.flow))) := by
  rw [modFlow, State.modRow_eq_setRow, hw, Option.map_some, hl]
  rfl

@[simp] theorem flowTaken_row (s : State) (r : RowId) (w : Row) (l : FertLane) (old new : Bool) (f : FlowState) :
    (s.flowTaken r w l old new f).row r = some (w.withFlow l f) := by
  unfold State.flowTaken
  dsimp only
  split
  · exact State.row_setRow_self _ _ _
  · exact State.row_setRow_self _ _ _

/-- The flow state written last stands, whatever HEALTH was raised before. -/
theorem flowTaken_setRow (s : State) (r : RowId) (w : Row) (l : FertLane) (old new : Bool) (f g : FlowState) :
    (s.flowTaken r w l old new f).setRow r (some (w.withFlow l g)) = s.flowTaken r w l old new g := by
  unfold State.flowTaken
  dsimp only
  split
  · exact State.setRow_setRow _ _ _ _
  · exact congrArg (·.raiseHealth r) (State.setRow_setRow s r _ _)

theorem setRow_flowTaken (s : State) (r : RowId) (w : Row) (l : FertLane) (old new : Bool) (v : Option Row)
    (f : FlowState) : (s.setRow r v).flowTaken r w l old new f = s.flowTaken r w l old new f := by
  simp only [State.flowTaken, State.setRow_setRow]

/-! ## What a conversion keeps until the next one starts (R124) -/

/-- The scanner, the clock, the Command Unit, the settings and every row's context are kept. -/
structure ConversionKeeps (s t : State) : Prop where
  fsc : t.fsc = s.fsc
  now : t.now = s.now
  cmu : t.cmu = s.cmu
  settings : t.settings = s.settings
  ctx : ∀ q, (t.row q).map (·.ctx) = (s.row q).map (·.ctx)

theorem ConversionKeeps.trans {s t u : State} (h : ConversionKeeps s t) (g : ConversionKeeps t u) :
    ConversionKeeps s u :=
  ⟨g.fsc.trans h.fsc, g.now.trans h.now, g.cmu.trans h.cmu, g.settings.trans h.settings,
    fun q => (g.ctx q).trans (h.ctx q)⟩

theorem ctx_of_cores {s t : State} (h : ∀ q, (t.row q).map Row.core = (s.row q).map Row.core) (q : RowId) :
    (t.row q).map (·.ctx) = (s.row q).map (·.ctx) := by
  have ctx := congrArg (Option.map (·.ctx)) (h q)
  rwa [Option.map_map, Option.map_map] at ctx

theorem follows_conversionKeeps {s t : State} (h : s.follows t) : ConversionKeeps s t :=
  ⟨h.fsc, h.now, h.cmu, h.settings, ctx_of_cores h.core⟩

theorem flowTaken_conversionKeeps {s : State} {r : RowId} {w v : Row} (hw : s.row r = some w) (hv : v.ctx = w.ctx)
    (l : FertLane) (old new : Bool) (f : FlowState) : ConversionKeeps s (s.flowTaken r v l old new f) := by
  have written : ConversionKeeps s (s.setRow r (some (v.withFlow l f))) := by
    refine ⟨rfl, rfl, rfl, rfl, fun q => ?_⟩
    rw [State.row_setRow]
    split
    · rename_i same
      rw [same, hw]
      exact congrArg some hv
    · rfl
  unfold State.flowTaken
  dsimp only
  split
  · exact written
  · exact ⟨written.fsc, written.now, written.cmu, written.settings, written.ctx⟩

theorem ConversionKeeps.scanList {s t : State} (h : ConversionKeeps s t) : t.scanList = s.scanList := by
  have scanned (u : State) (q : RowId) :
      (u.row q).any (·.scanned) = ((u.row q).map (·.ctx)).any fun c => c.enabled && c.channel.isSome := by
    cases u.row q <;> rfl
  unfold State.scanList
  simp only [scanned, h.ctx]

/-- The conversion of the row at the scan position starts (R124). -/
theorem ConversionKeeps.startNext {s t : State} (h : ConversionKeeps s t) :
    startConversion t.fsc.position t =
      { t with fsc :=
        { s.fsc with
          inFlight := s.fsc.position.map fun y => ⟨y, s.now⟩
          position := s.fsc.position.bind fun y => rowAfter s.scanList y } } := by
  rw [startConversion_eq, h.scanList, h.fsc]
  simp only [h.now, State.setFsc]

/-! ## Steps 1 and 2: the flow and the sensor fault runs (R73, R126, R127) -/

/-- A flow state after a reading's flow and its runs. -/
def FlowState.afterReading (x : FlowState) (rail : Bool) (measured : Nat) : FlowState :=
  let railRun := if rail then min 3 (x.railRun + 1) else 0
  let inRun := if rail then 0 else min 3 (x.inRun + 1)
  { x with
    lastFlow := if rail then x.lastFlow else measured
    railRun := railRun
    inRun := inRun
    sensorFault := if rail then x.sensorFault || decide (railRun = 3) else x.sensorFault && decide (inRun ≠ 3) }

/-- A flow state after its runs, with SENSOR FAULT following them. -/
def FlowState.afterRuns (x : FlowState) (rail : Bool) : FlowState :=
  { x.counted rail with sensorFault := (x.counted rail).faultAfter rail }

theorem afterRuns_eq (x : FlowState) (rail : Bool) (measured : Nat) :
    ({ x with lastFlow := if rail then x.lastFlow else measured } : FlowState).afterRuns rail =
      x.afterReading rail measured := by
  cases rail <;> rfl

theorem isRail_eq (code : AdcCode) : isRail code = decide (code = 0 ∨ code = 4095) :=
  (Bool.decide_or _ _).symm

section
variable {s : State} {r : RowId} {w : Row} {l : FertLane} (hw : s.row r = some w) (hl : w.fert = some l)
include hw

theorem measured_eq (code : AdcCode) : s.measured r code = measuredFlow code w.ctx := by
  rw [State.measured, hw]

include hl

theorem fertOf_eq : s.fertOf r = some l := by
  rw [State.fertOf, hw]
  exact hl

theorem flowOf_eq : s.flowOf r = some l.flow := by
  rw [State.flowOf, fertOf_eq hw hl]
  rfl

theorem fertRunning_eq : s.fertRunning r = decide (l.state = .running) := by
  rw [State.fertRunning, fertOf_eq hw hl]
  rfl

theorem inFault_eq : s.inFault r = l.flow.sensorFault := by
  rw [State.inFault, flowOf_eq hw hl]
  rfl

theorem flowStep_eq (code : AdcCode) :
    flowStep r code s =
      s.setRow r (some (w.withFlow l
        { l.flow with lastFlow := if isRail code then l.flow.lastFlow else measuredFlow code w.ctx })) := by
  unfold flowStep
  rw [modFlow_eq hw hl, measured_eq hw]
  cases isRail code with
  | true => exact (setRow_withFlow_self hw hl).symm
  | false => rfl

theorem faultStep_eq (code : AdcCode) :
    faultStep r code s =
      s.flowTaken r w l l.flow.sensorFault (l.flow.afterRuns (isRail code)).sensorFault
        (l.flow.afterRuns (isRail code)) := by
  unfold faultStep
  rw [flowOf_eq hw hl]
  dsimp only
  rw [modFlow_eq hw hl]
  rfl

theorem readingTaken_eq (code : AdcCode) :
    let f := l.flow.afterReading (isRail code) (measuredFlow code w.ctx)
    faultStep r code (flowStep r code s) = s.flowTaken r w l l.flow.sensorFault f.sensorFault f := by
  intro f
  rw [flowStep_eq hw hl, faultStep_eq (State.row_setRow_self _ _ _) rfl, setRow_flowTaken]
  dsimp only
  rw [afterRuns_eq]
  rfl

end

/-! ## Step 3: the credit (R128 to R130) -/

/-- A RUNNING lane forms a credit from a reading, but at a rail outside SENSOR FAULT. -/
def FertLane.formsCredit (l : FertLane) (rail : Bool) : Bool :=
  decide (l.state = .running) && (l.flow.sensorFault || !rail)

/-- The volume of the credit: the target flow's in SENSOR FAULT, else the measured flow's. -/
def FertLane.creditVolume (l : FertLane) (measured now : Nat) : Nat :=
  (if l.flow.sensorFault then l.f else measured) * (l.flow.prevTime.elim 0 fun t => min 1000 (now - t)) / 1000

theorem creditVolume_eq (l : FertLane) (measured now : Nat) :
    volumeOf (if l.flow.sensorFault then l.f else measured) (intervalOf l.flow.prevTime now) =
      l.creditVolume measured now := by
  unfold FertLane.creditVolume intervalOf
  cases l.flow.prevTime <;> rfl

/-- A flow state after the credit step has formed a credit or none. -/
def FlowState.credited (x : FlowState) (forms : Bool) : FlowState :=
  { x with estimated := if forms then x.sensorFault else x.estimated }

/-- A volume formed is delivered where the drop point exists (R21). -/
def State.volumeTaken (s : State) (forms : Bool) (drop : Option Point) (volume : Nat) : State :=
  match forms, drop with
  | true, some q => creditFert volume q s
  | _, _ => s

theorem fertCredited_eq_appliedAt (p : Payload) (volume : Nat) (b : Sub) :
    p.fertCredited volume b = p.appliedAt volume b := by
  unfold Payload.fertCredited Payload.appliedAt
  rcases Nat.eq_zero_or_pos volume with zero | positive
  · simp only [if_pos zero, if_neg (show ¬ 0 < volume by omega), satAdd]
  · simp only [if_neg (show ¬ volume = 0 by omega), if_pos positive, satAdd, Coverage.mark]

theorem creditFert_credited (volume : Nat) (q : Point) (s : State) :
    s.credited (cellOf s.settings.cellSide q) (·.appliedAt volume (subOf s.settings.cellSide q))
      (creditFert volume q s) := by
  simp only [← fertCredited_eq_appliedAt]
  exact deliver_credited _ _ s

theorem volumeTaken_of_lost (s : State) {forms : Bool} {drop : Option Point} (volume : Nat)
    (lost : ∀ q, forms = true → drop = some q → False) : s.volumeTaken forms drop volume = s := by
  unfold State.volumeTaken
  split
  · exact (lost _ rfl rfl).elim
  · rfl

/-- A credit keeps what a conversion keeps, and every row but for what follows from its setup. -/
theorem volumeTaken_keeps (s : State) (forms : Bool) (drop : Option Point) (volume : Nat) :
    ConversionKeeps s (s.volumeTaken forms drop volume)
      ∧ ∀ q, ((s.volumeTaken forms drop volume).row q).map Row.core = (s.row q).map Row.core := by
  unfold State.volumeTaken
  split
  · rename_i q
    obtain ⟨base, core⟩ := deliver_base (cellOf s.settings.cellSide q)
      (·.fertCredited volume (subOf s.settings.cellSide q)) s
    have keeps : ConversionKeeps s (creditFert volume q s) := by
      unfold creditFert
      exact ⟨by rw [base], by rw [base], by rw [base], by rw [base], ctx_of_cores core⟩
    exact ⟨keeps, core⟩
  · exact ⟨⟨rfl, rfl, rfl, rfl, fun _ => rfl⟩, fun _ => rfl⟩

/-- A credit leaves the row its context and its flow state. -/
theorem volumeTaken_row {s : State} {r : RowId} {w : Row} {l : FertLane} {f : FlowState}
    (hw : s.row r = some (w.withFlow l f)) (forms : Bool) (drop : Option Point) (volume : Nat) :
    ∃ v m, (s.volumeTaken forms drop volume).row r = some v ∧ v.fert = some m ∧ m.flow = f ∧ v.ctx = w.ctx := by
  have core := (volumeTaken_keeps s forms drop volume).2 r
  rw [hw] at core
  obtain ⟨v, hv, same⟩ := Option.map_eq_some_iff.mp core
  obtain ⟨m, hm, flow⟩ := Option.map_eq_some_iff.mp (Row.flow_of_core same)
  exact ⟨v, m, hv, hm, flow, (Row.ctx_of_core same :)⟩

/-- The flow a credit is formed from, where one is (R129, R130). -/
theorem creditFlow_eq {s : State} {r : RowId} {w : Row} {l : FertLane} (hw : s.row r = some w) (hl : w.fert = some l)
    (code : AdcCode) :
    s.creditFlow r code =
      if (l.flow.sensorFault || !isRail code) = true then
        some (if l.flow.sensorFault then l.f else measuredFlow code w.ctx)
      else none := by
  unfold State.creditFlow
  simp only [fertOf_eq hw hl, measured_eq hw]
  cases l.flow.sensorFault <;> cases isRail code <;> rfl

theorem deliverVolume_eq {s : State} {r : RowId} {w : Row} {l : FertLane} (hw : s.row r = some w) (hl : w.fert = some l)
    (volume : Nat) : deliverVolume r volume s = s.volumeTaken true l.drop volume := by
  unfold deliverVolume
  rw [hw, Option.bind_some, Row.drop, hl, Option.bind_some]
  cases l.drop <;> rfl

theorem creditStep_eq {s : State} {r : RowId} {w : Row} {l : FertLane} (hw : s.row r = some w) (hl : w.fert = some l)
    (code : AdcCode) :
    let forms := l.formsCredit (isRail code)
    creditStep r code s =
      modFlow r (fun f => { f with prevTime := some s.now })
        ((s.setRow r (some (w.withFlow l (l.flow.credited forms)))).volumeTaken forms l.drop
          (l.creditVolume (measuredFlow code w.ctx) s.now)) := by
  have uncredited : s.setRow r (some (w.withFlow l (l.flow.credited false))) = s := setRow_withFlow_self hw hl
  unfold creditStep
  simp only [fertRunning_eq hw hl, flowOf_eq hw hl, Option.bind_some, creditFlow_eq hw hl, decide_eq_true_eq]
  congr 1
  cases forms : l.formsCredit (isRail code) with
  | true =>
    obtain ⟨running, formed⟩ := Bool.and_eq_true_iff.mp forms
    rw [if_pos (of_decide_eq_true running), if_pos formed]
    dsimp only
    rw [modFlow_eq hw hl, deliverVolume_eq (State.row_setRow_self _ _ _) rfl, creditVolume_eq]
    rfl
  | false =>
    rw [uncredited]
    by_cases running : l.state = .running
    · rw [FertLane.formsCredit, decide_eq_true running, Bool.true_and] at forms
      rw [if_pos running, forms]
      rfl
    · rw [if_neg running]
      rfl

/-! ## Step 4: the NO FLOW test (R132, R133) -/

/-- A reading on which NO FLOW is tested at all: in range, in FIELD, outside SENSOR FAULT. -/
def State.testsFlow (s : State) (m : FertLane) (rail : Bool) : Bool :=
  !rail && decide (s.cmu.mode = .field) && !m.flow.sensorFault

/-- The low-flow run after a reading. -/
def FertLane.lowAfter (m : FertLane) (tests : Bool) (measured : Nat) : Nat :=
  if (tests && decide (m.state = .running)) = true ∧ 100 ≤ m.duty ∧ measured < m.f / 4 then min 10 (m.flow.lowRun + 1)
  else 0

/-- A flow state after the NO FLOW test. -/
def FertLane.flowTested (m : FertLane) (tests : Bool) (measured : Nat) : FlowState :=
  { m.flow with
    noFlow :=
      if m.flow.noFlow then !(tests && decide (m.f / 2 ≤ measured)) else decide (m.lowAfter tests measured = 10)
    lowRun :=
      if m.flow.noFlow then m.flow.lowRun else if m.lowAfter tests measured = 10 then 0 else m.lowAfter tests measured }

theorem flowTested_of_noFlow {m : FertLane} (held : m.flow.noFlow = true) (tests : Bool) (measured : Nat) :
    m.flowTested tests measured =
      if tests = true ∧ m.f / 2 ≤ measured then { m.flow with noFlow := false } else m.flow := by
  have exits : (tests && decide (m.f / 2 ≤ measured)) = decide (tests = true ∧ m.f / 2 ≤ measured) := by
    rw [Bool.decide_and, Bool.decide_eq_true]
  unfold FertLane.flowTested
  rw [if_pos held, if_pos held, exits]
  split
  · rename_i test
    rw [decide_eq_true test]
    rfl
  · rename_i test
    rw [decide_eq_false test, Bool.not_false, ← held]

theorem flowTested_of_flow {m : FertLane} (clear : m.flow.noFlow = false) (tests : Bool) (measured : Nat) :
    m.flowTested tests measured =
      if m.lowAfter tests measured = 10 then { m.flow with noFlow := true, lowRun := 0 }
      else { m.flow with lowRun := m.lowAfter tests measured } := by
  have free : ¬ m.flow.noFlow = true := by rw [clear]; decide
  unfold FertLane.flowTested
  rw [if_neg free, if_neg free]
  split
  · rename_i low
    rw [decide_eq_true low]
  · rename_i low
    rw [decide_eq_false low, ← clear]

section
variable {s : State} {r : RowId} {w : Row} {m : FertLane} (hw : s.row r = some w) (hm : w.fert = some m)
include hw hm

theorem lowRunAfter_eq (code : AdcCode) :
    lowRunAfter (s.lowTested r code) (measuredFlow code w.ctx) m.f m.flow.lowRun =
      m.lowAfter (s.testsFlow m (isRail code)) (measuredFlow code w.ctx) := by
  unfold lowRunAfter FertLane.lowAfter State.lowTested State.testsFlow
  rw [fertRunning_eq hw hm, inFault_eq hw hm, fertOf_eq hw hm, Option.any_some]
  refine if_congr ?_ rfl rfl
  simp only [Bool.and_eq_true, decide_eq_true_eq]
  tauto

theorem noFlowStep_eq (code : AdcCode) :
    let f := m.flowTested (s.testsFlow m (isRail code)) (measuredFlow code w.ctx)
    noFlowStep r code s = s.flowTaken r w m m.flow.noFlow f.noFlow f := by
  have exits : s.exitTested r code = s.testsFlow m (isRail code) := by
    rw [State.exitTested, inFault_eq hw hm]
    rfl
  intro f
  have tested : f = m.flowTested (s.testsFlow m (isRail code)) (measuredFlow code w.ctx) := rfl
  unfold noFlowStep State.flowTaken
  rw [fertOf_eq hw hm]
  simp only [exits, measured_eq hw, lowRunAfter_eq hw hm, modFlow_eq hw hm]
  cases held : m.flow.noFlow with
  | true =>
    rw [flowTested_of_noFlow held] at tested
    rw [tested, if_pos rfl]
    split
    · rfl
    · exact (setRow_withFlow_self hw hm).symm
  | false =>
    rw [flowTested_of_flow held] at tested
    rw [tested, if_neg Bool.false_ne_true]
    split
    · rfl
    · simp only [held]

/-! ## Step 5: the trim (R74, R131) -/

theorem trimStep_follows (code : AdcCode) :
    (s.setRow r (some (w.withFlow m
      { m.flow with
        trim :=
          if s.testsFlow m (isRail code) && decide (m.state = .running) then
            trimmed m.flow.trim m.f (measuredFlow code w.ctx) w.ctx.valveFull
          else m.flow.trim }))).follows (trimStep r code s) := by
  have due : s.trimDue r code = (s.testsFlow m (isRail code) && decide (m.state = .running)) := by
    rw [State.trimDue, fertRunning_eq hw hm, inFault_eq hw hm, State.testsFlow, Bool.and_right_comm]
  unfold trimStep
  simp only [hw, hm, due, measured_eq hw, modFlow_eq hw hm]
  split
  · exact passRow_follows _ _ _
  · rw [setRow_withFlow_self hw hm]
    exact .refl s

end

/-! ## The five steps in order (R126) -/

/-- Steps 1 to 3: the reading and its credit, and then the time of the previous conversion. -/
theorem creditTaken_eq {s : State} {r : RowId} {w : Row} {l : FertLane} (hw : s.row r = some w) (hl : w.fert = some l)
    (code : AdcCode) :
    let measured := measuredFlow code w.ctx
    let f := l.flow.afterReading (isRail code) measured
    let k : FertLane := { l with flow := f }
    let forms := k.formsCredit (isRail code)
    creditStep r code (faultStep r code (flowStep r code s)) =
      modFlow r (fun f => { f with prevTime := some s.now })
        ((s.flowTaken r w l l.flow.sensorFault f.sensorFault (f.credited forms)).volumeTaken forms l.drop
          (k.creditVolume measured s.now)) := by
  intro measured f k forms
  have keeps := flowTaken_conversionKeeps hw rfl l l.flow.sensorFault f.sensorFault f
  have written := flowTaken_setRow s r w l l.flow.sensorFault f.sensorFault f (f.credited forms)
  rw [readingTaken_eq hw hl, creditStep_eq (l := k) (flowTaken_row _ _ _ _ _ _ _) rfl, keeps.now, ← written]
  rfl

/-- Steps 4 and 5: the NO FLOW test and the trim, on the lane that the credit leaves. -/
theorem testsTaken_follows {u : State} {r : RowId} {v : Row} {m : FertLane} (hv : u.row r = some v)
    (hm : v.fert = some m) (code : AdcCode) (now : Nat) :
    let measured := measuredFlow code v.ctx
    let n : FertLane := { m with flow := { m.flow with prevTime := some now } }
    let tests := u.testsFlow m (isRail code)
    let g := n.flowTested tests measured
    (u.flowTaken r v m m.flow.noFlow g.noFlow
      { g with
        trim :=
          if tests && decide (m.state = .running) then trimmed m.flow.trim m.f measured v.ctx.valveFull
          else m.flow.trim }).follows
      (trimStep r code (noFlowStep r code (modFlow r (fun f => { f with prevTime := some now }) u))) := by
  intro measured n tests g
  rw [modFlow_eq hv hm, noFlowStep_eq (m := n) (State.row_setRow_self _ _ _) rfl, setRow_flowTaken]
  have trims := trimStep_follows (m := { m with flow := g }) (flowTaken_row u r v m m.flow.noFlow g.noFlow g) rfl code
  have mode := (flowTaken_conversionKeeps hv rfl m m.flow.noFlow g.noFlow g).cmu
  have written := flowTaken_setRow u r v m m.flow.noFlow g.noFlow g
  simp only [State.testsFlow, mode] at trims
  rw [← written]
  exact trims

/-- A conversion in flight that has had its 2 ms is taken, and the next one starts (R124). -/
theorem exec_conversionComplete {s : State} {r : RowId} {start : Nat} (hr : s.inReset = false) (code : AdcCode)
    (hc : s.fsc.inFlight = some ⟨r, start⟩) (due : start + 2 ≤ s.now) :
    exec (.conversionComplete code) s =
      .next (startConversion (takeCode r code s).fsc.position (takeCode r code s)) := by
  have taken : s.conversionDue = some r := by
    rw [State.conversionDue, hc]
    exact if_pos due
  refine congrArg Host.Outcome.next ((whenReleased_released hr).trans ?_)
  rw [taken]

theorem exec_conversionComplete_early {s : State} (hr : s.inReset = false) (code : AdcCode)
    (early : ∀ c, s.fsc.inFlight = some c → s.now < c.start + 2) : exec (.conversionComplete code) s = .next s := by
  have nothing : s.conversionDue = none := by
    unfold State.conversionDue
    split
    · rfl
    · rename_i c hc
      have := early c hc
      exact if_neg (by omega)
  refine congrArg Host.Outcome.next ((whenReleased_released hr).trans ?_)
  rw [nothing]

/-- Settles O54, by the credit, then the tests on the lane it leaves, then the next conversion. -/
theorem conversionsTakeTheirFiveSteps : Obligations.ConversionsTakeTheirFiveSteps := by
  intro s code hr
  refine ⟨exec_conversionComplete_early hr code, fun r start w l hc due hw hl => ?_⟩
  rw [exec_conversionComplete hr code hc due]
  have steps := creditTaken_eq hw hl code
  rw [isRail_eq] at steps
  intro x rail measured railRun inRun fault forms interval volume counted a b
  have credit : creditStep r code (faultStep r code (flowStep r code s)) =
      modFlow r (fun f => { f with prevTime := some s.now }) (b.volumeTaken forms l.drop volume) := steps
  have keeps_b : ConversionKeeps s b := flowTaken_conversionKeeps hw rfl l x.sensorFault fault counted
  have row_b : b.row r = some (w.withFlow l counted) := flowTaken_row s r w l x.sensorFault fault counted
  have keeps_u := keeps_b.trans (volumeTaken_keeps b forms l.drop volume).1
  obtain ⟨v, m, hv, hm, flow, ctx⟩ := volumeTaken_row row_b forms l.drop volume
  have follows := testsTaken_follows hv hm code s.now
  rw [← credit, ← takeCode, isRail_eq, ctx, flow, State.testsFlow, keeps_u.cmu, flow] at follows
  have keeps := (keeps_u.trans (flowTaken_conversionKeeps hv rfl m _ _ _)).trans (follows_conversionKeeps follows)
  refine ⟨b.volumeTaken forms l.drop volume, v, m, ?_, hv, hm, takeCode r code s, ?_, ?_⟩
  · split
    · rename_i q formed drop
      rw [formed, drop, ← keeps_b.settings]
      exact creditFert_credited volume q b
    · rename_i lost
      exact volumeTaken_of_lost b volume lost
  · exact follows
  · rw [keeps.startNext]

end Sys2Proof.Machine
end

section
/-! The settlement of O25: the decision of a lane that is not priming. -/

namespace Sys2Proof.Machine

/-- The first of seven outcomes whose condition holds: each outcome stands if and only if its own condition is the first
to hold. -/
theorem firstReason_iff (parks noPosition noApply covered zeroRate noPrescription : Prop) [Decidable parks]
    [Decidable noPosition] [Decidable noApply] [Decidable covered] [Decidable zeroRate] [Decidable noPrescription]
    {x : LaneState}
    (h : x = if parks then .parked else if noPosition then .held .noPosition else if noApply then .held .noApply
      else if covered then .held .covered else if zeroRate then .held .zeroRate
      else if noPrescription then .held .noPrescription else .running) :
    (x = .parked ↔ parks)
      ∧ (x = .held .noPosition ↔ ¬ parks ∧ noPosition)
      ∧ (x = .held .noApply ↔ ¬ parks ∧ ¬ noPosition ∧ noApply)
      ∧ (x = .held .covered ↔ ¬ parks ∧ ¬ noPosition ∧ ¬ noApply ∧ covered)
      ∧ (x = .held .zeroRate ↔ ¬ parks ∧ ¬ noPosition ∧ ¬ noApply ∧ ¬ covered ∧ zeroRate)
      ∧ (x = .held .noPrescription ↔
          ¬ parks ∧ ¬ noPosition ∧ ¬ noApply ∧ ¬ covered ∧ ¬ zeroRate ∧ noPrescription)
      ∧ (x = .running ↔ ¬ parks ∧ ¬ noPosition ∧ ¬ noApply ∧ ¬ covered ∧ ¬ zeroRate ∧ ¬ noPrescription) := by
  subst h
  split_ifs <;> simp [*]

theorem State.noPosition_iff (s : State) (v : LaneView) :
    s.noPosition v = true ↔
      s.mot.fixState = .noFix ∨ (s.mot.fixState = .lost ∧ s.settings.lossPolicy = .stop) ∨ v.outcome = .noPoint := by
  simp [State.noPosition, or_assoc]

/-- A decision past step 1 of R85, as one chain of conditions (R85 to R88). -/
theorem decided_eq (s : State) (enabled : Bool) (p : Product) (v : LaneView) :
    s.decided enabled p v =
      if s.cmu.mode = .idle ∨ enabled = false ∨ s.mot.switch = .lifted then .parked
      else if s.noPosition v = true then .held .noPosition
      else if v.outcome = .found ∧ v.noApply = some true then .held .noApply
      else if s.settings.overlap p = true ∧ v.outcome = .found ∧ v.cover = some .settled then .held .covered
      else if v.outcome = .found ∧ v.target = 0 then .held .zeroRate
      else if (v.outcome = .missing ∨ v.outcome = .poisoned) ∧ v.target = 0 then .held .noPrescription
      else .running := by
  unfold State.decided State.heldReason
  split_ifs <;> rfl

/-- Settles O25: the conditions of a decision stand in one chain, and the first that holds decides. -/
theorem laneDecisionsTakeTheFirstReason : Obligations.LaneDecisionsTakeTheFirstReason := by
  intro s enabled p v
  have reasons := firstReason_iff _ _ _ _ _ _ (decided_eq s enabled p v)
  simp only [State.noPosition_iff] at reasons
  exact reasons

end Sys2Proof.Machine
end

section
/-! What the shared operations and the events of the field keep of the device mode and the implement settings. -/

namespace Sys2Proof.Machine

/-! ## The policy of the part (R80, R174) -/

/-- The device mode and the implement settings, which only their own commands change. -/
def State.policy (s : State) : Mode × Settings :=
  (s.cmu.mode, s.settings)

theorem mode_of_policy {s : State} {m : Mode} {c : Settings} (h : s.policy = (m, c)) : s.cmu.mode = m :=
  congrArg Prod.fst h

theorem settings_of_policy {s : State} {m : Mode} {c : Settings} (h : s.policy = (m, c)) : s.settings = c :=
  congrArg Prod.snd h

theorem policy_iff (s t : State) : t.policy = s.policy ↔ t.cmu.mode = s.cmu.mode ∧ t.settings = s.settings :=
  Prod.mk_inj

section
variable (s : State)

/-! ### The state's named updates -/

@[simp] theorem setLnk_policy (x : Link) : (s.setLnk x).policy = s.policy := rfl
@[simp] theorem setCst_policy (x : Store) : (s.setCst x).policy = s.policy := rfl
@[simp] theorem setMot_policy (x : Motion) : (s.setMot x).policy = s.policy := rfl
@[simp] theorem setRen_policy (x : Engine) : (s.setRen x).policy = s.policy := rfl
@[simp] theorem setFsc_policy (x : Scanner) : (s.setFsc x).policy = s.policy := rfl
@[simp] theorem setEvu_policy (x : Events) : (s.setEvu x).policy = s.policy := rfl
@[simp] theorem setPins_policy (x : Pins) : (s.setPins x).policy = s.policy := rfl
@[simp] theorem raise_policy (k : Kind) : (s.raise k).policy = s.policy := rfl
@[simp] theorem raiseHealth_policy (r : RowId) : (s.raiseHealth r).policy = s.policy := rfl
@[simp] theorem complete_policy (k : Completion) : (s.complete k).policy = s.policy := rfl
@[simp] theorem setProgress_policy (p : Progress) : (s.setCmu { s.cmu with progress := p }).policy = s.policy := rfl
@[simp] theorem await_policy (p : Progress) : (s.await p).policy = s.policy := rfl
@[simp] theorem setMode_policy (m : Mode) : (s.setMode m).policy = (m, s.settings) := rfl
@[simp] theorem shifted_policy (n : Nat) : (s.shifted n).policy = s.policy := rfl
@[simp] theorem begun_policy (c : Cmd) : (s.begun c).policy = s.policy := rfl
@[simp] theorem discard_policy (b : Bool) : (s.discard b).policy = s.policy := rfl
@[simp] theorem refuse_policy : s.refuse.policy = s.policy := rfl
@[simp] theorem reply_policy (sent after : Nat) (bytes : List Byte) :
    (s.reply sent after bytes).policy = s.policy := rfl
@[simp] theorem lineAt_policy (r : RowId) (l : Line) : (s.lineAt r l).policy = s.policy := rfl
@[simp] theorem removeRecord_policy (k : Key) : (removeRecord k s).policy = s.policy := rfl
@[simp] theorem writePayload_policy (k : Key) (p : Payload) : (writePayload k p s).policy = s.policy := rfl

/-! ### Rows -/

@[simp] theorem mapRows_policy (g : RowId → Row → Row) : (s.mapRows g).policy = s.policy := setRen_policy s _
@[simp] theorem setRow_policy (r : RowId) (w : Option Row) : (s.setRow r w).policy = s.policy := rfl

@[simp] theorem modRow_policy (r : RowId) (f : Row → Row) : (s.modRow r f).policy = s.policy := by
  rw [State.modRow_eq_mapRows, mapRows_policy]

@[simp] theorem modFlight_policy (r : RowId) (f : Flight → Flight) : (modFlight r f s).policy = s.policy :=
  modRow_policy s r _

@[simp] theorem modFlow_policy (r : RowId) (f : FlowState → FlowState) : (modFlow r f s).policy = s.policy :=
  modRow_policy s r _

theorem State.follows.policy {s t : State} (h : s.follows t) : t.policy = s.policy := by
  rw [State.policy, h.cmu, h.settings, State.policy]

@[simp] theorem pass_policy (x : RowId → Option Pass) : (s.pass x).policy = s.policy := (s.pass_follows x).policy
@[simp] theorem computeAll_policy : (computeAll s).policy = s.policy := (computeAll_follows s).policy
@[simp] theorem decideAll_policy : (decideAll s).policy = s.policy := (decideAll_follows s).policy
@[simp] theorem reviewLanes_policy (b : Lanes) : (reviewLanes b s).policy = s.policy := (reviewLanes_follows b s).policy
@[simp] theorem reviewBound_policy (k : Key) : (reviewBound k s).policy = s.policy := (reviewBound_follows k s).policy
@[simp] theorem refreshMoved_policy (old : Store) : (refreshMoved old s).policy = s.policy :=
  (refreshMoved_follows old s).policy

/-! ### The store (R16, R20 to R23, R157 to R161) -/

theorem State.storeOnly.policy {s t : State} (h : s.storeOnly t) : t.policy = s.policy := by
  rw [State.policy, h.cmu, h.settings, State.policy]

@[simp] theorem readState_policy (k : Key) : (readState k s).policy = s.policy := by
  rw [(readState_rest k s).1]
  rfl

@[simp] theorem deliver_policy (k : Key) (f : Payload → Payload) : (deliver k f s).policy = s.policy := by
  unfold deliver
  split <;> simp

@[simp] theorem creditSeed_policy (c : SeedCredit) (k : Key) :
    (creditSeed c k s).policy = s.policy := deliver_policy s _ _
@[simp] theorem creditFert_policy (v : Nat) (q : Point) : (creditFert v q s).policy = s.policy := deliver_policy s _ _

@[simp] theorem settleRecords_policy : (settleRecords s).1.policy = s.policy := (settleRecords_storeOnly s).policy

@[simp] theorem settle_policy : (settle s).1.policy = s.policy := by
  simp [settle]

@[simp] theorem settleAndDecide_policy : (settleAndDecide s).1.policy = s.policy := by
  simp [settleAndDecide]

@[simp] theorem offerMisses_policy (keys : List Key) : (offerMisses keys s).policy = s.policy := by
  obtain ⟨m, i, e, n, h⟩ := offerMisses_eq keys s
  rw [h]
  rfl

theorem freeFirst_policy {f : State → State} (h : (f s).policy = s.policy) : (freeFirst f s).policy = s.policy := by
  obtain ⟨k, n, e⟩ := freeFirst_eq f s
  rw [e]
  exact h

@[simp] theorem readForRow_policy (r : RowId) : (readForRow r s).policy = s.policy := by
  rw [readForRow_rest]
  rfl

@[simp] theorem readForRows_policy : (forRows readForRow s).policy = s.policy :=
  forRows_field State.policy (fun r t => readForRow_policy t r) s

/-! ### Priming (R94 to R99) -/

@[simp] theorem startPriming_policy (n : Nat) (rows : RowSet) : (startPriming n rows s).policy = s.policy := by
  simp [startPriming]

@[simp] theorem endPriming_policy (rows : RowSet) : (endPriming rows s).policy = s.policy := by
  simp [endPriming]

@[simp] theorem leavePriming_policy (r : RowId) (b : Bool) : (leavePriming r b s).policy = s.policy := by
  unfold leavePriming
  split
  · dsimp only
    split <;> rfl
  · rfl

@[simp] theorem primingHole_policy (r : RowId) : (primingHole r s).policy = s.policy := by
  unfold primingHole
  split
  · rfl
  · split
    · split <;> simp
    · rfl

@[simp] theorem primingStall_policy (r : RowId) : (primingStall r s).policy = s.policy := by
  unfold primingStall
  split
  · rfl
  · split <;> simp

/-! ### Seed flight (R103 to R120) -/

@[simp] theorem noteMatched_policy (r : RowId) : (noteMatched r s).policy = s.policy := by
  unfold noteMatched
  split
  · rfl
  · dsimp only
    split <;> simp

@[simp] theorem noteSkip_policy (r : RowId) : (noteSkip r s).policy = s.policy := by
  unfold noteSkip
  split
  · rfl
  · dsimp only
    split <;> simp

@[simp] theorem dropOldest_policy (r : RowId) : (dropOldest r s).policy = s.policy := by simp [dropOldest]

@[simp] theorem creditEntry_policy (e : Entry) (c : Sub → SeedCredit) : (creditEntry e c s).policy = s.policy := by
  unfold creditEntry
  split <;> simp

@[simp] theorem resolveMatched_policy (r : RowId) : (resolveMatched r s).policy = s.policy := by
  unfold resolveMatched
  split <;> simp

@[simp] theorem resolveSkip_policy (r : RowId) : (resolveSkip r s).policy = s.policy := by
  unfold resolveSkip
  split <;> simp

@[simp] theorem resolveUnseen_policy (r : RowId) : (resolveUnseen r s).policy = s.policy := by
  unfold resolveUnseen
  split <;> simp

@[simp] theorem holeSeen_policy (r : RowId) : (holeSeen r s).policy = s.policy := by
  unfold holeSeen
  split
  · rfl
  · dsimp only
    split <;> simp

theorem overflow_policy {resolve : State → State} (h : (resolve s).policy = s.policy) (r : RowId) :
    (overflow resolve r s).policy = s.policy := by
  unfold overflow
  split
  · rfl
  · split
    · rw [modFlight_policy, h]
    · rfl

@[simp] theorem joinEntry_policy (r : RowId) (f : State → Row → Option (Key × Sub)) :
    (joinEntry r f s).policy = s.policy := by simp [joinEntry]

@[simp] theorem holePassed_policy (r : RowId) : (holePassed r s).policy = s.policy := by
  unfold holePassed
  dsimp only
  split <;> simp [overflow_policy]

@[simp] theorem extraSeed_policy (r : RowId) : (extraSeed r s).policy = s.policy := by
  unfold extraSeed
  dsimp only
  split
  · simp
  · split <;> simp

@[simp] theorem seedSensed_policy (r : RowId) : (seedSensed r s).policy = s.policy := by
  unfold seedSensed
  split <;> simp

@[simp] theorem occlusionStarts_policy (r : RowId) : (occlusionStarts r s).policy = s.policy := by
  unfold occlusionStarts
  dsimp only
  split <;> simp

@[simp] theorem occlusionEnds_policy (r : RowId) : (occlusionEnds r s).policy = s.policy := by
  unfold occlusionEnds
  dsimp only
  split <;> simp

@[simp] theorem enterStuck_policy (r : RowId) : (enterStuck r s).policy = s.policy := by
  unfold enterStuck
  dsimp only
  split <;> simp

@[simp] theorem enterStall_policy (r : RowId) : (enterStall r s).policy = s.policy := by
  unfold enterStall
  dsimp only
  split <;> simp

@[simp] theorem synthHole_policy (r : RowId) : (synthHole r s).policy = s.policy := by
  simp [synthHole, overflow_policy]

/-! ### The Flow Scanner (R122 to R135) -/

@[simp] theorem startConversion_policy (r : Option RowId) : (startConversion r s).policy = s.policy := by
  unfold startConversion
  split <;> simp

@[simp] theorem restartScan_policy : (restartScan s).policy = s.policy := by simp [restartScan]

@[simp] theorem endRun_policy : (endRun s).policy = s.policy := by simp [endRun]

@[simp] theorem flowStep_policy (r : RowId) (code : AdcCode) : (flowStep r code s).policy = s.policy := by
  unfold flowStep
  split <;> simp

@[simp] theorem faultStep_policy (r : RowId) (code : AdcCode) : (faultStep r code s).policy = s.policy := by
  unfold faultStep
  split
  · rfl
  · dsimp only
    split <;> simp

@[simp] theorem deliverVolume_policy (r : RowId) (v : Nat) : (deliverVolume r v s).policy = s.policy := by
  unfold deliverVolume
  split <;> simp

@[simp] theorem creditStep_policy (r : RowId) (code : AdcCode) : (creditStep r code s).policy = s.policy := by
  unfold creditStep
  dsimp only
  rw [modFlow_policy]
  split
  · split <;> simp
  · rfl

@[simp] theorem noFlowStep_policy (r : RowId) (code : AdcCode) : (noFlowStep r code s).policy = s.policy := by
  unfold noFlowStep
  split
  · rfl
  · dsimp only
    split <;> split <;> simp

@[simp] theorem passRow_policy (x : Pass) (r : RowId) : (passRow x r s).policy = s.policy := by simp [passRow]

@[simp] theorem trimStep_policy (r : RowId) (code : AdcCode) : (trimStep r code s).policy = s.policy := by
  unfold trimStep
  split
  · rfl
  · split
    · rfl
    · split <;> simp

@[simp] theorem takeCode_policy (r : RowId) (code : AdcCode) :
    (takeCode r code s).policy = s.policy := by simp [takeCode]

/-! ### Motion (R28 to R46) -/

@[simp] theorem speedSample_policy (v : Nat) : (speedSample v s).policy = s.policy := by
  simp [speedSample, State.setVRef]

@[simp] theorem testSilence_policy : (testSilence s).policy = s.policy := by
  unfold testSilence
  split <;> simp

@[simp] theorem testFallback_policy : (testFallback s).policy = s.policy := by
  unfold testFallback
  split <;> simp

@[simp] theorem rowFixUpdate_policy (f : Fix) : (rowFixUpdate f s).policy = s.policy := by
  simp [rowFixUpdate, freeFirst_policy]

@[simp] theorem acceptFix_policy (f : Fix) : (acceptFix f s).policy = s.policy := by simp [acceptFix]

@[simp] theorem takeFix_policy (f : Fix) : (takeFix f s).policy = s.policy := by
  unfold takeFix
  split <;> simp

@[simp] theorem enterStale_policy : (enterStale s).policy = s.policy := by simp [enterStale]

@[simp] theorem enterLost_policy : (enterLost s).policy = s.policy := by simp [enterLost]

@[simp] theorem returnTest_policy : (returnTest s).policy = s.policy := by
  unfold returnTest
  split <;> simp

@[simp] theorem windowSample_policy (was : SpeedSource) : (windowSample was s).policy = s.policy := by
  unfold windowSample
  split
  · simp
  · split <;> simp

@[simp] theorem closeWindow_policy : (closeWindow s).policy = s.policy := by
  unfold closeWindow
  dsimp only
  split
  · simp
  · rw [windowSample_policy]
    split <;> simp

@[simp] theorem takeSwitch_policy : (takeSwitch s).policy = s.policy := by
  unfold takeSwitch
  dsimp only
  split <;> simp

end

end Sys2Proof.Machine
end

section
/-! What every command keeps of the device mode and the implement settings, and the settlement of O20. -/

namespace Sys2Proof.Machine

section
variable (s : State)

/-! ## SETI, SETR, SETE and SETF (R46 to R62, R174) -/

@[simp] theorem cellSideChanged_policy : (cellSideChanged s).policy = s.policy := by simp [cellSideChanged]

@[simp] theorem fallbackSample_policy : (fallbackSample s).policy = s.policy := by
  unfold fallbackSample
  split <;> simp

@[simp] theorem speedSourceChanged_policy : (speedSourceChanged s).policy = s.policy := by
  unfold speedSourceChanged
  split
  · simp
  · dsimp only
    split <;> simp

@[simp] theorem fallbackChanged_policy : (fallbackChanged s).policy = s.policy := by
  unfold fallbackChanged
  split
  · simp
  · split <;> simp

@[simp] theorem lostLimitChanged_policy : (lostLimitChanged s).policy = s.policy := by
  unfold lostLimitChanged
  split <;> simp

theorem onChange_policy {α : Type} [DecidableEq α] (a b : α) {f : State → State} (h : (f s).policy = s.policy) :
    (onChange a b f s).policy = s.policy := by
  unfold onChange
  split
  · rfl
  · exact h

/-- The settings are written, and nothing that acts on them afterwards changes them (R174). -/
@[simp] theorem applySettings_policy (new : Settings) : (applySettings new s).policy = (s.cmu.mode, new) := by
  simp only [applySettings, onChange_policy, cellSideChanged_policy, speedSourceChanged_policy, fallbackChanged_policy,
    lostLimitChanged_policy, decideAll_policy]
  rfl

@[simp] theorem configureRow_policy (r : RowId) (c : RowContext) : (configureRow r c s).policy = s.policy := by
  unfold configureRow
  dsimp only
  rw [reviewLanes_policy, freeFirst_policy _ (readForRow_policy _ r)]
  split <;> simp

@[simp] theorem removeRow_policy (r : RowId) : (removeRow r s).policy = s.policy := by simp [removeRow]

@[simp] theorem setRowCommand_policy (p : List Byte) : (setRowCommand p s).policy = s.policy := by
  unfold setRowCommand
  split
  · rfl
  split
  · rfl
  split
  · rfl
  dsimp only
  split
  · simp
  · split <;> simp

@[simp] theorem setEnables_policy (p : List Byte) : (setEnables p s).policy = s.policy := by
  unfold setEnables
  dsimp only
  rw [complete_policy, pass_policy]
  split <;> simp

@[simp] theorem setFallback_policy (p : List Byte) : (setFallback p s).policy = s.policy := by simp [setFallback]

/-! ## Commands on records, and the commands that read (R94 to R188) -/

@[simp] theorem primeMeters_policy (p : List Byte) : (primeMeters p s).policy = s.policy := by
  unfold primeMeters
  dsimp only
  split_ifs <;> simp

@[simp] theorem settleCommand_policy (p : List Byte) : (settleCommand p s).policy = s.policy := by simp [settleCommand]

@[simp] theorem loadCells_policy (p : List Byte) : (loadCells p s).policy = s.policy := by
  unfold loadCells
  split_ifs <;> simp

@[simp] theorem loadRecord_policy (k : Key) (y : Payload) : (loadRecord k y s).policy = s.policy := by
  unfold loadRecord
  dsimp only
  rw [reviewBound_policy]
  split <;> simp

@[simp] theorem deliverRecord_policy (p : List Byte) (n loaded : Nat) (b : Bool) :
    (deliverRecord p n loaded b s).policy = s.policy := by
  unfold deliverRecord
  dsimp only
  split_ifs <;> simp

@[simp] theorem takeData_policy (p : List Byte) : (takeData p s).policy = s.policy := by
  unfold takeData
  split <;> simp

@[simp] theorem returnRecord_policy (k : Key) : (returnRecord k s).policy = s.policy := by simp [returnRecord]

@[simp] theorem queryNext_policy (k : Key) : (queryNext k s).policy = s.policy := by
  unfold queryNext
  split <;> simp

@[simp] theorem queryCell_policy (p : List Byte) : (queryCell p s).policy = s.policy := by
  unfold queryCell
  dsimp only [queryExact]
  split_ifs <;> simp

@[simp] theorem patchRecord_policy (k : Key) (f : PatchField) (v : Nat) : (patchRecord k f v s).policy = s.policy := by
  unfold patchRecord
  split
  · rfl
  · dsimp only
    split <;> simp

@[simp] theorem patchCell_policy (p : List Byte) : (patchCell p s).policy = s.policy := by
  unfold patchCell
  split
  · rfl
  · split <;> simp

@[simp] theorem mergeRecord_policy (k : Key) (add : Bool) (a b : SubSet) :
    (mergeRecord k add a b s).policy = s.policy := by
  unfold mergeRecord
  split
  · rfl
  · dsimp only
    split <;> simp

@[simp] theorem mergeCell_policy (p : List Byte) : (mergeCell p s).policy = s.policy := by
  unfold mergeCell
  split <;> simp

@[simp] theorem retireCell_policy (p : List Byte) : (retireCell p s).policy = s.policy := by
  unfold retireCell
  dsimp only
  split_ifs <;> simp

@[simp] theorem endSweep_policy (c : Code) (w : Sweep) : (endSweep c w s).policy = s.policy := rfl

@[simp] theorem chooseNext_policy (w : Sweep) : (chooseNext w s).policy = s.policy := by
  unfold chooseNext
  split <;> simp

@[simp] theorem sweep_policy (p : List Byte) : (sweep p s).policy = s.policy := by
  unfold sweep
  dsimp only
  split_ifs <;> simp

@[simp] theorem transferOffered_policy (k : Key) (w : Sweep) : (transferOffered k w s).1.policy = s.policy := by
  unfold transferOffered
  dsimp only
  split_ifs <;> simp

@[simp] theorem takeFetch_policy (sent after : Nat) : (takeFetch sent after s).policy = s.policy := by
  unfold takeFetch
  split
  · split <;> simp
  · split <;> simp
  · rfl

@[simp] theorem readMisses_policy (p : List Byte) : (readMisses p s).policy = s.policy := rfl

@[simp] theorem scrubStep_policy (position : Option Key) (n : Nat) : (scrubStep position n s).policy = s.policy := by
  unfold scrubStep
  split
  · rfl
  · dsimp only
    split <;> simp

@[simp] theorem stepScrub_policy : (stepScrub s).policy = s.policy := by
  unfold stepScrub
  split
  · split <;> simp
  · rfl

@[simp] theorem readStatus_policy (p : List Byte) : (readStatus p s).policy = s.policy := rfl

@[simp] theorem abortCommand_policy (p : List Byte) : (abortCommand p s).policy = s.policy := by
  unfold abortCommand
  split <;> simp

@[simp] theorem timeOut_policy : (timeOut s).policy = s.policy := by
  unfold timeOut
  split <;> simp

@[simp] theorem setEventEnables_policy (p : List Byte) : (setEventEnables p s).policy = s.policy := rfl

@[simp] theorem acknowledge_policy (p : List Byte) : (acknowledge p s).policy = s.policy := rfl

@[simp] theorem readChanged_policy (p : List Byte) : (readChanged p s).policy = s.policy := rfl

@[simp] theorem readRow_policy (p : List Byte) : (readRow p s).policy = s.policy := by
  unfold readRow
  split <;> simp

@[simp] theorem assertReset_policy : (assertReset s).policy = s.policy := by
  have rows := mapRows_policy s fun _ => Row.silenced
  unfold assertReset
  generalize (s.mapRows fun _ => Row.silenced) = t at rows ⊢
  exact rows

/-! ## The commands that change the mode or the settings (R80, R174) -/

/-- A SETI is a completion, or in IDLE writes the settings (R174). -/
theorem setImplement_cases (p : List Byte) :
    (∃ k, setImplement p s = s.complete k)
      ∨ (s.cmu.mode = .idle ∧ ∃ new, setImplement p s = (applySettings new s).complete (.plain .ok)) := by
  unfold setImplement
  split
  · exact .inl ⟨_, rfl⟩
  split
  · exact .inl ⟨_, rfl⟩
  rename_i idle
  dsimp only
  split
  · exact .inl ⟨_, rfl⟩
  split
  · exact .inl ⟨_, rfl⟩
  · exact .inr ⟨not_not.mp idle, _, rfl⟩

/-- SETI writes the settings in IDLE alone, and never the mode. -/
theorem setImplement_policy (p : List Byte) :
    (setImplement p s).policy = s.policy ∨ (s.cmu.mode = .idle ∧ (setImplement p s).cmu.mode = s.cmu.mode) := by
  rcases setImplement_cases s p with ⟨k, e⟩ | ⟨idle, new, e⟩ <;> rw [e]
  · exact .inl rfl
  · exact .inr ⟨idle, mode_of_policy ((complete_policy _ _).trans (applySettings_policy s new))⟩

@[simp] theorem startField_policy : (startField s).policy = (.field, s.settings) := by
  simp [startField, startRun]

@[simp] theorem startShadow_policy : (startShadow s).policy = (.shadow, s.settings) := by
  simp [startShadow]

/-- A STRT is a completion, or in IDLE a start towards one of its targets, which keeps the settings (R81, R82). -/
theorem start_cases (p : List Byte) :
    (∃ k, start p s = s.complete k)
      ∨ (s.cmu.mode = .idle ∧ ∃ t k m, start p s = State.complete t k ∧ t.policy = (m, s.settings)) := by
  unfold start
  split
  · exact .inl ⟨_, rfl⟩
  split
  · exact .inl ⟨_, rfl⟩
  split
  · exact .inl ⟨_, rfl⟩
  rename_i idle
  split
  · exact .inl ⟨_, rfl⟩
  dsimp only
  split
  · exact .inr ⟨not_not.mp idle, _, _, _, rfl, startField_policy s⟩
  · exact .inr ⟨not_not.mp idle, _, _, _, rfl, startShadow_policy s⟩

/-- STRT sets the mode in IDLE alone, and never the settings. -/
theorem start_policy (p : List Byte) :
    (start p s).policy = s.policy ∨ (s.cmu.mode = .idle ∧ (start p s).settings = s.settings) := by
  rcases start_cases s p with ⟨k, e⟩ | ⟨idle, t, k, m, e, started⟩ <;> rw [e]
  · exact .inl rfl
  · exact .inr ⟨idle, settings_of_policy started⟩

/-- STOP leaves the part in IDLE with its settings. -/
theorem stopCommand_policy (p : List Byte) : (stopCommand p s).policy = (.idle, s.settings) := by
  unfold stopCommand
  split
  · rename_i idle
    rw [complete_policy, State.policy, idle]
  · simp [stopRun]

/-- A restart leaves the part in IDLE with its settings. -/
theorem restartCommand_policy (p : List Byte) : (restartCommand p s).policy = (.idle, s.settings) := by
  rw [restartCommand, complete_policy]
  simp only [restart, setEvu_policy, computeAll_policy, setFsc_policy, setCst_policy, mapRows_policy, setMot_policy,
    settleRecords_policy]
  rfl

end

/-! ## Reception (R166, R171, R178) -/

section
variable {s : State} {run : List Byte → State → State}

theorem arrive_policy {cls : FrameClass} {low : BitVec 5} {p : List Byte} {x : Byte} {after : Nat}
    {taken : State → State} (h : ∀ t, (taken t).policy = t.policy) :
    (arrive cls low p x after taken s).policy = s.policy :=
  arrive_induct (P := fun t => t.policy = s.policy) rfl (fun _ => rfl) fun _ _ => h _

theorem takeCommand_policy {code : BitVec 5} {c : Cmd} (h : ∀ p t, (run p t).policy = t.policy) :
    (takeCommand code c run s).policy = s.policy :=
  takeCommand_induct (P := fun t => t.policy = s.policy) rfl (fun _ => rfl) (fun _ _ => rfl) fun _ _ => h _ _

theorem takeAlways_policy {code : BitVec 5} {c : Cmd} (h : ∀ p t, (run p t).policy = t.policy) :
    (takeAlways code c run s).policy = s.policy :=
  takeAlways_induct (P := fun t => t.policy = s.policy) rfl (fun _ => rfl) (fun _ _ => rfl) fun _ => h _ _

/-- A command that keeps the mode and the settings or does something to them, where a frame that is not taken does
nothing. -/
theorem takeCommand_policy_or {code : BitVec 5} {c : Cmd} {Q : State → Prop}
    (h : (run c.payload (s.begun c)).policy = s.policy ∨ Q (run c.payload (s.begun c))) :
    (takeCommand code c run s).policy = s.policy ∨ Q (takeCommand code c run s) :=
  takeCommand_induct (P := fun t => t.policy = s.policy ∨ Q t) (.inl rfl) (fun _ => .inl rfl) (fun _ _ => .inl rfl)
    fun _ _ => h

theorem takeAlways_policy_or {code : BitVec 5} {c : Cmd} {Q : State → Prop}
    (h : (run c.payload (s.begun c)).policy = s.policy ∨ Q (run c.payload (s.begun c))) :
    (takeAlways code c run s).policy = s.policy ∨ Q (takeAlways code c run s) :=
  takeAlways_induct (P := fun t => t.policy = s.policy ∨ Q t) (.inl rfl) (fun _ => .inl rfl) (fun _ _ => .inl rfl)
    fun _ => h

theorem withLength_policy_or {n : Nat} {p : List Byte} {Q : State → Prop} (h : Q (run p s)) :
    (withLength n run p s).policy = s.policy ∨ Q (withLength n run p s) := by
  unfold withLength
  split
  · exact .inr h
  · exact .inl rfl

theorem withLength_policy {n : Nat} (h : ∀ p t, (run p t).policy = t.policy) (p : List Byte) (t : State) :
    (withLength n run p t).policy = t.policy := by
  unfold withLength
  split
  · exact h p t
  · rfl

theorem whenReleased_policy {f : State → State} (h :
    (f s).policy = s.policy) : (whenReleased f s).policy = s.policy := by
  unfold whenReleased
  split
  · rfl
  · exact h

/-- An event that acts on a condition. -/
theorem timer_policy {p : State → Prop} [∀ t, Decidable (p t)] {f : State → State} (h : (f s).policy = s.policy) :
    (whenReleased (fun t => if p t then f t else t) s).policy = s.policy := by
  refine whenReleased_policy ?_
  split
  · exact h
  · rfl

/-- An event of a sensor line, acting or not. -/
theorem line_policy {p : Prop} [Decidable p] (r : RowId) (l : Line) {f : State → State}
    (h : ∀ t, (f t).policy = t.policy) : (if p then s.lineAt r l else f (s.lineAt r l)).policy = s.policy := by
  split
  · rfl
  · exact h _

end

end Sys2Proof.Machine

namespace Sys2Proof

/-- The commands that can change the device mode or the implement settings (R80, R174). -/
def Instr.governing : Instr → Bool
  | .powerOnResetRelease => true
  | .rstr _ => true
  | .seti _ => true
  | .strtField _ => true
  | .strtShadow _ => true
  | .stop _ => true
  | _ => false

end Sys2Proof

namespace Sys2Proof.Machine

/-! ## Every command -/

theorem policy_next {s t u : State} (h : u.policy = s.policy)
    (e : (Host.Outcome.next u : Host.Outcome State Fault Refusal) = .next t) : t.policy = s.policy := by
  cases e
  exact h

/-- Every other command keeps the mode and the settings. -/
theorem exec_policy {i : Instr} {s t : State} (hg : i.governing = false) (h : exec i s = .next t) :
    t.policy = s.policy := by
  cases i with
  | powerOnResetRelease => cases hg
  | rstr c => cases hg
  | seti c => cases hg
  | strtField c => cases hg
  | strtShadow c => cases hg
  | stop c => cases hg
  | powerOnResetAssert => exact policy_next (assertReset_policy s) h
  | malformedFrame bytes => exact policy_next (whenReleased_policy (f := discardMalformed bytes) rfl) h
  | statusFrame f => exact policy_next (arrive_policy fun _ => rfl) h
  | fixFrame f => exact policy_next (arrive_policy fun u => takeFix_policy u _) h
  | dataFrame f => exact policy_next (arrive_policy fun u => takeData_policy u _) h
  | fetchFrame f after => exact policy_next (arrive_policy fun u => takeFetch_policy u _ _) h
  | staleTimerExpiry => exact policy_next (timer_policy (enterStale_policy s)) h
  | lostTimerExpiry => exact policy_next (timer_policy (enterLost_policy s)) h
  | groundSpeedPulse =>
    exact policy_next
      (whenReleased_policy (f := fun s => s.setMot { s.mot with pulses := satAdd 65535 s.mot.pulses 1 }) rfl) h
  | speedWindowEnd => exact policy_next (timer_policy (closeWindow_policy s)) h
  | workSwitchLevelChange level =>
    cases h
    dsimp only
    split <;> rfl
  | workSwitchChange => exact policy_next (timer_policy (takeSwitch_policy s)) h
  | holeEvent row => exact policy_next (timer_policy (holePassed_policy s row)) h
  | sensedSeed row => exact policy_next (line_policy row .occluded fun u => occlusionStarts_policy u row) h
  | occlusionEnd row => exact policy_next (line_policy row .clear fun u => occlusionEnds_policy u row) h
  | occlusionTimerExpiry row => exact policy_next (timer_policy (enterStuck_policy s row)) h
  | entryExpiry row => exact policy_next (timer_policy (resolveUnseen_policy s row)) h
  | stallTimerExpiry row => exact policy_next (timer_policy (enterStall_policy s row)) h
  | syntheticHoleEvent row => exact policy_next (timer_policy (synthHole_policy s row)) h
  | syntheticSensedSeed row => exact policy_next (timer_policy (dropOldest_policy s row)) h
  | conversionComplete code =>
    refine policy_next (whenReleased_policy ?_) h
    dsimp only
    split <;> simp
  | dataTimeout => exact policy_next (timer_policy (timeOut_policy s)) h
  | scbReadStep => exact policy_next (whenReleased_policy (stepScrub_policy s)) h
  | badCommand code c => exact policy_next (takeCommand_policy fun _ u => complete_policy u _) h
  | abrt c => exact policy_next (takeAlways_policy (withLength_policy fun p u => abortCommand_policy u p)) h
  | setrConfigure c | setrRemove c => exact policy_next (takeCommand_policy fun p u => setRowCommand_policy u p) h
  | prim c => exact policy_next (takeCommand_policy fun p u => primeMeters_policy u p) h
  | ldc c => exact policy_next (takeCommand_policy fun p u => loadCells_policy u p) h
  | sete c => exact policy_next (takeCommand_policy (withLength_policy fun p u => setEnables_policy u p)) h
  | setf c => exact policy_next (takeCommand_policy (withLength_policy fun p u => setFallback_policy u p)) h
  | setl c => exact policy_next (takeCommand_policy (withLength_policy fun p u => settleCommand_policy u p)) h
  | pchSeedTarget c | pchFertTarget c | pchNoApply c =>
    exact policy_next (takeCommand_policy (withLength_policy fun p u => patchCell_policy u p)) h
  | mrgAdd c | mrgRemove c =>
    exact policy_next (takeCommand_policy (withLength_policy fun p u => mergeCell_policy u p)) h
  | qryExact c | qryNext c =>
    exact policy_next (takeCommand_policy (withLength_policy fun p u => queryCell_policy u p)) h
  | swp c => exact policy_next (takeCommand_policy (withLength_policy fun p u => sweep_policy u p)) h
  | rtc c => exact policy_next (takeCommand_policy (withLength_policy fun p u => retireCell_policy u p)) h
  | rrw c => exact policy_next (takeCommand_policy (withLength_policy fun p u => readRow_policy u p)) h
  | idn c => exact policy_next (takeCommand_policy (withLength_policy fun _ u => complete_policy u _)) h
  | rmo c => exact policy_next (takeCommand_policy (withLength_policy fun _ u => complete_policy u _)) h
  | rms c => exact policy_next (takeCommand_policy (withLength_policy fun p u => readMisses_policy u p)) h
  | scb c => exact policy_next (takeCommand_policy (withLength_policy fun _ u => setProgress_policy u _)) h
  | rss c => exact policy_next (takeCommand_policy (withLength_policy fun p u => readStatus_policy u p)) h
  | eve c => exact policy_next (takeCommand_policy (withLength_policy fun p u => setEventEnables_policy u p)) h
  | ack c => exact policy_next (takeCommand_policy (withLength_policy fun p u => acknowledge_policy u p)) h
  | rhc c => exact policy_next (takeCommand_policy (withLength_policy fun p u => readChanged_policy u p)) h

/-! ## The settlement of O20 -/

theorem exec_seti_policy {c : Cmd} {s t : State} (h : exec (.seti c) s = .next t) :
    t.policy = s.policy ∨ (s.cmu.mode = .idle ∧ t.cmu.mode = s.cmu.mode) := by
  cases h
  exact takeCommand_policy_or (Q := fun t => s.cmu.mode = .idle ∧ t.cmu.mode = s.cmu.mode)
    (setImplement_policy (s.begun c) c.payload)

theorem exec_strt_policy {i : Instr} {c : Cmd} {s t : State} (hi : i = .strtField c ∨ i = .strtShadow c)
    (h : exec i s = .next t) : t.policy = s.policy ∨ (s.cmu.mode = .idle ∧ t.settings = s.settings) := by
  have taken : t = takeCommand Op.strt c start s := by rcases hi with rfl | rfl <;> cases h <;> rfl
  subst taken
  exact takeCommand_policy_or (Q := fun t => s.cmu.mode = .idle ∧ t.settings = s.settings)
    (start_policy (s.begun c) c.payload)

theorem exec_stop_policy {c : Cmd} {s t : State} (h : exec (.stop c) s = .next t) :
    t.policy = s.policy ∨ t.policy = (.idle, s.settings) := by
  cases h
  exact takeCommand_policy_or (Q := fun t => t.policy = (.idle, s.settings))
    (withLength_policy_or (Q := fun t => t.policy = (.idle, s.settings)) (stopCommand_policy (s.begun c) c.payload))

theorem exec_rstr_policy {c : Cmd} {s t : State} (h : exec (.rstr c) s = .next t) :
    t.policy = s.policy ∨ t.policy = (.idle, s.settings) := by
  cases h
  exact takeAlways_policy_or (Q := fun t => t.policy = (.idle, s.settings))
    (withLength_policy_or (Q := fun t => t.policy = (.idle, s.settings)) (restartCommand_policy (s.begun c) c.payload))

/-- A command keeps the mode and the settings, or is one of the six that can change either, with what it can change. -/
theorem exec_policy_cases {i : Instr} {s t : State} (h : exec i s = .next t) :
    t.policy = s.policy
      ∨ i = .powerOnResetRelease
      ∨ (s.cmu.mode = .idle ∧ t.cmu.mode = s.cmu.mode ∧ ∃ c, i = .seti c)
      ∨ (s.cmu.mode = .idle ∧ t.settings = s.settings ∧ ∃ c, i = .strtField c ∨ i = .strtShadow c)
      ∨ (t.policy = (.idle, s.settings) ∧ ∃ c, i = .stop c ∨ i = .rstr c) := by
  cases hg : i.governing with
  | false => exact .inl (exec_policy hg h)
  | true =>
    cases i with
    | powerOnResetRelease => exact .inr (.inl rfl)
    | seti c => exact (exec_seti_policy h).imp_right fun ⟨idle, mode⟩ => .inr (.inl ⟨idle, mode, c, rfl⟩)
    | strtField c =>
      exact (exec_strt_policy (.inl rfl) h).imp_right fun ⟨idle, settings⟩ =>
        .inr (.inr (.inl ⟨idle, settings, c, .inl rfl⟩))
    | strtShadow c =>
      exact (exec_strt_policy (.inr rfl) h).imp_right fun ⟨idle, settings⟩ =>
        .inr (.inr (.inl ⟨idle, settings, c, .inr rfl⟩))
    | stop c => exact (exec_stop_policy h).imp_right fun idle => .inr (.inr (.inr ⟨idle, c, .inl rfl⟩))
    | rstr c => exact (exec_rstr_policy h).imp_right fun idle => .inr (.inr (.inr ⟨idle, c, .inr rfl⟩))
    | _ => cases hg

/-- Settles O20, by the six commands that can change either and by what every other command keeps. -/
theorem modeAndSettingsChangeByTheirCommands : Obligations.ModeAndSettingsChangeByTheirCommands := by
  intro i s t h
  rcases exec_policy_cases h with same | rfl | ⟨idle, mode, who⟩ | ⟨idle, settings, who⟩ | ⟨idle, who⟩
  · obtain ⟨mode, settings⟩ := (policy_iff s t).mp same
    exact ⟨fun e => absurd mode e, fun e => absurd settings e⟩
  · cases h
    exact ⟨fun _ => .inr ⟨rfl, .inl rfl⟩, fun _ => .inl rfl⟩
  · exact ⟨fun e => absurd mode e, fun _ => .inr ⟨idle, who⟩⟩
  · exact ⟨fun _ => .inl ⟨idle, who⟩, fun e => absurd settings e⟩
  · exact ⟨fun _ => .inr ⟨mode_of_policy idle, .inr who⟩, fun e => absurd (settings_of_policy idle) e⟩

end Sys2Proof.Machine
end

section
/-! The settlement of O59: PRIM and the start of priming. -/

namespace Sys2Proof.Machine

/-! ## The start of priming (R90, R95) -/

/-- The state of a start of priming before its outputs follow. -/
theorem startPriming_follows (n : Nat) (rows : RowSet) (s : State) :
    (s.mapRows fun r w =>
      if rowIn r rows then { w with seed := { w.seed with state := .priming n } } else w).follows
        (startPriming n rows s) :=
  State.pass_follows _ _

/-- The meter of a row that starts priming is driven at the lower of the prime speed and its maximum shaft speed. -/
theorem startPriming_drive {n : Nat} {rows : RowSet} {s : State} {r : RowId} {w : Row} (hr : rowIn r rows = true)
    (hw : (startPriming n rows s).row r = some w) : w.seed.drive = min s.settings.primeSpeed w.ctx.sMax := by
  rw [startPriming, State.row_pass, State.row_mapRows, if_pos hr] at hw
  obtain ⟨u, hu, rfl⟩ := Option.map_eq_some_iff.mp hw
  obtain ⟨v, -, rfl⟩ := Option.map_eq_some_iff.mp hu
  rw [if_pos hr, ← State.mapRows_settings s fun r w => if rowIn r rows then w.primed n else w]
  rfl

/-! ## The checks of PRIM (R94) -/

theorem allEnabled_iff (s : State) (rows : RowSet) :
    s.allEnabled rows = true ↔ ∀ r, rowIn r rows = true → ∃ w, s.row r = some w ∧ w.ctx.enabled = true := by
  simp only [State.allEnabled, List.all_eq_true, rowIds_mem, true_implies, Bool.or_eq_true, Bool.not_eq_true',
    Option.any_eq_true, ← Bool.not_eq_true, ← imp_iff_not_or]

/-- What a PRIM does past its length check, with the checks in their order. -/
theorem primeMeters_eq {p : List Byte} (s : State) (hl : p.length = 5) :
    primeMeters p s =
      if s.cmu.mode ≠ .idle then s.complete (.plain .wrongMode)
      else if rowSetAt p 0 = 0 ∨ s.allEnabled (rowSetAt p 0) = false then s.complete (.badField 1)
      else if natAt p 4 1 = 0 then s.complete (.badField 2)
      else startPriming (natAt p 4 1) (rowSetAt p 0)
        (s.setCmu { s.cmu with progress := .prim (rowSetAt p 0) (rowSetAt p 0) 0 }) := by
  unfold primeMeters
  exact if_neg (not_not.mpr hl)

/-- Settles O59, by the checks of PRIM in their order and the rows that start priming. -/
theorem primeMetersStartsPriming : Obligations.PrimeMetersStartsPriming := by
  intro c s ht hl b rows holes named
  have prim : exec (.prim c) s = .next (primeMeters c.payload b) := congrArg Host.Outcome.next (takeCommand_taken ht)
  have enabled : b.allEnabled rows = true ↔ named := allEnabled_iff b rows
  rw [prim, primeMeters_eq b hl]
  refine ⟨fun hm => ?mode, fun hm bad => ?rows, fun hm hrows hn hholes => ?holes, fun hm hrows hn hholes => ?starts⟩
  case mode => rw [if_pos (show b.cmu.mode ≠ .idle from hm)]
  all_goals rw [if_neg (not_not.mpr (show b.cmu.mode = .idle from hm))]
  case rows => rw [if_pos (bad.imp_right fun hn => Bool.eq_false_iff.mpr fun e => hn (enabled.mp e))]
  all_goals
    have good : ¬ (rows = 0 ∨ b.allEnabled rows = false) := by
      rw [enabled.mpr hn]
      exact fun e => e.elim hrows nofun
    rw [if_neg good]
  case holes => rw [if_pos hholes]
  case starts =>
    rw [if_neg (Nat.pos_iff_ne_zero.mp hholes)]
    exact ⟨_, startPriming_follows holes rows _, rfl, fun r w hr hw =>
      startPriming_drive (s := b.setCmu { b.cmu with progress := .prim rows rows 0 }) hr hw⟩

end Sys2Proof.Machine
end

section
/-! The settlement of O36: how ABRT and the data timeout end the command in progress. -/

namespace Sys2Proof.Machine

/-! ## The completion of a sweep ended (R154, R155) -/

theorem moreRemain_iff (s : State) (w : Sweep) :
    s.moreRemain w = true ↔ ∃ x ∈ s.cst.records, w.rect.outside x.key = true :=
  List.any_eq_true

/-- A sweep ended, with whether records remain outside its rectangle as the statements have it. -/
theorem endSweep_eq (c : Code) (w : Sweep) (s : State) [Decidable (∃ x ∈ s.cst.records, w.rect.outside x.key = true)] :
    endSweep c w s =
      s.complete
        { Completion.counts c w.retired w.kept with
          key := w.last
          payload := [if ∃ x ∈ s.cst.records, w.rect.outside x.key = true then 1 else 0] } := by
  simp only [endSweep, flagByte, moreRemain_iff]

/-! ## Priming ended (R99) -/

/-- The state of an end of priming on the rows of a set before their decisions. -/
theorem endPriming_set_follows (rows : RowSet) (s : State) :
    (s.mapRows fun r w =>
      if rowIn r rows then { w with seed := { w.seed with state := .lane .parked } } else w).follows
        (endPriming rows s) :=
  State.pass_follows _ _

/-! ## ABRT (R176) -/

/-- ABRT with an empty payload, taken, is the abort of the command in progress. -/
theorem exec_abrt {c : Cmd} {s : State} (hr : s.inReset = false) (hc : c.right Op.abrt) (hp : c.payload = []) :
    exec (.abrt c) s = .next (abortCommand c.payload (s.begun c)) :=
  congrArg Host.Outcome.next ((takeAlways_taken hr hc (.inr hp)).trans (withLength_right (by rw [hp]; rfl)))

section
variable {p : List Byte} {s : State}

theorem abortCommand_idle (h : s.cmu.progress = .idle) : abortCommand p s = s.complete (.plain .ok) := by
  unfold abortCommand
  rw [h]

theorem abortCommand_ldc {n loaded : Nat} {clamped : Bool} (h : s.cmu.progress = .ldc n loaded clamped) :
    abortCommand p s = s.complete (.counts .aborted loaded (n - loaded)) := by
  unfold abortCommand
  rw [h]
  rfl

theorem abortCommand_swp {w : Sweep} (h : s.cmu.progress = .swp w) : abortCommand p s = endSweep .aborted w s := by
  unfold abortCommand
  rw [h]

theorem abortCommand_scb {position : Option Key} {verified due : Nat}
    (h : s.cmu.progress = .scb position verified due) :
    abortCommand p s = s.complete (.counts .aborted verified (s.unverified position)) := by
  unfold abortCommand
  rw [h]

theorem abortCommand_prim {named still stalled : RowSet} (h : s.cmu.progress = .prim named still stalled) :
    abortCommand p s = (endPriming still s).complete (primRecord .aborted named still stalled) := by
  unfold abortCommand
  rw [h]

end

/-! ## The data timeout (R172) -/

/-- The data timer has run out. -/
theorem dataTimedOut_iff (s : State) : s.dataTimedOut = true ↔ ∃ d, s.cmu.dataDue = some d ∧ d ≤ s.now := by
  simp [State.dataTimedOut, Option.any_eq_true]

theorem exec_dataTimeout {s : State} (hr : s.inReset = false) :
    exec .dataTimeout s = .next (if s.dataTimedOut = true then timeOut s else s) :=
  congrArg Host.Outcome.next (whenReleased_released (f := fun s => if s.dataTimedOut then timeOut s else s) hr)

/-- Before the timer's moment, and with no timer running, its event does nothing. -/
theorem exec_dataTimeout_early {s : State} (hr : s.inReset = false) (h : ∀ d, s.cmu.dataDue = some d → s.now < d) :
    exec .dataTimeout s = .next s := by
  rw [exec_dataTimeout hr, if_neg]
  rw [dataTimedOut_iff]
  rintro ⟨d, hd, due⟩
  exact absurd (h d hd) (Nat.not_lt.mpr due)

/-- At the timer's moment and after it the command in progress ends TIMED OUT. -/
theorem exec_dataTimeout_due {s : State} {d : Nat} (hr : s.inReset = false) (hd : s.cmu.dataDue = some d)
    (due : d ≤ s.now) : exec .dataTimeout s = .next (timeOut s) := by
  rw [exec_dataTimeout hr, if_pos ((dataTimedOut_iff s).mpr ⟨d, hd, due⟩)]

theorem timeOut_ldc {s : State} {n loaded : Nat} {clamped : Bool} (h : s.cmu.progress = .ldc n loaded clamped) :
    timeOut s = s.complete (.counts .timedOut loaded (n - loaded)) := by
  unfold timeOut
  rw [h]
  rfl

theorem timeOut_swp {s : State} {w : Sweep} (h : s.cmu.progress = .swp w) : timeOut s = endSweep .timedOut w s := by
  unfold timeOut
  rw [h]

/-- Settles O36, by the command that the abort or the timeout finds in progress. -/
theorem abortAndTimeoutEndTheCommandInProgress : Obligations.AbortAndTimeoutEndTheCommandInProgress := by
  refine ⟨?abort, fun s hr => ⟨?early, ?unarmed, fun d hd due => ?timeout⟩⟩
  case abort =>
    intro c s hr hc hp b
    have same : b.cmu.progress = s.cmu.progress := rfl
    rw [exec_abrt hr hc hp, ← same]
    refine ⟨fun h => ?idle, fun n loaded clamped h => ?ldc, fun w h => ?swp, fun position verified due h => ?scb,
      fun named still stalled h => ?prim⟩
    case idle => rw [abortCommand_idle h]
    case ldc => rw [abortCommand_ldc h]
    case swp =>
      rw [abortCommand_swp h, endSweep_eq]
      rfl
    case scb =>
      rw [abortCommand_scb h]
      rfl
    case prim =>
      rw [abortCommand_prim h]
      exact ⟨_, endPriming_set_follows still b, rfl⟩
  case early =>
    refine fun d hd early => exec_dataTimeout_early hr fun e he => ?_
    rw [hd] at he
    cases he
    exact early
  case unarmed =>
    refine fun unarmed => exec_dataTimeout_early hr fun e he => ?_
    rw [unarmed] at he
    cases he
  case timeout =>
    rw [exec_dataTimeout_due hr hd due]
    refine ⟨fun n loaded clamped h => ?ldc, fun w h => ?swp⟩
    case ldc => rw [timeOut_ldc h]
    case swp => rw [timeOut_swp h, endSweep_eq]

end Sys2Proof.Machine
end

section
/-! The settlement of O53: the synthetic entries of SHADOW, made and sensed. -/

namespace Sys2Proof.Machine

/-! ## A synthetic hole event (R119, R120) -/

theorem exec_syntheticHoleEvent {s : State} (r : RowId) (hr : s.inReset = false) :
    exec (.syntheticHoleEvent r) s = .next (if s.synthDue r = true then synthHole r s else s) :=
  congrArg Host.Outcome.next (whenReleased_released hr)

theorem holeMicros_eq : holeMicros = 1000000 := rfl

theorem synthDue_unconfigured {s : State} {r : RowId} (hw : s.row r = none) : s.synthDue r = false := by
  simp [State.synthDue, hw]

theorem synthDue_iff {s : State} {r : RowId} {w : Row} (hw : s.row r = some w) :
    s.synthDue r = true ↔ s.cmu.mode = .shadow ∧ 1000000 ≤ w.sfm.synth := by
  rw [← holeMicros_eq]
  simp [State.synthDue, hw]

/-- A full queue loses its oldest entry with no outcome, and the overflow is flagged; a queue with room stays
(R106, R112). -/
theorem overflow_dropOldest_eq {s : State} {r : RowId} {w : Row} (hw : s.row r = some w) :
    overflow (dropOldest r) r s =
      s.setRow r (some { w with sfm :=
        { w.sfm with
          queue := if 8 ≤ w.sfm.queue.length then w.sfm.queue.tail else w.sfm.queue
          overflowSeen := w.sfm.overflowSeen || decide (8 ≤ w.sfm.queue.length) } }) := by
  by_cases full : 8 ≤ w.sfm.queue.length
  · have flagged : overflow (dropOldest r) r s
        = modFlight r (fun f => { f with overflowSeen := true }) (dropOldest r s) := by
      unfold overflow
      rw [hw]
      exact if_pos full
    rw [flagged, dropOldest, modFlight_eq hw, modFlight_eq (State.row_setRow_self _ _ _), State.setRow_setRow,
      if_pos full, decide_eq_true full, Bool.or_true]
  · rw [overflow_of_room hw (by omega), if_neg full, decide_eq_false full, Bool.or_false]
    exact (hw ▸ State.setRow_eq_self s r).symm

/-- An entry with no target joins as the newest (R120). -/
theorem joinEntry_untargeted_eq {s : State} {r : RowId} {w : Row} (hw : s.row r = some w) :
    joinEntry r (fun _ _ => none) s =
      s.setRow r (some { w with sfm :=
        { w.sfm with queue := w.sfm.queue ++ [⟨s.now, s.now + s.settings.transitLimit, none⟩] } }) := by
  rw [joinEntry, State.modRow_eq_setRow, hw]
  rfl

/-- A synthetic hole changes its row alone: one hole off the accumulator, the room in the queue, then the entry. What is
left in the accumulator is a variable: the kernel would count the difference with the literal 1,000,000 down by ones. -/
theorem synthHole_eq {s : State} {r : RowId} {w : Row} {left : Nat} (hw : s.row r = some w)
    (hleft : w.sfm.synth - 1000000 = left) :
    synthHole r s =
      s.setRow r (some { w with sfm :=
        { w.sfm with
          synth := left
          queue :=
            (if 8 ≤ w.sfm.queue.length then w.sfm.queue.tail else w.sfm.queue)
              ++ [⟨s.now, s.now + s.settings.transitLimit, none⟩]
          overflowSeen := w.sfm.overflowSeen || decide (8 ≤ w.sfm.queue.length) } }) := by
  rw [synthHole, modFlight_eq hw, holeMicros_eq, hleft, overflow_dropOldest_eq (State.row_setRow_self _ _ _),
    State.setRow_setRow, joinEntry_untargeted_eq (State.row_setRow_self _ _ _), State.setRow_setRow]
  rfl

/-! ## A synthetic sensed seed (R120) -/

theorem exec_syntheticSensedSeed {s : State} (r : RowId) (hr : s.inReset = false) :
    exec (.syntheticSensedSeed r) s = .next (if s.synthSensedDue r = true then dropOldest r s else s) :=
  congrArg Host.Outcome.next (whenReleased_released hr)

theorem synthSensedDue_empty {s : State} {r : RowId} (h : ∀ w, s.row r = some w → w.sfm.queue = []) :
    s.synthSensedDue r = false := by
  simp [State.synthSensedDue, oldest_nil h]

theorem synthSensedDue_iff {s : State} {r : RowId} {w : Row} {e : Entry} {rest : List Entry} (hw : s.row r = some w)
    (hq : w.sfm.queue = e :: rest) :
    s.synthSensedDue r = true ↔ s.cmu.mode = .shadow ∧ e.release + (e.deadline - e.release) / 2 ≤ s.now := by
  simp [State.synthSensedDue, oldest_cons hw hq]

/-- With no entry in the queue, and on an unconfigured row, the event does nothing. -/
theorem exec_syntheticSensedSeed_empty {s : State} {r : RowId} (hr : s.inReset = false)
    (h : ∀ w, s.row r = some w → w.sfm.queue = []) : exec (.syntheticSensedSeed r) s = .next s := by
  rw [exec_syntheticSensedSeed r hr, synthSensedDue_empty h, if_neg Bool.false_ne_true]

/-- Settles O53, by whether each event finds SHADOW and its moment come. -/
theorem shadowSynthesisMakesAndSensesEntries : Obligations.ShadowSynthesisMakesAndSensesEntries := by
  refine ⟨fun s r hr hw => ⟨?_, ?_⟩, fun s r w hr hw => ⟨fun shadow reached => ?_, fun early => ?_,
    fun e rest hq => ?_, fun hq => ?_⟩⟩
  · rw [exec_syntheticHoleEvent r hr, synthDue_unconfigured hw, if_neg Bool.false_ne_true]
  · exact exec_syntheticSensedSeed_empty hr fun w h => by rw [hw] at h; cases h
  · rw [exec_syntheticHoleEvent r hr, if_pos ((synthDue_iff hw).mpr ⟨shadow, reached⟩)]
    exact congrArg Host.Outcome.next (synthHole_eq hw rfl)
  · rw [exec_syntheticHoleEvent r hr, if_neg]
    rw [synthDue_iff hw, not_and_or, Nat.not_le]
    exact early
  · refine ⟨fun shadow due => ?_, fun early => ?_⟩
    · rw [exec_syntheticSensedSeed r hr, if_pos ((synthSensedDue_iff hw hq).mpr ⟨shadow, due⟩), dropOldest,
        modFlight_eq hw, hq]
      rfl
    · rw [exec_syntheticSensedSeed r hr, if_neg]
      rw [synthSensedDue_iff hw hq, not_and_or, Nat.not_le]
      exact early
  · exact exec_syntheticSensedSeed_empty hr fun v h => by rw [hw] at h; cases h; exact hq

end Sys2Proof.Machine
end

section
/-! The settlement of O2: the millisecond that passes on an empty queue. -/

namespace Sys2Proof.Machine

theorem step_empty {s : State} (h : s.pending = []) : step s = .next (tick s) := by
  unfold step
  rw [h]

/-- The upsets of this millisecond hit the store, and with none to come they are the empty list (R157). -/
theorem takeUpsets_eq (s : State) :
    takeUpsets s = { s with cst := (s.upsets.headD []).foldl Store.upset s.cst, upsets := s.upsets.tail } := by
  unfold takeUpsets
  split
  · rename_i h
    rw [h]
    cases s
    cases h
    rfl
  · rename_i h
    rw [h]
    rfl

/-- The accumulators rise in SHADOW, outside reset (R119). -/
def State.risen (s : State) : State :=
  if s.cmu.mode = .shadow ∧ s.inReset = false then s.mapRows fun _ => Row.synthesised else s

/-- The accumulators rise and nothing else but the rows changes. -/
theorem risen_rest (s : State) : s.risen = { s with ren := s.risen.ren } := by
  unfold State.risen
  split
  · rfl
  · rfl

/-- The accumulators rise alike before and after the clock. -/
theorem clocked_eq (s : State) (n : Nat) :
    (if s.inReset then { s with now := n } else riseAll { s with now := n }) = { s.risen with now := n } := by
  unfold State.risen riseAll
  dsimp only
  by_cases hr : s.inReset = true
  · rw [if_pos hr, if_neg (by simp [hr])]
  · by_cases shadow : s.cmu.mode = .shadow
    · rw [if_neg hr, if_pos shadow, if_pos ⟨shadow, Bool.eq_false_of_not_eq_true hr⟩]
      rfl
    · rw [if_neg hr, if_neg shadow, if_neg fun h => shadow h.1]

/-- A millisecond: the accumulators, the clock and the upsets. -/
theorem tick_eq (s : State) :
    tick s = { s.risen with
      now := s.now + 1
      cst := (s.upsets.headD []).foldl Store.upset s.cst
      upsets := s.upsets.tail } := by
  unfold tick
  dsimp only
  rw [clocked_eq, takeUpsets_eq, risen_rest]

/-- Settles O2: an empty queue lets a millisecond pass. -/
theorem emptyQueuePassesAMillisecond : Obligations.EmptyQueuePassesAMillisecond := by
  intro s h a
  have risen : a = s.risen := rfl
  rw [step_empty h, tick_eq, risen]

end Sys2Proof.Machine
end

section
/-! The settlements of O41 and O44: the queries and the retirement of one record. -/

namespace Sys2Proof.Machine

/-! ## The record of smallest key with a property (R8) -/

/-- In an ordered list a search finds the record with a property that no other with it stands below. -/
theorem find?_of_smallest {l : List Record} (o : l.Pairwise fun a b => a.key.before b.key = true) {f : Record → Bool}
    {x : Record} (hx : x ∈ l) (hf : f x = true)
    (least : ∀ y ∈ l, f y = true → y.key = x.key ∨ x.key.before y.key = true) :
    l.find? f = some x := by
  induction l with
  | nil => cases hx
  | cons z zs ih =>
    obtain ⟨below, ordered⟩ := List.pairwise_cons.mp o
    rcases List.mem_cons.mp hx with rfl | later
    · rw [List.find?_cons, hf]
    · have hz : f z = false := by
        refine Bool.eq_false_iff.mpr fun hz => ?_
        have zx := below x later
        rcases least z List.mem_cons_self hz with same | above
        · exact Key.before_ne zx same
        · exact absurd (Key.before_trans zx above) (by simp [Key.before_irrefl])
      rw [List.find?_cons, hz]
      exact ih ordered later fun y hy => least y (List.mem_cons_of_mem z hy)

/-- The model's search for a record finds the one of smallest key. -/
theorem find?_key_of_smallest {c : Store} (o : c.ordered) {P : Record → Prop} {f : Record → Bool}
    (hf : ∀ x, f x = true ↔ P x) {k : Key} (h : c.smallest P k) : (c.records.find? f).map (·.key) = some k := by
  obtain ⟨⟨x, hx, rfl, hP⟩, least⟩ := h
  rw [find?_of_smallest o hx ((hf x).mpr hP) fun y hy fy => least y hy ((hf y).mp fy)]
  rfl

/-- The model's search finds none where no record has the property. -/
theorem find?_key_of_none {c : Store} {P : Record → Prop} {f : Record → Bool} (hf : ∀ x, f x = true ↔ P x)
    (h : ∀ x ∈ c.records, ¬ P x) : (c.records.find? f).map (·.key) = none := by
  rw [Option.map_eq_none_iff, List.find?_eq_none]
  exact fun x hx fx => h x hx ((hf x).mp fx)

/-! ## What a read leaves (R157 to R159) -/

/-- A read poisons, corrects or leaves records: their number stays. -/
theorem readState_length (k : Key) (s : State) : (readState k s).cst.records.length = s.cst.records.length := by
  have keys := congrArg List.length (readState_steady k s).keys
  rwa [List.length_map, List.length_map] at keys

theorem readState_holds (j k : Key) (s : State) : (readState j s).cst.holds k = s.cst.holds k :=
  (readState_steady j s).toHolding.holds k

/-- A read keeps the keys in their order. -/
theorem readState_ordered {k : Key} {s : State} (h : s.cst.ordered) : (readState k s).cst.ordered := by
  rw [Store.ordered_iff, (readState_steady k s).keys, ← Store.ordered_iff]
  exact h

/-! ## QRY (R145) -/

/-- QRY, taken with its length right, is a query of its payload. -/
theorem exec_qry {i : Instr} {c : Cmd} {s : State} (hi : i = .qryExact c ∨ i = .qryNext c) (ht : s.takes Op.qry c)
    (hl : c.payload.length = 5) : exec i s = .next (queryCell c.payload (s.begun c)) := by
  rcases hi with rfl | rfl <;>
    exact congrArg Host.Outcome.next ((takeCommand_taken ht).trans (withLength_right hl))

section
variable {p : List Byte} {s : State}

theorem queryCell_exact (h : natAt p 4 1 = 0) : queryCell p s = queryExact (keyAt p 0) s := by
  unfold queryCell
  exact if_pos h

theorem queryCell_next (h : natAt p 4 1 = 1) : queryCell p s = queryNext (keyAt p 0) s := by
  unfold queryCell
  dsimp only
  rw [if_neg (by omega), if_pos h]

theorem queryCell_badForm (h : 1 < natAt p 4 1) : queryCell p s = s.complete (.badField 2) := by
  unfold queryCell
  dsimp only
  rw [if_neg (by omega), if_neg (by omega)]

end

section
variable {k : Key} {s : State}

theorem queryExact_held (h : s.cst.holds k = true) : queryExact k s = returnRecord k s := if_pos h

theorem queryExact_missing (h : s.cst.holds k = false) : queryExact k s = s.complete (.keyed .notFound k) :=
  if_neg (ne_true_of_eq_false h)

theorem queryNext_above (o : s.cst.ordered) {j : Key} (h : s.cst.smallest (fun x => k.before x.key = true) j) :
    queryNext k s = returnRecord j s := by
  obtain ⟨x, found, rfl⟩ := Option.map_eq_some_iff.mp (find?_key_of_smallest o (fun _ => Iff.rfl) h)
  unfold queryNext
  rw [found]

theorem queryNext_none (h : ∀ x ∈ s.cst.records, k.before x.key = false) :
    queryNext k s = s.complete (.keyed .notFound k) := by
  have missing : (s.cst.records.find? fun x => k.before x.key) = none :=
    List.find?_eq_none.mpr fun x hx => ne_true_of_eq_false (h x hx)
  unfold queryNext
  rw [missing]

end

/-- A record returned, with the number of records and the reference count as they stood before the read. -/
theorem returnRecord_eq (k : Key) (s : State) :
    returnRecord k s =
      (readState k s).complete
        { Completion.counts .ok s.cst.records.length (s.refCount k) with
          key := some k
          payload := recordBytes k ((readState k s).cst.payload k) (s.refCount k) false } := by
  rw [← readState_length k s, ← refCount_readState k k s]
  rfl

/-- Settles O41, by the form and by what the search for the record finds. -/
theorem queriesReturnRecords : Obligations.QueriesReturnRecords := by
  rintro i c s k form hi ht hl ⟨ordered, -⟩ rfl rfl
  rw [exec_qry hi ht hl]
  intro b returned notFound
  have returns (j : Key) (e : queryCell c.payload b = returnRecord j b) : returned j :=
    congrArg Host.Outcome.next (e.trans (returnRecord_eq j b))
  have misses (e : queryCell c.payload b = b.complete (.keyed .notFound (keyAt c.payload 0))) : notFound :=
    congrArg Host.Outcome.next e
  exact ⟨
    fun exact held => returns _ ((queryCell_exact exact).trans (queryExact_held (s := b) held)),
    fun exact missing => misses ((queryCell_exact exact).trans (queryExact_missing (s := b) missing)),
    fun next j smallest => returns j ((queryCell_next next).trans (queryNext_above (s := b) ordered smallest)),
    fun next none_above => misses ((queryCell_next next).trans (queryNext_none (s := b) none_above)),
    fun bad => congrArg Host.Outcome.next (queryCell_badForm bad)⟩

/-! ## RTC (R150) -/

/-- RTC, taken with its length right, is a retirement of its payload. -/
theorem exec_rtc {c : Cmd} {s : State} (ht : s.takes Op.rtc c) (hl : c.payload.length = 4) :
    exec (.rtc c) s = .next (retireCell c.payload (s.begun c)) :=
  congrArg Host.Outcome.next ((takeCommand_taken ht).trans (withLength_right hl))

section
variable {p : List Byte} {s : State}

theorem retireCell_missing (h : s.cst.holds (keyAt p 0) = false) :
    retireCell p s = s.complete (.keyed .notFound (keyAt p 0)) := by
  unfold retireCell
  exact if_pos h

theorem retireCell_referenced (h : s.cst.holds (keyAt p 0) = true) (refs : 0 < s.refCount (keyAt p 0)) :
    retireCell p s =
      s.complete { Completion.counts .referenced (s.refCount (keyAt p 0)) 0 with key := some (keyAt p 0) } := by
  unfold retireCell
  dsimp only
  rw [if_neg (by simp [h]), if_pos refs]

/-- A record without references is read, removed and transferred. -/
theorem retireCell_free (h : s.cst.holds (keyAt p 0) = true) (free : s.refCount (keyAt p 0) = 0) :
    retireCell p s =
      (removeRecord (keyAt p 0) (readState (keyAt p 0) s)).complete
        { Completion.counts .ok ((readState (keyAt p 0) s).cst.remove (keyAt p 0)).records.length 0 with
          key := some (keyAt p 0)
          payload := recordBytes (keyAt p 0) ((readState (keyAt p 0) s).cst.payload (keyAt p 0)) 0 false } := by
  unfold retireCell State.transferred
  dsimp only
  rw [if_neg (by simp [h]), if_neg (by omega), refCount_readState, free]
  rfl

end

/-- In an ordered store one record leaves with a held key. -/
theorem remove_length {c : Store} (o : c.ordered) {k : Key} (h : c.holds k = true) :
    (c.remove k).records.length = c.records.length - 1 := by
  have one := Store.countP_key o k fun _ => true
  obtain ⟨x, hx⟩ := Option.isSome_iff_exists.mp h
  have split := List.length_eq_countP_add_countP (fun x : Record => decide (x.key = k)) (l := c.records)
  rw [hx] at one
  simp only [Bool.and_true, Option.any_some, if_true] at one
  simp only [Store.remove, ← List.countP_eq_length_filter, decide_not, decide_eq_true_eq] at split ⊢
  omega

/-- Settles O44, by whether the record is held and by its reference count. -/
theorem retireRemovesUnreferencedRecords : Obligations.RetireRemovesUnreferencedRecords := by
  rintro c s k ht hl rfl ⟨ordered, -⟩
  rw [exec_rtc ht hl]
  intro b t
  have same : b.refCount (keyAt c.payload 0) = s.refCount (keyAt c.payload 0) := rfl
  refine ⟨fun missing => ?_, fun held refs => ?_, fun held free => ?_⟩
  · rw [retireCell_missing (s := b) missing]
    rfl
  · rw [retireCell_referenced (s := b) held refs, same]
  · have left : (t.cst.remove (keyAt c.payload 0)).records.length = s.cst.records.length - 1 := by
      rw [remove_length (readState_ordered (s := b) ordered) ((readState_holds _ _ b).trans held)]
      exact congrArg (· - 1) (readState_length _ b)
    rw [retireCell_free (s := b) held free, left]
    rfl

end Sys2Proof.Machine
end

section
/-! The settlement of O42: one field of a record patched. -/

namespace Sys2Proof.Machine

/-! ## The checks of PCH (R146) -/

/-- PCH, taken with its length right, is a patch of its payload. -/
theorem exec_pch {i : Instr} {c : Cmd} {s : State}
    (hi : i = .pchSeedTarget c ∨ i = .pchFertTarget c ∨ i = .pchNoApply c) (ht : s.takes Op.pch c)
    (hl : c.payload.length = 7) : exec i s = .next (patchCell c.payload (s.begun c)) := by
  rcases hi with rfl | rfl | rfl <;>
    exact congrArg Host.Outcome.next ((takeCommand_taken ht).trans (withLength_right hl))

theorem patchFieldOf_none {v : Nat} (h : 2 < v) : patchFieldOf v = none := by
  unfold patchFieldOf
  rw [if_neg (by omega), if_neg (by omega), if_neg (by omega)]

section
variable {p : List Byte} {s : State}

theorem patchCell_badSelector (h : 2 < natAt p 4 1) : patchCell p s = s.complete (.badField 2) := by
  unfold patchCell
  rw [patchFieldOf_none h]

theorem patchCell_badValue (hf : patchFieldOf (natAt p 4 1) = some .noApply) (hv : 1 < natAt p 5 2) :
    patchCell p s = s.complete (.badField 3) := by
  unfold patchCell
  rw [hf]
  exact if_pos ⟨rfl, hv⟩

/-- A patch whose operands are in range, at the record of a key. -/
theorem patchCell_inRange {f : PatchField} (hf : patchFieldOf (natAt p 4 1) = some f)
    (hv : f = .noApply → natAt p 5 2 ≤ 1) : patchCell p s = patchRecord (keyAt p 0) f (natAt p 5 2) s := by
  unfold patchCell
  rw [hf]
  exact if_neg fun ⟨e, above⟩ => absurd (hv e) (Nat.not_le.mpr above)

end

/-! ## The patch of a record (R146, R147) -/

section
variable {k : Key} {f : PatchField} {v : Nat} {s : State}

theorem patchRecord_missing (h : s.cst.holds k = false) : patchRecord k f v s = s.complete (.plain .notFound) :=
  if_pos h

theorem patchRecord_poisoned (h : s.cst.holds k = true) (hp : (readState k s).cst.payload k = none) :
    patchRecord k f v s = (readState k s).complete (.keyed .poisoned k) := by
  unfold patchRecord
  rw [if_neg (by simp [h])]
  simp only [hp]

theorem patchRecord_found {y : Payload} (hp : (readState k s).cst.payload k = some y) :
    patchRecord k f v s =
      (reviewBound k (writePayload k (f.put (min f.most v) y) (readState k s))).complete
        { Completion.counts (if f.most < v then .clamped else .ok) (f.get y) (min f.most v) with key := some k } := by
  have h : s.cst.holds k = true := (readState_holds k k s) ▸ Store.holds_of_payload hp
  unfold patchRecord
  rw [if_neg (by simp [h])]
  simp only [hp]

end

/-- What the statements say of the field a selector names: its highest value, its value in a payload, and a payload with
it written. -/
structure PatchField.Named (f : PatchField) (sel : Nat) : Prop where
  field : patchFieldOf sel = some f
  noApply : f = .noApply ↔ sel = 2
  most : f.most = if sel = 0 then 6000 else if sel = 1 then 4000 else 1
  get (y : Payload) :
    f.get y = if sel = 0 then y.seedTarget else if sel = 1 then y.fertTarget else if y.noApply then 1 else 0
  put (v : Nat) (y : Payload) :
    f.put (min f.most v) y =
      { y with
        seedTarget := if sel = 0 then min 6000 v else y.seedTarget
        fertTarget := if sel = 1 then min 4000 v else y.fertTarget
        noApply := if sel = 2 then decide (min 1 v = 1) else y.noApply }

/-- Each selector up to 2 names a field. -/
theorem named_of_selector {sel : Nat} (h : sel ≤ 2) : ∃ f : PatchField, f.Named sel := by
  match sel, h with
  | 0, _ => exact ⟨.seedTarget, rfl, by decide, rfl, fun _ => rfl, fun _ _ => rfl⟩
  | 1, _ => exact ⟨.fertTarget, rfl, by decide, rfl, fun _ => rfl, fun _ _ => rfl⟩
  | 2, _ => exact ⟨.noApply, rfl, by decide, rfl, fun _ => rfl, fun _ _ => rfl⟩

/-- Settles O42, by the checks in their order and then by what the read of the record finds. -/
theorem patchesWriteOneField : Obligations.PatchesWriteOneField := by
  intro i c s k sel v hi ht hl hk hsel hv
  rw [exec_pch hi ht hl]
  intro b t inRange
  have patched (h : inRange) : ∃ f : PatchField, f.Named sel ∧ patchCell c.payload b = patchRecord k f v b := by
    obtain ⟨selects, fits⟩ := h
    obtain ⟨f, named⟩ := named_of_selector selects
    refine ⟨f, named, ?_⟩
    rw [← hk, ← hv]
    exact patchCell_inRange (hsel ▸ named.field) fun e => hv ▸ fits (named.noApply.mp e)
  refine ⟨fun bad => ?_, fun selects bad => ?_, fun range missing => ?_, fun range held poisoned => ?_,
    fun range y found => ?_⟩
  · rw [patchCell_badSelector (hsel ▸ bad)]
  · rw [patchCell_badValue (by rw [hsel, selects]; rfl) (hv ▸ bad)]
  · obtain ⟨f, -, e⟩ := patched range
    rw [e, patchRecord_missing (s := b) missing]
  · obtain ⟨f, -, e⟩ := patched range
    rw [e, patchRecord_poisoned (s := b) held poisoned]
    rfl
  · obtain ⟨f, named, e⟩ := patched range
    intro most old z
    have written : ({ f.put (min f.most v) y with bits := .clean } : Payload) = z := by
      rw [named.put]
      by_cases noApply : sel = 2
      · have whole : min 1 v = v := Nat.min_eq_right (range.2 noApply)
        simp only [z, whole]
      · simp only [z, if_neg noApply]
    refine ⟨reviewBound k (writePayload k (f.put (min f.most v) y) t), ?_, ?_⟩
    · rw [writePayload, written]
      exact reviewBound_follows k _
    · rw [e, patchRecord_found (s := b) found, named.get, named.most]

end Sys2Proof.Machine
end

section
/-! The settlement of O37: the records that LDC takes. -/

namespace Sys2Proof.Machine

/-! ## LDC (R139) -/

/-- LDC, taken, is a load of its payload. -/
theorem exec_ldc {c : Cmd} {s : State} (ht : s.takes Op.ldc c) :
    exec (.ldc c) s = .next (loadCells c.payload (s.begun c)) :=
  congrArg Host.Outcome.next (takeCommand_taken ht)

/-- A wait for a record, in the Command Unit and at the time of another state. -/
theorem await_eq {s u : State} (cmu : u.cmu = s.cmu) (now : u.now = s.now) (p : Progress) :
    u.await p = { u with cmu := { s.cmu with progress := p, dataDue := some (s.now + 1000) } } := by
  rw [← cmu, ← now]
  rfl

/-- LDC with its length right refuses a count above 64, and else awaits its records. -/
theorem loadCells_right {p : List Byte} {s : State} (hl : p.length = 1) :
    loadCells p s =
      if 64 < natAt p 0 1 then s.complete (.badField 1)
      else s.await (.ldc (if natAt p 0 1 = 0 then 64 else natAt p 0 1) 0 false) :=
  if_neg (not_not.mpr hl)

/-! ## DATA frames (R140 to R143, R168) -/

/-- A DATA frame, taken, is delivered. -/
theorem exec_dataFrame {f : Frame} {s : State} (h : s.takesFrame .data f) :
    exec (.dataFrame f) s = .next (takeData f.payload (s.shifted (3 + f.payload.length))) := by
  obtain ⟨released, length, check⟩ := h
  exact congrArg Host.Outcome.next (arrive_taken released length check)

theorem takeData_ldc {p : List Byte} {n loaded : Nat} {clamped : Bool} {s : State}
    (h : s.cmu.progress = .ldc n loaded clamped) : takeData p s = deliverRecord p n loaded clamped s := by
  unfold takeData
  rw [h]

theorem takeData_other {p : List Byte} {s : State} (h : ∀ n loaded clamped, s.cmu.progress ≠ .ldc n loaded clamped) :
    takeData p s = s := by
  unfold takeData
  split
  · rename_i e
    exact absurd e (h _ _ _)
  · rfl

theorem sound_false_of_payload {c : Store} {k : Key} (h : c.payload k = none) : c.sound k = false := by
  unfold Store.sound
  rw [h]
  rfl

theorem payload_none_of_missing {c : Store} {k : Key} (h : c.holds k = false) : c.payload k = none := by
  unfold Store.payload
  rw [Store.find_none h]
  rfl

section
variable {p : List Byte} {n loaded : Nat} {clamped : Bool} {s : State}

theorem deliverRecord_badLength (h : p.length ≠ 28) :
    deliverRecord p n loaded clamped s = s.complete (ldcRecord .badLength n loaded none) :=
  if_pos h

theorem deliverRecord_duplicate (hl : p.length = 28) (h : (s.cst.payload (keyAt p 0)).isSome = true) :
    deliverRecord p n loaded clamped s = s.complete (ldcRecord .duplicateKey n loaded (some (keyAt p 0))) := by
  unfold deliverRecord
  rw [if_neg (not_not.mpr hl)]
  exact if_pos h

theorem deliverRecord_full (hl : p.length = 28) (missing : s.cst.holds (keyAt p 0) = false)
    (full : 1024 ≤ s.cst.records.length) :
    deliverRecord p n loaded clamped s = s.complete (ldcRecord .tableFull n loaded (some (keyAt p 0))) := by
  have unsound := sound_false_of_payload (payload_none_of_missing missing)
  unfold deliverRecord
  dsimp only
  rw [if_neg (not_not.mpr hl), if_neg (ne_true_of_eq_false unsound), if_pos ⟨missing, full⟩]

/-- A record that has its place is loaded, and LDC awaits the next or completes. -/
theorem deliverRecord_loaded (hl : p.length = 28) (free : s.cst.payload (keyAt p 0) = none)
    (room : s.cst.holds (keyAt p 0) = true ∨ s.cst.records.length < 1024) :
    deliverRecord p n loaded clamped s =
      if loaded + 1 < n then
        (loadRecord (keyAt p 0) (loadedPayload p) s).await (.ldc n (loaded + 1) (clamped || recordClamps p))
      else
        (loadRecord (keyAt p 0) (loadedPayload p) s).complete
          (ldcRecord (if clamped || recordClamps p then .clamped else .ok) n (loaded + 1) none) := by
  have fits : ¬ (s.cst.holds (keyAt p 0) = false ∧ 1024 ≤ s.cst.records.length) := fun ⟨missing, full⟩ =>
    room.elim (ne_true_of_eq_false missing) (Nat.not_lt.mpr full)
  unfold deliverRecord
  dsimp only
  rw [if_neg (not_not.mpr hl), if_neg (ne_true_of_eq_false (sound_false_of_payload free)), if_neg fits]

end

/-- A record loaded, and then what follows from it: it takes a new place, leaving the miss set, or that of a poisoned
one (R142). -/
theorem loadRecord_follows (k : Key) (y : Payload) (s : State) :
    ({ s with cst :=
        if s.cst.holds k = true then { s.cst.put k (some y) with poisonedCount := s.cst.poisonedCount - 1 }
        else { s.cst.insert ⟨k, some y⟩ with misses := s.cst.misses.filter fun m => decide (m ≠ k) } } : State).follows
      (loadRecord k y s) := by
  unfold loadRecord
  dsimp only
  split
  · exact reviewBound_follows k _
  · exact reviewBound_follows k _

theorem recordClamps_eq (p : List Byte) :
    recordClamps p = decide (6000 < natAt p 4 2 ∨ 4000 < natAt p 6 2) :=
  (Bool.decide_or _ _).symm

/-- Settles O37: the count of LDC, and then the checks on each DATA frame in their order. -/
theorem loadCellsTakesRecords : Obligations.LoadCellsTakesRecords := by
  refine ⟨?command, fun f s taken => ?frame⟩
  case command =>
    rintro c s n ht hl rfl
    rw [exec_ldc ht, loadCells_right hl]
    rfl
  case frame =>
    rw [exec_dataFrame taken]
    intro b p k
    refine ⟨fun other => congrArg Host.Outcome.next (takeData_other (s := b) other),
      fun n loaded clamped loading => ?_⟩
    have delivered : takeData p b = deliverRecord p n loaded clamped b := takeData_ldc loading
    intro stopped
    have stops {x : Code} {j : Option Key}
        (e : deliverRecord p n loaded clamped b = b.complete (ldcRecord x n loaded j)) :
        stopped x j := congrArg Host.Outcome.next (delivered.trans e)
    refine ⟨fun h => stops (deliverRecord_badLength h), fun hl h => stops (deliverRecord_duplicate hl h),
      fun hl missing full => stops (deliverRecord_full hl missing full), fun hl free room => ?_⟩
    intro y cst clamped'
    have follows : ({ b with cst := cst } : State).follows (loadRecord (keyAt p 0) (loadedPayload p) b) :=
      loadRecord_follows k y b
    refine ⟨_, follows, ?_⟩
    rw [delivered, deliverRecord_loaded (s := b) hl free room, recordClamps_eq,
      await_eq (s := s) follows.cmu follows.now]
    rfl

end Sys2Proof.Machine
end

section
/-! The settlements of O38 and O39: the sweep and its transfers. -/

namespace Sys2Proof.Machine

/-! ## The candidate of a sweep (R152) -/

/-- A record that a sweep may offer next: above its last chosen key, outside its rectangle and without references. -/
def State.offerable (s : State) (w : Sweep) (x : Record) : Prop :=
  aboveKey w.last x.key = true ∧ w.rect.outside x.key = true ∧ s.refCount x.key = 0

theorem offerable_iff (s : State) (w : Sweep) (x : Record) :
    (aboveKey w.last x.key && w.rect.outside x.key && decide (s.refCount x.key = 0)) = true ↔ s.offerable w x := by
  simp [State.offerable, and_assoc]

/-- The record of smallest key that may be offered is offered. -/
theorem chooseNext_offers {s : State} (o : s.cst.ordered) {w : Sweep} {k : Key} (h : s.cst.smallest (s.offerable w) k) :
    chooseNext w s = s.await (.swp { w with last := some k, offered := some k }) := by
  have found : s.candidate w = some k := find?_key_of_smallest o (offerable_iff s w) h
  unfold chooseNext
  rw [found]

/-- With no record to offer the sweep completes. -/
theorem chooseNext_ends {s : State} {w : Sweep} (h : ∀ x ∈ s.cst.records, ¬ s.offerable w x) :
    chooseNext w s = endSweep .ok { w with offered := none } s := by
  have missing : s.candidate w = none := find?_key_of_none (offerable_iff s w) h
  unfold chooseNext
  rw [missing]

/-! ## SWP (R151, R152) -/

/-- SWP, taken with its length right, is a sweep of its payload. -/
theorem exec_swp {c : Cmd} {s : State} (ht : s.takes Op.swp c) (hl : c.payload.length = 9) :
    exec (.swp c) s = .next (sweep c.payload (s.begun c)) :=
  congrArg Host.Outcome.next ((takeCommand_taken ht).trans (withLength_right hl))

/-- The keep rectangle of a SWP payload (R151, R180). -/
def keepRectAt (p : List Byte) : KeepRect :=
  ⟨intAt p 0 2, intAt p 2 2, intAt p 4 2, intAt p 6 2⟩

/-- The sweep that a SWP payload in range starts (R151). -/
def sweepAt (p : List Byte) : Sweep :=
  ⟨keepRectAt p, if natAt p 8 1 = 0 then 64 else natAt p 8 1, none, 0, 0, none⟩

section
variable {p : List Byte} {s : State}

theorem sweep_crossedX (h : (keepRectAt p).cxMax < (keepRectAt p).cxMin) : sweep p s = s.complete (.badField 2) :=
  if_pos h

theorem sweep_crossedY (h : ¬ (keepRectAt p).cxMax < (keepRectAt p).cxMin)
    (hy : (keepRectAt p).cyMax < (keepRectAt p).cyMin) : sweep p s = s.complete (.badField 4) :=
  (if_neg h).trans (if_pos hy)

variable (straight : ¬ ((keepRectAt p).cxMax < (keepRectAt p).cxMin ∨ (keepRectAt p).cyMax < (keepRectAt p).cyMin))
include straight

theorem sweep_tooMany (h : 64 < natAt p 8 1) : sweep p s = s.complete (.badField 5) := by
  obtain ⟨straightX, straightY⟩ := not_or.mp straight
  exact (if_neg straightX).trans ((if_neg straightY).trans (if_pos h))

theorem sweep_chooses (h : natAt p 8 1 ≤ 64) : sweep p s = chooseNext (sweepAt p) s := by
  obtain ⟨straightX, straightY⟩ := not_or.mp straight
  exact (if_neg straightX).trans ((if_neg straightY).trans (if_neg (Nat.not_lt.mpr h)))

end

/-- Settles O38, by the checks in their order and then by what the search for a candidate finds. -/
theorem sweepOffersTheSmallestCandidate : Obligations.SweepOffersTheSmallestCandidate := by
  rintro c s rect m ht hl ⟨ordered, -⟩ hrect rfl
  obtain rfl : rect = keepRectAt c.payload := hrect
  rw [exec_swp ht hl]
  intro b crossed candidate
  have offerable : b.offerable (sweepAt c.payload) = candidate := funext fun x => propext (and_iff_right rfl)
  refine ⟨fun crossedX => congrArg Host.Outcome.next (sweep_crossedX crossedX),
    fun straightX crossedY => congrArg Host.Outcome.next (sweep_crossedY (not_lt.mpr straightX) crossedY),
    fun straight many => congrArg Host.Outcome.next (sweep_tooMany straight many),
    fun straight few k smallest => congrArg Host.Outcome.next ?_,
    fun straight few none_outside => congrArg Host.Outcome.next ?_⟩
  · exact (sweep_chooses straight few).trans (chooseNext_offers (s := b) ordered (offerable ▸ smallest))
  · exact (sweep_chooses straight few).trans
      ((chooseNext_ends (s := b) (offerable ▸ none_outside)).trans (endSweep_eq _ _ b))

/-! ## FETCH frames in DATA OUT (R153, R168) -/

/-- A FETCH frame, taken, is answered. -/
theorem exec_fetchFrame {f : Frame} {after : Nat} {s : State} (h : s.takesFrame .fetch f) :
    exec (.fetchFrame f after) s =
      .next (takeFetch (3 + f.payload.length) after (s.shifted (3 + f.payload.length + after))) := by
  obtain ⟨released, length, check⟩ := h
  exact congrArg Host.Outcome.next (arrive_taken released length check)

theorem takeFetch_offered {sent after : Nat} {s : State} {w : Sweep} {k : Key} (h : s.cmu.progress = .swp w)
    (offered : w.offered = some k) :
    takeFetch sent after s =
      (transferOffered k w s).1.reply sent after (replyFrame 2 (transferOffered k w s).2) := by
  unfold takeFetch
  rw [h]
  dsimp only
  rw [offered]

/-- A reply follows the byte times of the frame that asked for it (R166). -/
theorem reply_eq {s v : State} {n after : Nat} (h : v.lnk = (s.shifted (3 + n + after)).lnk) (bytes : List Byte) :
    v.reply (3 + n) after bytes = v.replied s.statusByte n after bytes := by
  have sent : v.lnk.dataOut.take (3 + n) = s.statusByte :: List.replicate (2 + n) 0 := by
    have first : 3 + n = (2 + n) + 1 := by omega
    have zeros : min (2 + n) (3 + n + after - 1) = 2 + n := by omega
    rw [h, State.shifted, first, List.take_succ_cons, List.take_replicate, ← first, zeros]
  unfold State.reply State.replied State.setLnk
  rw [sent]

/-! ## The transfer of an offered record (R153, R154) -/

@[simp] theorem readState_cmu (k : Key) (s : State) : (readState k s).cmu = s.cmu := by rw [(readState_rest k s).1]
@[simp] theorem readState_now (k : Key) (s : State) : (readState k s).now = s.now := by rw [(readState_rest k s).1]
@[simp] theorem readState_lnk (k : Key) (s : State) : (readState k s).lnk = s.lnk := by rw [(readState_rest k s).1]

/-- The state in which a sweep chooses again, once the offered record has been read: retired, or kept (R153). -/
def State.afterTransfer (s : State) (k : Key) (kept : Bool) : State :=
  if kept then readState k s else removeRecord k (readState k s)

/-- What a transfer leaves but the store and what follows from the rows' setup. -/
theorem afterTransfer_rest (s : State) (k : Key) (kept : Bool) :
    (s.afterTransfer k kept).cmu = s.cmu ∧ (s.afterTransfer k kept).now = s.now
      ∧ (s.afterTransfer k kept).lnk = s.lnk ∧ ∀ j, (s.afterTransfer k kept).refCount j = s.refCount j := by
  cases kept
  · exact ⟨readState_cmu k s, readState_now k s, readState_lnk k s, fun j => refCount_readState k j s⟩
  · exact ⟨readState_cmu k s, readState_now k s, readState_lnk k s, fun j => refCount_readState k j s⟩

theorem afterTransfer_ordered {s : State} (o : s.cst.ordered) (k : Key) (kept : Bool) :
    (s.afterTransfer k kept).cst.ordered := by
  cases kept
  · exact Store.remove_ordered (readState_ordered o) k
  · exact readState_ordered o

/-- The counts of a sweep after a transfer, as the statements have them. -/
theorem sweep_after_eq (w : Sweep) (kept : Bool) :
    w.after kept =
      { w with
        retired := w.retired + (if kept then 0 else 1)
        kept := w.kept + (if kept then 1 else 0)
        offered := none } := by
  cases kept <;> rfl

section
variable {s : State} {w : Sweep} {k : Key} {kept : Bool} (hk : decide (0 < s.refCount k) = kept)
include hk

/-- The record that a transfer carries (R138, R181). -/
theorem transferOffered_record :
    (transferOffered k w s).2 = recordBytes k ((readState k s).cst.payload k) (s.refCount k) kept := by
  unfold transferOffered State.transferred
  dsimp only
  rw [hk, refCount_readState]

/-- At m transfers the sweep completes. -/
theorem transferOffered_last (h : w.most ≤ (w.after kept).retired + (w.after kept).kept) :
    (transferOffered k w s).1 = endSweep .ok (w.after kept) (s.afterTransfer k kept) := by
  unfold transferOffered
  dsimp only
  rw [hk, if_pos h]
  rfl

/-- Below m transfers the sweep chooses again. -/
theorem transferOffered_more (h : (w.after kept).retired + (w.after kept).kept < w.most) :
    (transferOffered k w s).1 = chooseNext (w.after kept) (s.afterTransfer k kept) := by
  unfold transferOffered
  dsimp only
  rw [hk, if_neg (Nat.not_le.mpr h)]
  rfl

end

/-- FETCH, taken in DATA OUT, replies with the record transferred, whatever becomes of the sweep. -/
theorem exec_fetchFrame_offered {f : Frame} {after : Nat} {s v : State} {w : Sweep} {k : Key} {kept : Bool}
    (taken : s.takesFrame .fetch f) (sweeping : s.cmu.progress = .swp w) (offered : w.offered = some k)
    (hk : decide (0 < s.refCount k) = kept)
    (hv : (transferOffered k w (s.shifted (3 + f.payload.length + after))).1 = v)
    (link : v.lnk = (s.shifted (3 + f.payload.length + after)).lnk) :
    exec (.fetchFrame f after) s =
      .next (v.replied s.statusByte f.payload.length after (frameBytes 0x62 (recordBytes k
        ((readState k (s.shifted (3 + f.payload.length + after))).cst.payload k) (s.refCount k) kept))) := by
  have record := transferOffered_record (s := s.shifted (3 + f.payload.length + after)) (w := w) hk
  rw [exec_fetchFrame taken, takeFetch_offered (s := s.shifted _) sweeping offered, hv, record, reply_eq link]
  rfl

/-- Settles O39, by the number of transfers and then by what the search for the next candidate finds. -/
theorem fetchTransfersTheOfferedRecord : Obligations.FetchTransfersTheOfferedRecord := by
  rintro f after s w k taken ⟨ordered, -⟩ sweeping offered last t kept u w' candidate out ended
  have counts : w.after kept = w' := sweep_after_eq w kept
  have left : (s.shifted (3 + f.payload.length + after)).afterTransfer k kept = u := by
    cases hk : kept <;> simp only [u, hk] <;> rfl
  obtain ⟨cmu, now, lnk, refs⟩ := afterTransfer_rest (s.shifted (3 + f.payload.length + after)) k kept
  have ordered' := afterTransfer_ordered (s := s.shifted (3 + f.payload.length + after)) ordered k kept
  rw [left] at cmu now lnk refs ordered'
  have offerable : u.offerable w' = candidate := by
    funext x
    simp only [State.offerable, refs, w', last]
    rfl
  clear_value u
  have full_transfer (h : w.most ≤ w'.retired + w'.kept) :=
    transferOffered_last (s := s.shifted (3 + f.payload.length + after)) (kept := kept) rfl (counts ▸ h)
  have more_transfer (h : w'.retired + w'.kept < w.most) :=
    transferOffered_more (s := s.shifted (3 + f.payload.length + after)) (kept := kept) rfl (counts ▸ h)
  rw [counts, left] at full_transfer more_transfer
  have ends (h : (transferOffered k w (s.shifted (3 + f.payload.length + after))).1 = endSweep .ok w' u) : ended := by
    rw [endSweep_eq, show w'.last = some k from last] at h
    exact exec_fetchFrame_offered taken sweeping offered rfl h ((State.complete_lnk u _).trans lnk)
  refine ⟨fun full => ends (full_transfer full), fun more none_above => ends ?_, fun more j smallest => ?_⟩
  · exact (more_transfer more).trans (chooseNext_ends (offerable ▸ none_above))
  · have offers := (more_transfer more).trans
      ((chooseNext_offers ordered' (offerable ▸ smallest)).trans (await_eq (s := s) cmu now _))
    exact exec_fetchFrame_offered taken sweeping offered rfl offers lnk

end Sys2Proof.Machine
end

section
/-! The settlement of O27: the 28 bytes of a transferred record. -/

namespace Sys2Proof.Machine

/-! ## Quantities written and read back (R179) -/

theorem leNat_leBytes {w n : Nat} (h : n < 256 ^ w) : leNat (leBytes w n) = n := by
  induction w generalizing n with
  | zero => exact (Nat.lt_one_iff.mp h).symm
  | succ w ih =>
    have rest : n / 256 < 256 ^ w := Nat.div_lt_of_lt_mul (by rwa [pow_succ, mul_comm] at h)
    rw [leBytes, leNat, ih rest, BitVec.toNat_ofNat]
    omega

/-- A two's complement quantity reads back where its `w` bytes can carry it. -/
theorem leInt_leIntBytes {w : Nat} {i : Int} (low : -(256 ^ w : Nat) ≤ 2 * i) (high : 2 * i < (256 ^ w : Nat)) :
    leInt (leIntBytes w i) = i := by
  have pos : 0 < (256 : Nat) ^ w := Nat.pow_pos (by decide)
  unfold leInt
  rw [length_leIntBytes, leIntBytes]
  generalize hm : (256 : Nat) ^ w = m at *
  have nonneg : 0 ≤ i % (m : Int) := Int.emod_nonneg i (by omega)
  have below : i % (m : Int) < m := Int.emod_lt_of_pos i (by omega)
  rw [leNat_leBytes (by omega)]
  by_cases negative : i < 0
  · have wrapped : i % (m : Int) = i + m := by
      rw [← Int.add_emod_right]
      exact Int.emod_eq_of_lt (by omega) (by omega)
    rw [if_neg (by omega)]
    omega
  · have whole : i % (m : Int) = i := Int.emod_eq_of_lt (by omega) (by omega)
    rw [if_pos (by omega)]
    omega

theorem leNat_byte (x : Byte) : leNat [x] = x.toNat := by
  simp [leNat]

/-- A quantity reads back from its place, and the rest stands after it. -/
theorem natAt_part {b rest : List Byte} {off w n : Nat} (h : b.drop off = leBytes w n ++ rest) (hn : n < 256 ^ w) :
    natAt b off w = n ∧ b.drop (off + w) = rest := by
  obtain ⟨part, after⟩ := slice_part h (length_leBytes w n)
  exact ⟨by rw [natAt, part, leNat_leBytes hn], after⟩

/-- A set of sub-squares reads back from its place, and the rest stands after it. -/
theorem subSetAt_part {b rest : List Byte} {off : Nat} {x : SubSet} (h : b.drop off = leBytes 2 x.toNat ++ rest) :
    subSetAt b off = x ∧ b.drop (off + 2) = rest := by
  obtain ⟨quantity, after⟩ := natAt_part h (w := 2) x.isLt
  exact ⟨by rw [subSetAt, quantity, BitVec.ofNat_toNat, BitVec.setWidth_eq], after⟩

/-! ## The parts of a transferred record (R138, R181) -/

/-- The 4 bytes of the targets: zeros for a poisoned record. -/
def targetBytes (p : Option Payload) : List Byte :=
  p.elim (List.replicate 4 0) fun y => leBytes 2 y.seedTarget ++ leBytes 2 y.fertTarget

/-- The byte of the flags: no-apply, poisoned and KEPT. -/
def flagsByte (p : Option Payload) (kept : Bool) : Byte :=
  p.elim 2 (fun y => flagByte y.noApply) ||| (if kept then 4 else 0)

/-- The 18 bytes of the coverage and the tallies: zeros for a poisoned record. -/
def creditBytes (p : Option Payload) : List Byte :=
  p.elim (List.replicate 18 0) fun y =>
    leBytes 2 y.seedCov.settled.toNat ++ (leBytes 2 y.seedCov.fresh.toNat
      ++ (leBytes 2 y.fertCov.settled.toNat ++ (leBytes 2 y.fertCov.fresh.toNat
      ++ (leBytes 2 y.placed ++ (leBytes 2 y.skips ++ (leBytes 2 y.extras ++ leBytes 4 y.applied))))))

@[simp] theorem length_targetBytes (p : Option Payload) : (targetBytes p).length = 4 := by
  cases p <;> simp [targetBytes]

@[simp] theorem length_creditBytes (p : Option Payload) : (creditBytes p).length = 18 := by
  cases p <;> simp [creditBytes]

/-- A transferred record in its parts, one after another. -/
theorem recordBytes_parts (k : Key) (p : Option Payload) (refs : Nat) (kept : Bool) :
    recordBytes k p refs kept =
      leIntBytes 2 k.cx ++ (leIntBytes 2 k.cy ++ (targetBytes p ++ ([flagsByte p kept] ++ (creditBytes p
        ++ [BitVec.ofNat 8 (min 255 refs)])))) := by
  cases p <;>
    simp only [recordBytes, keyBytes, targetBytes, flagsByte, creditBytes, Option.elim, List.append_assoc]

/-- Where each part of a transferred record stands. -/
theorem recordBytes_slices {k : Key} {p : Option Payload} {refs : Nat} {kept : Bool} {b : List Byte}
    (h : recordBytes k p refs kept = b) :
    b.length = 28
      ∧ slice b 0 2 = leIntBytes 2 k.cx
      ∧ slice b 2 2 = leIntBytes 2 k.cy
      ∧ b.drop 4 = targetBytes p ++ b.drop 8
      ∧ slice b 8 1 = [flagsByte p kept]
      ∧ b.drop 9 = creditBytes p ++ b.drop 27
      ∧ slice b 27 1 = [BitVec.ofNat 8 (min 255 refs)] := by
  rw [recordBytes_parts] at h
  have length : b.length = 28 := by simp [← h]
  obtain ⟨cx, rest⟩ := slice_part (off := 0) (n := 2) h.symm (by simp)
  obtain ⟨cy, targets⟩ := slice_part (n := 2) rest (by simp)
  obtain ⟨-, rest⟩ := slice_part (n := 4) targets (by simp)
  obtain ⟨flags, credits⟩ := slice_part (n := 1) rest rfl
  obtain ⟨-, count⟩ := slice_part (n := 18) credits (by simp)
  rw [← rest] at targets
  rw [← count] at credits
  exact ⟨length, cx, cy, targets, flags, credits,
    (slice_part (n := 1) (count.trans (List.append_nil _).symm) rfl).1⟩

/-- The flags of a record, one bit each. -/
theorem flagsByte_toNat (p : Option Payload) (kept : Bool) :
    (flagsByte p kept).toNat =
      (if p.any (·.noApply) then 1 else 0) + (if p.isNone then 2 else 0) + (if kept then 4 else 0) := by
  cases p with
  | none => cases kept <;> rfl
  | some y => cases hn : y.noApply <;> cases kept <;> simp [flagsByte, flagByte, hn]

/-- Settles O27, by the parts of a record and the place of each. -/
theorem transferredRecordsReadBack : Obligations.TransferredRecordsReadBack := by
  intro k p refs kept hk hp b
  obtain ⟨length, cx, cy, targets, flags, credits, count⟩ := recordBytes_slices (b := b) rfl
  obtain ⟨cxLow, cxHigh, cyLow, cyHigh⟩ := hk
  refine ⟨length, ?_, ?_, ?_, fun poisoned => ?_, fun y found => ?_⟩
  · rw [keyAt, intAt, intAt, cx, cy, leInt_leIntBytes (by omega) (by omega), leInt_leIntBytes (by omega) (by omega)]
  · rw [natAt, count, leNat_byte, BitVec.toNat_ofNat]
    omega
  · rw [natAt, flags, leNat_byte, flagsByte_toNat]
  · subst poisoned
    exact ⟨(slice_part targets rfl).1, (slice_part credits rfl).1⟩
  · subst found
    obtain ⟨seedTarget, fertTarget, -, -, placed, skips, extras, applied⟩ := (Payload.wf_iff y).mp hp
    simp only [targetBytes, creditBytes, Option.elim, List.append_assoc] at targets credits
    obtain ⟨seedTargetAt, rest⟩ := natAt_part targets (by omega)
    obtain ⟨fertTargetAt, -⟩ := natAt_part rest (by omega)
    obtain ⟨seedSettledAt, rest⟩ := subSetAt_part credits
    obtain ⟨seedFreshAt, rest⟩ := subSetAt_part rest
    obtain ⟨fertSettledAt, rest⟩ := subSetAt_part rest
    obtain ⟨fertFreshAt, rest⟩ := subSetAt_part rest
    obtain ⟨placedAt, rest⟩ := natAt_part rest (by omega)
    obtain ⟨skipsAt, rest⟩ := natAt_part rest (by omega)
    obtain ⟨extrasAt, rest⟩ := natAt_part rest (by omega)
    obtain ⟨appliedAt, -⟩ := natAt_part rest (by omega)
    exact ⟨seedTargetAt, fertTargetAt, seedSettledAt, seedFreshAt, fertSettledAt, fertFreshAt, placedAt, skipsAt,
      extrasAt, appliedAt⟩

end Sys2Proof.Machine
end

section
/-! What the shared operations and the events of the field keep of the attention line and of the Command Unit. -/

namespace Sys2Proof.Machine

/-! ## What is kept (R152, R170, R172, R183) -/

/-- A step from one state to another keeps the attention line right, and the data timer and the sweep with the command
in progress. -/
structure Minding (s t : State) : Prop where
  line : s.lineWf → t.lineWf
  command : s.commandWf → t.commandWf

/-- And the reset pin is released after it. -/
structure Awake (s t : State) : Prop extends Minding s t where
  released : t.inReset = false

theorem Minding.refl (s : State) : Minding s s := ⟨id, id⟩

theorem Minding.trans {s t u : State} (h : Minding s t) (g : Minding t u) : Minding s u :=
  ⟨g.line ∘ h.line, g.command ∘ h.command⟩

theorem Awake.refl {s : State} (h : s.inReset = false) : Awake s s := ⟨.refl s, h⟩

/-- What the attention line and the Command Unit's timer are kept with: the reset pin, the Event Unit, the command in
progress and its data timer. -/
def State.duty (s : State) : Bool × Events × Progress × Option Nat :=
  (s.inReset, s.evu, s.cmu.progress, s.cmu.dataDue)

section
variable (s : State)

@[simp] theorem setLnk_duty (x : Link) : (s.setLnk x).duty = s.duty := rfl
@[simp] theorem setCst_duty (x : Store) : (s.setCst x).duty = s.duty := rfl
@[simp] theorem setMot_duty (x : Motion) : (s.setMot x).duty = s.duty := rfl
@[simp] theorem setRen_duty (x : Engine) : (s.setRen x).duty = s.duty := rfl
@[simp] theorem setFsc_duty (x : Scanner) : (s.setFsc x).duty = s.duty := rfl
@[simp] theorem setPins_duty (x : Pins) : (s.setPins x).duty = s.duty := rfl
@[simp] theorem setRow_duty (r : RowId) (w : Option Row) : (s.setRow r w).duty = s.duty := rfl
@[simp] theorem setMode_duty (m : Mode) : (s.setMode m).duty = s.duty := rfl

end

/-- The attention line as R183 says, apart from the reset pin. -/
def Events.right (e : Events) : Prop :=
  e.attention = decide (e.pending &&& e.enabled ≠ 0)

theorem Events.recomputed_right (e : Events) : e.recomputed.right := rfl

theorem Events.raised_right (e : Events) (k : Kind) : (e.raised k).right := rfl

theorem lineWf_iff_right {s : State} (h : s.inReset = false) : s.lineWf ↔ s.evu.right := by
  unfold State.lineWf Events.right
  rw [h, Bool.not_false, Bool.true_and]

theorem commandWf_congr {s t : State} (progress : t.cmu.progress = s.cmu.progress)
    (due : t.cmu.dataDue = s.cmu.dataDue) :
    t.commandWf ↔ s.commandWf := by
  unfold State.commandWf State.dataRequest
  rw [progress, due]

/-- With no command in progress and no data timer there is nothing to keep. -/
theorem commandWf_of_idle {s : State} (idle : s.cmu.progress = .idle) (due : s.cmu.dataDue = none) : s.commandWf := by
  unfold State.commandWf State.dataRequest
  rw [idle, due]
  exact ⟨rfl, fun w h => by cases h⟩

section
variable {s t u : State}

/-- A change of nothing that they are kept with. -/
theorem Minding.same (e : t.duty = s.duty) : Minding s t := by
  obtain ⟨reset, evu, progress, due⟩ : t.inReset = s.inReset ∧ t.evu = s.evu
      ∧ t.cmu.progress = s.cmu.progress ∧ t.cmu.dataDue = s.cmu.dataDue := by
    simpa only [State.duty, Prod.mk.injEq] using e
  refine ⟨fun line => ?_, (commandWf_congr progress due).mpr⟩
  unfold State.lineWf at *
  rwa [reset, evu]

theorem Awake.same (h : Awake s t) (e : u.duty = t.duty) : Awake s u :=
  ⟨h.toMinding.trans (.same e), (congrArg Prod.fst e).trans h.released⟩

/-- A change of the Event Unit that leaves the line recomputed. -/
theorem Awake.setEvu {e : Events} (h : Awake s t) (right : t.evu.right → e.right) : Awake s (t.setEvu e) where
  line line :=
    (lineWf_iff_right (s := t.setEvu e) h.released).mpr (right ((lineWf_iff_right h.released).mp (h.line line)))
  command := h.command
  released := h.released

theorem raise_awake {k : Kind} (h : Awake s t) : Awake s (t.raise k) := h.setEvu fun _ => Events.raised_right _ _

theorem raiseHealth_awake {r : RowId} (h : Awake s t) : Awake s (t.raiseHealth r) :=
  h.setEvu fun _ => Events.raised_right _ _

theorem complete_awake {k : Completion} (h : Awake s t) : Awake s (t.complete k) where
  line _ := (lineWf_iff_right (s := t.complete k) h.released).mpr (Events.raised_right _ _)
  command _ := commandWf_of_idle rfl rfl
  released := h.released

/-- A step made on a condition. -/
theorem Awake.ite {p : Prop} [Decidable p] (h : Awake s t) (g : Awake s u) : Awake s (if p then t else u) := by
  split
  · exact h
  · exact g

/-- What follows from the rows' setup raises RATE LIMIT at most. -/
theorem State.follows.awake (f : t.follows u) (h : Awake s t) : Awake s u := by
  have rest : (t.setEvu u.evu).duty = u.duty := by
    simp only [State.duty, State.setEvu_inReset, State.setEvu_evu, State.setEvu_cmu, f.inReset, f.cmu]
  have line : t.evu.right → u.evu.right := fun right => by
    rcases f.evu with e | e
    · rwa [e]
    · rw [e]
      exact Events.raised_right _ _
  exact (h.setEvu line).same rest.symm

/-! ### Rows -/

theorem mapRows_awake {g : RowId → Row → Row} (h : Awake s t) : Awake s (t.mapRows g) :=
  h.same (setRen_duty t _)

theorem modRow_awake {r : RowId} {g : Row → Row} (h : Awake s t) : Awake s (t.modRow r g) :=
  h.same (by simp [State.duty])

theorem modFlight_awake {r : RowId} {f : Flight → Flight} (h : Awake s t) : Awake s (modFlight r f t) := modRow_awake h

theorem modFlow_awake {r : RowId} {f : FlowState → FlowState} (h : Awake s t) : Awake s (modFlow r f t) :=
  modRow_awake h

theorem pass_awake {x : RowId → Option Pass} (h : Awake s t) : Awake s (t.pass x) := (t.pass_follows x).awake h
theorem computeAll_awake (h : Awake s t) : Awake s (computeAll t) := pass_awake h
theorem decideAll_awake (h : Awake s t) : Awake s (decideAll t) := pass_awake h
theorem passRow_awake {x : Pass} {r : RowId} (h : Awake s t) : Awake s (passRow x r t) := pass_awake h
theorem reviewLanes_awake {b : Lanes} (h : Awake s t) : Awake s (reviewLanes b t) := pass_awake h
theorem reviewBound_awake {k : Key} (h : Awake s t) : Awake s (reviewBound k t) := pass_awake h
theorem refreshMoved_awake {old : Store} (h : Awake s t) : Awake s (refreshMoved old t) := pass_awake h

/-! ### The store (R16, R20 to R23, R157 to R161) -/

theorem readRecord_awake {k : Key} (h : Awake s t) : Awake s (readRecord k t) := by
  rcases readRecord_cases k t with ⟨-, e⟩ | ⟨p, -, -, e⟩ | ⟨p, -, -, e⟩ | ⟨p, -, -, e⟩ <;> rw [e]
  · exact h
  · exact h
  · exact raise_awake (h.same (setCst_duty _ _))
  · exact raise_awake (h.same (setCst_duty _ _))

theorem readState_awake {k : Key} (h : Awake s t) : Awake s (readState k t) :=
  (readState_follows k t).awake (readRecord_awake h)

theorem writePayload_awake {k : Key} {p : Payload} (h : Awake s t) : Awake s (writePayload k p t) :=
  h.same (setCst_duty _ _)

theorem deliver_awake {k : Key} {f : Payload → Payload} (h : Awake s t) : Awake s (deliver k f t) := by
  unfold deliver
  split
  · exact readState_awake h
  · exact refreshMoved_awake (writePayload_awake (readState_awake h))

theorem creditSeed_awake {c : SeedCredit} {k : Key} (h : Awake s t) : Awake s (creditSeed c k t) := deliver_awake h
theorem creditFert_awake {v : Nat} {q : Point} (h : Awake s t) : Awake s (creditFert v q t) := deliver_awake h

theorem settleOne_awake {n : Nat} {k : Key} (h : Awake s t) : Awake s (settleOne (t, n) k).1 := by
  have read : Awake s (readRecord k t) := readRecord_awake h
  unfold settleOne
  dsimp only
  split
  · exact read
  · split
    · exact writePayload_awake read
    · exact read

theorem settleRecords_awake (h : Awake s t) : Awake s (settleRecords t).1 := by
  have fold : ∀ (l : List Key) (x : State × Nat), Awake s x.1 → Awake s (l.foldl settleOne x).1 := by
    intro l
    induction l with
    | nil => exact fun _ => id
    | cons k ks ih => exact fun x hx => ih _ (settleOne_awake hx)
  exact fold _ (t, 0) h

theorem settle_awake (h : Awake s t) : Awake s (settle t).1 := reviewLanes_awake (settleRecords_awake h)
theorem settleAndDecide_awake (h : Awake s t) : Awake s (settleAndDecide t).1 := pass_awake (settleRecords_awake h)

theorem offerMisses_awake {keys : List Key} (h : Awake s t) : Awake s (offerMisses keys t) := by
  unfold offerMisses
  split
  · exact h
  · exact raise_awake (h.same rfl)

theorem readForRow_awake {r : RowId} (h : Awake s t) : Awake s (readForRow r t) :=
  readForRow_induct (P := Awake s) (fun _ _ => readRecord_awake) r h

theorem readForRows_awake (h : Awake s t) : Awake s (forRows readForRow t) :=
  forRows_induct (P := Awake s) (fun _ _ => readForRow_awake) t h

end

theorem freeFirst_awake {s t : State} {f : State → State} (h : Awake s (f t)) : Awake s (freeFirst f t) := by
  obtain ⟨k, n, e⟩ := freeFirst_eq f t
  rw [e]
  exact h.same rfl

section
variable {s t : State} {r : RowId}

/-! ### Priming (R94 to R99) -/

theorem startPriming_awake {n : Nat} {rows : RowSet} (h : Awake s t) : Awake s (startPriming n rows t) :=
  pass_awake (mapRows_awake h)

theorem endPriming_awake {rows : RowSet} (h : Awake s t) : Awake s (endPriming rows t) := pass_awake (mapRows_awake h)

/-- A command in progress that asks for no data stays one. -/
theorem setProgress_awake {p : Progress} (h : Awake s t) (quiet : t.dataRequest = false)
    (hp : (t.setCmu { t.cmu with progress := p }).dataRequest = false) :
    Awake s (t.setCmu { t.cmu with progress := p }) := by
  refine ⟨⟨h.line, fun command => ?_⟩, h.released⟩
  obtain ⟨due, -⟩ := h.command command
  refine ⟨(due.trans quiet).trans hp.symm, fun w sweeping => ?_⟩
  unfold State.dataRequest at hp
  rw [sweeping] at hp
  cases hp

theorem leavePriming_awake {b : Bool} (h : Awake s t) : Awake s (leavePriming r b t) := by
  unfold leavePriming
  split
  · rename_i priming
    exact .ite (complete_awake h) (setProgress_awake h (by rw [State.dataRequest, priming]) rfl)
  · exact h

theorem primingHole_awake (h : Awake s t) : Awake s (primingHole r t) := by
  unfold primingHole
  split
  · exact h
  · split
    · exact .ite (leavePriming_awake (endPriming_awake h)) (modRow_awake h)
    · exact h

theorem primingStall_awake (h : Awake s t) : Awake s (primingStall r t) := by
  unfold primingStall
  split
  · exact h
  · exact .ite (leavePriming_awake (endPriming_awake h)) h

/-! ### Seed flight (R103 to R120) -/

theorem noteMatched_awake (h : Awake s t) : Awake s (noteMatched r t) := by
  unfold noteMatched
  split
  · exact h
  · exact .ite (raiseHealth_awake (modFlight_awake h)) (modFlight_awake h)

theorem noteSkip_awake (h : Awake s t) : Awake s (noteSkip r t) := by
  unfold noteSkip
  split
  · exact h
  · exact .ite (raiseHealth_awake (modFlight_awake h)) (modFlight_awake h)

theorem dropOldest_awake (h : Awake s t) : Awake s (dropOldest r t) := modFlight_awake h

theorem creditEntry_awake {e : Entry} {c : Sub → SeedCredit} (h : Awake s t) : Awake s (creditEntry e c t) := by
  unfold creditEntry
  split
  · exact h
  · exact creditSeed_awake h

theorem resolveMatched_awake (h : Awake s t) : Awake s (resolveMatched r t) := by
  unfold resolveMatched
  split
  · exact h
  · exact dropOldest_awake (noteMatched_awake (creditEntry_awake h))

theorem resolveSkip_awake (h : Awake s t) : Awake s (resolveSkip r t) := by
  unfold resolveSkip
  split
  · exact h
  · exact dropOldest_awake (noteSkip_awake (creditEntry_awake h))

theorem resolveUnseen_awake (h : Awake s t) : Awake s (resolveUnseen r t) :=
  .ite (dropOldest_awake h) (resolveSkip_awake h)

theorem holeSeen_awake (h : Awake s t) : Awake s (holeSeen r t) := by
  unfold holeSeen
  split
  · exact h
  · exact .ite (raiseHealth_awake (modRow_awake h)) (modRow_awake h)

theorem overflow_awake {resolve : State → State} (h : Awake s t) (resolved : Awake s (resolve t)) :
    Awake s (overflow resolve r t) := by
  unfold overflow
  split
  · exact h
  · exact .ite (modFlight_awake resolved) h

theorem joinEntry_awake {f : State → Row → Option (Key × Sub)} (h : Awake s t) : Awake s (joinEntry r f t) :=
  modRow_awake h

theorem holePassed_awake (h : Awake s t) : Awake s (holePassed r t) := by
  have seen : Awake s (holeSeen r t) := holeSeen_awake h
  unfold holePassed
  dsimp only
  split
  · exact joinEntry_awake (overflow_awake seen (resolveUnseen_awake seen))
  · exact primingHole_awake seen
  · exact seen

theorem extraSeed_awake (h : Awake s t) : Awake s (extraSeed r t) := by
  have noted : Awake s (modFlight r (fun f => { f with underflowSeen := true }) t) := modFlight_awake h
  unfold extraSeed
  dsimp only
  split
  · exact noted
  · split
    · exact creditSeed_awake noted
    · exact noted

theorem seedSensed_awake (h : Awake s t) : Awake s (seedSensed r t) := .ite (resolveMatched_awake h) (extraSeed_awake h)

theorem occlusionStarts_awake (h : Awake s t) : Awake s (occlusionStarts r t) :=
  .ite (seedSensed_awake (modFlight_awake h)) (modFlight_awake h)

theorem occlusionEnds_awake (h : Awake s t) : Awake s (occlusionEnds r t) :=
  .ite (raiseHealth_awake (modFlight_awake h)) (modFlight_awake h)

theorem enterStuck_awake (h : Awake s t) : Awake s (enterStuck r t) :=
  .ite (modFlight_awake h) (raiseHealth_awake (modFlight_awake h))

theorem enterStall_awake (h : Awake s t) : Awake s (enterStall r t) :=
  primingStall_awake (.ite (modFlight_awake h) (raiseHealth_awake (modFlight_awake h)))

theorem synthHole_awake (h : Awake s t) : Awake s (synthHole r t) := by
  unfold synthHole
  exact joinEntry_awake (overflow_awake (modFlight_awake h) (dropOldest_awake (modFlight_awake h)))

/-! ### The Flow Scanner (R122 to R135) -/

theorem startConversion_awake {q : Option RowId} (h : Awake s t) : Awake s (startConversion q t) := by
  unfold startConversion
  split
  · exact h.same (setFsc_duty _ _)
  · exact h.same (setFsc_duty _ _)

theorem restartScan_awake (h : Awake s t) : Awake s (restartScan t) := startConversion_awake h

theorem endRun_awake (h : Awake s t) : Awake s (endRun t) := (mapRows_awake h).same (setFsc_duty _ _)

variable {code : AdcCode}

theorem flowStep_awake (h : Awake s t) : Awake s (flowStep r code t) := .ite h (modFlow_awake h)

theorem faultStep_awake (h : Awake s t) : Awake s (faultStep r code t) := by
  unfold faultStep
  split
  · exact h
  · exact .ite (modFlow_awake h) (raiseHealth_awake (modFlow_awake h))

theorem deliverVolume_awake {v : Nat} (h : Awake s t) : Awake s (deliverVolume r v t) := by
  unfold deliverVolume
  split
  · exact h
  · exact creditFert_awake h

theorem creditStep_awake (h : Awake s t) : Awake s (creditStep r code t) := by
  unfold creditStep
  refine modFlow_awake (.ite ?_ h)
  split
  · exact h
  · exact deliverVolume_awake (modFlow_awake h)

theorem noFlowStep_awake (h : Awake s t) : Awake s (noFlowStep r code t) := by
  unfold noFlowStep
  split
  · exact h
  · exact .ite (.ite (raiseHealth_awake (modFlow_awake h)) h)
      (.ite (raiseHealth_awake (modFlow_awake h)) (modFlow_awake h))

theorem trimStep_awake (h : Awake s t) : Awake s (trimStep r code t) := by
  unfold trimStep
  split
  · exact h
  · split
    · exact h
    · exact .ite (passRow_awake (modFlow_awake h)) h

theorem takeCode_awake (h : Awake s t) : Awake s (takeCode r code t) :=
  trimStep_awake (noFlowStep_awake (creditStep_awake (faultStep_awake (flowStep_awake h))))

/-! ### Motion (R28 to R46) -/

theorem speedSample_awake {v : Nat} (h : Awake s t) : Awake s (speedSample v t) :=
  computeAll_awake (h.same (setMot_duty _ _))

theorem testSilence_awake (h : Awake s t) : Awake s (testSilence t) := .ite (raise_awake (h.same (setMot_duty _ _))) h

theorem testFallback_awake (h : Awake s t) : Awake s (testFallback t) := .ite (raise_awake (h.same (setMot_duty _ _))) h

theorem rowFixUpdate_awake {f : Fix} (h : Awake s t) : Awake s (rowFixUpdate f t) := by
  unfold rowFixUpdate
  exact pass_awake (freeFirst_awake (readForRows_awake (mapRows_awake (offerMisses_awake (mapRows_awake h)))))

theorem acceptFix_awake {f : Fix} (h : Awake s t) : Awake s (acceptFix f t) :=
  rowFixUpdate_awake (testFallback_awake (testSilence_awake (h.same (setMot_duty _ _))))

theorem takeFix_awake {f : Fix} (h : Awake s t) : Awake s (takeFix f t) := .ite (raise_awake h) (acceptFix_awake h)

theorem enterStale_awake (h : Awake s t) : Awake s (enterStale t) := raise_awake (h.same (setMot_duty _ _))

theorem enterLost_awake (h : Awake s t) : Awake s (enterLost t) := pass_awake (raise_awake (h.same (setMot_duty _ _)))

theorem returnTest_awake (h : Awake s t) : Awake s (returnTest t) := .ite (h.same (setMot_duty _ _)) h

theorem windowSample_awake {was : SpeedSource} (h : Awake s t) : Awake s (windowSample was t) :=
  .ite (speedSample_awake h) (.ite (computeAll_awake h) h)

theorem closeWindow_awake (h : Awake s t) : Awake s (closeWindow t) :=
  .ite (windowSample_awake (returnTest_awake (h.same (setMot_duty _ _))))
    (windowSample_awake (.ite (testFallback_awake (testSilence_awake (h.same (setMot_duty _ _))))
      (h.same (setMot_duty _ _))))

theorem takeSwitch_awake (h : Awake s t) : Awake s (takeSwitch t) :=
  .ite (settleAndDecide_awake (raise_awake (h.same (setMot_duty _ _))))
    (decideAll_awake (raise_awake (h.same (setMot_duty _ _))))

end

end Sys2Proof.Machine
end

section
/-! What every command keeps of the attention line and of the Command Unit, and the settlement of O15. -/

namespace Sys2Proof.Machine

section
variable {s t : State} {p : List Byte} {r : RowId} {k : Key}

/-! ## SETI, SETR, SETE and SETF (R46 to R62, R174) -/

theorem cellSideChanged_awake (h : Awake s t) : Awake s (cellSideChanged t) := mapRows_awake (h.same (setCst_duty _ _))

theorem fallbackSample_awake (h : Awake s t) : Awake s (fallbackSample t) :=
  .ite (computeAll_awake (testFallback_awake h)) h

theorem speedSourceChanged_awake (h : Awake s t) : Awake s (speedSourceChanged t) := by
  unfold speedSourceChanged
  split
  · exact speedSample_awake (h.same (setMot_duty _ _))
  · have sampled (v : Nat) (m : Motion) : Awake s (speedSample v (t.setMot m)) :=
      speedSample_awake (h.same (setMot_duty _ _))
    exact .ite (fallbackSample_awake (testSilence_awake (sampled _ _))) (sampled _ _)

theorem fallbackChanged_awake (h : Awake s t) : Awake s (fallbackChanged t) :=
  .ite (fallbackSample_awake h) (.ite (speedSample_awake (h.same (setMot_duty _ _))) h)

theorem lostLimitChanged_awake (h : Awake s t) : Awake s (lostLimitChanged t) := .ite (enterLost_awake h) h

theorem onChange_awake {α : Type} [DecidableEq α] {a b : α} {f : State → State} (h : Awake s t) (g : Awake s (f t)) :
    Awake s (onChange a b f t) :=
  .ite h g

theorem applySettings_awake {new : Settings} (h : Awake s t) : Awake s (applySettings new t) := by
  have written : Awake s ((t.setSettings new).setCmu { t.cmu with settingsValid := true }) := h.same rfl
  have side := onChange_awake (a := t.settings.cellSide) (b := new.cellSide) written (cellSideChanged_awake written)
  have source := onChange_awake (a := t.settings.speedSource) (b := new.speedSource) side
    (speedSourceChanged_awake side)
  have fallback := onChange_awake (a := t.settings.fallback) (b := new.fallback) source (fallbackChanged_awake source)
  have limit := onChange_awake (a := t.settings.lostLimit) (b := new.lostLimit) fallback
    (lostLimitChanged_awake fallback)
  exact onChange_awake limit (decideAll_awake limit)

theorem setImplement_awake (h : Awake s t) : Awake s (setImplement p t) := by
  rcases setImplement_cases t p with ⟨k, e⟩ | ⟨-, new, e⟩ <;> rw [e]
  · exact complete_awake h
  · exact complete_awake (applySettings_awake h)

theorem configureRow_awake {c : RowContext} (h : Awake s t) : Awake s (configureRow r c t) := by
  unfold configureRow
  exact reviewLanes_awake (freeFirst_awake (readForRow_awake
    (.ite (raiseHealth_awake (h.same (setRow_duty _ _ _))) (h.same (setRow_duty _ _ _)))))

theorem removeRow_awake (h : Awake s t) : Awake s (removeRow r t) := (h.same (setRow_duty t r none)).setEvu id

theorem setRowCommand_awake (h : Awake s t) : Awake s (setRowCommand p t) := by
  unfold setRowCommand
  refine .ite (complete_awake h) (.ite (complete_awake h) ?_)
  split
  · exact complete_awake h
  · exact .ite (complete_awake (removeRow_awake h)) (.ite (complete_awake h) (complete_awake (configureRow_awake h)))

theorem setEnables_awake (h : Awake s t) : Awake s (setEnables p t) := by
  unfold setEnables
  exact complete_awake (pass_awake (.ite (restartScan_awake (mapRows_awake h)) (mapRows_awake h)))

theorem setFallback_awake (h : Awake s t) : Awake s (setFallback p t) :=
  complete_awake (reviewLanes_awake (h.same (setRen_duty _ _)))

/-! ## Modes (R25, R81 to R95) -/

theorem startField_awake (h : Awake s t) : Awake s (startField t) := by
  unfold startField startRun
  exact decideAll_awake (restartScan_awake ((mapRows_awake (h.same (setMode_duty _ _))).same (setFsc_duty _ _)))

theorem startShadow_awake (h : Awake s t) : Awake s (startShadow t) :=
  decideAll_awake (mapRows_awake (h.same (setMode_duty _ _)))

theorem start_awake (h : Awake s t) : Awake s (start p t) := by
  unfold start
  exact .ite (complete_awake h) (.ite (complete_awake h) (.ite (complete_awake h) (.ite (complete_awake h)
    (complete_awake (.ite (startField_awake h) (startShadow_awake h))))))

theorem stopRun_awake (h : Awake s t) : Awake s (stopRun t).1 :=
  settleAndDecide_awake (endRun_awake (mapRows_awake (h.same (setMode_duty _ _))))

theorem stopCommand_awake (h : Awake s t) : Awake s (stopCommand p t) :=
  .ite (complete_awake h) (complete_awake (stopRun_awake h))

theorem settleCommand_awake (h : Awake s t) : Awake s (settleCommand p t) := complete_awake (settle_awake h)

theorem primeMeters_awake (h : Awake s t) (idle : t.cmu.progress = .idle) : Awake s (primeMeters p t) := by
  unfold primeMeters
  exact .ite (complete_awake h) (.ite (complete_awake h) (.ite (complete_awake h) (.ite (complete_awake h)
    (startPriming_awake (setProgress_awake h (by rw [State.dataRequest, idle]) rfl)))))

/-! ## Records (R139 to R156) -/

/-- DATA IN, with its data timer started (R172). -/
theorem await_ldc_awake {n loaded : Nat} {clamped : Bool} (h : Awake s t) : Awake s (t.await (.ldc n loaded clamped)) :=
  ⟨⟨h.line, fun _ => ⟨rfl, fun _ e => by cases e⟩⟩, h.released⟩

/-- DATA OUT, with its data timer started and the chosen key offered (R152, R172). -/
theorem await_swp_awake {w : Sweep} (h : Awake s t) (hk : w.offered = some k) (last : w.offered = w.last) :
    Awake s (t.await (.swp w)) := by
  refine ⟨⟨h.line, fun _ => ⟨rfl, fun v e => ?_⟩⟩, h.released⟩
  cases e
  exact ⟨hk ▸ rfl, last⟩

theorem loadCells_awake (h : Awake s t) : Awake s (loadCells p t) :=
  .ite (complete_awake h) (.ite (complete_awake h) (await_ldc_awake h))

theorem loadRecord_awake {y : Payload} (h : Awake s t) : Awake s (loadRecord k y t) :=
  (loadRecord_follows k y t).awake (h.same rfl)

theorem deliverRecord_awake {n loaded : Nat} {clamped : Bool} (h : Awake s t) :
    Awake s (deliverRecord p n loaded clamped t) := by
  unfold deliverRecord
  exact .ite (complete_awake h) (.ite (complete_awake h) (.ite (complete_awake h)
    (.ite (await_ldc_awake (loadRecord_awake h)) (complete_awake (loadRecord_awake h)))))

theorem takeData_awake (h : Awake s t) : Awake s (takeData p t) := by
  unfold takeData
  split
  · exact deliverRecord_awake h
  · exact h

theorem returnRecord_awake (h : Awake s t) : Awake s (returnRecord k t) := complete_awake (readState_awake h)

theorem queryCell_awake (h : Awake s t) : Awake s (queryCell p t) := by
  unfold queryCell queryExact queryNext
  refine .ite (.ite (returnRecord_awake h) (complete_awake h)) (.ite ?_ (complete_awake h))
  split
  · exact returnRecord_awake h
  · exact complete_awake h

theorem patchRecord_awake {f : PatchField} {v : Nat} (h : Awake s t) : Awake s (patchRecord k f v t) := by
  unfold patchRecord
  refine .ite (complete_awake h) ?_
  dsimp only
  split
  · exact complete_awake (readState_awake h)
  · exact complete_awake (reviewBound_awake (writePayload_awake (readState_awake h)))

theorem patchCell_awake (h : Awake s t) : Awake s (patchCell p t) := by
  unfold patchCell
  split
  · exact complete_awake h
  · exact .ite (complete_awake h) (patchRecord_awake h)

theorem mergeRecord_awake {add : Bool} {a b : SubSet} (h : Awake s t) : Awake s (mergeRecord k add a b t) := by
  unfold mergeRecord
  refine .ite (complete_awake h) ?_
  dsimp only
  split
  · exact complete_awake (readState_awake h)
  · exact complete_awake (refreshMoved_awake (writePayload_awake (readState_awake h)))

theorem mergeCell_awake (h : Awake s t) : Awake s (mergeCell p t) := .ite (complete_awake h) (mergeRecord_awake h)

theorem removeRecord_awake (h : Awake s t) : Awake s (removeRecord k t) := h.same (setCst_duty _ _)

theorem retireCell_awake (h : Awake s t) : Awake s (retireCell p t) := by
  unfold retireCell
  exact .ite (complete_awake h) (.ite (complete_awake h) (complete_awake (removeRecord_awake (readState_awake h))))

theorem chooseNext_awake {w : Sweep} (h : Awake s t) : Awake s (chooseNext w t) := by
  unfold chooseNext
  split
  · exact await_swp_awake h rfl rfl
  · exact complete_awake h

theorem sweep_awake (h : Awake s t) : Awake s (sweep p t) :=
  .ite (complete_awake h) (.ite (complete_awake h) (.ite (complete_awake h) (chooseNext_awake h)))

theorem transferOffered_awake {w : Sweep} (h : Awake s t) : Awake s (transferOffered k w t).1 := by
  have taken : Awake s (if decide (0 < t.refCount k) then readState k t else removeRecord k (readState k t)) :=
    .ite (readState_awake h) (removeRecord_awake (readState_awake h))
  exact .ite (complete_awake taken) (chooseNext_awake taken)

theorem reply_awake {sent after : Nat} {bytes : List Byte} (h : Awake s t) : Awake s (t.reply sent after bytes) :=
  h.same (setLnk_duty _ _)

theorem takeFetch_awake {sent after : Nat} (h : Awake s t) : Awake s (takeFetch sent after t) := by
  unfold takeFetch
  split
  · split
    · exact reply_awake h
    · exact reply_awake h
  · split
    · exact reply_awake (transferOffered_awake h)
    · exact reply_awake h
  · exact reply_awake h

theorem readMisses_awake (h : Awake s t) : Awake s (readMisses p t) := complete_awake (h.same (setCst_duty _ _))

/-! ## Scrubs and the storage status (R163 to R165) -/

theorem scrub_awake (h : Awake s t) (idle : t.cmu.progress = .idle) : Awake s (scrub p t) :=
  setProgress_awake h (by rw [State.dataRequest, idle]) rfl

theorem stepScrub_awake (h : Awake s t) : Awake s (stepScrub t) := by
  unfold stepScrub
  split
  · rename_i scrubbing
    refine .ite ?_ h
    unfold scrubStep
    split
    · exact complete_awake h
    · dsimp only
      split
      · exact setProgress_awake (readState_awake h) (by rw [State.dataRequest, readState_cmu, scrubbing]) rfl
      · exact complete_awake (readState_awake h)
  · exact h

theorem readStatus_awake (h : Awake s t) : Awake s (readStatus p t) := complete_awake (h.same (setCst_duty _ _))

/-! ## Control, timeouts and status (R172, R176, R177, R184 to R187) -/

theorem abortCommand_awake (h : Awake s t) : Awake s (abortCommand p t) := by
  unfold abortCommand
  split
  · exact complete_awake h
  · exact complete_awake h
  · exact complete_awake h
  · exact complete_awake h
  · exact complete_awake (endPriming_awake h)

theorem timeOut_awake (h : Awake s t) : Awake s (timeOut t) := by
  unfold timeOut
  split
  · exact complete_awake h
  · exact complete_awake h
  · exact h

/-- The Command Unit restarted has no command in progress and no data timer (R177). -/
theorem restarted_awake (h : Awake s t) : Awake s (t.setCmu t.cmu.restarted) :=
  ⟨⟨h.line, fun _ => commandWf_of_idle rfl rfl⟩, h.released⟩

theorem restartCommand_awake (h : Awake s t) : Awake s (restartCommand p t) := by
  have settled := settleRecords_awake (restarted_awake h)
  unfold restartCommand restart
  exact complete_awake ((computeAll_awake
    (((mapRows_awake (settled.same (setMot_duty _ _))).same (setCst_duty _ _)).same (setFsc_duty _ _))).setEvu
      fun _ => Events.recomputed_right _)

theorem setEventEnables_awake (h : Awake s t) : Awake s (setEventEnables p t) :=
  complete_awake (h.setEvu fun _ => Events.recomputed_right _)

theorem acknowledge_awake (h : Awake s t) : Awake s (acknowledge p t) :=
  (complete_awake h).setEvu fun _ => Events.recomputed_right _

theorem readChanged_awake (h : Awake s t) : Awake s (readChanged p t) := complete_awake (h.setEvu id)

theorem readRow_awake (h : Awake s t) : Awake s (readRow p t) := by
  unfold readRow
  split
  · exact complete_awake h
  · exact complete_awake (modRow_awake h)

end

end Sys2Proof.Machine
end

section
/-! The settlement of O15: reception, the reset pin, every command and every step. -/

namespace Sys2Proof.Machine

/-! ## Reception (R166, R171, R178) -/

section
variable {s : State} {run : List Byte → State → State}

theorem begun_awake {c : Cmd} (h : s.inReset = false) : Awake s (s.begun c) := (Awake.refl h).same rfl

theorem shifted_awake {n : Nat} (h : s.inReset = false) : Awake s (s.shifted n) := (Awake.refl h).same rfl

theorem discard_awake {t : State} {b : Bool} (h : Awake s t) : Awake s (t.discard b) :=
  raise_awake (h.same (setLnk_duty _ _))

theorem arrive_minding {cls : FrameClass} {low : BitVec 5} {p : List Byte} {x : Byte} {after : Nat}
    {taken : State → State} (h : ∀ {t}, Awake s t → Awake s (taken t)) :
    Minding s (arrive cls low p x after taken s) :=
  arrive_induct (.refl s) (fun released => (discard_awake (shifted_awake released)).toMinding)
    fun released _ => (h (shifted_awake released)).toMinding

theorem takeCommand_minding {code : BitVec 5} {c : Cmd}
    (h : Awake s (s.begun c) → (s.begun c).cmu.progress = .idle → Awake s (run c.payload (s.begun c))) :
    Minding s (takeCommand code c run s) :=
  takeCommand_induct (.refl s) (fun released => (discard_awake (shifted_awake released)).toMinding)
    (fun _ _ => .same rfl) fun released idle => (h (begun_awake released) idle).toMinding

theorem takeAlways_minding {code : BitVec 5} {c : Cmd}
    (h : Awake s (s.begun c) → Awake s (run c.payload (s.begun c))) : Minding s (takeAlways code c run s) :=
  takeAlways_induct (.refl s) (fun released => (discard_awake (shifted_awake released)).toMinding)
    (fun _ _ => .same rfl) fun released => (h (begun_awake released)).toMinding

theorem withLength_awake {n : Nat} {p : List Byte} {t : State} (h : Awake s t) (right : Awake s (run p t)) :
    Awake s (withLength n run p t) :=
  .ite right (complete_awake h)

theorem whenReleased_minding {f : State → State} (h : Awake s s → Awake s (f s)) : Minding s (whenReleased f s) := by
  unfold whenReleased
  split
  · exact .refl s
  · rename_i released
    exact (h (.refl (Bool.eq_false_of_not_eq_true released))).toMinding

/-- An event that acts on a condition. -/
theorem timer_minding {p : State → Prop} [∀ t, Decidable (p t)] {f : State → State} (h : Awake s s → Awake s (f s)) :
    Minding s (whenReleased (fun t => if p t then f t else t) s) :=
  whenReleased_minding fun awake => .ite (h awake) awake

/-- An event of a sensor line: while the reset pin is asserted the level alone is followed (R178). -/
theorem line_minding {q : Prop} [Decidable q] {r : RowId} {l : Line} {f : State → State}
    (h : Awake s (s.lineAt r l) → Awake s (f (s.lineAt r l))) :
    Minding s (if s.inReset ∨ q then s.lineAt r l else f (s.lineAt r l)) := by
  split
  · exact .same (setPins_duty _ _)
  · rename_i acts
    have released : s.inReset = false := Bool.eq_false_of_not_eq_true (not_or.mp acts).1
    exact (h ((Awake.refl released).same (setPins_duty _ _))).toMinding

end

/-! ## The reset pin and time (R119, R157, R178) -/

/-- The pin asserted releases the line and leaves the Command Unit as it was. -/
theorem assertReset_minding (s : State) : Minding s (assertReset s) := by
  rw [assertReset_eq, State.mapRows_rest]
  exact ⟨fun _ => rfl, (commandWf_congr rfl rfl).mpr⟩

theorem Events.powerOn_right : Events.powerOn.right := by
  unfold Events.right
  decide

/-- The pin released gives the Event Unit and the Command Unit their power-on values. -/
theorem releaseReset_minding (s : State) : Minding s (releaseReset s) :=
  ⟨fun _ => (lineWf_iff_right (s := releaseReset s) rfl).mpr Events.powerOn_right, fun _ => commandWf_of_idle rfl rfl⟩

theorem tick_minding (s : State) : Minding s (tick s) := by
  rw [tick_eq, risen_rest]
  exact .same rfl

/-! ## Every command and every step -/

theorem minding_next {s t u : State} (h : Minding s u)
    (e : (Host.Outcome.next u : Host.Outcome State Fault Refusal) = .next t) : Minding s t := by
  cases e
  exact h

/-- Every command keeps the attention line and the Command Unit: each part of its meaning does, and under reset nothing
of them changes. -/
theorem exec_minding {i : Instr} {s t : State} (h : exec i s = .next t) : Minding s t := by
  cases i with
  | powerOnResetAssert => exact minding_next (assertReset_minding s) h
  | powerOnResetRelease => exact minding_next (releaseReset_minding s) h
  | malformedFrame bytes =>
    exact minding_next
      (whenReleased_minding (f := discardMalformed bytes) fun a => discard_awake (a.same (setLnk_duty _ _))) h
  | statusFrame f => exact minding_next (arrive_minding fun a => a) h
  | fixFrame f => exact minding_next (arrive_minding takeFix_awake) h
  | dataFrame f => exact minding_next (arrive_minding takeData_awake) h
  | fetchFrame f after => exact minding_next (arrive_minding takeFetch_awake) h
  | staleTimerExpiry => exact minding_next (timer_minding enterStale_awake) h
  | lostTimerExpiry => exact minding_next (timer_minding enterLost_awake) h
  | groundSpeedPulse => exact minding_next (whenReleased_minding fun a => a.same (setMot_duty _ _)) h
  | speedWindowEnd => exact minding_next (timer_minding closeWindow_awake) h
  | workSwitchLevelChange level =>
    refine minding_next (.same ?_) h
    split
    · exact setPins_duty _ _
    · exact (setMot_duty _ _).trans (setPins_duty _ _)
  | workSwitchChange => exact minding_next (timer_minding takeSwitch_awake) h
  | holeEvent row => exact minding_next (timer_minding holePassed_awake) h
  | sensedSeed row => exact minding_next (line_minding occlusionStarts_awake) h
  | occlusionEnd row => exact minding_next (line_minding occlusionEnds_awake) h
  | occlusionTimerExpiry row => exact minding_next (timer_minding enterStuck_awake) h
  | entryExpiry row => exact minding_next (timer_minding resolveUnseen_awake) h
  | stallTimerExpiry row => exact minding_next (timer_minding enterStall_awake) h
  | syntheticHoleEvent row => exact minding_next (timer_minding synthHole_awake) h
  | syntheticSensedSeed row => exact minding_next (timer_minding dropOldest_awake) h
  | conversionComplete code =>
    refine minding_next (whenReleased_minding fun a => ?_) h
    dsimp only
    split
    · exact a
    · exact startConversion_awake (takeCode_awake a)
  | dataTimeout => exact minding_next (timer_minding timeOut_awake) h
  | scbReadStep => exact minding_next (whenReleased_minding stepScrub_awake) h
  | badCommand code c => exact minding_next (takeCommand_minding fun a _ => complete_awake a) h
  | abrt c => exact minding_next (takeAlways_minding fun a => withLength_awake a (abortCommand_awake a)) h
  | rstr c => exact minding_next (takeAlways_minding fun a => withLength_awake a (restartCommand_awake a)) h
  | seti c => exact minding_next (takeCommand_minding fun a _ => setImplement_awake a) h
  | setrConfigure c | setrRemove c => exact minding_next (takeCommand_minding fun a _ => setRowCommand_awake a) h
  | strtField c | strtShadow c => exact minding_next (takeCommand_minding fun a _ => start_awake a) h
  | prim c => exact minding_next (takeCommand_minding primeMeters_awake) h
  | ldc c => exact minding_next (takeCommand_minding fun a _ => loadCells_awake a) h
  | scb c =>
    exact minding_next (takeCommand_minding fun a idle => withLength_awake a (scrub_awake (p := c.payload) a idle)) h
  | sete c => exact minding_next (takeCommand_minding fun a _ => withLength_awake a (setEnables_awake a)) h
  | setf c => exact minding_next (takeCommand_minding fun a _ => withLength_awake a (setFallback_awake a)) h
  | stop c => exact minding_next (takeCommand_minding fun a _ => withLength_awake a (stopCommand_awake a)) h
  | setl c => exact minding_next (takeCommand_minding fun a _ => withLength_awake a (settleCommand_awake a)) h
  | pchSeedTarget c | pchFertTarget c | pchNoApply c =>
    exact minding_next (takeCommand_minding fun a _ => withLength_awake a (patchCell_awake a)) h
  | mrgAdd c | mrgRemove c =>
    exact minding_next (takeCommand_minding fun a _ => withLength_awake a (mergeCell_awake a)) h
  | qryExact c | qryNext c =>
    exact minding_next (takeCommand_minding fun a _ => withLength_awake a (queryCell_awake a)) h
  | rtc c => exact minding_next (takeCommand_minding fun a _ => withLength_awake a (retireCell_awake a)) h
  | swp c => exact minding_next (takeCommand_minding fun a _ => withLength_awake a (sweep_awake a)) h
  | rms c => exact minding_next (takeCommand_minding fun a _ => withLength_awake a (readMisses_awake a)) h
  | rss c => exact minding_next (takeCommand_minding fun a _ => withLength_awake a (readStatus_awake a)) h
  | eve c => exact minding_next (takeCommand_minding fun a _ => withLength_awake a (setEventEnables_awake a)) h
  | ack c => exact minding_next (takeCommand_minding fun a _ => withLength_awake a (acknowledge_awake a)) h
  | rhc c => exact minding_next (takeCommand_minding fun a _ => withLength_awake a (readChanged_awake a)) h
  | rrw c => exact minding_next (takeCommand_minding fun a _ => withLength_awake a (readRow_awake a)) h
  | idn c | rmo c => exact minding_next (takeCommand_minding fun a _ => withLength_awake a (complete_awake a)) h

/-- Settles O15: every part of every command keeps the line and the Command Unit, and so does a millisecond. -/
theorem attentionAndCommandStateAreKept : Obligations.AttentionAndCommandStateAreKept := by
  have step_minding {s t : State} (h : step s = .next t) : Minding s t :=
    step_keeps (R := Minding s) h (tick_minding s) fun _ _ e => ⟨(exec_minding e).line, (exec_minding e).command⟩
  exact ⟨fun _ _ line h => (step_minding h).line line, fun _ _ command h => (step_minding h).command command⟩

end Sys2Proof.Machine
end

section
/-! The settlements of O29, O40 and O31: the payload reads, the scrub and the commands that only return. -/

namespace Sys2Proof.Machine

/-! ## The outcomes of a payload read (R158, R159) -/

section
variable {k : Key} {s : State} {p : Payload} (hp : s.cst.payload k = some p)
include hp

theorem readState_corrects (hb : p.bits = .oneFlipped) : readState k s = correct k p s := by
  unfold readState
  rw [hp]
  dsimp only
  rw [hb]

theorem readRecord_poisons (hb : p.bits = .twoFlipped) : readRecord k s = poisonRecord k s := by
  unfold readRecord
  rw [hp]
  dsimp only
  rw [hb]

/-- A payload with two bits flipped is gone after the read. -/
theorem readState_payload_lost (hb : p.bits = .twoFlipped) : (readState k s).cst.payload k = none := by
  rw [readState_cst, readRecord_poisons hp hb]
  exact Store.payload_put_self s.cst none (Store.holds_of_payload hp)

/-- A payload that is clean or can be put right is there after the read. -/
theorem readState_payload_kept (hb : p.bits ≠ .twoFlipped) : ∃ q, (readState k s).cst.payload k = some q := by
  cases bits : p.bits with
  | clean => exact ⟨p, (readState_clean hp bits).symm ▸ hp⟩
  | oneFlipped =>
    rw [readState_corrects hp bits]
    exact ⟨_, Store.payload_put_self s.cst (some { p with bits := .clean }) (Store.holds_of_payload hp)⟩
  | twoFlipped => exact absurd bits hb

end

/-- Settles O29, by how the stored bits stand. -/
theorem payloadReads : Obligations.PayloadReads := by
  refine fun k s => ⟨readState_missing, fun p hp => ⟨readState_clean hp, readState_corrects hp, fun lost => ?_⟩⟩
  have follows := readState_follows k s
  rw [readRecord_poisons hp lost] at follows
  exact follows

/-! ## Commands without operands (R180) -/

/-- A command whose payload is to be empty, taken: its meaning, or BAD LENGTH. -/
theorem takeCommand_operandless {code : BitVec 5} {c : Cmd} {run : List Byte → State → State} {s : State}
    (h : s.takes code c) :
    takeCommand code c (withLength 0 run) s =
      if c.payload = [] then run [] (s.begun c) else (s.begun c).complete (.plain .badLength) := by
  rw [takeCommand_taken h]
  split
  · next empty => rw [empty, withLength_right List.length_nil]
  · next operands => rw [withLength_wrong (mt List.length_eq_zero_iff.mp operands)]

/-! ## The read steps of SCB (R164, R165) -/

theorem exec_scbReadStep {s : State} (hr : s.inReset = false) : exec .scbReadStep s = .next (stepScrub s) :=
  congrArg Host.Outcome.next (whenReleased_released hr)

/-- With no scrub in progress there is no read step. -/
theorem stepScrub_of_not_scb {s : State} (h : ∀ position n due, s.cmu.progress ≠ .scb position n due) :
    stepScrub s = s := by
  unfold stepScrub
  split
  · next scrubbing => exact absurd scrubbing (h _ _ _)
  · rfl

section
variable {s : State} {position : Option Key} {n due : Nat} (h : s.cmu.progress = .scb position n due)
include h

theorem stepScrub_early (early : s.now < due) : stepScrub s = s := by
  unfold stepScrub
  rw [h]
  exact if_neg (Nat.not_le.mpr early)

theorem stepScrub_due (passed : due ≤ s.now) : stepScrub s = scrubStep position n s := by
  unfold stepScrub
  rw [h]
  exact if_pos passed

end

/-- A record that a scrub may read next: above its position, held and not poisoned. -/
def Record.scrubbable (position : Option Key) (x : Record) : Prop :=
  aboveKey position x.key = true ∧ x.payload.isSome = true

theorem scrubbable_iff (position : Option Key) (x : Record) :
    (aboveKey position x.key && x.payload.isSome) = true ↔ x.scrubbable position :=
  Bool.and_eq_true_iff

theorem scrubNext_of_smallest {s : State} (o : s.cst.ordered) {position : Option Key} {k : Key}
    (h : s.cst.smallest (Record.scrubbable position) k) : s.scrubNext position = some k :=
  find?_key_of_smallest o (scrubbable_iff position) h

theorem scrubNext_of_none {s : State} {position : Option Key} (h : ∀ x ∈ s.cst.records, ¬ x.scrubbable position) :
    s.scrubNext position = none :=
  find?_key_of_none (scrubbable_iff position) h

/-- A payload written, or a record poisoned, does not count among the records above its key. -/
theorem countP_above_put (c : Store) (k : Key) (p : Option Payload) :
    (c.put k p).records.countP (fun x => k.before x.key && x.payload.isSome) =
      c.records.countP fun x => k.before x.key && x.payload.isSome := by
  unfold Store.put
  rw [List.countP_map]
  refine List.countP_congr fun x _ => ?_
  rw [Function.comp_apply]
  split
  · next same => simp [same, Key.before_irrefl]
  · rfl

/-- The number not yet verified is the same before and after the read that poisons (R165). -/
theorem unverified_readState_lost {k : Key} {s : State} {p : Payload} (hp : s.cst.payload k = some p)
    (lost : p.bits = .twoFlipped) :
    (readState k s).unverified (some k) = s.cst.records.countP fun x => k.before x.key && x.payload.isSome := by
  unfold State.unverified
  rw [readState_cst, readRecord_poisons hp lost]
  exact countP_above_put s.cst k none

section
variable {s : State} {position : Option Key} {n : Nat} {k : Key} {p : Payload}

theorem scrubStep_completes (h : s.scrubNext position = none) :
    scrubStep position n s = s.complete (.counts .ok n 0) := by
  unfold scrubStep
  rw [h]

theorem scrubStep_poisons (h : s.scrubNext position = some k) (hp : s.cst.payload k = some p)
    (lost : p.bits = .twoFlipped) :
    scrubStep position n s =
      (readState k s).complete
        { Completion.counts .poisoned n (s.cst.records.countP fun x => k.before x.key && x.payload.isSome) with
          key := some k } := by
  unfold scrubStep
  rw [h]
  dsimp only
  rw [readState_payload_lost hp lost, unverified_readState_lost hp lost]

theorem scrubStep_verifies (h : s.scrubNext position = some k) (hp : s.cst.payload k = some p)
    (whole : p.bits ≠ .twoFlipped) :
    scrubStep position n s =
      (readState k s).setCmu { s.cmu with progress := .scb (some k) (n + 1) (s.now + 1) } := by
  obtain ⟨q, hq⟩ := readState_payload_kept hp whole
  unfold scrubStep
  rw [h]
  dsimp only
  rw [hq, readState_cmu, readState_now]

end

/-- Settles O40: the command, and then its read step by its moment, the record it finds and how that reads. -/
theorem scrubReadsTheNextRecord : Obligations.ScrubReadsTheNextRecord := by
  refine ⟨fun c s ht => congrArg Host.Outcome.next (takeCommand_operandless ht), fun s hr wf => ?_⟩
  obtain ⟨ordered, -⟩ := wf
  rw [exec_scbReadStep hr]
  refine ⟨fun idle => congrArg Host.Outcome.next (stepScrub_of_not_scb idle), fun position n due scrubbing => ?_⟩
  intro eligible
  refine ⟨fun early => congrArg Host.Outcome.next (stepScrub_early scrubbing early), fun passed done => ?_,
    fun passed k p smallest hp => ?_⟩
  · rw [stepScrub_due scrubbing passed, scrubStep_completes (scrubNext_of_none done)]
  · have found : s.scrubNext position = some k := scrubNext_of_smallest ordered smallest
    intro t
    rw [stepScrub_due scrubbing passed]
    by_cases lost : p.bits = .twoFlipped
    · rw [if_pos lost, scrubStep_poisons found hp lost]
    · rw [if_neg lost, scrubStep_verifies found hp lost]
      rfl

/-! ## IDN, RMS, RSS, RHC and bad command codes (R156, R163, R171, R175, R186) -/

/-- The bytes of the identification record, as R175 has its fields. -/
theorem identification_eq : identification = [0x17, 0x2B, 0xBC, 0x0C, 1, 0x00, 0x04, 32, 8, 13] := by
  decide

/-- The number of rows in a set is that of its members. -/
theorem rowCount_eq (t : RowSet) : rowCount t = (List.range 32).countP fun x => t.getLsbD x := by
  have rows : List.range 32 = rowIds.map Fin.val := by decide
  rw [rows, List.countP_map]
  rfl

/-- Settles O31, by the meaning of each command on an empty payload. -/
theorem operandlessReadsCompleteAtOnce : Obligations.OperandlessReadsCompleteAtOnce := by
  intro c s b finish
  refine ⟨fun ht => ?idn, fun ht => ?rms, fun ht => ?rss, fun ht => ?rhc, fun code _ ht => ?badCommand⟩
  case idn =>
    rw [← identification_eq]
    exact congrArg Host.Outcome.next (takeCommand_operandless ht)
  case rms => exact congrArg Host.Outcome.next (takeCommand_operandless ht)
  case rss => exact congrArg Host.Outcome.next (takeCommand_operandless ht)
  case rhc =>
    rw [← rowCount_eq]
    exact congrArg Host.Outcome.next (takeCommand_operandless ht)
  case badCommand => exact congrArg Host.Outcome.next (takeCommand_taken ht)

end Sys2Proof.Machine
end

section
/-! The settlements of O28 and O35: the status byte, STATUS frames and the replies to FETCH outside a sweep. -/

namespace Sys2Proof.Machine

/-! ## The status byte (R169, R179) -/

/-- Six flags under two zeros are read back bit by bit. -/
theorem getLsbD_sixFlags : ∀ b5 b4 b3 b2 b1 b0 : Bool,
    let x := 0#2 ++ BitVec.ofBool b5 ++ BitVec.ofBool b4 ++ BitVec.ofBool b3 ++ BitVec.ofBool b2 ++ BitVec.ofBool b1
      ++ BitVec.ofBool b0
    x.getLsbD 0 = b0 ∧ x.getLsbD 1 = b1 ∧ x.getLsbD 2 = b2 ∧ x.getLsbD 3 = b3 ∧ x.getLsbD 4 = b4 ∧ x.getLsbD 5 = b5
      ∧ x.getLsbD 6 = false ∧ x.getLsbD 7 = false := by
  decide

/-- The part is READY with valid settings and a configured row (R169). -/
theorem State.ready_iff (s : State) :
    s.ready = true ↔ s.cmu.settingsValid = true ∧ ∃ r, (s.row r).isSome = true := by
  simp only [State.ready, Bool.and_eq_true, decide_eq_true_eq, configuredCount_pos, Option.isSome_iff_ne_none]

/-- DATA REQUEST stands in DATA IN and DATA OUT (R169, R170). -/
theorem State.dataRequest_iff (s : State) :
    s.dataRequest = true ↔
      (∃ n loaded clamped, s.cmu.progress = .ldc n loaded clamped) ∨ ∃ w, s.cmu.progress = .swp w := by
  unfold State.dataRequest
  cases s.cmu.progress <;> simp

/-- Settles O28, bit by bit and then by the meaning of each flag. -/
theorem statusByteCarriesSixFlags : Obligations.StatusByteCarriesSixFlags := by
  intro s b
  obtain ⟨busy, ready, dataRequest, error, attention, rejected, zero6, zero7⟩ :=
    getLsbD_sixFlags s.lnk.rejected s.evu.attention s.cmu.error s.dataRequest s.ready s.busy
  refine ⟨?_, ?_, ?_, error, attention, rejected, zero6, zero7⟩
  · rw [← State.busy_iff, ← busy]
    rfl
  · rw [← State.ready_iff, ← ready]
    rfl
  · rw [← State.dataRequest_iff, ← dataRequest]
    rfl

/-! ## FETCH and STATUS frames (R168, R169, R173) -/

section
variable {s : State} {sent after : Nat}

theorem takeFetch_completion {k : Completion} (idle : s.cmu.progress = .idle) (last : s.cmu.completion = some k) :
    takeFetch sent after s = s.reply sent after (replyFrame 1 k.bytes) := by
  unfold takeFetch
  rw [idle]
  dsimp only
  rw [last]

/-- Before the first completion the reply is NONE. -/
theorem takeFetch_noCompletion (idle : s.cmu.progress = .idle) (absent : s.cmu.completion = none) :
    takeFetch sent after s = s.reply sent after (replyFrame 0 []) := by
  unfold takeFetch
  rw [idle]
  dsimp only
  rw [absent]

/-- While a command other than SWP is in progress the reply is NONE. -/
theorem takeFetch_busy (busy : s.cmu.progress ≠ .idle) (noSweep : ∀ w, s.cmu.progress ≠ .swp w) :
    takeFetch sent after s = s.reply sent after (replyFrame 0 []) := by
  unfold takeFetch
  split
  · next idle => exact absurd idle busy
  · next sweeping => exact absurd sweeping (noSweep _)
  · rfl

end

/-- A FETCH frame, taken, that is answered with a reply shifts it out after the status byte and zeros. -/
theorem exec_fetchFrame_replies {f : Frame} {after : Nat} {s : State} {bytes : List Byte} (h : s.takesFrame .fetch f)
    (reply : takeFetch (3 + f.payload.length) after (s.shifted (3 + f.payload.length + after)) =
      (s.shifted (3 + f.payload.length + after)).reply (3 + f.payload.length) after bytes) :
    exec (.fetchFrame f after) s = .next (s.replied s.statusByte f.payload.length after bytes) := by
  rw [exec_fetchFrame h, reply, reply_eq rfl]
  rfl

/-- A STATUS frame, taken, shifts out the status byte and zeros and does nothing else. -/
theorem exec_statusFrame {f : Frame} {s : State} (h : s.takesFrame .status f) :
    exec (.statusFrame f) s = .next (s.shifted (3 + f.payload.length)) := by
  obtain ⟨released, length, check⟩ := h
  exact congrArg Host.Outcome.next (arrive_taken released length check)

/-- A frame's status byte and the zeros after it, by the length of its payload. -/
theorem shifted_frame (s : State) (n : Nat) :
    s.shifted (3 + n) = { s with lnk := { s.lnk with dataOut := s.statusByte :: List.replicate (2 + n) 0 } } := by
  unfold State.shifted
  rw [show 3 + n - 1 = 2 + n by omega]

/-- Settles O35, by the state of the Command Unit. -/
theorem fetchRepliesWithTheCompletion : Obligations.FetchRepliesWithTheCompletion := by
  constructor
  · intro f after s taken out
    exact ⟨fun idle => ⟨fun k last => exec_fetchFrame_replies taken (takeFetch_completion idle last),
        fun absent => exec_fetchFrame_replies taken (takeFetch_noCompletion idle absent)⟩,
      fun busy noSweep => exec_fetchFrame_replies taken (takeFetch_busy busy noSweep)⟩
  · intro f s taken
    rw [exec_statusFrame taken, shifted_frame]

end Sys2Proof.Machine
end

section
/-! The settlement of O6: the check byte is linear, and no step of it loses a difference. -/

namespace Sys2Proof.Machine

/-! ## The CRC-8 over differences (R167) -/

/-- What the bit shifted out feeds back. -/
def crcFeedback (b : Bool) : Byte :=
  if b then 0x2F else 0

theorem crcFeedback_xor (a b : Bool) : crcFeedback (a ^^ b) = crcFeedback a ^^^ crcFeedback b := by
  cases a <;> cases b <;> rfl

/-- One bit of the CRC-8 is a shift and a feedback. -/
theorem crcBit_eq (r : Byte) (b : Bool) : crcBit r b = r <<< 1 ^^^ crcFeedback (r.msb ^^ b) := by
  unfold crcBit crcFeedback
  cases r.msb <;> cases b <;> simp

/-- One bit of the CRC-8 takes differences to differences, as the shift and the feedback do. -/
theorem crcBit_xor (r q : Byte) (a b : Bool) : crcBit (r ^^^ q) (a ^^ b) = crcBit r a ^^^ crcBit q b := by
  have out : ((r ^^^ q).msb ^^ (a ^^ b)) = ((r.msb ^^ a) ^^ (q.msb ^^ b)) := by
    simp only [BitVec.msb_xor, Bool.xor_assoc, Bool.xor_left_comm]
  rw [crcBit_eq, crcBit_eq, crcBit_eq, out, crcFeedback_xor, BitVec.shiftLeft_xor_distrib]
  ac_rfl

/-- So do the bits of a byte. -/
theorem crcBits_xor (a b : Byte) (l : List Nat) (r q : Byte) :
    l.foldl (fun r i => crcBit r ((a ^^^ b).getLsbD i)) (r ^^^ q) =
      l.foldl (fun r i => crcBit r (a.getLsbD i)) r ^^^ l.foldl (fun r i => crcBit r (b.getLsbD i)) q := by
  induction l generalizing r q with
  | nil => rfl
  | cons i l ih => rw [List.foldl_cons, BitVec.getLsbD_xor, crcBit_xor, ih, List.foldl_cons, List.foldl_cons]

theorem crcByte_xor (r q a b : Byte) : crcByte (r ^^^ q) (a ^^^ b) = crcByte r a ^^^ crcByte q b :=
  crcBits_xor a b _ r q

/-- A difference of two bytes at the same register is a difference after them. -/
theorem crcByte_zero_left : ∀ d : Byte, crcByte 0 d = 0 → d = 0 := by
  decide

/-- A difference of two registers is a difference after the same byte. -/
theorem crcByte_zero_right : ∀ d : Byte, crcByte d 0 = 0 → d = 0 := by
  decide

theorem crcByte_left_injective (b : Byte) : Function.Injective (crcByte · b) := fun r q same => by
  have difference := crcByte_xor r q b b
  rw [show crcByte r b = crcByte q b from same, BitVec.xor_self, BitVec.xor_self] at difference
  exact BitVec.xor_eq_zero_iff.mp (crcByte_zero_right _ difference)

theorem crcByte_right_injective (r : Byte) : Function.Injective (crcByte r) := fun a b same => by
  have difference := crcByte_xor r r a b
  rw [same, BitVec.xor_self, BitVec.xor_self] at difference
  exact BitVec.xor_eq_zero_iff.mp (crcByte_zero_left _ difference)

/-- Different registers stay different through any bytes. -/
theorem crcFold_injective (bs : List Byte) : Function.Injective fun r => bs.foldl crcByte r := by
  induction bs with
  | nil => exact fun _ _ same => same
  | cons b bs ih => exact ih.comp (crcByte_left_injective b)

/-- Settles O6: the differing byte makes the registers differ, and the bytes after it keep them so. -/
theorem checkByteTellsOneByte : Obligations.CheckByteTellsOneByte := by
  intro front back a b different same
  simp only [crc8, List.foldl_append, List.foldl_cons] at same
  exact different (crcByte_right_injective _ (crcFold_injective back same))

end Sys2Proof.Machine
end

section
/-! The settlement of O26: the bytes of quantities, keys and optional keys. -/

namespace Sys2Proof.Machine

/-! ## Quantities byte by byte (R179) -/

theorem getElem?_leBytes {w x : Nat} (h : x < w) (n : Nat) :
    (leBytes w n)[x]? = some (BitVec.ofNat 8 (n / 256 ^ x)) := by
  induction x generalizing w n with
  | zero =>
    obtain ⟨v, rfl⟩ := Nat.exists_eq_add_one.mpr h
    simp [leBytes]
  | succ x ih =>
    obtain ⟨v, rfl⟩ := Nat.exists_eq_add_one.mpr (Nat.zero_lt_of_lt h)
    rw [leBytes, List.getElem?_cons_succ, ih (Nat.lt_of_succ_lt_succ h), Nat.div_div_eq_div_mul, pow_succ']

theorem leNat_eq_sum (bs : List Byte) :
    leNat bs = ((List.range bs.length).map fun x => (bs.getD x 0).toNat * 256 ^ x).sum := by
  induction bs with
  | nil => rfl
  | cons b bs ih =>
    rw [leNat, ih, List.length_cons, List.range_succ_eq_map, List.map_cons, List.sum_cons, List.map_map,
      ← List.sum_map_mul_left]
    simp [Function.comp_def, pow_succ', mul_left_comm]

theorem leNat_lt (bs : List Byte) : leNat bs < 256 ^ bs.length := by
  induction bs with
  | nil => decide
  | cons b bs ih =>
    have := b.isLt
    rw [leNat, List.length_cons, pow_succ]
    omega

/-- Any bytes are those of the quantity they carry. -/
theorem leBytes_leNat (bs : List Byte) : leBytes bs.length (leNat bs) = bs := by
  induction bs with
  | nil => rfl
  | cons b bs ih =>
    have := b.isLt
    have low : BitVec.ofNat 8 (b.toNat + 256 * leNat bs) = b :=
      BitVec.eq_of_toNat_eq (by rw [BitVec.toNat_ofNat]; omega)
    have rest : (b.toNat + 256 * leNat bs) / 256 = leNat bs := by omega
    rw [leNat, List.length_cons, leBytes, low, rest, ih]

/-! ## Two's complement (R179) -/

/-- The sign of a quantity is the most significant bit of its last byte. -/
theorem leNat_sign (bs : List Byte) :
    256 ^ bs.length ≤ 2 * leNat bs ↔ (bs.getLast?.any fun b => b.msb) = true := by
  induction bs with
  | nil => decide
  | cons b bs ih =>
    have := b.isLt
    cases bs with
    | nil =>
      rw [List.getLast?_singleton, Option.any_some, BitVec.msb_eq_decide, decide_eq_true_eq]
      simp only [leNat, List.length_singleton]
      omega
    | cons c cs =>
      rw [List.getLast?_cons_cons, ← ih, leNat, List.length_cons, pow_succ]
      have even : 256 ^ (c :: cs).length = 2 * (128 * 256 ^ cs.length) := by
        rw [List.length_cons, pow_succ]
        omega
      omega

theorem leInt_eq (bs : List Byte) :
    leInt bs = (leNat bs : Int) - if (bs.getLast?.any fun b => b.msb) = true then (256 ^ bs.length : Int) else 0 := by
  unfold leInt
  simp only [← leNat_sign]
  split
  · next low => rw [if_neg (by omega), sub_zero]
  · next high => rw [if_pos (by omega), Nat.cast_pow, Nat.cast_ofNat]

theorem leIntBytes_eq {w : Nat} {i : Int} (low : -(256 ^ w : Int) ≤ 2 * i) (high : 2 * i < (256 ^ w : Int)) :
    leIntBytes w i = leBytes w (if 0 ≤ i then i else i + (256 ^ w : Int)).toNat := by
  have pos : (0 : Int) < 256 ^ w := by positivity
  have wrapped : i % (256 ^ w : Int) = if 0 ≤ i then i else i + 256 ^ w := by
    split
    · exact Int.emod_eq_of_lt (by omega) (by omega)
    · rw [← Int.add_emod_right]
      exact Int.emod_eq_of_lt (by omega) (by omega)
  rw [leIntBytes, Nat.cast_pow, Nat.cast_ofNat, wrapped]

/-- Bytes carry a two's complement quantity in their range. -/
theorem leInt_bounds (bs : List Byte) :
    -(256 ^ bs.length : Nat) ≤ 2 * leInt bs ∧ 2 * leInt bs < (256 ^ bs.length : Nat) := by
  have := leNat_lt bs
  unfold leInt
  split <;> omega

/-- Any bytes are those of the two's complement quantity they carry. -/
theorem leIntBytes_leInt (bs : List Byte) : leIntBytes bs.length (leInt bs) = bs := by
  have := leNat_lt bs
  have carried : leInt bs % (256 ^ bs.length : Nat) = leNat bs := by
    unfold leInt
    split
    · exact Int.emod_eq_of_lt (by omega) (by omega)
    · rw [Int.sub_emod_right]
      exact Int.emod_eq_of_lt (by omega) (by omega)
  rw [leIntBytes, carried, Int.toNat_natCast, leBytes_leNat]

/-! ## Keys (R2, R179) -/

/-- A key at the front is its two coordinates of 2 bytes each. -/
theorem keyAt_append {cx cy rest : List Byte} (hx : cx.length = 2) (hy : cy.length = 2) :
    keyAt (cx ++ cy ++ rest) 0 = ⟨leInt cx, leInt cy⟩ := by
  obtain ⟨xBytes, after⟩ := slice_part (b := cx ++ cy ++ rest) (off := 0) (List.append_assoc cx cy rest) hx
  obtain ⟨yBytes, -⟩ := slice_part after hy
  rw [keyAt, intAt, intAt, xBytes, yBytes]

theorem keyAt_keyBytes {k : Key} (h : k.fits) (rest : List Byte) : keyAt (keyBytes k ++ rest) 0 = k := by
  obtain ⟨cxLow, cxHigh, cyLow, cyHigh⟩ := h
  rw [keyBytes, keyAt_append (length_leIntBytes 2 _) (length_leIntBytes 2 _),
    leInt_leIntBytes (by omega) (by omega), leInt_leIntBytes (by omega) (by omega)]

/-- Four bytes carry a key in its range, and are its bytes. -/
theorem keyBytes_leInt {cx cy : List Byte} (hx : cx.length = 2) (hy : cy.length = 2) :
    Key.fits ⟨leInt cx, leInt cy⟩ ∧ keyBytes ⟨leInt cx, leInt cy⟩ = cx ++ cy := by
  have cxRange := leInt_bounds cx
  have cyRange := leInt_bounds cy
  have cxBytes := leIntBytes_leInt cx
  have cyBytes := leIntBytes_leInt cy
  rw [hx] at cxRange cxBytes
  rw [hy] at cyRange cyBytes
  exact ⟨by unfold Key.fits; dsimp only; omega, by rw [keyBytes, cxBytes, cyBytes]⟩

/-- Settles O26, from the bytes to quantities, to two's complement and to keys. -/
theorem quantitiesReadBack : Obligations.QuantitiesReadBack := by
  refine ⟨fun w n => ⟨length_leBytes w n, fun x h => getElem?_leBytes h n⟩, fun bs => ⟨leNat_eq_sum bs, leInt_eq bs⟩,
    fun w i _ low high => ⟨leIntBytes_eq low high, leInt_leIntBytes (by simpa using low) (by simpa using high)⟩,
    fun w n => leNat_leBytes, leBytes_leNat, fun k rest fits => ⟨rfl, keyAt_keyBytes fits rest⟩,
    fun cx cy rest hx hy => ?_, fun k => ⟨rfl, rfl⟩⟩
  rw [keyAt_append hx hy]
  exact ⟨rfl, keyBytes_leInt hx hy⟩

end Sys2Proof.Machine
end

section
/-! The settlements of O4 and O5: the rows of the link's frames and the bytes of the rows. -/

namespace Sys2Proof

open Machine

/-! ## COMMAND frames and their rows (R180) -/

theorem encodeFrame_of_command {i : Instr} {code : BitVec 5} {c : Cmd} (h : i.command = some (code, c)) :
    encodeFrame i = some (encodeCommand code c) := by
  cases i <;> cases h <;> rfl

/-- A COMMAND frame is one of its class with nothing past its check byte. -/
theorem encodeCommand_eq (code : BitVec 5) (c : Cmd) :
    encodeCommand code c = encodeClass .command ⟨code, c.payload, c.check⟩ 0 :=
  (List.append_nil _).symm

theorem not_isFertTarget_of_isNoApply {p : List Byte} (h : isNoApply p = true) : isFertTarget p = false := by
  have selector : p[4]? = some 2 := eq_of_beq h
  rw [isFertTarget, selector]
  rfl

/-- A code that names no command belongs to BAD_COMMAND. -/
theorem commandRow_unnamed {code : BitVec 5} (h : code ∉ Op.all) (c : Cmd) : commandRow code c = .badCommand code c := by
  simp only [Op.all, List.mem_cons, List.not_mem_nil, or_false, not_or] at h
  simp only [commandRow, h, if_false]

/-- The rows of PCH, told apart by the selector byte. -/
theorem commandRow_pch (c : Cmd) :
    commandRow Op.pch c =
      if isFertTarget c.payload then .pchFertTarget c
      else if isNoApply c.payload then .pchNoApply c else .pchSeedTarget c :=
  rfl

/-- A row is well formed, and is that of a code and its bytes. -/
def Instr.isRowOf (i : Instr) (code : BitVec 5) (c : Cmd) : Prop :=
  wellFormed i = true ∧ i.command = some (code, c)

section
variable {code : BitVec 5} {c : Cmd} (fits : payloadFits c.payload = true)
include fits

/-- The rows of a code with two forms, told apart by an operand byte. -/
theorem isRowOf_ite {named : Bool} {i j : Instr} (hi : wellFormed i = (payloadFits c.payload && named))
    (hj : wellFormed j = (payloadFits c.payload && !named)) (ci : i.command = some (code, c))
    (cj : j.command = some (code, c)) : (if named then i else j).isRowOf code c := by
  cases named with
  | true => exact ⟨by simp [hi, fits], ci⟩
  | false => exact ⟨by simp [hj, fits], cj⟩

theorem isRowOf_pch : (commandRow Op.pch c).isRowOf Op.pch c := by
  rw [commandRow_pch]
  cases fert : isFertTarget c.payload with
  | true => exact ⟨Bool.and_eq_true_iff.mpr ⟨fits, fert⟩, rfl⟩
  | false => exact isRowOf_ite fits (i := .pchNoApply c) (j := .pchSeedTarget c) rfl (by simp [wellFormed, fert]) rfl rfl

/-- The row of a code that names a command. -/
theorem isRowOf_named : ∀ code ∈ Op.all, (commandRow code c).isRowOf code c := by
  simp only [Op.all, List.forall_mem_cons]
  exact ⟨⟨fits, rfl⟩, ⟨fits, rfl⟩, ⟨fits, rfl⟩, ⟨fits, rfl⟩, isRowOf_ite fits rfl rfl rfl rfl, ⟨fits, rfl⟩, ⟨fits, rfl⟩,
    isRowOf_ite fits rfl rfl rfl rfl, ⟨fits, rfl⟩, ⟨fits, rfl⟩, ⟨fits, rfl⟩, ⟨fits, rfl⟩, isRowOf_pch fits,
    isRowOf_ite fits rfl rfl rfl rfl, isRowOf_ite fits rfl rfl rfl rfl, ⟨fits, rfl⟩, ⟨fits, rfl⟩, ⟨fits, rfl⟩, ⟨fits, rfl⟩,
    ⟨fits, rfl⟩, ⟨fits, rfl⟩, ⟨fits, rfl⟩, ⟨fits, rfl⟩, ⟨fits, rfl⟩, ⟨fits, rfl⟩, List.forall_mem_nil _⟩

/-- The row of a code and of the bytes of a payload that fits is well formed, and is of that code and those bytes. -/
theorem commandRow_isRowOf (code : BitVec 5) : (commandRow code c).isRowOf code c := by
  by_cases named : code ∈ Op.all
  · exact isRowOf_named fits code named
  · rw [commandRow_unnamed named]
    exact ⟨Bool.and_eq_true_iff.mpr ⟨fits, decide_eq_true named⟩, rfl⟩

end

/-- A code and its bytes have one row. -/
theorem Instr.isRowOf.row_eq {i : Instr} {code : BitVec 5} {c : Cmd} (h : i.isRowOf code c) : commandRow code c = i := by
  obtain ⟨w, command⟩ := h
  cases i with
  | badCommand code c =>
    cases command
    exact commandRow_unnamed (of_decide_eq_true (Bool.and_eq_true_iff.mp w).2) c
  | setrConfigure c | strtField c | mrgAdd c | qryExact c =>
    cases command
    simp only [wellFormed, Bool.and_eq_true, Bool.not_eq_true'] at w
    obtain ⟨-, other⟩ := w
    exact if_neg (Bool.eq_false_iff.mp other)
  | setrRemove c | strtShadow c | mrgRemove c | qryNext c | pchFertTarget c =>
    cases command
    obtain ⟨-, named⟩ := Bool.and_eq_true_iff.mp w
    exact if_pos named
  | pchNoApply c =>
    cases command
    obtain ⟨-, noApply⟩ := Bool.and_eq_true_iff.mp w
    simp [commandRow_pch, noApply, not_isFertTarget_of_isNoApply noApply]
  | pchSeedTarget c =>
    cases command
    simp only [wellFormed, Bool.and_eq_true, Bool.not_eq_true'] at w
    obtain ⟨⟨-, fert⟩, noApply⟩ := w
    simp [commandRow_pch, fert, noApply]
  | _ => cases command <;> rfl

/-! ## Frames read (R166, R179) -/

/-- A frame that fits its length byte and its class reads as its row. -/
theorem decodeFrame_encodeClass (cls : FrameClass) (f : Frame) (after : Nat) (h : payloadFits f.payload = true)
    (hf : cls = .fix → f.payload.length = 17) (ha : cls = .fetch ∨ after = 0) :
    decodeFrame (encodeClass cls f after) = frameRow cls f.low f.payload f.check after := by
  have sound := encodeClass_sound cls f after h hf ha
  have past : f.payload.length + (after + 1) - (f.payload.length + 1) = after := by omega
  unfold decodeFrame
  rw [sound]
  simp [encodeClass, frameHead, header_class, header_low, lengthByte h, past]

theorem decodeFrame_encodeCommand (code : BitVec 5) {c : Cmd} (h : payloadFits c.payload = true) :
    decodeFrame (encodeCommand code c) = commandRow code c := by
  rw [encodeCommand_eq]
  exact decodeFrame_encodeClass .command ⟨code, c.payload, c.check⟩ 0 h nofun (.inr rfl)

/-- The payload of a well-formed command fits its length byte. -/
theorem payloadFits_of_command {i : Instr} {code : BitVec 5} {c : Cmd} (w : wellFormed i = true)
    (h : i.command = some (code, c)) : payloadFits c.payload = true := by
  cases i <;> cases h <;> simp_all [wellFormed]

/-- Settles O4, by the class of the frame. -/
theorem framesReadBackAsTheirRow : Obligations.FramesReadBackAsTheirRow := by
  intro i bytes w encoded
  cases command : i.command with
  | some x =>
    obtain ⟨code, c⟩ := x
    cases (encodeFrame_of_command command).symm.trans encoded
    rw [decodeFrame_encodeCommand code (payloadFits_of_command w command), Instr.isRowOf.row_eq ⟨w, command⟩]
  | none =>
    cases i with
    | malformedFrame bytes =>
      cases encoded
      exact if_pos w
    | statusFrame f | dataFrame f =>
      cases encoded
      exact decodeFrame_encodeClass _ f 0 w nofun (.inr rfl)
    | fixFrame f =>
      cases encoded
      have length : f.payload.length = 17 := of_decide_eq_true w
      exact decodeFrame_encodeClass _ f 0 (by simp [payloadFits, length]) (fun _ => length) (.inr rfl)
    | fetchFrame f after =>
      cases encoded
      exact decodeFrame_encodeClass _ f after w nofun (.inl rfl)
    | _ => cases command <;> cases encoded

/-! ## Any bytes (R166, R168) -/

/-- A header is its class and its low five bits. -/
theorem header_of_class {hdr : Byte} {cls : FrameClass} (h : FrameClass.ofBits (hdr.extractLsb' 5 3) = some cls) :
    header cls (hdr.extractLsb' 0 5) = hdr := by
  revert hdr
  cases cls <;> decide

/-- A length byte is the number of payload bytes it counts. -/
theorem payload_of_length {len : Byte} {rest : List Byte} (h : len.toNat < rest.length) :
    BitVec.ofNat 8 (rest.take len.toNat).length = len := by
  rw [List.length_take, min_eq_left h.le, BitVec.ofNat_toNat, BitVec.setWidth_eq]

/-- Bytes read as a frame of a class, with a count of bytes past its check byte: what that says of them. -/
structure ReadsAs (bytes : List Byte) (cls : FrameClass) (f : Frame) (after : Nat) : Prop where
  row : decodeFrame bytes = frameRow cls f.low f.payload f.check after
  fits : payloadFits f.payload = true
  fix : cls = .fix → f.payload.length = 17
  past : cls = .fetch ∨ after = 0
  most : after ≤ bytes.length
  bytes : encodeClass cls f 0 = bytes.take (bytes.length - after)

/-- Bytes that are not malformed read as a frame. -/
theorem readsAs_of_sound {bytes : List Byte} (sound : malformed bytes = false) :
    ∃ cls f after, ReadsAs bytes cls f after := by
  match bytes with
  | [] | [_] => cases sound
  | hdr :: len :: rest =>
    cases hcls : FrameClass.ofBits (hdr.extractLsb' 5 3) with
    | none => simp [malformed, hcls] at sound
    | some cls =>
      have read : decodeFrame (hdr :: len :: rest) = frameRow cls (hdr.extractLsb' 0 5) (rest.take len.toNat)
          (rest.getD len.toNat 0) (rest.length - (len.toNat + 1)) := by
        simp only [decodeFrame, sound, hcls, Bool.false_eq_true, if_false]
      simp only [malformed, hcls, Bool.or_eq_false_iff, Bool.and_eq_false_iff, decide_eq_false_iff_not, not_lt,
        ne_eq, not_not] at sound
      obtain ⟨⟨⟨short, enough⟩, past⟩, fix⟩ := sound
      have length : (rest.take len.toNat).length = len.toNat := by rw [List.length_take]; omega
      refine ⟨cls, ⟨hdr.extractLsb' 0 5, rest.take len.toNat, rest.getD len.toNat 0⟩, rest.length - (len.toNat + 1), read,
        decide_eq_true (length.trans_le short), fun e => length.trans (fix.resolve_left (not_not.mpr e)),
        past.imp_right fun few => by omega, ?_, ?_⟩
      · simp only [List.length_cons]
        omega
      · have count : (hdr :: len :: rest).length - (rest.length - (len.toNat + 1)) = len.toNat + 1 + 1 + 1 := by
          simp only [List.length_cons]
          omega
        have check : rest.getD len.toNat 0 = rest[len.toNat] := List.getD_eq_getElem _ _ (by omega)
        rw [count, List.take_succ_cons, List.take_succ_cons, List.take_succ_eq_append_getElem (by omega)]
        simp only [encodeClass, frameHead, header_of_class hcls, payload_of_length (Nat.lt_of_succ_le enough), check,
          List.replicate_zero, List.append_nil, List.cons_append]

/-- The bytes are those of the row they read as; past the check byte of a FETCH frame they are counted alone. -/
def Instr.carries (i : Instr) (bytes : List Byte) : Prop :=
  match i with
  | .fetchFrame f after => after ≤ bytes.length ∧ encodeClass .fetch f 0 = bytes.take (bytes.length - after)
  | i => encodeFrame i = some bytes

theorem carries_of_command {i : Instr} {code : BitVec 5} {c : Cmd} {bytes : List Byte} (h : i.command = some (code, c))
    (hb : encodeCommand code c = bytes) : i.carries bytes := by
  subst hb
  have := encodeFrame_of_command h
  cases i <;> cases h <;> exact this

theorem ReadsAs.encoded {bytes : List Byte} {cls : FrameClass} {f : Frame} {after : Nat} (h : ReadsAs bytes cls f after)
    (all : after = 0) : encodeClass cls f 0 = bytes := by
  rw [h.bytes, all, Nat.sub_zero, List.take_length]

/-- The row that a frame reads as is well formed, and the bytes are its bytes. -/
theorem ReadsAs.sound {bytes : List Byte} {cls : FrameClass} {f : Frame} {after : Nat} (h : ReadsAs bytes cls f after) :
    wellFormed (decodeFrame bytes) = true ∧ (decodeFrame bytes).carries bytes := by
  have all (other : cls ≠ .fetch) := congrArg some (h.encoded (h.past.resolve_left other))
  rw [h.row]
  cases cls with
  | command =>
    obtain ⟨wf, command⟩ := commandRow_isRowOf (c := ⟨f.payload, f.check⟩) h.fits f.low
    exact ⟨wf, carries_of_command command ((encodeCommand_eq _ _).trans (h.encoded (h.past.resolve_left nofun)))⟩
  | data => exact ⟨h.fits, all nofun⟩
  | fetch => exact ⟨h.fits, h.most, h.bytes⟩
  | fix => exact ⟨decide_eq_true (h.fix rfl), all nofun⟩
  | status => exact ⟨h.fits, all nofun⟩

/-- Settles O5, by whether the bytes are malformed. -/
theorem anyBytesReadAsARow : Obligations.AnyBytesReadAsARow := by
  intro bytes
  show wellFormed (decodeFrame bytes) = true ∧ (decodeFrame bytes).carries bytes
  cases sound : malformed bytes with
  | true =>
    have row : decodeFrame bytes = .malformedFrame bytes := if_pos sound
    rw [row]
    exact ⟨sound, rfl⟩
  | false =>
    obtain ⟨cls, f, after, reads⟩ := readsAs_of_sound sound
    exact reads.sound

end Sys2Proof
end

section
/-! The settlements of O7, O8 and O9: frames discarded, commands refused and wrong payload lengths. -/

namespace Sys2Proof.Machine

/-! ## How each command is received (R166, R171, R180) -/

/-- A meaning on the payload completes BAD LENGTH at every length that no form of its command has (R180). -/
def checksLength (code : BitVec 5) (run : List Byte → State → State) : Prop :=
  ∀ lengths, (code, lengths) ∈ commandLengths → ∀ p s, p.length ∉ lengths → run p s = s.complete (.plain .badLength)

/-- The lengths of a code are listed once. -/
theorem lookup_commandLengths : ∀ x ∈ commandLengths, commandLengths.lookup x.1 = some x.2 := by
  decide

/-- Every code with a list of lengths names a command. -/
theorem commandLengths_named : ∀ x ∈ commandLengths, x.1 ∈ Op.all := by
  decide

theorem checksLength_of_lookup {code : BitVec 5} {lengths : List Nat} {run : List Byte → State → State}
    (listed : commandLengths.lookup code = some lengths)
    (h : ∀ p s, p.length ∉ lengths → run p s = s.complete (.plain .badLength)) : checksLength code run := by
  intro others member
  cases listed.symm.trans (lookup_commandLengths _ member)
  exact h

theorem checksLength_withLength {code : BitVec 5} {n : Nat} {run : List Byte → State → State}
    (listed : commandLengths.lookup code = some [n]) : checksLength code (withLength n run) :=
  checksLength_of_lookup listed fun _ _ wrong => withLength_wrong (mt List.mem_singleton.mpr wrong)

theorem checksLength_setImplement : checksLength Op.seti setImplement :=
  checksLength_of_lookup rfl fun _ _ wrong => if_pos (mt List.mem_singleton.mpr wrong)

theorem checksLength_start : checksLength Op.strt start :=
  checksLength_of_lookup rfl fun _ _ wrong => if_pos (mt List.mem_singleton.mpr wrong)

theorem checksLength_primeMeters : checksLength Op.prim primeMeters :=
  checksLength_of_lookup rfl fun _ _ wrong => if_pos (mt List.mem_singleton.mpr wrong)

theorem checksLength_loadCells : checksLength Op.ldc loadCells :=
  checksLength_of_lookup rfl fun _ _ wrong => if_pos (mt List.mem_singleton.mpr wrong)

theorem checksLength_setRowCommand : checksLength Op.setr setRowCommand :=
  checksLength_of_lookup rfl fun p _ wrong => if_pos (by
    simp only [List.mem_cons, List.not_mem_nil, or_false, not_or] at wrong
    simp [setrBadLength, wrong])

/-- A code that names no command has no list of lengths. -/
theorem checksLength_unnamed {code : BitVec 5} (h : code ∉ Op.all) (run : List Byte → State → State) :
    checksLength code run :=
  fun _ member => absurd (commandLengths_named _ member) h

/-- A row of a command code is received as a COMMAND frame of that code with a meaning on the payload: taken in IDLE, and
ABRT and RSTR always (R171). -/
def receives (i : Instr) (code : BitVec 5) (c : Cmd) (run : List Byte → State → State) : Prop :=
  (∀ s, exec i s = .next (takeCommand code c run s))
    ∨ ((code = Op.abrt ∨ code = Op.rstr) ∧ ∀ s, exec i s = .next (takeAlways code c run s))

/-- Every row of a command code is received as its frame, and where it is well formed its meaning checks the length. -/
theorem exec_command {i : Instr} {code : BitVec 5} {c : Cmd} (h : i.command = some (code, c)) :
    ∃ run, receives i code c run ∧ (wellFormed i = true → checksLength code run) := by
  cases i with
  | badCommand code c =>
    cases h
    exact ⟨_, .inl fun _ => rfl, fun w =>
      checksLength_unnamed (of_decide_eq_true (Bool.and_eq_true_iff.mp w).2) _⟩
  | abrt c =>
    cases h
    exact ⟨_, .inr ⟨.inl rfl, fun _ => rfl⟩, fun _ => checksLength_withLength rfl⟩
  | rstr c =>
    cases h
    exact ⟨_, .inr ⟨.inr rfl, fun _ => rfl⟩, fun _ => checksLength_withLength rfl⟩
  | seti c => cases h; exact ⟨_, .inl fun _ => rfl, fun _ => checksLength_setImplement⟩
  | setrConfigure c | setrRemove c => cases h; exact ⟨_, .inl fun _ => rfl, fun _ => checksLength_setRowCommand⟩
  | strtField c | strtShadow c => cases h; exact ⟨_, .inl fun _ => rfl, fun _ => checksLength_start⟩
  | prim c => cases h; exact ⟨_, .inl fun _ => rfl, fun _ => checksLength_primeMeters⟩
  | ldc c => cases h; exact ⟨_, .inl fun _ => rfl, fun _ => checksLength_loadCells⟩
  | _ => cases h <;> exact ⟨_, .inl fun _ => rfl, fun _ => checksLength_withLength rfl⟩

/-- A frame with a length byte of its own arrives as one of its class, whatever its meaning does with the payload. -/
theorem exec_frame {i : Instr} {cls : FrameClass} {f : Frame} {after : Nat} (h : i.frame = some (cls, f, after)) :
    ∃ taken, ∀ s, exec i s = .next (arrive cls f.low f.payload f.check after taken s) := by
  unfold Instr.frame at h
  split at h
  · next code c command =>
    cases h
    obtain ⟨run, received | ⟨-, received⟩, -⟩ := exec_command command
    · exact ⟨_, received⟩
    · exact ⟨_, received⟩
  · split at h <;> cases h <;> exact ⟨_, fun _ => rfl⟩

/-! ## Frames discarded (R166, R167) -/

/-- Settles O7, by the one way every frame arrives. -/
theorem badFramesAreDiscarded : Obligations.BadFramesAreDiscarded := by
  constructor
  · intro i cls f after s frame released bad
    obtain ⟨taken, arrives⟩ := exec_frame frame
    have times : 3 + f.payload.length + after = 3 + (f.payload.length + after) := Nat.add_assoc ..
    rw [arrives, arrive_discarded released bad, times, shifted_frame, Nat.add_assoc 2]
    rfl
  · intro bytes s released _
    exact congrArg Host.Outcome.next (whenReleased_released released)

/-! ## Commands refused, and wrong lengths (R171, R180) -/

/-- Settles O8: ABRT and RSTR with a payload that is not empty are refused as the other commands are. -/
theorem commandsRefusedWhileBusy : Obligations.CommandsRefusedWhileBusy := by
  intro i code c s command released busy right operands
  obtain ⟨run, received | ⟨always, received⟩, -⟩ := exec_command command
  · rw [received, takeCommand_refused released busy right, shifted_frame]
    rfl
  · rw [received, takeAlways_refused released right busy (operands always), shifted_frame]
    rfl

/-- Settles O9, by the length check of each command's meaning. -/
theorem wrongLengthsCompleteBadLength : Obligations.WrongLengthsCompleteBadLength := by
  intro code lengths listed i c s w command takes wrong
  obtain ⟨run, received, checks⟩ := exec_command command
  have taken : exec i s = .next (run c.payload (s.begun c)) := by
    rcases received with received | ⟨-, received⟩
    · rw [received, takeCommand_taken takes]
    · obtain ⟨released, idle, right⟩ := takes
      rw [received, takeAlways_taken released right (.inl idle)]
  rw [taken, checks w lengths listed _ _ wrong]

end Sys2Proof.Machine
end

section
/-! What the shared operations and the events of the field keep of the queue, the clock and the upsets. -/

namespace Sys2Proof.Machine

/-! ## The model's own fields (assumption log, entries 1 and 3) -/

/-- What comes from outside the part, which no command touches: the commands waiting, the clock and the upsets. -/
def State.inputs (s : State) : List Instr × Nat × List (List Upset) :=
  (s.pending, s.now, s.upsets)

theorem inputs_iff (s t : State) :
    t.inputs = s.inputs ↔ t.pending = s.pending ∧ t.now = s.now ∧ t.upsets = s.upsets := by
  simp only [State.inputs, Prod.mk.injEq]

section
variable (s : State)

/-! ### The state's named updates -/

@[simp] theorem setLnk_inputs (x : Link) : (s.setLnk x).inputs = s.inputs := rfl
@[simp] theorem setCmu_inputs (x : Commander) : (s.setCmu x).inputs = s.inputs := rfl
@[simp] theorem setSettings_inputs (x : Settings) : (s.setSettings x).inputs = s.inputs := rfl
@[simp] theorem setCst_inputs (x : Store) : (s.setCst x).inputs = s.inputs := rfl
@[simp] theorem setMot_inputs (x : Motion) : (s.setMot x).inputs = s.inputs := rfl
@[simp] theorem setRen_inputs (x : Engine) : (s.setRen x).inputs = s.inputs := rfl
@[simp] theorem setFsc_inputs (x : Scanner) : (s.setFsc x).inputs = s.inputs := rfl
@[simp] theorem setEvu_inputs (x : Events) : (s.setEvu x).inputs = s.inputs := rfl
@[simp] theorem setPins_inputs (x : Pins) : (s.setPins x).inputs = s.inputs := rfl
@[simp] theorem raise_inputs (k : Kind) : (s.raise k).inputs = s.inputs := rfl
@[simp] theorem raiseHealth_inputs (r : RowId) : (s.raiseHealth r).inputs = s.inputs := rfl
@[simp] theorem complete_inputs (k : Completion) : (s.complete k).inputs = s.inputs := rfl
@[simp] theorem await_inputs (p : Progress) : (s.await p).inputs = s.inputs := rfl
@[simp] theorem setMode_inputs (m : Mode) : (s.setMode m).inputs = s.inputs := rfl
@[simp] theorem setVRef_inputs (v : Nat) : (s.setVRef v).inputs = s.inputs := rfl
@[simp] theorem setRow_inputs (r : RowId) (w : Option Row) : (s.setRow r w).inputs = s.inputs := rfl
@[simp] theorem removeRecord_inputs (k : Key) : (removeRecord k s).inputs = s.inputs := rfl
@[simp] theorem writePayload_inputs (k : Key) (p : Payload) : (writePayload k p s).inputs = s.inputs := rfl
@[simp] theorem reply_inputs (sent after : Nat) (bytes : List Byte) :
    (s.reply sent after bytes).inputs = s.inputs := rfl

/-! ### Rows -/

@[simp] theorem mapRows_inputs (g : RowId → Row → Row) : (s.mapRows g).inputs = s.inputs := setRen_inputs s _

@[simp] theorem modRow_inputs (r : RowId) (f : Row → Row) : (s.modRow r f).inputs = s.inputs := by
  rw [State.modRow_eq_mapRows, mapRows_inputs]

@[simp] theorem modFlight_inputs (r : RowId) (f : Flight → Flight) : (modFlight r f s).inputs = s.inputs :=
  modRow_inputs s r _

@[simp] theorem modFlow_inputs (r : RowId) (f : FlowState → FlowState) : (modFlow r f s).inputs = s.inputs :=
  modRow_inputs s r _

theorem State.follows.inputs {s t : State} (h : s.follows t) : t.inputs = s.inputs :=
  (inputs_iff s t).mpr ⟨h.pending, h.now, h.upsets⟩

@[simp] theorem pass_inputs (x : RowId → Option Pass) : (s.pass x).inputs = s.inputs := (s.pass_follows x).inputs
@[simp] theorem passRow_inputs (x : Pass) (r : RowId) : (passRow x r s).inputs = s.inputs := pass_inputs s _
@[simp] theorem computeAll_inputs : (computeAll s).inputs = s.inputs := pass_inputs s _
@[simp] theorem decideAll_inputs : (decideAll s).inputs = s.inputs := pass_inputs s _
@[simp] theorem reviewLanes_inputs (b : Lanes) : (reviewLanes b s).inputs = s.inputs := pass_inputs s _
@[simp] theorem reviewBound_inputs (k : Key) : (reviewBound k s).inputs = s.inputs := pass_inputs s _
@[simp] theorem refreshMoved_inputs (old : Store) : (refreshMoved old s).inputs = s.inputs := pass_inputs s _

/-! ### The store (R16, R20 to R23, R157 to R161) -/

@[simp] theorem readState_inputs (k : Key) : (readState k s).inputs = s.inputs := by
  rw [(readState_rest k s).1]
  rfl

@[simp] theorem deliver_inputs (k : Key) (f : Payload → Payload) : (deliver k f s).inputs = s.inputs := by
  unfold deliver
  split <;> simp

@[simp] theorem settleRecords_inputs : (settleRecords s).1.inputs = s.inputs := by
  rw [settleRecords_storeOnly s]
  rfl

@[simp] theorem settle_inputs : (settle s).1.inputs = s.inputs := by simp [settle]

@[simp] theorem settleAndDecide_inputs : (settleAndDecide s).1.inputs = s.inputs := by simp [settleAndDecide]

@[simp] theorem offerMisses_inputs (keys : List Key) : (offerMisses keys s).inputs = s.inputs := by
  obtain ⟨m, i, e, n, offered⟩ := offerMisses_eq keys s
  rw [offered]
  rfl

@[simp] theorem freeFirst_inputs (f : State → State) : (freeFirst f s).inputs = (f s).inputs := by
  obtain ⟨k, n, chosen⟩ := freeFirst_eq f s
  rw [chosen]
  rfl

@[simp] theorem readForRow_inputs (r : RowId) : (readForRow r s).inputs = s.inputs := by
  rw [readForRow_rest]
  rfl

@[simp] theorem readForRows_inputs : (forRows readForRow s).inputs = s.inputs :=
  forRows_field State.inputs (fun r t => readForRow_inputs t r) s

/-! ### Priming (R94 to R99) -/

@[simp] theorem endPriming_inputs (rows : RowSet) : (endPriming rows s).inputs = s.inputs := by simp [endPriming]

@[simp] theorem leavePriming_inputs (r : RowId) (b : Bool) : (leavePriming r b s).inputs = s.inputs := by
  unfold leavePriming
  split <;> simp [apply_ite State.inputs]

@[simp] theorem primingHole_inputs (r : RowId) : (primingHole r s).inputs = s.inputs := by
  unfold primingHole
  split
  · rfl
  · split <;> simp [apply_ite State.inputs]

@[simp] theorem primingStall_inputs (r : RowId) : (primingStall r s).inputs = s.inputs := by
  unfold primingStall
  split <;> simp [apply_ite State.inputs]

/-! ### Seed flight (R103 to R120) -/

@[simp] theorem noteMatched_inputs (r : RowId) : (noteMatched r s).inputs = s.inputs := by
  unfold noteMatched
  split <;> simp [apply_ite State.inputs]

@[simp] theorem noteSkip_inputs (r : RowId) : (noteSkip r s).inputs = s.inputs := by
  unfold noteSkip
  split <;> simp [apply_ite State.inputs]

@[simp] theorem dropOldest_inputs (r : RowId) : (dropOldest r s).inputs = s.inputs := modFlight_inputs s r _

@[simp] theorem creditEntry_inputs (e : Entry) (c : Sub → SeedCredit) : (creditEntry e c s).inputs = s.inputs := by
  unfold creditEntry
  split
  · rfl
  · exact deliver_inputs s _ _

@[simp] theorem resolveMatched_inputs (r : RowId) : (resolveMatched r s).inputs = s.inputs := by
  unfold resolveMatched
  split <;> simp

@[simp] theorem resolveSkip_inputs (r : RowId) : (resolveSkip r s).inputs = s.inputs := by
  unfold resolveSkip
  split <;> simp

@[simp] theorem resolveUnseen_inputs (r : RowId) : (resolveUnseen r s).inputs = s.inputs := by
  simp [resolveUnseen, apply_ite State.inputs]

@[simp] theorem holeSeen_inputs (r : RowId) : (holeSeen r s).inputs = s.inputs := by
  unfold holeSeen
  split <;> simp [apply_ite State.inputs]

theorem overflow_inputs {resolve : State → State} (h : (resolve s).inputs = s.inputs) (r : RowId) :
    (overflow resolve r s).inputs = s.inputs := by
  unfold overflow
  split <;> simp [apply_ite State.inputs, h]

@[simp] theorem joinEntry_inputs (r : RowId) (f : State → Row → Option (Key × Sub)) :
    (joinEntry r f s).inputs = s.inputs := modRow_inputs s r _

@[simp] theorem holePassed_inputs (r : RowId) : (holePassed r s).inputs = s.inputs := by
  unfold holePassed
  dsimp only
  split <;> simp [overflow_inputs]

@[simp] theorem extraSeed_inputs (r : RowId) : (extraSeed r s).inputs = s.inputs := by
  unfold extraSeed
  dsimp only
  split
  · exact modFlight_inputs s r _
  · split <;> simp [creditSeed]

@[simp] theorem seedSensed_inputs (r : RowId) : (seedSensed r s).inputs = s.inputs := by
  simp [seedSensed, apply_ite State.inputs]

@[simp] theorem occlusionStarts_inputs (r : RowId) : (occlusionStarts r s).inputs = s.inputs := by
  simp [occlusionStarts, apply_ite State.inputs]

@[simp] theorem occlusionEnds_inputs (r : RowId) : (occlusionEnds r s).inputs = s.inputs := by
  simp [occlusionEnds, apply_ite State.inputs]

@[simp] theorem enterStuck_inputs (r : RowId) : (enterStuck r s).inputs = s.inputs := by
  simp [enterStuck, apply_ite State.inputs]

@[simp] theorem enterStall_inputs (r : RowId) : (enterStall r s).inputs = s.inputs := by
  simp [enterStall, apply_ite State.inputs]

@[simp] theorem synthHole_inputs (r : RowId) : (synthHole r s).inputs = s.inputs := by
  simp [synthHole, overflow_inputs]

/-! ### The Flow Scanner (R122 to R135) -/

@[simp] theorem startConversion_inputs (r : Option RowId) : (startConversion r s).inputs = s.inputs := by
  unfold startConversion
  split <;> simp

@[simp] theorem restartScan_inputs : (restartScan s).inputs = s.inputs := startConversion_inputs s _

@[simp] theorem endRun_inputs : (endRun s).inputs = s.inputs := by simp [endRun]

@[simp] theorem flowStep_inputs (r : RowId) (code : AdcCode) : (flowStep r code s).inputs = s.inputs := by
  unfold flowStep
  split <;> simp

@[simp] theorem faultStep_inputs (r : RowId) (code : AdcCode) : (faultStep r code s).inputs = s.inputs := by
  unfold faultStep
  split <;> simp [apply_ite State.inputs]

@[simp] theorem deliverVolume_inputs (r : RowId) (v : Nat) : (deliverVolume r v s).inputs = s.inputs := by
  unfold deliverVolume
  split <;> simp [creditFert]

@[simp] theorem creditStep_inputs (r : RowId) (code : AdcCode) : (creditStep r code s).inputs = s.inputs := by
  unfold creditStep
  dsimp only
  rw [modFlow_inputs]
  split
  · split <;> simp
  · rfl

@[simp] theorem noFlowStep_inputs (r : RowId) (code : AdcCode) : (noFlowStep r code s).inputs = s.inputs := by
  unfold noFlowStep
  split <;> simp [apply_ite State.inputs]

@[simp] theorem trimStep_inputs (r : RowId) (code : AdcCode) : (trimStep r code s).inputs = s.inputs := by
  unfold trimStep
  split
  · rfl
  · split <;> simp [apply_ite State.inputs]

@[simp] theorem takeCode_inputs (r : RowId) (code : AdcCode) : (takeCode r code s).inputs = s.inputs := by
  simp [takeCode]

/-! ### Motion (R28 to R46) -/

@[simp] theorem speedSample_inputs (v : Nat) : (speedSample v s).inputs = s.inputs := by simp [speedSample]

@[simp] theorem testSilence_inputs : (testSilence s).inputs = s.inputs := by
  simp [testSilence, apply_ite State.inputs]

@[simp] theorem testFallback_inputs : (testFallback s).inputs = s.inputs := by
  simp [testFallback, apply_ite State.inputs]

@[simp] theorem rowFixUpdate_inputs (f : Fix) : (rowFixUpdate f s).inputs = s.inputs := by simp [rowFixUpdate]

@[simp] theorem takeFix_inputs (f : Fix) : (takeFix f s).inputs = s.inputs := by
  simp [takeFix, acceptFix, apply_ite State.inputs]

@[simp] theorem enterLost_inputs : (enterLost s).inputs = s.inputs := by simp [enterLost]

@[simp] theorem returnTest_inputs : (returnTest s).inputs = s.inputs := by
  simp [returnTest, apply_ite State.inputs]

@[simp] theorem windowSample_inputs (was : SpeedSource) : (windowSample was s).inputs = s.inputs := by
  simp [windowSample, apply_ite State.inputs]

@[simp] theorem closeWindow_inputs : (closeWindow s).inputs = s.inputs := by
  simp [closeWindow, apply_ite State.inputs]

@[simp] theorem takeSwitch_inputs : (takeSwitch s).inputs = s.inputs := by
  simp [takeSwitch, apply_ite State.inputs]

end

end Sys2Proof.Machine
end

section
/-! What every command keeps of the queue, the clock and the upsets, and the settlement of O3. -/

namespace Sys2Proof.Machine

section
variable (s : State) (p : List Byte)

/-! ## SETI, SETR, SETE and SETF (R46 to R62, R174) -/

@[simp] theorem cellSideChanged_inputs : (cellSideChanged s).inputs = s.inputs := by simp [cellSideChanged]

@[simp] theorem fallbackSample_inputs : (fallbackSample s).inputs = s.inputs := by
  unfold fallbackSample
  split <;> simp

@[simp] theorem speedSourceChanged_inputs : (speedSourceChanged s).inputs = s.inputs := by
  unfold speedSourceChanged
  split <;> simp [apply_ite State.inputs]

@[simp] theorem fallbackChanged_inputs : (fallbackChanged s).inputs = s.inputs := by
  simp [fallbackChanged, apply_ite State.inputs]

@[simp] theorem lostLimitChanged_inputs : (lostLimitChanged s).inputs = s.inputs := by
  unfold lostLimitChanged
  split <;> simp

@[simp] theorem applySettings_inputs (new : Settings) : (applySettings new s).inputs = s.inputs := by
  simp [applySettings, onChange, apply_ite State.inputs]

@[simp] theorem setImplement_inputs : (setImplement p s).inputs = s.inputs := by
  rcases setImplement_cases s p with ⟨k, e⟩ | ⟨-, new, e⟩ <;> simp [e]

@[simp] theorem configureRow_inputs (r : RowId) (c : RowContext) : (configureRow r c s).inputs = s.inputs := by
  simp [configureRow, apply_ite State.inputs]

@[simp] theorem removeRow_inputs (r : RowId) : (removeRow r s).inputs = s.inputs := by simp [removeRow]

@[simp] theorem setRowCommand_inputs : (setRowCommand p s).inputs = s.inputs := by
  unfold setRowCommand
  split
  · rfl
  split
  · rfl
  · split <;> simp [apply_ite State.inputs]

@[simp] theorem setEnables_inputs : (setEnables p s).inputs = s.inputs := by
  simp [setEnables, apply_ite State.inputs]

@[simp] theorem setFallback_inputs : (setFallback p s).inputs = s.inputs := by simp [setFallback]

/-! ## Modes, priming and settles (R25, R80 to R83, R94, R95) -/

@[simp] theorem start_inputs : (start p s).inputs = s.inputs := by
  simp [start, startField, startRun, startShadow, apply_ite State.inputs]

@[simp] theorem stopCommand_inputs : (stopCommand p s).inputs = s.inputs := by
  simp [stopCommand, stopRun, apply_ite State.inputs]

@[simp] theorem primeMeters_inputs : (primeMeters p s).inputs = s.inputs := by
  simp [primeMeters, startPriming, apply_ite State.inputs]

@[simp] theorem settleCommand_inputs : (settleCommand p s).inputs = s.inputs := by simp [settleCommand]

/-! ## Records (R139 to R156) -/

@[simp] theorem loadCells_inputs : (loadCells p s).inputs = s.inputs := by
  simp [loadCells, apply_ite State.inputs]

@[simp] theorem loadRecord_inputs (k : Key) (y : Payload) : (loadRecord k y s).inputs = s.inputs :=
  (loadRecord_follows k y s).inputs

@[simp] theorem takeData_inputs : (takeData p s).inputs = s.inputs := by
  unfold takeData
  split <;> simp [deliverRecord, apply_ite State.inputs]

@[simp] theorem returnRecord_inputs (k : Key) : (returnRecord k s).inputs = s.inputs := by simp [returnRecord]

@[simp] theorem queryNext_inputs (k : Key) : (queryNext k s).inputs = s.inputs := by
  unfold queryNext
  split <;> simp

@[simp] theorem queryCell_inputs : (queryCell p s).inputs = s.inputs := by
  simp [queryCell, queryExact, apply_ite State.inputs]

@[simp] theorem patchRecord_inputs (k : Key) (f : PatchField) (v : Nat) : (patchRecord k f v s).inputs = s.inputs := by
  unfold patchRecord
  split
  · rfl
  · dsimp only
    split <;> simp

@[simp] theorem patchCell_inputs : (patchCell p s).inputs = s.inputs := by
  unfold patchCell
  split <;> simp [apply_ite State.inputs]

@[simp] theorem mergeRecord_inputs (k : Key) (add : Bool) (a b : SubSet) :
    (mergeRecord k add a b s).inputs = s.inputs := by
  unfold mergeRecord
  split
  · rfl
  · dsimp only
    split <;> simp

@[simp] theorem mergeCell_inputs : (mergeCell p s).inputs = s.inputs := by
  simp [mergeCell, apply_ite State.inputs]

@[simp] theorem retireCell_inputs : (retireCell p s).inputs = s.inputs := by
  simp [retireCell, apply_ite State.inputs]

@[simp] theorem endSweep_inputs (c : Code) (w : Sweep) : (endSweep c w s).inputs = s.inputs := complete_inputs s _

@[simp] theorem chooseNext_inputs (w : Sweep) : (chooseNext w s).inputs = s.inputs := by
  unfold chooseNext
  split <;> simp

@[simp] theorem sweep_inputs : (sweep p s).inputs = s.inputs := by
  simp [sweep, apply_ite State.inputs]

@[simp] theorem transferOffered_inputs (k : Key) (w : Sweep) : (transferOffered k w s).1.inputs = s.inputs := by
  simp [transferOffered, apply_ite State.inputs]

@[simp] theorem takeFetch_inputs (sent after : Nat) : (takeFetch sent after s).inputs = s.inputs := by
  unfold takeFetch
  split
  · split <;> simp
  · split <;> simp
  · rfl

@[simp] theorem readMisses_inputs : (readMisses p s).inputs = s.inputs := by simp [readMisses]

/-! ## Scrubs, control and status (R163 to R165, R172, R176, R177, R184 to R187) -/

@[simp] theorem scrubStep_inputs (position : Option Key) (n : Nat) : (scrubStep position n s).inputs = s.inputs := by
  unfold scrubStep
  split
  · rfl
  · dsimp only
    split <;> simp

@[simp] theorem stepScrub_inputs : (stepScrub s).inputs = s.inputs := by
  unfold stepScrub
  split <;> simp [apply_ite State.inputs]

@[simp] theorem readStatus_inputs : (readStatus p s).inputs = s.inputs := by simp [readStatus]

@[simp] theorem abortCommand_inputs : (abortCommand p s).inputs = s.inputs := by
  unfold abortCommand
  split <;> simp

@[simp] theorem timeOut_inputs : (timeOut s).inputs = s.inputs := by
  unfold timeOut
  split <;> simp

@[simp] theorem restartCommand_inputs : (restartCommand p s).inputs = s.inputs := by
  simp [restartCommand, restart]

@[simp] theorem setEventEnables_inputs : (setEventEnables p s).inputs = s.inputs := by simp [setEventEnables]

@[simp] theorem acknowledge_inputs : (acknowledge p s).inputs = s.inputs := by simp [acknowledge]

@[simp] theorem readChanged_inputs : (readChanged p s).inputs = s.inputs := by simp [readChanged]

@[simp] theorem readRow_inputs : (readRow p s).inputs = s.inputs := by
  unfold readRow
  split <;> simp

/-! ## The reset pin (R178) -/

theorem assertReset_inputs : (assertReset s).inputs = s.inputs := by
  rw [assertReset_eq, State.mapRows_rest]
  rfl

end

/-! ## Reception (R166, R171, R178) -/

section
variable {s : State} {run : List Byte → State → State}

theorem arrive_inputs {cls : FrameClass} {low : BitVec 5} {p : List Byte} {x : Byte} {after : Nat}
    {taken : State → State} (h : ∀ t, (taken t).inputs = t.inputs) :
    (arrive cls low p x after taken s).inputs = s.inputs :=
  arrive_induct (P := fun t => t.inputs = s.inputs) rfl (fun _ => rfl) fun _ _ => h _

theorem takeCommand_inputs {code : BitVec 5} {c : Cmd} (h : ∀ p t, (run p t).inputs = t.inputs) :
    (takeCommand code c run s).inputs = s.inputs :=
  takeCommand_induct (P := fun t => t.inputs = s.inputs) rfl (fun _ => rfl) (fun _ _ => rfl) fun _ _ => h _ _

theorem takeAlways_inputs {code : BitVec 5} {c : Cmd} (h : ∀ p t, (run p t).inputs = t.inputs) :
    (takeAlways code c run s).inputs = s.inputs :=
  takeAlways_induct (P := fun t => t.inputs = s.inputs) rfl (fun _ => rfl) (fun _ _ => rfl) fun _ => h _ _

theorem withLength_inputs {n : Nat} (h : ∀ p t, (run p t).inputs = t.inputs) (p : List Byte) (t : State) :
    (withLength n run p t).inputs = t.inputs := by
  simp [withLength, apply_ite State.inputs, h]

theorem whenReleased_inputs {f : State → State} (h : (f s).inputs = s.inputs) :
    (whenReleased f s).inputs = s.inputs := by
  simp [whenReleased, apply_ite State.inputs, h]

/-- An event that acts on a condition. -/
theorem timer_inputs {p : State → Prop} [∀ t, Decidable (p t)] {f : State → State} (h : (f s).inputs = s.inputs) :
    (whenReleased (fun t => if p t then f t else t) s).inputs = s.inputs :=
  whenReleased_inputs (by simp [apply_ite State.inputs, h])

/-- An event of a sensor line, acting or not. -/
theorem line_inputs {p : Prop} [Decidable p] (r : RowId) (l : Line) {f : State → State}
    (h : ∀ t, (f t).inputs = t.inputs) : (if p then s.lineAt r l else f (s.lineAt r l)).inputs = s.inputs := by
  simp [apply_ite State.inputs, h, State.lineAt]

end

/-! ## Every command -/

/-- Every command answers a next state that keeps what comes from outside the part. -/
theorem exec_next_inputs (i : Instr) (s : State) : ∃ t, exec i s = .next t ∧ t.inputs = s.inputs := by
  cases i with
  | powerOnResetAssert => exact ⟨_, rfl, assertReset_inputs s⟩
  | powerOnResetRelease => exact ⟨releaseReset s, rfl, rfl⟩
  | malformedFrame bytes => exact ⟨_, rfl, whenReleased_inputs (f := discardMalformed bytes) rfl⟩
  | statusFrame f => exact ⟨_, rfl, arrive_inputs fun _ => rfl⟩
  | fixFrame f => exact ⟨_, rfl, arrive_inputs fun u => takeFix_inputs u _⟩
  | dataFrame f => exact ⟨_, rfl, arrive_inputs fun u => takeData_inputs u _⟩
  | fetchFrame f after => exact ⟨_, rfl, arrive_inputs fun u => takeFetch_inputs u _ _⟩
  | staleTimerExpiry => exact ⟨_, rfl, timer_inputs (f := enterStale) rfl⟩
  | lostTimerExpiry => exact ⟨_, rfl, timer_inputs (enterLost_inputs s)⟩
  | groundSpeedPulse => exact ⟨_, rfl, whenReleased_inputs (setMot_inputs s _)⟩
  | speedWindowEnd => exact ⟨_, rfl, timer_inputs (closeWindow_inputs s)⟩
  | workSwitchLevelChange level => exact ⟨_, rfl, by split <;> rfl⟩
  | workSwitchChange => exact ⟨_, rfl, timer_inputs (takeSwitch_inputs s)⟩
  | holeEvent row => exact ⟨_, rfl, timer_inputs (holePassed_inputs s row)⟩
  | sensedSeed row => exact ⟨_, rfl, line_inputs row .occluded fun u => occlusionStarts_inputs u row⟩
  | occlusionEnd row => exact ⟨_, rfl, line_inputs row .clear fun u => occlusionEnds_inputs u row⟩
  | occlusionTimerExpiry row => exact ⟨_, rfl, timer_inputs (enterStuck_inputs s row)⟩
  | entryExpiry row => exact ⟨_, rfl, timer_inputs (resolveUnseen_inputs s row)⟩
  | stallTimerExpiry row => exact ⟨_, rfl, timer_inputs (enterStall_inputs s row)⟩
  | syntheticHoleEvent row => exact ⟨_, rfl, timer_inputs (synthHole_inputs s row)⟩
  | syntheticSensedSeed row => exact ⟨_, rfl, timer_inputs (dropOldest_inputs s row)⟩
  | conversionComplete code =>
    refine ⟨_, rfl, whenReleased_inputs ?_⟩
    dsimp only
    split <;> simp
  | dataTimeout => exact ⟨_, rfl, timer_inputs (timeOut_inputs s)⟩
  | scbReadStep => exact ⟨_, rfl, whenReleased_inputs (stepScrub_inputs s)⟩
  | badCommand code c => exact ⟨_, rfl, takeCommand_inputs fun _ u => complete_inputs u _⟩
  | abrt c => exact ⟨_, rfl, takeAlways_inputs (withLength_inputs fun p u => abortCommand_inputs u p)⟩
  | rstr c => exact ⟨_, rfl, takeAlways_inputs (withLength_inputs fun p u => restartCommand_inputs u p)⟩
  | seti c => exact ⟨_, rfl, takeCommand_inputs fun p u => setImplement_inputs u p⟩
  | setrConfigure c | setrRemove c => exact ⟨_, rfl, takeCommand_inputs fun p u => setRowCommand_inputs u p⟩
  | strtField c | strtShadow c => exact ⟨_, rfl, takeCommand_inputs fun p u => start_inputs u p⟩
  | prim c => exact ⟨_, rfl, takeCommand_inputs fun p u => primeMeters_inputs u p⟩
  | ldc c => exact ⟨_, rfl, takeCommand_inputs fun p u => loadCells_inputs u p⟩
  | sete c => exact ⟨_, rfl, takeCommand_inputs (withLength_inputs fun p u => setEnables_inputs u p)⟩
  | setf c => exact ⟨_, rfl, takeCommand_inputs (withLength_inputs fun p u => setFallback_inputs u p)⟩
  | stop c => exact ⟨_, rfl, takeCommand_inputs (withLength_inputs fun p u => stopCommand_inputs u p)⟩
  | setl c => exact ⟨_, rfl, takeCommand_inputs (withLength_inputs fun p u => settleCommand_inputs u p)⟩
  | pchSeedTarget c | pchFertTarget c | pchNoApply c =>
    exact ⟨_, rfl, takeCommand_inputs (withLength_inputs fun p u => patchCell_inputs u p)⟩
  | mrgAdd c | mrgRemove c =>
    exact ⟨_, rfl, takeCommand_inputs (withLength_inputs fun p u => mergeCell_inputs u p)⟩
  | qryExact c | qryNext c =>
    exact ⟨_, rfl, takeCommand_inputs (withLength_inputs fun p u => queryCell_inputs u p)⟩
  | rtc c => exact ⟨_, rfl, takeCommand_inputs (withLength_inputs fun p u => retireCell_inputs u p)⟩
  | swp c => exact ⟨_, rfl, takeCommand_inputs (withLength_inputs fun p u => sweep_inputs u p)⟩
  | rms c => exact ⟨_, rfl, takeCommand_inputs (withLength_inputs fun p u => readMisses_inputs u p)⟩
  | scb c => exact ⟨_, rfl, takeCommand_inputs (withLength_inputs fun _ u => setCmu_inputs u _)⟩
  | rss c => exact ⟨_, rfl, takeCommand_inputs (withLength_inputs fun p u => readStatus_inputs u p)⟩
  | eve c => exact ⟨_, rfl, takeCommand_inputs (withLength_inputs fun p u => setEventEnables_inputs u p)⟩
  | ack c => exact ⟨_, rfl, takeCommand_inputs (withLength_inputs fun p u => acknowledge_inputs u p)⟩
  | rhc c => exact ⟨_, rfl, takeCommand_inputs (withLength_inputs fun p u => readChanged_inputs u p)⟩
  | rrw c => exact ⟨_, rfl, takeCommand_inputs (withLength_inputs fun p u => readRow_inputs u p)⟩
  | idn c | rmo c => exact ⟨_, rfl, takeCommand_inputs (withLength_inputs fun _ u => complete_inputs u _)⟩

/-- Settles O3, by what every command's meaning is composed of. -/
theorem everyCommandAnswersNext : Obligations.EveryCommandAnswersNext := by
  intro i s
  obtain ⟨t, answer, inputs⟩ := exec_next_inputs i s
  exact ⟨t, answer, (inputs_iff s t).mp inputs⟩

end Sys2Proof.Machine
end

section
/-! The settlement of O32: the event sets of EVE and ACK. -/

namespace Sys2Proof.Machine

/-! ## Commands of one payload length (R171, R180) -/

/-- A command of one payload length, taken: its meaning, or BAD LENGTH. -/
theorem takeCommand_withLength {code : BitVec 5} {c : Cmd} {n : Nat} {run : List Byte → State → State} {s : State}
    (h : s.takes code c) :
    takeCommand code c (withLength n run) s =
      if c.payload.length = n then run c.payload (s.begun c) else (s.begun c).complete (.plain .badLength) := by
  rw [takeCommand_taken h]
  split
  · next right => exact withLength_right right
  · next wrong => exact withLength_wrong wrong

/-! ## EVE and ACK (R182 to R185) -/

/-- EVE: the enabled set is the one named, and the attention line follows it before DONE is raised. -/
theorem setEventEnables_eq (p : List Byte) (s : State) :
    setEventEnables p s =
      ({ s with evu :=
          { s.evu with
            enabled := eventSetAt p 0
            attention := decide (s.evu.pending &&& eventSetAt p 0 ≠ 0) } } : State).complete
        (.counts .ok s.evu.enabled.toNat (eventSetAt p 0).toNat) := rfl

/-- ACK: what remains pending after its own DONE has joined the set and the kinds named have left it, with the attention
line following. -/
theorem acknowledge_eq {p : List Byte} {s : State} {remains : EventSet}
    (h : (s.evu.pending ||| 1) &&& ~~~eventSetAt p 0 = remains) :
    acknowledge p s =
      { s.complete (.counts .ok s.evu.pending.toNat remains.toNat) with
        evu :=
          { s.evu with pending := remains, attention := decide (remains &&& s.evu.enabled ≠ 0) } } := by
  subst h
  rfl

/-- Settles O32, by the meaning of each command on a payload of 2 bytes. -/
theorem eventSetsFollowEveAndAck : Obligations.EventSetsFollowEveAndAck := by
  intro c s b named remains
  refine ⟨fun ht => ?eve, fun ht => ?ack⟩
  case eve =>
    refine congrArg Host.Outcome.next ((takeCommand_withLength ht).trans ?_)
    rw [setEventEnables_eq]
    rfl
  case ack =>
    refine congrArg Host.Outcome.next ((takeCommand_withLength ht).trans ?_)
    rw [acknowledge_eq (s := s.begun c) (remains := remains) rfl]
    rfl

end Sys2Proof.Machine
end

section
/-! The settlement of O34: the 44 bytes of the motion snapshot. -/

namespace Sys2Proof.Machine

/-! ## The parts of the motion snapshot (R188) -/

@[simp] theorem length_fixBytes (f : Option Fix) : (fixBytes f).length = 26 := by
  cases f <;> simp [fixBytes]

/-- The motion snapshot in its parts, one after another. -/
theorem motionStatus_parts (s : State) :
    s.motionStatus =
      [s.mot.fixState.byte] ++ (fixBytes s.mot.fix ++ ([s.mot.pulseState.byte] ++ (leBytes 4 s.mot.filtered
        ++ ([s.mot.source.byte] ++ (leBytes 4 s.mot.vRef ++ (leIntBytes 4 s.mot.yawRef
        ++ ([flagByte s.mot.silenceReported] ++ ([SwitchLevel.byte s.mot.switch] ++ [s.cmu.mode.byte])))))))) := by
  unfold State.motionStatus
  simp only [List.append_assoc, List.cons_append, List.nil_append]

/-- Where each part of the motion snapshot stands. -/
theorem motionStatus_slices {s : State} {b : List Byte} (h : s.motionStatus = b) :
    b.length = 44
      ∧ slice b 0 1 = [s.mot.fixState.byte]
      ∧ slice b 1 26 = fixBytes s.mot.fix
      ∧ slice b 27 1 = [s.mot.pulseState.byte]
      ∧ slice b 28 4 = leBytes 4 s.mot.filtered
      ∧ slice b 32 1 = [s.mot.source.byte]
      ∧ slice b 33 4 = leBytes 4 s.mot.vRef
      ∧ slice b 37 4 = leIntBytes 4 s.mot.yawRef
      ∧ slice b 41 1 = [flagByte s.mot.silenceReported]
      ∧ slice b 42 1 = [SwitchLevel.byte s.mot.switch]
      ∧ slice b 43 1 = [s.cmu.mode.byte] := by
  rw [motionStatus_parts] at h
  have length : b.length = 44 := by simp [← h]
  obtain ⟨fixState, rest⟩ := slice_part (off := 0) (n := 1) h.symm rfl
  obtain ⟨fix, rest⟩ := slice_part (n := 26) rest (by simp)
  obtain ⟨pulseState, rest⟩ := slice_part (n := 1) rest rfl
  obtain ⟨filtered, rest⟩ := slice_part (n := 4) rest (by simp)
  obtain ⟨source, rest⟩ := slice_part (n := 1) rest rfl
  obtain ⟨vRef, rest⟩ := slice_part (n := 4) rest (by simp)
  obtain ⟨yawRef, rest⟩ := slice_part (n := 4) rest (by simp)
  obtain ⟨silence, rest⟩ := slice_part (n := 1) rest rfl
  obtain ⟨switch, rest⟩ := slice_part (n := 1) rest rfl
  obtain ⟨mode, -⟩ := slice_part (n := 1) (rest.trans (List.append_nil _).symm) rfl
  exact ⟨length, fixState, fix, pulseState, filtered, source, vRef, yawRef, silence, switch, mode⟩

/-! ## RMO (R188) -/

/-- Settles O34, by the parts of the motion snapshot and the place of each. -/
theorem readMotionReturnsTheSnapshot : Obligations.ReadMotionReturnsTheSnapshot := by
  intro c s ht empty m
  have rmo : exec (.rmo c) s = .next (readMotion [] (s.begun c)) :=
    congrArg Host.Outcome.next ((takeCommand_operandless ht).trans (if_pos empty))
  obtain ⟨length, fixState, fix, pulseState, filtered, source, vRef, yawRef, silence, switch, mode⟩ :=
    motionStatus_slices (s := s) rfl
  refine ⟨s.motionStatus, rmo, length, fixState, fun absent => ?_, fun f found => ?_, pulseState, filtered, source,
    vRef, yawRef, silence, switch, mode⟩
  · rw [fix, absent]
    rfl
  · rw [fix, found]
    rfl

end Sys2Proof.Machine
end

section
/-! The settlement of O1: the command at the front of the queue. -/

namespace Sys2Proof.Machine

/-- The companion of `step_empty`: the front command is taken off the queue before it is executed. -/
theorem step_front {s : State} {c : Instr} {rest : List Instr} (h : s.pending = c :: rest) :
    step s = exec c { s with pending := rest } := by
  unfold step
  rw [h]

/-- Settles O1: taking the front command off the queue gives back the state it was put in front of. -/
theorem stepRunsTheFrontCommand : Obligations.StepRunsTheFrontCommand := fun _ _ =>
  step_front rfl

end Sys2Proof.Machine
end
